-- ==== Sys2Proof/Word.lean ====
section
/-! DEFINITION. The word types of VS_DSP2. The widths n, da, pa, m and g are parameters of the configuration
(00_scope.md R5): a type here has the greatest width its range allows, a register keeps its value in the low bits of
its type, and every computation is made at the configured width (DESIGN CHOICE of form, log 1). -/

namespace Sys2Proof

/-- Room for an n-bit word, n at most 64: the arithmetic registers and the data buses (R5). -/
abbrev Word := BitVec 64

/-- Room for a da-bit data address, da at most 23: the index registers (R5, R26). -/
abbrev DAddr := BitVec 23

/-- Room for a pa-bit program address or program control register, pa at most 20 (R5, R27 to R40). -/
abbrev PAddr := BitVec 20

/-- Room for a g-bit guard register, g at most 16 (R5, R23). -/
abbrev Guard := BitVec 16

/-- Room for the 2n-bit product register P (R6, R25). -/
abbrev Product := BitVec 128

/-- A 32-bit instruction word, for every configuration (R6, R100). -/
abbrev IWord := BitVec 32

/-- The byte in which the memories are kept (log 5). -/
abbrev Byte := BitVec 8

/-- trunc_w of R10: the low w bits of a value, zeros above them. -/
def trunc (w : Nat) {k l : Nat} (v : BitVec k) : BitVec l := (v.setWidth w).setWidth l

/-- A value has no bit at w or above. -/
def fits (w : Nat) {l : Nat} (v : BitVec l) : Prop := trunc w v = v

end Sys2Proof
end

