-- ==== Sys2Proof/Config.lean ====
section
/-! DEFINITION. What an implementation or its platform fixes (00_scope.md R5, R7, R8): the configuration
record, which State carries as plain data and no step writes (log 2), and the free values of the spec
(93_implementation_defined.md section 2), constants without a body. -/

namespace Sys2Proof

/-- The two data address spaces (R48); also the two data buses. -/
inductive Space where
  | x
  | y
  deriving DecidableEq, Repr

/-- What answers at an address (R70). -/
inductive CellKind where
  /-- Plain storage. -/
  | storage
  /-- Storage that the platform marks as aliasing instruction memory (R84). -/
  | shadow
  /-- A peripheral register; the flag says whether a read of it has side effects (R77). -/
  | device (readSideEffects : Bool)
  /-- Nothing answers. -/
  | absent
  deriving DecidableEq, Repr

/-- A run of addresses, both ends included, with one kind of cell. -/
structure Region where
  lo : Nat
  hi : Nat
  kind : CellKind
  deriving DecidableEq, Repr

/-- The cell at an address of a platform map: the first region that holds it; no region is absent (R70). -/
def Region.cellAt : List Region → Nat → CellKind
  | [], _ => .absent
  | r :: rs, a => if r.lo ≤ a ∧ a ≤ r.hi then r.kind else Region.cellAt rs a

/-- ROUNDMODE (R5, R159). -/
inductive RoundMode where
  | truncate
  | round
  | convergent0
  | convergent1
  deriving DecidableEq, Repr

/-- HALT_THIRD (R8, R341): what becomes of the third instruction after a HALT that an interrupt ends. -/
inductive HaltThird where
  | rule
  | executed
  deriving DecidableEq, Repr

/-- NA (R5, R21): how many arithmetic registers exist. -/
inductive ArithCount where
  | four
  | six
  | eight
  deriving DecidableEq, Repr

/-- NI (R5): how many index registers exist. -/
inductive IndexCount where
  | eight
  | sixteen
  deriving DecidableEq, Repr

/-- A source of interrupts in the arbiter's table (R333, D30): the vector it brings, as an offset from 0x20 (R331), and
its own enable. -/
structure Source where
  vector : BitVec 5
  enabled : Bool
  deriving DecidableEq, Repr

/-- ARBITER (R8, R333, D30): where INT_GLOB_EN is, what EN is after reset, and the table of sources. -/
structure Arbiter where
  space : Space
  address : DAddr
  enReset : Bool
  sources : List Source
  /-- Whether a read of INT_GLOB_EN has side effects (R77). -/
  readSideEffects : Bool
  deriving DecidableEq, Repr

/-- The widths of R5, with the ranges and bounds of Table 1.1. -/
structure Widths where
  /-- Data word length. -/
  n : Nat
  /-- Data address length. -/
  da : Nat
  /-- Program address length. -/
  pa : Nat
  /-- Multiplier input width. -/
  m : Nat
  /-- Accumulator guard bits. -/
  g : Nat
  nRange : 8 ≤ n ∧ n ≤ 64
  daRange : 8 ≤ da ∧ da ≤ 23 ∧ da ≤ n
  paRange : 11 ≤ pa ∧ pa ≤ 20 ∧ pa ≤ n
  mRange : 8 ≤ m ∧ m ≤ 64 ∧ m ≤ n
  gRange : g ≤ 16 ∧ g ≤ n
  deriving DecidableEq, Repr

/-- The configuration record: one field for each row of R5 and of R8. -/
structure Config extends Widths where
  na : ArithCount
  ni : IndexCount
  modOnly : Bool
  /-- LOOPHW: the levels of loop hardware, 0 to 8. -/
  loopHw : Fin 9
  /-- AMM (R7): bit 0 the modulo modes, bit 1 bit reversal, bit 2 the reserved mode. -/
  amm : BitVec 3
  /-- A pa-bit word. -/
  modeMask : PAddr
  roundMode : RoundMode
  /-- A pa-bit address. -/
  resetVector : PAddr
  hasIpr : Bool
  encRecon : Bool
  haltThird : HaltThird
  arbiter : Option Arbiter
  xmap : List Region
  ymap : List Region
  imap : List Region
  deriving DecidableEq, Repr

/-- W = 2n + g, the width of an accumulator and of the wide ALU (R6): g guard bits, n high bits, n low bits. -/
abbrev Config.accWidth (c : Config) : Nat := c.g + c.n + c.n

/-- 2n, the width of P (R6, R25): n high bits, n low bits. -/
abbrev Config.productWidth (c : Config) : Nat := c.n + c.n

/-- LOOPHW is at least 1 (R41): LS, LE, LC and the LOOP instruction exist. -/
def Config.hasLoops (c : Config) : Bool := decide (c.loopHw ≠ 0)

/-- The guard registers exist (R23). -/
def Config.hasGuards (c : Config) : Bool := decide (c.g ≠ 0)

/-- The configurations the spec gives a behaviour: m = n (R200), pa at most 18 (R125), eight index registers, no
MODONLY, and at most one level of loop hardware (R4). -/
def Config.supported (c : Config) : Bool :=
  decide (c.m = c.n) && decide (c.pa ≤ 18) && decide (c.ni = .eight) && !c.modOnly && decide (c.loopHw.val ≤ 1)

/-- The whole of a 16-bit address space as storage. -/
def Config.allStorage : List Region := [⟨0, 0xFFFF, .storage⟩]

/-- CFG_VHDL (R5) with the conventions of 95_test_vectors.md for what UM leaves to the chip, no arbiter and
all addresses storage (DESIGN CHOICE, log 2). -/
def Config.vhdl : Config where
  n := 16
  da := 16
  pa := 16
  m := 16
  g := 8
  nRange := by decide
  daRange := by decide
  paRange := by decide
  mRange := by decide
  gRange := by decide
  na := .eight
  ni := .eight
  modOnly := false
  loopHw := 1
  amm := 7
  modeMask := 0x07FF
  roundMode := .truncate
  resetVector := 0x0100
  hasIpr := false
  encRecon := true
  haltThird := .rule
  arbiter := none
  xmap := Config.allStorage
  ymap := Config.allStorage
  imap := Config.allStorage

/-- CFG_FC (R5), the same but for AMM and MODEMASK. -/
def Config.fc : Config := { Config.vhdl with amm := 1, modeMask := 0x077F }

/-- The bits of MR0 and MR1 that exist: MODEMASK (R32) within the defined bits 10 to 0 (R30); log 18. -/
def Config.activeBits (c : Config) : PAddr := c.modeMask &&& 0x007FF

/-- C after ABS, a draw (R160, D21); log 9. -/
opaque Config.absCarry : Nat → Bool

/-- The bus bits above a register narrower than the bus, a draw (R225, R226, D16); log 10. -/
opaque Config.busUpper : Nat → Space → Word

/-- The word read from a device cell, a draw (R70, R71); log 11. -/
opaque Config.deviceRead : Nat → Space → DAddr → Word

/-- EN after a cycle that both receives a request and stores to INT_GLOB_EN: the spec names no winner
(R333); log 12. -/
opaque Config.enableRace : Nat → Bool

end Sys2Proof
end

