-- ==== Sys2Proof/Syntax.lean ====
section
/-! DEFINITION. The instruction set as syntax: registers, operand forms, moves, and Instr with one constructor
for each row of the opcode table (30_encoding.md R100 to R139). -/

namespace Sys2Proof

/-- The n-bit arithmetic registers (R21, Table 7.5). -/
inductive AReg where
  | a0 | a1 | b0 | b1 | c0 | c1 | d0 | d1
  deriving DecidableEq, Repr

/-- The accumulators (R22), which also name the pairs and their guard registers A2, B2, C2, D2 (R23). -/
inductive Acc where
  | a | b | c | d
  deriving DecidableEq, Repr

/-- The pair a register belongs to (R22). -/
def AReg.acc : AReg → Acc
  | .a0 | .a1 => .a
  | .b0 | .b1 => .b
  | .c0 | .c1 => .c
  | .d0 | .d1 => .d

/-- Whether a register is the high half X1 of its pair (R22). -/
def AReg.isHigh : AReg → Bool
  | .a1 | .b1 | .c1 | .d1 => true
  | .a0 | .b0 | .c0 | .d0 => false

/-- The low half X0 of a pair. -/
def Acc.low : Acc → AReg
  | .a => .a0 | .b => .b0 | .c => .c0 | .d => .d0

/-- The high half X1 of a pair. -/
def Acc.high : Acc → AReg
  | .a => .a1 | .b => .b1 | .c => .c1 | .d => .d1

/-- The index registers I0 to I7 (R26). -/
inductive IReg where
  | i0 | i1 | i2 | i3 | i4 | i5 | i6 | i7
  deriving DecidableEq, Repr

/-- The pair register of an index register: its number with the lowest bit inverted (R26). -/
def IReg.pair : IReg → IReg
  | .i0 => .i1 | .i1 => .i0 | .i2 => .i3 | .i3 => .i2
  | .i4 => .i5 | .i5 => .i4 | .i6 => .i7 | .i7 => .i6

/-- An ALU operand (R112, Table 7.4). -/
inductive AOp where
  | reg (r : AReg)
  | null
  | ones
  | p
  | acc (x : Acc)
  deriving DecidableEq, Repr

/-- Whether an operand is one of the wide codes 1011 to 1111 (R112, R150). -/
def AOp.isWide : AOp → Bool
  | .p | .acc _ => true
  | .reg _ | .null | .ones => false

/-- A register of a full move, LDC, LOOP or a register move (R120, Table 7.9). -/
inductive FReg where
  | areg (r : AReg)
  | lr0 | lr1 | mr0 | mr1
  /-- NULL: update index register and flags only. -/
  | null
  | lc | ls | le
  | ireg (r : IReg)
  /-- A2, B2, C2, D2. -/
  | guard (x : Acc)
  /-- The move NOP register: no updates. -/
  | nop
  | ipr0 | ipr1
  deriving DecidableEq, Repr

/-- The conditions of Table 6.1 (R126). -/
inductive Cond where
  | always
  | cs | es | vs | ns | zs | xs | ys | lt | le
  | cc | ec | vc | nc | zc | xc | yc | ge | gt
  deriving DecidableEq, Repr

/-- The signedness of the multiplier operands, Op1 then Op2 (R115, Table 7.6). -/
inductive MulMode where
  | ss | su | us | uu
  deriving DecidableEq, Repr

/-- The post-modification of a memory move (R122): a four-bit signed step, or by the pair register. -/
inductive Post where
  | step (k : BitVec 4)
  | byPair
  deriving DecidableEq, Repr

/-- The store/load bit (R122, Table 7.10). -/
inductive Dir where
  | load
  | store
  deriving DecidableEq, Repr

/-- A full move field `s rrr pppp RRRRRR` (R119). A load to the move NOP register is the move NOP (R133). -/
structure FullMove where
  dir : Dir
  ix : IReg
  post : Post
  reg : FReg
  deriving DecidableEq, Repr

/-- A short move field `s rrr p RRR` (R121); `mod` is p. -/
structure ShortMove where
  dir : Dir
  ix : IReg
  mod : Bool
  reg : AReg
  deriving DecidableEq, Repr

/-- A short move read as a full move: p = 0 as pppp = 0000, p = 1 as pppp = 1000 (R121, R221). -/
def ShortMove.toFull (m : ShortMove) : FullMove :=
  ⟨m.dir, m.ix, if m.mod then .byPair else .step 0, .areg m.reg⟩

/-- The move NOP with given don't-care fields (R133). -/
def FullMove.nopAt (ix : IReg) (post : Post) : FullMove := ⟨.load, ix, post, .nop⟩

/-- The canonical move NOP, field 0x0024 (R133). -/
def FullMove.nop : FullMove := ⟨.load, .i0, .step 0, .nop⟩

/-- Whether a full move is a move NOP (R133): a load to the NOP register. -/
def FullMove.isNop (m : FullMove) : Bool := m.dir = .load ∧ m.reg = .nop

/-- The parallel move field (R118): one full move on a bus, two short moves, or one register move. -/
inductive PMove where
  | full (bus : Space) (m : FullMove)
  | short (x y : ShortMove)
  /-- MVX in the parallel field; class X, no bit pattern (R131). -/
  | reg (src dst : FReg)
  deriving DecidableEq, Repr

/-- The parallel move NOP 0x00024 (R118, R133). -/
def PMove.nop : PMove := .full .x FullMove.nop

/-- JMPI's index update (R127): mm = 00, 01, 11. -/
inductive JmpiStep where
  | none
  | inc
  | dec
  deriving DecidableEq, Repr

/-- The instructions: one constructor for each row of opcode_table.json. Rows whose words are also the words of
another row (the macros of R138, a move that stands alone beside the ALU NOP) are constructors with the same
meaning and the same word; the decoder answers the other row's (R139, log 21). -/
inductive Instr where
  -- ALU arithmetic (40_alu_arithmetic.md)
  | add (op1 op2 : AOp) (res : AReg) (pm : PMove)
  | addc (op1 op2 : AOp) (res : AReg) (pm : PMove)
  | sub (op1 op2 : AOp) (res : AReg) (pm : PMove)
  | subc (op1 op2 : AOp) (res : AReg) (pm : PMove)
  -- ALU logic (41_alu_logic_shift.md)
  | and (op1 op2 : AOp) (res : AReg) (pm : PMove)
  | or (op1 op2 : AOp) (res : AReg) (pm : PMove)
  | xor (op1 op2 : AOp) (res : AReg) (pm : PMove)
  -- macros of ADD, ADDC, XOR (R138)
  | lsl (op : AOp) (res : AReg) (pm : PMove)
  | lslc (op : AOp) (res : AReg) (pm : PMove)
  | not (op : AOp) (res : AReg) (pm : PMove)
  -- single operand
  | abs (op : AOp) (res : AReg) (pm : PMove)
  | asr (op : AOp) (res : AReg) (pm : PMove)
  | lsr (op : AOp) (res : AReg) (pm : PMove)
  | lsrc (op : AOp) (res : AReg) (pm : PMove)
  | nopAlu (pm : PMove)
  -- multiplier (42_multiplier.md)
  | mac (op1 op2 : AReg) (mm : MulMode) (acc : Acc) (pm : PMove)
  | msu (op1 op2 : AReg) (mm : MulMode) (acc : Acc) (pm : PMove)
  | mulss (op1 op2 : AReg) (pm : PMove)
  | mulsu (op1 op2 : AReg) (pm : PMove)
  | mulus (op1 op2 : AReg) (pm : PMove)
  | muluu (op1 op2 : AReg) (pm : PMove)
  | resp (op1 op2 : AReg)
  -- constants
  | ldc (imm : BitVec 23) (reg : FReg)
  /-- The total NOP: LDC to the NOP register; its immediate is don't care. -/
  | nop (imm : BitVec 23)
  -- one full move in the parallel field, beside the ALU NOP
  | ldxPar (ix : IReg) (post : Post) (dst : FReg)
  | ldyPar (ix : IReg) (post : Post) (dst : FReg)
  | stxPar (ix : IReg) (post : Post) (src : FReg)
  | styPar (ix : IReg) (post : Post) (src : FReg)
  -- a short move in the parallel field, beside the ALU NOP and the other bus's short move
  | ldxShort (ix : IReg) (mod : Bool) (dst : AReg) (other : ShortMove)
  | ldyShort (ix : IReg) (mod : Bool) (dst : AReg) (other : ShortMove)
  | stxShort (ix : IReg) (mod : Bool) (src : AReg) (other : ShortMove)
  | styShort (ix : IReg) (mod : Bool) (src : AReg) (other : ShortMove)
  -- the double full move: by its X half, or by its Y half when the X half is the canonical move NOP
  | ldxDbl (ix : IReg) (post : Post) (dst : FReg) (other : FullMove)
  | stxDbl (ix : IReg) (post : Post) (src : FReg) (other : FullMove)
  | ldyDbl (ix : IReg) (post : Post) (dst : FReg)
  | styDbl (ix : IReg) (post : Post) (src : FReg)
  /-- The canonical parallel move NOP, beside the ALU NOP. A parallel move NOP with other bus, index or modification
  fields, don't care but for U-NULL-READ (R77; log 14), is nopAlu with that move. -/
  | nopPar
  -- register moves, class X
  | mvxPar (src dst : FReg)
  | mvxDbl (xsrc xdst ysrc ydst : FReg)
  | mvyDbl (src dst : FReg)
  -- control (44_control.md)
  | jcc (cond : Cond) (addr : BitVec 18)
  | j (addr : BitVec 18)
  | callcc (cond : Cond) (addr : BitVec 18)
  | jmpi (addr : BitVec 18) (step : JmpiStep) (ix : IReg)
  | jrcc (cond : Cond)
  | jr
  /-- JRcc (Op1), class X. -/
  | jrccPage (cond : Cond) (ix : IReg)
  | reti
  /-- RETI (Op1), class X. -/
  | retiPage (ix : IReg)
  | loop (count : FReg) (addr : BitVec 20)
  | halt
  deriving DecidableEq, Repr

end Sys2Proof
end

