-- ==== Sys2Proof/WellFormed.lean ====
section
/-! DEFINITION. Which instructions exist on a configured core: the reserved field values of 30_encoding.md
R134 that the syntax can still spell, and the registers that a configuration lacks (R21, R23, R36, R41). -/

namespace Sys2Proof

/-- A pair exists for the configured NA (R21). -/
def Acc.available (c : Config) : Acc → Bool
  | .a | .b => true
  | .c => c.na ≠ .four
  | .d => c.na = .eight

/-- An arithmetic register exists for the configured NA (R21). -/
def AReg.available (c : Config) (r : AReg) : Bool := r.acc.available c

/-- An ALU operand names existing registers (R112, R134). -/
def AOp.available (c : Config) : AOp → Bool
  | .reg r => r.available c
  | .acc x => x.available c
  | .null | .ones | .p => true

/-- P is available as Op2 only (R112, R134). -/
def AOp.legalOp1 (c : Config) (o : AOp) : Bool := o ≠ .p ∧ o.available c

/-- The result field: an existing register, and an odd code when the operation is wide (R113, R134). -/
def AReg.legalResult (c : Config) (wide : Bool) (r : AReg) : Bool :=
  r.available c && (!wide || r.isHigh)

/-- A move register exists (R120). -/
def FReg.available (c : Config) : FReg → Bool
  | .areg r => r.available c
  | .guard x => x.available c && c.hasGuards
  | .lc | .ls | .le => c.hasLoops
  | .ipr0 | .ipr1 => c.hasIpr
  | .lr0 | .lr1 | .mr0 | .mr1 | .null | .nop | .ireg _ => true

/-- A page register (R36, R37). -/
def FReg.isPage : FReg → Bool
  | .ipr0 | .ipr1 => true
  | _ => false

/-- A legal target of a load, a register move or LDC: IPR0 and IPR1 are none (R134, R224). -/
def FReg.legalTarget (c : Config) (f : FReg) : Bool := f.available c && !f.isPage

/-- A legal source on a bus: IPR0 and IPR1 on the X bus only (R134, R224). -/
def FReg.legalSource (c : Config) (bus : Space) (f : FReg) : Bool :=
  f.available c && (bus = .x || !f.isPage)

/-- The code -8 is the pair register's (R122). -/
def Post.wellFormed : Post → Bool
  | .step k => k ≠ 8
  | .byPair => true

/-- A full move on a bus. -/
def FullMove.wellFormed (c : Config) (bus : Space) (m : FullMove) : Bool :=
  m.post.wellFormed &&
    match m.dir with
    | .load => m.reg.legalTarget c
    | .store => m.reg.legalSource c bus

/-- A short move. -/
def ShortMove.wellFormed (c : Config) (m : ShortMove) : Bool := m.reg.available c

/-- A parallel move field. -/
def PMove.wellFormed (c : Config) : PMove → Bool
  | .full bus m => m.wellFormed c bus
  | .short x y => x.wellFormed c && y.wellFormed c
  | .reg src dst => src.legalSource c .x && dst.legalTarget c

/-- A two-operand ALU instruction (R110, R134). -/
def wellFormedAlu2 (c : Config) (op1 op2 : AOp) (res : AReg) (pm : PMove) : Bool :=
  op1.legalOp1 c && op2.available c && res.legalResult c (op1.isWide || op2.isWide) && pm.wellFormed c

/-- A single-operand ALU instruction (R111, R134). -/
def wellFormedAlu1 (c : Config) (op : AOp) (res : AReg) (pm : PMove) : Bool :=
  op.available c && res.legalResult c op.isWide && pm.wellFormed c

/-- A multiplication (R114, R134). -/
def wellFormedMul (c : Config) (op1 op2 : AReg) (pm : PMove) : Bool :=
  op1.available c && op2.available c && pm.wellFormed c

/-- A register LOOP may take its count from (R130). -/
def FReg.legalCount (c : Config) (f : FReg) : Bool :=
  f.available c && f ≠ .null && f ≠ .nop && !f.isPage

/-- The instructions that are not reserved on the configured core (R134). -/
def Instr.wellFormed (c : Config) : Instr → Bool
  | .add op1 op2 res pm => wellFormedAlu2 c op1 op2 res pm
  | .addc op1 op2 res pm => wellFormedAlu2 c op1 op2 res pm
  | .sub op1 op2 res pm => wellFormedAlu2 c op1 op2 res pm
  | .subc op1 op2 res pm => wellFormedAlu2 c op1 op2 res pm
  | .and op1 op2 res pm => wellFormedAlu2 c op1 op2 res pm
  | .or op1 op2 res pm => wellFormedAlu2 c op1 op2 res pm
  | .xor op1 op2 res pm => wellFormedAlu2 c op1 op2 res pm
  | .lsl op res pm => wellFormedAlu2 c op op res pm
  | .lslc op res pm => wellFormedAlu2 c op op res pm
  | .not op res pm => wellFormedAlu2 c .ones op res pm
  | .abs op res pm => wellFormedAlu1 c op res pm
  | .asr op res pm => wellFormedAlu1 c op res pm
  | .lsr op res pm => wellFormedAlu1 c op res pm
  | .lsrc op res pm => wellFormedAlu1 c op res pm
  | .nopAlu pm => pm.wellFormed c
  | .mac op1 op2 _ acc pm => wellFormedMul c op1 op2 pm && acc.available c
  | .msu op1 op2 _ acc pm => wellFormedMul c op1 op2 pm && acc.available c
  | .mulss op1 op2 pm => wellFormedMul c op1 op2 pm
  | .mulsu op1 op2 pm => wellFormedMul c op1 op2 pm
  | .mulus op1 op2 pm => wellFormedMul c op1 op2 pm
  | .muluu op1 op2 pm => wellFormedMul c op1 op2 pm
  | .resp op1 op2 => op1.available c && op2.available c
  | .ldc _ reg => reg.legalTarget c
  | .nop _ => true
  | .ldxPar ix post dst => FullMove.wellFormed c .x ⟨.load, ix, post, dst⟩
  | .ldyPar ix post dst => FullMove.wellFormed c .y ⟨.load, ix, post, dst⟩
  | .stxPar ix post src => FullMove.wellFormed c .x ⟨.store, ix, post, src⟩
  | .styPar ix post src => FullMove.wellFormed c .y ⟨.store, ix, post, src⟩
  | .ldxShort _ _ dst other => dst.available c && other.wellFormed c
  | .ldyShort _ _ dst other => dst.available c && other.wellFormed c
  | .stxShort _ _ src other => src.available c && other.wellFormed c
  | .styShort _ _ src other => src.available c && other.wellFormed c
  | .ldxDbl ix post dst other => FullMove.wellFormed c .x ⟨.load, ix, post, dst⟩ && other.wellFormed c .y
  | .stxDbl ix post src other => FullMove.wellFormed c .x ⟨.store, ix, post, src⟩ && other.wellFormed c .y
  | .ldyDbl ix post dst => FullMove.wellFormed c .y ⟨.load, ix, post, dst⟩
  | .styDbl ix post src => FullMove.wellFormed c .y ⟨.store, ix, post, src⟩
  | .nopPar => true
  | .mvxPar src dst => src.legalSource c .x && dst.legalTarget c
  | .mvxDbl xsrc xdst ysrc ydst =>
    xsrc.legalSource c .x && xdst.legalTarget c && ysrc.legalSource c .y && ydst.legalTarget c
  | .mvyDbl src dst => src.legalSource c .y && dst.legalTarget c
  | .jcc _ _ => true
  | .j _ => true
  | .callcc _ _ => true
  | .jmpi _ _ _ => true
  | .jrcc _ => true
  | .jr => true
  | .jrccPage _ _ => c.hasIpr
  | .reti => true
  | .retiPage _ => c.hasIpr
  | .loop count _ => c.hasLoops && count.legalCount c
  | .halt => true

end Sys2Proof
end

