-- ==== Sys2Proof/Decode.lean ====
section
/-! DEFINITION. The decoder of 30_encoding.md R102 to R139, total on every 32-bit word, and the encoder written
from the same tables. Field positions of class R are PRESUMED (log 19); class X has no bit pattern (log 20). -/

namespace Sys2Proof

/-- Why a word is no instruction (R134, R101). Each ends the model when the word would execute; safe. -/
inductive DecodeError where
  /-- Operation code 1010 or 1110 (R102). -/
  | reservedOperation
  /-- Control code 0011, 1100, 1110 or 1111 (R104). -/
  | reservedControl
  /-- Single operand code 0101 to 1101 (R111). -/
  | reservedSingle
  /-- ALU operand code 1010 (R112). -/
  | reservedOperand
  /-- Accumulator field of MAC or MSU with an even code (R116). -/
  | reservedResult
  /-- Register code of Table 7.9 without a register (R120). -/
  | reservedRegister
  /-- A condition code that Table 6.1 does not list (R126). -/
  | reservedCondition
  /-- JMPI with mm = 10 (R127). -/
  | reservedStep
  /-- A class X pattern: the positions of the fields are lost (R101, R131, R128). -/
  | lostEncoding
  /-- A class R word on a core whose ENC_RECON is false (R101). -/
  | notConfirmed
  /-- A combination or a register that R134 reserves on the configured core. -/
  | notAvailable
  deriving DecidableEq, Repr

/-! ## Field codes -/

/-- Table 7.5 and Table 7.8 (R114, R121). -/
def AReg.code : AReg → BitVec 3
  | .a0 => 0 | .a1 => 1 | .b0 => 2 | .b1 => 3 | .c0 => 4 | .c1 => 5 | .d0 => 6 | .d1 => 7

def AReg.ofCode (c : BitVec 3) : AReg :=
  match c.toNat with
  | 0 => .a0 | 1 => .a1 | 2 => .b0 | 3 => .b1 | 4 => .c0 | 5 => .c1 | 6 => .d0 | _ => .d1

def IReg.code : IReg → BitVec 3
  | .i0 => 0 | .i1 => 1 | .i2 => 2 | .i3 => 3 | .i4 => 4 | .i5 => 5 | .i6 => 6 | .i7 => 7

def IReg.ofCode (c : BitVec 3) : IReg :=
  match c.toNat with
  | 0 => .i0 | 1 => .i1 | 2 => .i2 | 3 => .i3 | 4 => .i4 | 5 => .i5 | 6 => .i6 | _ => .i7

/-- Table 7.4 (R112). -/
def AOp.code : AOp → BitVec 4
  | .reg r => 0#1 ++ r.code
  | .null => 8
  | .ones => 9
  | .p => 11
  | .acc .a => 12 | .acc .b => 13 | .acc .c => 14 | .acc .d => 15

def AOp.ofCode (c : BitVec 4) : Except DecodeError AOp :=
  match c.toNat with
  | 8 => .ok .null
  | 9 => .ok .ones
  | 10 => .error .reservedOperand
  | 11 => .ok .p
  | 12 => .ok (.acc .a)
  | 13 => .ok (.acc .b)
  | 14 => .ok (.acc .c)
  | 15 => .ok (.acc .d)
  | _ => .ok (.reg (AReg.ofCode (c.extractLsb' 0 3)))

/-- The accumulator field of MAC and MSU: the wide column of Table 7.3 (R113, R116). -/
def Acc.code : Acc → BitVec 3
  | .a => 1 | .b => 3 | .c => 5 | .d => 7

def Acc.ofCode (c : BitVec 3) : Except DecodeError Acc :=
  match c.toNat with
  | 1 => .ok .a | 3 => .ok .b | 5 => .ok .c | 7 => .ok .d
  | _ => .error .reservedResult

/-- Table 7.9 (R120), with eight index registers. -/
def FReg.code : FReg → BitVec 6
  | .areg r => 0#3 ++ r.code
  | .lr0 => 8 | .lr1 => 9 | .mr0 => 10 | .mr1 => 11
  | .null => 12 | .lc => 13 | .ls => 14 | .le => 15
  | .ireg r => 2#3 ++ r.code
  | .guard .a => 32 | .guard .b => 33 | .guard .c => 34 | .guard .d => 35
  | .nop => 36
  | .ipr0 => 62 | .ipr1 => 63

/-- Table 7.9's codes 001xxx. -/
def FReg.ofControlCode (c : BitVec 3) : FReg :=
  match c.toNat with
  | 0 => .lr0 | 1 => .lr1 | 2 => .mr0 | 3 => .mr1 | 4 => .null | 5 => .lc | 6 => .ls | _ => .le

/-- Table 7.9's codes 100xxx (R120): the guard registers and the move NOP. -/
def FReg.ofGuardCode (c : BitVec 3) : Except DecodeError FReg :=
  match c.toNat with
  | 0 => .ok (.guard .a) | 1 => .ok (.guard .b) | 2 => .ok (.guard .c) | 3 => .ok (.guard .d)
  | 4 => .ok .nop
  | _ => .error .reservedRegister

/-- Table 7.9's codes 111xxx (R120): the page registers. -/
def FReg.ofPageCode (c : BitVec 3) : Except DecodeError FReg :=
  match c.toNat with
  | 6 => .ok .ipr0
  | 7 => .ok .ipr1
  | _ => .error .reservedRegister

def FReg.ofCode (c : BitVec 6) : Except DecodeError FReg :=
  match (c.extractLsb' 3 3).toNat with
  | 0 => .ok (.areg (AReg.ofCode (c.extractLsb' 0 3)))
  | 1 => .ok (FReg.ofControlCode (c.extractLsb' 0 3))
  | 2 => .ok (.ireg (IReg.ofCode (c.extractLsb' 0 3)))
  | 4 => FReg.ofGuardCode (c.extractLsb' 0 3)
  | 7 => FReg.ofPageCode (c.extractLsb' 0 3)
  | _ => .error .reservedRegister

/-- Table 6.1 (R126). -/
def Cond.code : Cond → BitVec 6
  | .always => 0
  | .cs => 1 | .es => 2 | .vs => 3 | .ns => 4 | .zs => 5 | .xs => 6 | .ys => 7 | .lt => 8 | .le => 9
  | .cc => 17 | .ec => 18 | .vc => 19 | .nc => 20 | .zc => 21 | .xc => 22 | .yc => 23 | .ge => 24 | .gt => 25

def Cond.ofCode (c : BitVec 6) : Except DecodeError Cond :=
  match c.toNat with
  | 0 => .ok .always
  | 1 => .ok .cs | 2 => .ok .es | 3 => .ok .vs | 4 => .ok .ns | 5 => .ok .zs
  | 6 => .ok .xs | 7 => .ok .ys | 8 => .ok .lt | 9 => .ok .le
  | 17 => .ok .cc | 18 => .ok .ec | 19 => .ok .vc | 20 => .ok .nc | 21 => .ok .zc
  | 22 => .ok .xc | 23 => .ok .yc | 24 => .ok .ge | 25 => .ok .gt
  | _ => .error .reservedCondition

/-- Table 7.6 (R115). -/
def MulMode.code : MulMode → BitVec 2
  | .ss => 0 | .su => 1 | .us => 2 | .uu => 3

def MulMode.ofCode (c : BitVec 2) : MulMode :=
  match c.toNat with
  | 0 => .ss | 1 => .su | 2 => .us | _ => .uu

/-- The field mm of JMPI (R127). -/
def JmpiStep.code : JmpiStep → BitVec 2
  | .none => 0 | .inc => 1 | .dec => 3

def JmpiStep.ofCode (c : BitVec 2) : Except DecodeError JmpiStep :=
  match c.toNat with
  | 0 => .ok .none | 1 => .ok .inc | 3 => .ok .dec
  | _ => .error .reservedStep

/-- The field pppp (R122): 1000 is the pair register's code. -/
def Post.code : Post → BitVec 4
  | .step k => k
  | .byPair => 8

def Post.ofCode (c : BitVec 4) : Post := if c = 8 then .byPair else .step c

def Dir.code : Dir → BitVec 1
  | .load => 0
  | .store => 1

def Dir.ofCode (c : BitVec 1) : Dir := if c = 1 then .store else .load

/-- The bus bit b of the parallel full move (R118). -/
def Space.code : Space → BitVec 1
  | .x => 0
  | .y => 1

def Space.ofCode (c : BitVec 1) : Space := if c = 1 then .y else .x

/-! ## Move fields -/

/-- `s rrr pppp RRRRRR` (R119). -/
def FullMove.code (m : FullMove) : BitVec 14 := m.dir.code ++ m.ix.code ++ m.post.code ++ m.reg.code

def FullMove.ofCode (f : BitVec 14) : Except DecodeError FullMove :=
  match FReg.ofCode (f.extractLsb' 0 6) with
  | .error e => .error e
  | .ok reg =>
    .ok ⟨Dir.ofCode (f.extractLsb' 13 1), IReg.ofCode (f.extractLsb' 10 3), Post.ofCode (f.extractLsb' 6 4), reg⟩

/-- `s rrr p RRR` (R121). -/
def ShortMove.code (m : ShortMove) : BitVec 8 :=
  m.dir.code ++ m.ix.code ++ BitVec.ofBool m.mod ++ m.reg.code

def ShortMove.ofCode (f : BitVec 8) : ShortMove :=
  ⟨Dir.ofCode (f.extractLsb' 7 1), IReg.ofCode (f.extractLsb' 4 3), f.getLsbD 3, AReg.ofCode (f.extractLsb' 0 3)⟩

/-- The parallel move field (R118); the register move has no bit pattern. -/
def PMove.code : PMove → Option (BitVec 17)
  | .full bus m => some (0#2 ++ bus.code ++ m.code)
  | .short x y => some (1#1 ++ x.code ++ y.code)
  | .reg _ _ => none

def PMove.ofCode (f : BitVec 17) : Except DecodeError PMove :=
  match (f.extractLsb' 15 2).toNat with
  | 0 =>
    match FullMove.ofCode (f.extractLsb' 0 14) with
    | .error e => .error e
    | .ok m => .ok (.full (Space.ofCode (f.extractLsb' 14 1)) m)
  | 1 => .error .lostEncoding
  | _ => .ok (.short (ShortMove.ofCode (f.extractLsb' 8 8)) (ShortMove.ofCode (f.extractLsb' 0 8)))

/-! ## Formats -/

/-- Format ALU2 (R110). -/
def decodeAlu2 (mk : AOp → AOp → AReg → PMove → Instr) (w : IWord) : Except DecodeError Instr :=
  match AOp.ofCode (w.extractLsb' 24 4), AOp.ofCode (w.extractLsb' 20 4), PMove.ofCode (w.extractLsb' 0 17) with
  | .ok op1, .ok op2, .ok pm => .ok (mk op1 op2 (AReg.ofCode (w.extractLsb' 17 3)) pm)
  | .error e, _, _ => .error e
  | _, .error e, _ => .error e
  | _, _, .error e => .error e

/-- Format ALU1 (R111). -/
def decodeAlu1 (mk : AOp → AReg → PMove → Instr) (w : IWord) : Except DecodeError Instr :=
  match AOp.ofCode (w.extractLsb' 20 4), PMove.ofCode (w.extractLsb' 0 17) with
  | .ok op, .ok pm => .ok (mk op (AReg.ofCode (w.extractLsb' 17 3)) pm)
  | .error e, _ => .error e
  | _, .error e => .error e

/-- Format MAC (R116). -/
def decodeMac (mk : AReg → AReg → MulMode → Acc → PMove → Instr) (w : IWord) : Except DecodeError Instr :=
  match Acc.ofCode (w.extractLsb' 17 3), PMove.ofCode (w.extractLsb' 0 17) with
  | .ok acc, .ok pm =>
    .ok (mk (AReg.ofCode (w.extractLsb' 25 3)) (AReg.ofCode (w.extractLsb' 20 3))
      (MulMode.ofCode (w.extractLsb' 23 2)) acc pm)
  | .error e, _ => .error e
  | _, .error e => .error e

/-- The instruction of a multiplication's mode field (R115, R203). -/
def MulMode.instr (mm : MulMode) (op1 op2 : AReg) (pm : PMove) : Instr :=
  match mm with
  | .ss => .mulss op1 op2 pm
  | .su => .mulsu op1 op2 pm
  | .us => .mulus op1 op2 pm
  | .uu => .muluu op1 op2 pm

/-- Format MUL (R117): Op2 in bits 22:20, Op1 in bits 19:17. -/
def decodeMul (w : IWord) : Except DecodeError Instr :=
  match PMove.ofCode (w.extractLsb' 0 17) with
  | .error e => .error e
  | .ok pm =>
    .ok ((MulMode.ofCode (w.extractLsb' 23 2)).instr (AReg.ofCode (w.extractLsb' 17 3))
      (AReg.ofCode (w.extractLsb' 20 3)) pm)

/-- The ALU NOP: bits 23:17 are don't care (R111). -/
def decodeAluNop (w : IWord) : Except DecodeError Instr :=
  match PMove.ofCode (w.extractLsb' 0 17) with
  | .error e => .error e
  | .ok pm => .ok (.nopAlu pm)

/-- Operation code 1111 (R111, R117, Table 7.7). -/
def decodeSingle (w : IWord) : Except DecodeError Instr :=
  if w.extractLsb' 25 3 = 7 then decodeMul w
  else
    match (w.extractLsb' 24 4).toNat with
    | 0 => decodeAlu1 .abs w
    | 1 => decodeAlu1 .asr w
    | 2 => decodeAlu1 .lsr w
    | 3 => decodeAlu1 .lsrc w
    | 4 => decodeAluNop w
    | _ => .error .reservedSingle

/-- LDC, and the total NOP when its register is the NOP register (R124, R133). -/
def ldcOrNop (imm : BitVec 23) (reg : FReg) : Instr := if reg = .nop then .nop imm else .ldc imm reg

/-- Format LDC (R124). -/
def decodeLdc (w : IWord) : Except DecodeError Instr :=
  match FReg.ofCode (w.extractLsb' 0 6) with
  | .error e => .error e
  | .ok reg => .ok (ldcOrNop (w.extractLsb' 6 23) reg)

/-- The instruction of a double full move: the row of its X half, or of its Y half when the X half is the canonical move
NOP (R123; log 21). A move NOP with other fields keeps them, for U-NULL-READ (R77; log 14). -/
def doubleMove (x y : FullMove) : Instr :=
  if x = FullMove.nop then
    match y.dir with
    | .load => .ldyDbl y.ix y.post y.reg
    | .store => .styDbl y.ix y.post y.reg
  else
    match x.dir with
    | .load => .ldxDbl x.ix x.post x.reg y
    | .store => .stxDbl x.ix x.post x.reg y

/-- Format DBL (R123): the X move in bits 27:14, the Y move in bits 13:0. -/
def decodeDouble (w : IWord) : Except DecodeError Instr :=
  match FullMove.ofCode (w.extractLsb' 14 14), FullMove.ofCode (w.extractLsb' 0 14) with
  | .ok x, .ok y => .ok (doubleMove x y)
  | .error e, _ => .error e
  | _, .error e => .error e

/-- JRcc without operand: bits 23:6 must be zero (R128). -/
def decodeJr (w : IWord) : Except DecodeError Instr :=
  if w.extractLsb' 6 18 = 0 then
    match Cond.ofCode (w.extractLsb' 0 6) with
    | .error e => .error e
    | .ok c => .ok (.jrcc c)
  else .error .lostEncoding

/-- RETI without operand: bits 23:0 must be zero (R128). -/
def decodeReti (w : IWord) : Except DecodeError Instr :=
  if w.extractLsb' 0 24 = 0 then .ok .reti else .error .lostEncoding

/-- Format RESP (R129): Op2 in bits 22:20, Op1 in bits 19:17, the rest don't care. -/
def decodeResp (w : IWord) : Except DecodeError Instr :=
  .ok (.resp (AReg.ofCode (w.extractLsb' 17 3)) (AReg.ofCode (w.extractLsb' 20 3)))

/-- Format JMP (R125). -/
def decodeJump (mk : Cond → BitVec 18 → Instr) (w : IWord) : Except DecodeError Instr :=
  match Cond.ofCode (w.extractLsb' 0 6) with
  | .error e => .error e
  | .ok c => .ok (mk c (w.extractLsb' 6 18))

/-- Format JMPI (R127): bit 5 is don't care. -/
def decodeJmpi (w : IWord) : Except DecodeError Instr :=
  match JmpiStep.ofCode (w.extractLsb' 3 2) with
  | .error e => .error e
  | .ok step => .ok (.jmpi (w.extractLsb' 6 18) step (IReg.ofCode (w.extractLsb' 0 3)))

/-- Format LOOP (R130). -/
def decodeLoop (w : IWord) : Except DecodeError Instr :=
  match FReg.ofCode (w.extractLsb' 0 6) with
  | .error e => .error e
  | .ok reg => .ok (.loop reg (w.extractLsb' 6 20))

/-- Operation code 0010, by the control code in bits 27:24 (R104). -/
def decodeControl (w : IWord) : Except DecodeError Instr :=
  if w.extractLsb' 26 2 = 1 then decodeLoop w
  else
    match (w.extractLsb' 24 4).toNat with
    | 0 => decodeJr w
    | 1 => decodeReti w
    | 2 => decodeResp w
    | 8 => decodeJump .jcc w
    | 9 => decodeJump .callcc w
    | 10 => decodeJmpi w
    | 11 => .error .lostEncoding
    | 13 => .ok .halt
    | _ => .error .reservedControl

/-- The fields of a word, in the order of R139. -/
def decodeFields (w : IWord) : Except DecodeError Instr :=
  if w.extractLsb' 29 3 = 0 then decodeLdc w
  else
    match (w.extractLsb' 28 4).toNat with
    | 2 => decodeControl w
    | 3 => decodeDouble w
    | 4 => decodeAlu2 .add w
    | 5 => decodeMac .mac w
    | 6 => decodeAlu2 .sub w
    | 7 => decodeMac .msu w
    | 8 => decodeAlu2 .addc w
    | 9 => decodeAlu2 .subc w
    | 11 => decodeAlu2 .and w
    | 12 => decodeAlu2 .or w
    | 13 => decodeAlu2 .xor w
    | 15 => decodeSingle w
    | _ => .error .reservedOperation

/-- A parallel field whose reading needs no class R selector: the move NOP (R101, R247; log 19). -/
def PMove.confirmed : PMove → Bool
  | .full _ m => m.isNop
  | .short _ _ => false
  | .reg _ _ => false

/-- The instructions whose encoding is of class S or D (R101). -/
def Instr.confirmed : Instr → Bool
  | .add _ _ _ pm => pm.confirmed
  | .addc _ _ _ pm => pm.confirmed
  | .sub _ _ _ pm => pm.confirmed
  | .subc _ _ _ pm => pm.confirmed
  | .and _ _ _ pm => pm.confirmed
  | .or _ _ _ pm => pm.confirmed
  | .xor _ _ _ pm => pm.confirmed
  | .lsl _ _ pm => pm.confirmed
  | .lslc _ _ pm => pm.confirmed
  | .not _ _ pm => pm.confirmed
  | .abs _ _ pm => pm.confirmed
  | .asr _ _ pm => pm.confirmed
  | .lsr _ _ pm => pm.confirmed
  | .lsrc _ _ pm => pm.confirmed
  | .nopAlu pm => pm.confirmed
  | .mac _ _ _ _ pm => pm.confirmed
  | .msu _ _ _ _ pm => pm.confirmed
  | .nopPar => true
  | .jcc _ _ => true
  | .j _ => true
  | .callcc _ _ => true
  | .halt => true
  | .mulss _ _ _ | .mulsu _ _ _ | .mulus _ _ _ | .muluu _ _ _ | .resp _ _ => false
  | .ldc _ _ | .nop _ => false
  | .ldxPar _ _ _ | .ldyPar _ _ _ | .stxPar _ _ _ | .styPar _ _ _ => false
  | .ldxShort _ _ _ _ | .ldyShort _ _ _ _ | .stxShort _ _ _ _ | .styShort _ _ _ _ => false
  | .ldxDbl _ _ _ _ | .stxDbl _ _ _ _ | .ldyDbl _ _ _ | .styDbl _ _ _ => false
  | .mvxPar _ _ | .mvxDbl _ _ _ _ | .mvyDbl _ _ => false
  | .jmpi _ _ _ | .jrcc _ | .jr | .jrccPage _ _ | .reti | .retiPage _ | .loop _ _ => false

/-- The decoder of a configured core (R101, R134, R139). -/
def decode (c : Config) (w : IWord) : Except DecodeError Instr :=
  match decodeFields w with
  | .error e => .error e
  | .ok i =>
    if !c.encRecon && !i.confirmed then .error .notConfirmed
    else if i.wellFormed c then .ok i
    else .error .notAvailable

/-- The instruction the decoder reads from a table row's word, on the core of State.reset (Config.vhdl). -/
def decodeTableWord (nbits w : Nat) : Option Instr :=
  if nbits ≤ 32 then
    match decode Config.vhdl (BitVec.ofNat 32 w) with
    | .ok i => some i
    | .error _ => none
  else none

/-! ## The encoder -/

def encodeAlu2 (opc : BitVec 4) (op1 op2 : AOp) (res : AReg) (pm : PMove) : Option IWord :=
  pm.code.map fun p => opc ++ op1.code ++ op2.code ++ res.code ++ p

def encodeAlu1 (sub : BitVec 4) (op : AOp) (res : AReg) (pm : PMove) : Option IWord :=
  pm.code.map fun p => 15#4 ++ sub ++ op.code ++ res.code ++ p

def encodeMac (opc : BitVec 4) (op1 op2 : AReg) (mm : MulMode) (acc : Acc) (pm : PMove) : Option IWord :=
  pm.code.map fun p => opc ++ op1.code ++ mm.code ++ op2.code ++ acc.code ++ p

def encodeMul (mm : MulMode) (op1 op2 : AReg) (pm : PMove) : Option IWord :=
  pm.code.map fun p => 127#7 ++ mm.code ++ op2.code ++ op1.code ++ p

def encodeDouble (x y : FullMove) : IWord := 3#4 ++ x.code ++ y.code

def encodeJump (k : BitVec 8) (c : Cond) (addr : BitVec 18) : IWord := k ++ addr ++ c.code

/-- NOT's operand fields: ONES in Op2, or in Op1 when the operand is P (R184). -/
def encodeNot (op : AOp) (res : AReg) (pm : PMove) : Option IWord :=
  if op = .p then encodeAlu2 13 .ones .p res pm else encodeAlu2 13 op .ones res pm

/-- The canonical word of an instruction, don't-care bits zero; none for class X. -/
def encode : Instr → Option IWord
  | .add op1 op2 res pm => encodeAlu2 4 op1 op2 res pm
  | .addc op1 op2 res pm => encodeAlu2 8 op1 op2 res pm
  | .sub op1 op2 res pm => encodeAlu2 6 op1 op2 res pm
  | .subc op1 op2 res pm => encodeAlu2 9 op1 op2 res pm
  | .and op1 op2 res pm => encodeAlu2 11 op1 op2 res pm
  | .or op1 op2 res pm => encodeAlu2 12 op1 op2 res pm
  | .xor op1 op2 res pm => encodeAlu2 13 op1 op2 res pm
  | .lsl op res pm => encodeAlu2 4 op op res pm
  | .lslc op res pm => encodeAlu2 8 op op res pm
  | .not op res pm => encodeNot op res pm
  | .abs op res pm => encodeAlu1 0 op res pm
  | .asr op res pm => encodeAlu1 1 op res pm
  | .lsr op res pm => encodeAlu1 2 op res pm
  | .lsrc op res pm => encodeAlu1 3 op res pm
  | .nopAlu pm => pm.code.map fun p => 0xF4#8 ++ 0#7 ++ p
  | .mac op1 op2 mm acc pm => encodeMac 5 op1 op2 mm acc pm
  | .msu op1 op2 mm acc pm => encodeMac 7 op1 op2 mm acc pm
  | .mulss op1 op2 pm => encodeMul .ss op1 op2 pm
  | .mulsu op1 op2 pm => encodeMul .su op1 op2 pm
  | .mulus op1 op2 pm => encodeMul .us op1 op2 pm
  | .muluu op1 op2 pm => encodeMul .uu op1 op2 pm
  | .resp op1 op2 => some (0x22#8 ++ 0#1 ++ op2.code ++ op1.code ++ 0#17)
  | .ldc imm reg => some (0#3 ++ imm ++ reg.code)
  | .nop imm => some (0#3 ++ imm ++ FReg.nop.code)
  | .ldxPar ix post dst => (PMove.full .x ⟨.load, ix, post, dst⟩).code.map fun p => 0xF4#8 ++ 0#7 ++ p
  | .ldyPar ix post dst => (PMove.full .y ⟨.load, ix, post, dst⟩).code.map fun p => 0xF4#8 ++ 0#7 ++ p
  | .stxPar ix post src => (PMove.full .x ⟨.store, ix, post, src⟩).code.map fun p => 0xF4#8 ++ 0#7 ++ p
  | .styPar ix post src => (PMove.full .y ⟨.store, ix, post, src⟩).code.map fun p => 0xF4#8 ++ 0#7 ++ p
  | .ldxShort ix mod dst other => (PMove.short ⟨.load, ix, mod, dst⟩ other).code.map fun p => 0xF4#8 ++ 0#7 ++ p
  | .ldyShort ix mod dst other => (PMove.short other ⟨.load, ix, mod, dst⟩).code.map fun p => 0xF4#8 ++ 0#7 ++ p
  | .stxShort ix mod src other => (PMove.short ⟨.store, ix, mod, src⟩ other).code.map fun p => 0xF4#8 ++ 0#7 ++ p
  | .styShort ix mod src other => (PMove.short other ⟨.store, ix, mod, src⟩).code.map fun p => 0xF4#8 ++ 0#7 ++ p
  | .ldxDbl ix post dst other => some (encodeDouble ⟨.load, ix, post, dst⟩ other)
  | .stxDbl ix post src other => some (encodeDouble ⟨.store, ix, post, src⟩ other)
  | .ldyDbl ix post dst => some (encodeDouble FullMove.nop ⟨.load, ix, post, dst⟩)
  | .styDbl ix post src => some (encodeDouble FullMove.nop ⟨.store, ix, post, src⟩)
  | .nopPar => PMove.nop.code.map fun p => 0xF4#8 ++ 0#7 ++ p
  | .mvxPar _ _ => none
  | .mvxDbl _ _ _ _ => none
  | .mvyDbl _ _ => none
  | .jcc cond addr => some (encodeJump 0x28 cond addr)
  | .j addr => some (encodeJump 0x28 .always addr)
  | .callcc cond addr => some (encodeJump 0x29 cond addr)
  | .jmpi addr step ix => some (0x2A#8 ++ addr ++ 0#1 ++ step.code ++ ix.code)
  | .jrcc cond => some (0x20#8 ++ 0#18 ++ cond.code)
  | .jr => some (0x20#8 ++ 0#18 ++ Cond.always.code)
  | .jrccPage _ _ => none
  | .reti => some (0x21#8 ++ 0#24)
  | .retiPage _ => none
  | .loop count addr => some (9#6 ++ addr ++ count.code)
  | .halt => some (0x2D#8 ++ 0#24)

/-- The instruction the decoder answers for a row's word: the macros of R138 expanded, a move that stands alone as the
ALU NOP with that parallel move, a double move by its X half unless that is the canonical move NOP (R139, log 21). -/
def Instr.canonical : Instr → Instr
  | .lsl op res pm => .add op op res pm
  | .lslc op res pm => .addc op op res pm
  | .not op res pm => if op = .p then .xor .ones .p res pm else .xor op .ones res pm
  | .ldc imm reg => ldcOrNop imm reg
  | .ldxPar ix post dst => .nopAlu (.full .x ⟨.load, ix, post, dst⟩)
  | .ldyPar ix post dst => .nopAlu (.full .y ⟨.load, ix, post, dst⟩)
  | .stxPar ix post src => .nopAlu (.full .x ⟨.store, ix, post, src⟩)
  | .styPar ix post src => .nopAlu (.full .y ⟨.store, ix, post, src⟩)
  | .ldxShort ix mod dst other => .nopAlu (.short ⟨.load, ix, mod, dst⟩ other)
  | .ldyShort ix mod dst other => .nopAlu (.short other ⟨.load, ix, mod, dst⟩)
  | .stxShort ix mod src other => .nopAlu (.short ⟨.store, ix, mod, src⟩ other)
  | .styShort ix mod src other => .nopAlu (.short other ⟨.store, ix, mod, src⟩)
  | .ldxDbl ix post dst other => doubleMove ⟨.load, ix, post, dst⟩ other
  | .nopPar => .nopAlu PMove.nop
  | .mvxPar src dst => .nopAlu (.reg src dst)
  | .j addr => .jcc .always addr
  | .jr => .jrcc .always
  | i => i

end Sys2Proof
end

