-- ==== Sys2Proof/Machine/State.lean ====
section
/-! DEFINITION. The state of the machine as plain data (10_state.md R20 to R49, R60), its reset, and the ways a
step can stop. -/

namespace Sys2Proof.Machine

/-- The faults: none, since the core has no exception of any kind and no behaviour is mapped to a fault (R330,
93_implementation_defined.md). -/
inductive Fault where
  deriving DecidableEq, Repr

/-- The refusals: the tags of 93_implementation_defined.md section 1. Each is safe: the model stops where the spec
gives no effect. -/
inductive Refusal where
  /-- An instruction without a meaning in this model; raised by exec's refused arms only. Safe. -/
  | notModelled (mnemonic : String)
  /-- U-RESERVED (R134): a word that is no instruction, or operands the core lacks; raised when it would execute. -/
  | reserved (why : DecodeError)
  /-- U-MEM-ABSENT (R71): a data access at an address where nothing answers, or a fetch from no storage; raised by
  loads, stores and the instruction fetch. -/
  | memAbsent
  /-- A configuration the spec refuses or leaves out (R4, R125, R200; log 1); raised by step. -/
  | badConfig
  /-- U-RESERVED (R232): post-modification by a reserved or disabled mode; raised by memory moves. -/
  | reservedMode
  /-- U-NULL-READ (R77): a load to NULL or a move NOP at a device cell whose read has side effects (log 14). -/
  | nullRead
  /-- U-IMEM-WRITE (R84): a store to a cell that aliases instruction memory. -/
  | imemWrite
  /-- U-DOUBLE-WRITE (R223, R342): two parts of a word write one register and no winner is named; or MR1 is
  written in interrupt cycle 4. -/
  | doubleWrite
  /-- U-NULL-STORE (R227): NULL or the move NOP register as a source. -/
  | nullStore
  /-- U-MOD-M1 (R234): modulo addressing with length field 0. -/
  | modM1
  /-- U-MV-UNIT (R245): a double register move within one execution unit. -/
  | mvUnit
  /-- U-COF-DELAY (R285): a change of flow in a delay slot; raised by the control instructions. -/
  | cofDelay
  /-- U-LOOP-COF (R284, R339): a change of flow at a loop end or just before it; raised by the cycle. -/
  | loopCof
  /-- U-JMPI-INT (R340): JMPI in interrupt cycle 2. -/
  | jmpiInt
  /-- U-COND-HAZARD (R288, R393): a condition on a flag the previous instruction wrote. -/
  | condHazard
  /-- U-VECTOR-LE (R338): the vector equals LE while L = 0; raised by the cycle. -/
  | vectorLe
  /-- U-MR1-EARLY (R342): MR1 read in interrupt cycle 4. -/
  | mr1Early
  /-- U-HALT-COF (R341): the third instruction after a HALT is a change of flow and HALT_THIRD is executed. -/
  | haltCof
  deriving DecidableEq, Repr

/-- The arithmetic registers, n bits each, and the guard registers, g bits each (R21, R23). -/
structure ARegs where
  a0 : Word
  a1 : Word
  b0 : Word
  b1 : Word
  c0 : Word
  c1 : Word
  d0 : Word
  d1 : Word
  a2 : Guard
  b2 : Guard
  c2 : Guard
  d2 : Guard
  deriving DecidableEq, Repr

/-- The index registers, da bits each (R26). -/
structure IRegs where
  i0 : DAddr
  i1 : DAddr
  i2 : DAddr
  i3 : DAddr
  i4 : DAddr
  i5 : DAddr
  i6 : DAddr
  i7 : DAddr
  deriving DecidableEq, Repr

/-- A memory as a list of address and byte pairs (log 4, log 5): addresses strictly rise and no entry is zero,
which is what an unlisted byte reads as. -/
abbrev Memory := List Host.Cell

/-- A full pipeline slot (R42): where the word was fetched from, the word, and whether it is cancelled. -/
structure Slot where
  page : PAddr
  addr : PAddr
  word : IWord
  cancelled : Bool
  deriving DecidableEq, Repr

/-- The interrupt controller's state IC (R43). -/
inductive IntCycle where
  | idle
  | c1
  | c2
  | c3
  | c4
  | c5
  deriving DecidableEq, Repr

/-- What the environment presents in one cycle: the reset input, the arbiter's request line, and which of the enabled
sources of the arbiter's table brings the vector (R333, R380; log 8). -/
structure Input where
  reset : Bool
  request : Bool
  source : Nat
  deriving DecidableEq, Repr

/-- A cycle in which the environment presents nothing. -/
def Input.quiet : Input := ⟨false, false, 0⟩

/-- The state of the machine (R20). -/
structure State where
  /-- A0 to D1 and A2 to D2. -/
  regs : ARegs
  /-- P, 2n bits (R25). -/
  p : Product
  /-- I0 to I7. -/
  idx : IRegs
  pc : PAddr
  lr0 : PAddr
  lr1 : PAddr
  mr0 : PAddr
  mr1 : PAddr
  ipr0 : PAddr
  ipr1 : PAddr
  ls : PAddr
  le : PAddr
  lc : PAddr
  /-- The slot fetched in the previous cycle (R42). -/
  de : Option Slot
  /-- The slot that executes in this cycle (R42). -/
  ex : Option Slot
  ic : IntCycle
  lehit : Bool
  halted : Bool
  /-- PREVFLAGS (R46): the MR0 bits the previous instruction wrote, as a mask over MR0. -/
  prevFlags : PAddr
  woke : Bool
  xmem : Memory
  ymem : Memory
  imem : Memory
  /-- The arbiter's global enable EN (R333). -/
  en : Bool
  /-- The model's own: what the environment presents, one entry for each cycle to come (log 8). -/
  inputs : List Input
  /-- The model's own: the counter the free values are applied to (log 9). -/
  tick : Nat
  /-- The model's own: the configuration, written by nothing (log 2). -/
  cfg : Config
  deriving DecidableEq, Repr

/-- All arithmetic and guard registers 0 (R60). -/
def ARegs.zero : ARegs := ⟨0, 0, 0, 0, 0, 0, 0, 0, 0, 0, 0, 0⟩

/-- All index registers 0 (R60). -/
def IRegs.zero : IRegs := ⟨0, 0, 0, 0, 0, 0, 0, 0⟩

/-- EN after reset (R333, R380). -/
def Config.enReset (c : Config) : Bool :=
  match c.arbiter with
  | some a => a.enReset
  | none => false

/-- The state after reset of a core with configuration `c` (R20, R60, R380): LE is all ones, LR1 is 0 (log 3). -/
def State.resetOf (c : Sys2Proof.Config) (x y i : Memory) (inputs : List Input) (tick : Nat) : State where
  regs := ARegs.zero
  p := 0
  idx := IRegs.zero
  pc := trunc c.pa c.resetVector
  lr0 := 0
  lr1 := 0
  mr0 := 0
  mr1 := 0
  ipr0 := 0
  ipr1 := 0
  ls := 0
  le := BitVec.ofNat 20 (2 ^ c.pa - 1)
  lc := 0
  de := none
  ex := none
  ic := .c3
  lehit := false
  halted := false
  prevFlags := 0
  woke := false
  xmem := x
  ymem := y
  imem := i
  en := Config.enReset c
  inputs := inputs
  tick := tick
  cfg := c

/-- The machine right after reset: Config.vhdl, nothing listed in the memories, no input (log 2, log 4). -/
def State.reset : State := State.resetOf Config.vhdl [] [] [] [] 0

end Sys2Proof.Machine
end

