-- ==== Sys2Proof/Machine/Ops.lean ====
section
/-! DEFINITION. The named operations over memory, registers and flags (10_state.md, 20_memory.md, 43_moves.md
R224 to R227), and interrupt entry, the return from it and reset as shared operations (60_exceptions.md R333 to
R345, 70_reset_and_hazards.md R380). -/

namespace Sys2Proof.Machine

/-- The outcome of a step or a meaning: the core has no fault (R330), so what stops is a refusal. -/
def outcome : Except Refusal State → Host.Outcome State Fault Refusal
  | .ok s => .next s
  | .error r => .refused r

/-- Go on with `k` when `b` holds, else stop by the name `r`. -/
def require {α : Type} (b : Bool) (r : Refusal) (k : Except Refusal α) : Except Refusal α :=
  if b then k else .error r

/-- One computation after another, which stops where the first stops. -/
def andThen {α β : Type} (r : Except Refusal α) (k : α → Except Refusal β) : Except Refusal β :=
  match r with
  | .ok a => k a
  | .error e => .error e

/-! ## Memory: bytes, then words (log 4, log 5) -/

/-- The byte at an address; an unlisted byte reads 0 (log 4). -/
def Memory.read : Memory → Nat → Byte
  | [], _ => 0
  | (k, v) :: m, a => if k = a then v else Memory.read m a

/-- Store a byte, keeping the canonical form. -/
def Memory.write : Memory → Nat → Byte → Memory
  | [], a, b => if b = 0 then [] else [(a, b)]
  | (k, v) :: m, a, b =>
    if k < a then (k, v) :: Memory.write m a b
    else if k = a then (if b = 0 then m else (a, b) :: m)
    else (if b = 0 then (k, v) :: m else (a, b) :: (k, v) :: m)

/-- Addresses strictly rise from `lo` on, and no entry is 0. -/
def Memory.risesFrom : Nat → Memory → Bool
  | _, [] => true
  | lo, (k, v) :: m => decide (lo ≤ k) && decide (v ≠ 0) && Memory.risesFrom (k + 1) m

/-- The canonical form. -/
def Memory.wf (m : Memory) : Bool := Memory.risesFrom 0 m

/-- The number in `len` bytes from a key on, the low byte at the lowest key (log 5). -/
def Memory.bytes (m : Memory) (k : Nat) : Nat → Nat
  | 0 => 0
  | len + 1 => (m.read k).toNat + 256 * Memory.bytes m (k + 1) len

/-- Store the low `len` bytes of a number from a key on. -/
def Memory.putBytes (m : Memory) (k : Nat) : Nat → Nat → Memory
  | 0, _ => m
  | len + 1, v => Memory.putBytes (m.write k (BitVec.ofNat 8 v)) (k + 1) len (v / 256)

/-- The bytes kept for each data word: enough for n = 64 (log 5). -/
def dataBytes : Nat := 8

/-- The bytes kept for each instruction word. -/
def codeBytes : Nat := 4

/-- The word at a data address (log 5). -/
def Memory.word (m : Memory) (a : DAddr) : Word := BitVec.ofNat 64 (m.bytes (dataBytes * a.toNat) dataBytes)

/-- Store a word at a data address (R71). -/
def Memory.putWord (m : Memory) (a : DAddr) (v : Word) : Memory :=
  m.putBytes (dataBytes * a.toNat) dataBytes v.toNat

/-- The program address page : addr, 2pa bits (R36). -/
def programAddress (c : Sys2Proof.Config) (page addr : PAddr) : Nat := page.toNat * 2 ^ c.pa + addr.toNat

/-- The 32-bit word at a program address (log 5). -/
def Memory.iword (m : Memory) (p : Nat) : IWord := BitVec.ofNat 32 (m.bytes (codeBytes * p) codeBytes)

/-- Place a 32-bit word at a program address: what loads a program from outside the machine (log 7). -/
def Memory.putIword (m : Memory) (p : Nat) (w : IWord) : Memory := m.putBytes (codeBytes * p) codeBytes w.toNat

/-- The memory of a data space (R48, R72). -/
def State.mem (s : State) : Space → Memory
  | .x => s.xmem
  | .y => s.ymem

/-- Replace the memory of a data space. -/
def State.putMem (s : State) (sp : Space) (m : Memory) : State :=
  match sp with
  | .x => { s with xmem := m }
  | .y => { s with ymem := m }

/-- The platform's map of a data space (R70). -/
def Config.map (c : Config) : Space → List Region
  | .x => c.xmap
  | .y => c.ymap

/-- Whether a cell is INT_GLOB_EN (R333). -/
def Config.isEnable (c : Config) (sp : Space) (a : DAddr) : Bool :=
  match c.arbiter with
  | some b => decide (b.space = sp ∧ b.address = a)
  | none => false

/-- Whether a read of INT_GLOB_EN has side effects (R77). -/
def Config.enableSideEffects (c : Config) : Bool :=
  match c.arbiter with
  | some b => b.readSideEffects
  | none => false

/-- The cell at a data address (R70); INT_GLOB_EN is a device (R77; log 13). -/
def Config.cell (c : Config) (sp : Space) (a : DAddr) : CellKind :=
  if Config.isEnable c sp a then .device (Config.enableSideEffects c)
  else Region.cellAt (Config.map c sp) a.toNat

/-- MemRead (R71): storage answers its n-bit word, a device a draw (log 11), an absent cell nothing. -/
def loadData (sp : Space) (a : DAddr) (s : State) : Except Refusal Word :=
  match Config.cell s.cfg sp a with
  | .storage => .ok (trunc s.cfg.n ((s.mem sp).word a))
  | .shadow => .ok (trunc s.cfg.n ((s.mem sp).word a))
  | .device _ => .ok (trunc s.cfg.n (Config.deviceRead s.tick sp a))
  | .absent => .error .memAbsent

/-- A load whose data is discarded (R77, R224): a read with side effects is refused. -/
def discardData (sp : Space) (a : DAddr) (s : State) : Except Refusal Unit :=
  match Config.cell s.cfg sp a with
  | .storage => .ok ()
  | .shadow => .ok ()
  | .device sideEffects => require (!sideEffects) .nullRead (.ok ())
  | .absent => .error .memAbsent

/-- The move NOP at a cell (R77, R247): no access, but refused where a read would have side effects, since the spec
leaves open whether the bus cycle happens there (log 14). -/
def nopAccess (sp : Space) (a : DAddr) (s : State) : Except Refusal Unit :=
  require (decide (Config.cell s.cfg sp a ≠ .device true)) .nullRead (.ok ())

/-- Whether a store may be made (R71, R84). -/
def checkStore (sp : Space) (a : DAddr) (s : State) : Except Refusal Unit :=
  match Config.cell s.cfg sp a with
  | .storage => .ok ()
  | .device _ => .ok ()
  | .shadow => .error .imemWrite
  | .absent => .error .memAbsent

/-- MemWrite (R71, R333): storage takes the word, INT_GLOB_EN enables the interrupts, another device has no
effect on the core (log 11). -/
def storeData (sp : Space) (a : DAddr) (v : Word) (s : State) : State :=
  if Config.isEnable s.cfg sp a then { s with en := true }
  else
    match Config.cell s.cfg sp a with
    | .storage => s.putMem sp ((s.mem sp).putWord a v)
    | .shadow | .device _ | .absent => s

/-- IFetch (R71): storage only. Without page registers the program address is the fetch address (R36). -/
def fetch (page addr : PAddr) (s : State) : Except Refusal IWord :=
  match Region.cellAt s.cfg.imap (programAddress s.cfg page addr) with
  | .storage => .ok (s.imem.iword (programAddress s.cfg page addr))
  | .shadow => .ok (s.imem.iword (programAddress s.cfg page addr))
  | .device _ | .absent => .error .memAbsent

/-! ## Registers -/

/-- An arithmetic register (R21). -/
def ARegs.get (r : ARegs) : AReg → Word
  | .a0 => r.a0 | .a1 => r.a1 | .b0 => r.b0 | .b1 => r.b1
  | .c0 => r.c0 | .c1 => r.c1 | .d0 => r.d0 | .d1 => r.d1

/-- Replace one arithmetic register and nothing else. -/
def ARegs.put (r : ARegs) (a : AReg) (v : Word) : ARegs :=
  match a with
  | .a0 => { r with a0 := v } | .a1 => { r with a1 := v }
  | .b0 => { r with b0 := v } | .b1 => { r with b1 := v }
  | .c0 => { r with c0 := v } | .c1 => { r with c1 := v }
  | .d0 => { r with d0 := v } | .d1 => { r with d1 := v }

/-- A guard register (R23). -/
def ARegs.guard (r : ARegs) : Acc → Guard
  | .a => r.a2 | .b => r.b2 | .c => r.c2 | .d => r.d2

/-- An explicit write of a guard register: the others are unchanged (R24 item 4). -/
def ARegs.putGuard (r : ARegs) (x : Acc) (v : Guard) : ARegs :=
  match x with
  | .a => { r with a2 := v } | .b => { r with b2 := v } | .c => { r with c2 := v } | .d => { r with d2 := v }

/-- An arithmetic register at its width n (R21). -/
def ARegs.word (c : Sys2Proof.Config) (r : ARegs) (a : AReg) : BitVec c.n := (r.get a).setWidth c.n

/-- A guard register at its width g (R23). -/
def ARegs.guardWord (c : Sys2Proof.Config) (r : ARegs) (x : Acc) : BitVec c.g := (r.guard x).setWidth c.g

/-- The sign of a word in every bit of a guard register: (v[n-1])^g (R24 item 1). -/
def guardSign (c : Sys2Proof.Config) (v : BitVec c.n) : BitVec c.g := BitVec.fill c.g v.msb

/-- A write of an arithmetic register: a write of X1 also writes X2 with the sign (R24 items 1 and 3). -/
def ARegs.write (c : Sys2Proof.Config) (r : ARegs) (a : AReg) (v : BitVec c.n) : ARegs :=
  if a.isHigh then (r.put a (v.setWidth 64)).putGuard a.acc ((guardSign c v).setWidth 16) else r.put a (v.setWidth 64)

/-- The accumulator X2:X1:X0, W bits (R22). -/
def ARegs.accum (c : Sys2Proof.Config) (r : ARegs) (x : Acc) : BitVec c.accWidth :=
  r.guardWord c x ++ r.word c x.high ++ r.word c x.low

/-- A write of an accumulator: all three parts (R22, R24 item 2). -/
def ARegs.writeAccum (c : Sys2Proof.Config) (r : ARegs) (x : Acc) (v : BitVec c.accWidth) : ARegs :=
  ((r.put x.low (trunc c.n v)).put x.high (trunc c.n (v >>> c.n))).putGuard x (trunc c.g (v >>> (c.n + c.n)))

/-- An index register (R26). -/
def IRegs.get (r : IRegs) : IReg → DAddr
  | .i0 => r.i0 | .i1 => r.i1 | .i2 => r.i2 | .i3 => r.i3
  | .i4 => r.i4 | .i5 => r.i5 | .i6 => r.i6 | .i7 => r.i7

/-- Replace one index register. -/
def IRegs.put (r : IRegs) (i : IReg) (v : DAddr) : IRegs :=
  match i with
  | .i0 => { r with i0 := v } | .i1 => { r with i1 := v }
  | .i2 => { r with i2 := v } | .i3 => { r with i3 := v }
  | .i4 => { r with i4 := v } | .i5 => { r with i5 := v }
  | .i6 => { r with i6 := v } | .i7 => { r with i7 := v }

/-! ## MR0 and MR1 -/

/-- The mode bits and flags of MR0 (R30). -/
inductive MrBit where
  | c | e | v | n | z | y | x | l | r | i | s
  deriving DecidableEq, Repr

/-- Where a bit stands in MR0 (R30; DEDUCED, log 17). -/
def MrBit.pos : MrBit → Nat
  | .c => 0 | .e => 1 | .v => 2 | .n => 3 | .z => 4 | .y => 5 | .x => 6 | .l => 7 | .r => 8 | .i => 9 | .s => 10

/-- The bit as a mask over MR0. -/
def MrBit.mask (b : MrBit) : PAddr := 1#20 <<< b.pos

/-- Every bit of MR0: what a load of MR0 writes (R393). -/
def allBits : PAddr := 0x007FF

/-- Z, N, V, E and C (R393). -/
def aluBits : PAddr := 0x0001F

/-- MR0 as it reads: an inactive bit reads 0 (R32). -/
def State.mr0Value (s : State) : PAddr := s.mr0 &&& s.cfg.activeBits

/-- MR1 as it reads (R32, R35). -/
def State.mr1Value (s : State) : PAddr := s.mr1 &&& s.cfg.activeBits

/-- A flag or mode bit (R30): an inactive mode is off, an inactive flag never set (R32). -/
def State.flag (s : State) (b : MrBit) : Bool := s.mr0Value.getLsbD b.pos

/-- Write the bits of MR0 under a mask; a write to an inactive bit is ignored (R32). -/
def State.putBits (s : State) (mask v : PAddr) : State :=
  { s with mr0 := (s.mr0Value &&& ~~~mask) ||| (v &&& mask &&& s.cfg.activeBits) }

/-- Write one flag. -/
def State.putFlag (s : State) (b : MrBit) (v : Bool) : State :=
  s.putBits b.mask (if v then b.mask else 0)

/-- The index flag of a bus (R33): X for bus X, Y for bus Y. -/
def indexFlag : Space → MrBit
  | .x => .x
  | .y => .y

/-! ## Registers on a bus (R224 to R227) -/

/-- The width of a register a move can name (R224). -/
def FReg.width (c : Sys2Proof.Config) : FReg → Nat
  | .areg _ => c.n
  | .guard _ => c.g
  | .ireg _ => c.da
  | .lr0 | .lr1 | .mr0 | .mr1 | .lc | .ls | .le | .ipr0 | .ipr1 => c.pa
  | .null | .nop => c.n

/-- The content of a register a move can name, in the low bits; NULL and the NOP register hold nothing. -/
def State.regValue (s : State) : FReg → Word
  | .areg r => s.regs.get r
  | .guard x => (s.regs.guard x).setWidth 64
  | .ireg r => (s.idx.get r).setWidth 64
  | .lr0 => s.lr0.setWidth 64
  | .lr1 => s.lr1.setWidth 64
  | .mr0 => s.mr0Value.setWidth 64
  | .mr1 => s.mr1Value.setWidth 64
  | .lc => s.lc.setWidth 64
  | .ls => s.ls.setWidth 64
  | .le => s.le.setWidth 64
  | .ipr0 => s.ipr0.setWidth 64
  | .ipr1 => s.ipr1.setWidth 64
  | .null | .nop => 0

/-- A register of width w on an n-bit bus (R225): its w bits below and, when it is narrower than the bus, a draw in the
n - w bits above (log 10). -/
def onBus (s : State) (bus : Space) (w : Nat) (v : Word) : Word :=
  trunc s.cfg.n (if s.cfg.n ≤ w then v else (Config.busUpper s.tick bus <<< w) ||| (trunc w v : Word))

/-- The value a register puts on a bus (R224 to R226): NULL and the move NOP register are no sources (R227), and MR1 is
not read in interrupt cycle 4 (R342). -/
def readReg (bus : Space) (f : FReg) (s : State) : Except Refusal Word :=
  require (decide (f ≠ .null) && decide (f ≠ .nop)) .nullStore
    (require (!(decide (f = .mr1) && decide (s.ic = .c4))) .mr1Early
      (.ok (onBus s bus (FReg.width s.cfg f) (s.regValue f))))

/-- The write of a register from a bus or a constant (R224): a register of width w takes the low w bits (R225, R226,
R240), MR0 and MR1 their active bits (R32); NULL and the move NOP register take nothing. The page registers are no
targets. -/
def writeReg (f : FReg) (v : Word) (s : State) : State :=
  match f with
  | .areg r => { s with regs := s.regs.write s.cfg r (v.setWidth s.cfg.n) }
  | .guard x => { s with regs := s.regs.putGuard x (trunc s.cfg.g v) }
  | .ireg r => { s with idx := s.idx.put r (trunc s.cfg.da v) }
  | .lr0 => { s with lr0 := trunc s.cfg.pa v }
  | .lr1 => { s with lr1 := trunc s.cfg.pa v }
  | .mr0 => { s with mr0 := v.setWidth 20 &&& s.cfg.activeBits }
  | .mr1 => { s with mr1 := v.setWidth 20 &&& s.cfg.activeBits }
  | .lc => { s with lc := trunc s.cfg.pa v }
  | .ls => { s with ls := trunc s.cfg.pa v }
  | .le => { s with le := trunc s.cfg.pa v }
  | .null | .nop | .ipr0 | .ipr1 => s

/-- MR1 is not written in interrupt cycle 4, where the copy of MR0 meets the write (R342). -/
def checkWrite (f : FReg) (s : State) : Except Refusal Unit :=
  require (!(f = .mr1 && s.ic = .c4)) .doubleWrite (.ok ())

/-- The registers a write of a move target changes: X1 with its guard register (R24, R223). -/
def FReg.cells : FReg → List FReg
  | .areg r => if r.isHigh then [.areg r, .guard r.acc] else [.areg r]
  | .null | .nop | .ipr0 | .ipr1 => []
  | f => [f]

/-! ## Reset (R380) -/

/-- System reset in the course of a run: nothing survives but memory (R380), and what is not the core's. -/
def systemReset (s : State) : State :=
  State.resetOf s.cfg s.xmem s.ymem s.imem s.inputs s.tick

/-! ## Interrupt entry (R333 to R342) and return (R296, R345) -/

/-- The input of this cycle (log 8). -/
def State.input (s : State) : Input := s.inputs.headD Input.quiet

/-- The vectors of the arbiter's enabled sources, as offsets from 0x20: the platform's table of sources (R333, D30). -/
def Config.vectors (c : Sys2Proof.Config) : List (BitVec 5) :=
  match c.arbiter with
  | some b => (b.sources.filter fun x => x.enabled).map fun x => x.vector
  | none => []

/-- Whether the arbiter's request is received in a cycle that begins in `s` with the controller idle or the core
halted (R333). Without an enabled source there is no request (log 8). -/
def State.requested (s : State) : Bool := s.input.request && s.en && !(Config.vectors s.cfg).isEmpty

/-- The vector: an address in 0x20 to 0x3F (R331), of the enabled source the environment names (R333; log 8). -/
def State.vector (s : State) : PAddr :=
  0x20 + ((Config.vectors s.cfg).getD (s.input.source % (Config.vectors s.cfg).length) 0).zeroExtend 20

/-- What the interrupt controller sees of a cycle: of X and D, and the addresses. -/
structure CycleView where
  /-- X, not cancelled, is J, Jcc, CALLcc, JRcc, RETI or LOOP (R339). -/
  flow : Bool
  /-- D, not cancelled, is a change-of-flow instruction (R285); JMPI counts here too (log 28). -/
  nextFlow : Bool
  /-- X loads LR1 (R337). -/
  loadsLr1 : Bool
  /-- X stores to INT_GLOB_EN (R333). -/
  enables : Bool
  /-- The normal fetch address NFA (R282). -/
  nfa : PAddr
  /-- The fetch address FA (R281). -/
  fa : PAddr
  /-- FA is the LE that this cycle's comparison used (R337). -/
  atLoopEnd : Bool
  deriving DecidableEq, Repr

/-- A request received (R333, R334): the controller goes to cycle 1, the arbiter disables, a halt ends with WOKE
(R299). When X also enables, the spec names no winner (log 12). -/
def receiveRequest (v : CycleView) (s t : State) : State :=
  { t with
    ic := .c1
    en := if v.enables then Config.enableRace s.tick else false
    woke := t.woke || t.halted
    halted := false }

/-- Interrupt cycle 1 (R337): LR1 takes the fetch address unless X loads it; LEHIT. -/
def entryCycle1 (v : CycleView) (t : State) : State :=
  { t with
    ic := .c2
    lr1 := if v.loadsLr1 then t.lr1 else v.fa
    lehit := v.atLoopEnd }

/-- Whether the instruction fetched in interrupt cycle 1 is kept (R339, R341). -/
def keepsThird (v : CycleView) (s : State) : Bool :=
  v.flow || s.lehit || (s.woke && s.cfg.haltThird = .executed)

/-- Mark the slot that becomes EX as cancelled (R339). -/
def State.cancelEx (s : State) : State :=
  { s with ex := s.ex.map fun d => { d with cancelled := true } }

/-- Interrupt cycle 2 (R338, R339, R341; log 24): IPR1 takes the IPR0 of the start of the cycle (log 23), L is set
over any other write, the third instruction is cancelled or LR1 takes NFA. -/
def entryCycle2 (v : CycleView) (s t : State) : Except Refusal State :=
  let t := { t.putFlag .l true with ic := .c3, woke := false, ipr1 := if s.cfg.hasIpr then s.ipr0 else t.ipr1 }
  if keepsThird v s then
    require (!v.nextFlow) (if v.flow || s.lehit then .loopCof else .haltCof)
      (.ok { t with lr1 := if v.loadsLr1 then t.lr1 else v.nfa })
  else .ok t.cancelEx

/-- Interrupt cycle 4 (R342): MR1 takes the MR0 of the start of the cycle. -/
def entryCycle4 (s t : State) : State := { t with ic := .c5, mr1 := s.mr0Value }

/-- Interrupt entry: the controller's actions in a cycle and its transition (R335 to R342). `s` is the state at the
start of the cycle, `t` the state after its other parts. -/
def interruptEntry (v : CycleView) (s t : State) : Except Refusal State :=
  match s.ic with
  | .idle => .ok (if s.requested then receiveRequest v s t else t)
  | .c1 => .ok (entryCycle1 v t)
  | .c2 => entryCycle2 v s t
  | .c3 => .ok { t with ic := .c4 }
  | .c4 => .ok (entryCycle4 s t)
  | .c5 => .ok { t with ic := .idle }

/-- A halted cycle (R299, R333): nothing but a received request changes the core. -/
def haltedCycle (s : State) : State :=
  if s.requested then { s with halted := false, ic := .c1, woke := true, en := false } else s

/-- Clear the loop flag (R286). -/
def State.clearLoopFlag (s : State) : State := s.putFlag .l false

/-- Return from interrupt (R296, R345): the fetch goes to LR1, L is cleared, nothing else is restored. -/
def returnFromInterrupt (s : State) : State := { s.clearLoopFlag with pc := s.lr1 }

end Sys2Proof.Machine
end

