-- ==== Sys2Proof/Machine/Flags.lean ====
section
/-! DEFINITION. The results and flags of the ALU, the product, and the conditions (40_alu_arithmetic.md R150 to
R159, 41_alu_logic_shift.md R180, 42_multiplier.md R201, 30_encoding.md R126, 70_reset_and_hazards.md R393). -/

namespace Sys2Proof.Machine

/-- The five ALU flags. -/
structure AluFlags where
  z : Bool
  n : Bool
  v : Bool
  e : Bool
  c : Bool
  deriving DecidableEq, Repr

/-- The ALU flags at their places in MR0 (R30). -/
def AluFlags.bits (f : AluFlags) : PAddr :=
  0#15 ++ BitVec.ofBool f.z ++ BitVec.ofBool f.n ++ BitVec.ofBool f.v ++ BitVec.ofBool f.e ++ BitVec.ofBool f.c

/-- An ALU result of width w with its flags. -/
structure AluOut (w : Nat) where
  value : BitVec w
  flags : AluFlags
  deriving DecidableEq, Repr

/-- E of a narrow result: 0 (R156). -/
def narrowExt {w : Nat} (_ : BitVec w) : Bool := false

/-- E of a wide result: the g + 1 bits W-1 to 2n-1 are not all the same (R156). -/
def wideExt (c : Sys2Proof.Config) (r : BitVec c.accWidth) : Bool :=
  !(decide (r.extractLsb' (c.n + c.n - 1) (c.g + 1) = 0) ||
    decide (r.extractLsb' (c.n + c.n - 1) (c.g + 1) = BitVec.allOnes (c.g + 1)))

/-- The amount Round adds to the upper half `hi` when the n bits below it are `lo` (R159). -/
def roundInc (m : RoundMode) (n : Nat) (hi lo : Int) : Int :=
  let half : Int := 2 ^ (n - 1)
  match m with
  | .truncate => 0
  | .round => if half ≤ lo then 1 else 0
  | .convergent0 => if half < lo then 1 else if lo = half then hi % 2 else 0
  | .convergent1 => if half < lo then 1 else if lo = half then 1 - hi % 2 else 0

/-- Round (R159): the n bits of the lower half cleared, the upper half adjusted. -/
def roundTo (m : RoundMode) (n : Nat) (z : Int) : Int :=
  (z / 2 ^ n + roundInc m n (z / 2 ^ n) (z % 2 ^ n)) * 2 ^ n

/-- The rounding of a wide arithmetic operation (R158). -/
def wideRound (s : State) (z : Int) : Int := if s.flag .r then roundTo s.cfg.roundMode s.cfg.n z else z

/-- The end of the arithmetic pipeline (R158): V before saturation (R155), saturation to the bounds of w bits, and
Z, N, E of what is written (R153, R154, R156); C is the adder's (R157). -/
def arithOut (w : Nat) (ext : BitVec w → Bool) (sat : Bool) (z : Int) (carry : Bool) : AluOut w :=
  let ovf := decide (z < -(2 : Int) ^ (w - 1)) || decide ((2 : Int) ^ (w - 1) - 1 < z)
  let r := if ovf && sat then (if 0 < z then BitVec.intMax w else BitVec.intMin w) else BitVec.ofInt w z
  ⟨r, { z := decide (r = 0), n := r.msb, v := ovf, e := ext r, c := carry }⟩

/-- The sum of R158: exact, then rounded; C is the carry out (R157). -/
def sumOut (w : Nat) (ext : BitVec w → Bool) (sat : Bool) (rnd : Int → Int) (a b : BitVec w) (cin : Bool) :
    AluOut w :=
  arithOut w ext sat (rnd (a.toInt + b.toInt + cin.toNat)) (decide (2 ^ w ≤ a.toNat + b.toNat + cin.toNat))

/-- The difference of R158; C is the borrow (R157). -/
def diffOut (w : Nat) (ext : BitVec w → Bool) (sat : Bool) (rnd : Int → Int) (a b : BitVec w) (bin : Bool) :
    AluOut w :=
  arithOut w ext sat (rnd (a.toInt - b.toInt - bin.toNat)) (decide (a.toNat < b.toNat + bin.toNat))

/-- A narrow sum, n bits (R150: no rounding). -/
def narrowSum (s : State) (cin : Bool) (a b : BitVec s.cfg.n) : AluOut s.cfg.n :=
  sumOut s.cfg.n narrowExt (s.flag .s) id a b cin

/-- A wide sum, W bits. -/
def wideSum (s : State) (cin : Bool) (a b : BitVec s.cfg.accWidth) : AluOut s.cfg.accWidth :=
  sumOut s.cfg.accWidth (wideExt s.cfg) (s.flag .s) (wideRound s) a b cin

/-- A narrow difference. -/
def narrowDiff (s : State) (bin : Bool) (a b : BitVec s.cfg.n) : AluOut s.cfg.n :=
  diffOut s.cfg.n narrowExt (s.flag .s) id a b bin

/-- A wide difference. -/
def wideDiff (s : State) (bin : Bool) (a b : BitVec s.cfg.accWidth) : AluOut s.cfg.accWidth :=
  diffOut s.cfg.accWidth (wideExt s.cfg) (s.flag .s) (wideRound s) a b bin

/-- Replace C. -/
def AluOut.withCarry {w : Nat} (o : AluOut w) (c : Bool) : AluOut w := ⟨o.value, { o.flags with c := c }⟩

/-- A narrow absolute value (R160): 0 - b or 0 + b through R158; C is a draw (D21; log 9). -/
def narrowAbs (s : State) (b : BitVec s.cfg.n) : AluOut s.cfg.n :=
  (if b.msb then narrowDiff s false 0 b else narrowSum s false 0 b).withCarry (Config.absCarry s.tick)

/-- A wide absolute value (R160). -/
def wideAbs (s : State) (b : BitVec s.cfg.accWidth) : AluOut s.cfg.accWidth :=
  (if b.msb then wideDiff s false 0 b else wideSum s false 0 b).withCarry (Config.absCarry s.tick)

/-- A logic or shift result (R180): Z, N, E of the result, V 0, C as given. -/
def bitsOut {w : Nat} (ext : BitVec w → Bool) (r : BitVec w) (carry : Bool) : AluOut w :=
  ⟨r, { z := decide (r = 0), n := r.msb, v := false, e := ext r, c := carry }⟩

/-- A right shift by one with the bit that enters at the top; C is the bit shifted out (R185 to R187). -/
def shiftOut (w : Nat) (ext : BitVec w → Bool) (top : Bool) (b : BitVec w) : AluOut w :=
  bitsOut ext (b >>> 1 ||| (if top then BitVec.intMin w else 0)) (b.getLsbD 0)

/-! ## The multiplier -/

/-- Whether Op1 is read as unsigned (R115: the upper mode bit). -/
def MulMode.unsigned1 : MulMode → Bool
  | .ss | .su => false
  | .us | .uu => true

/-- Whether Op2 is read as unsigned (R115: the lower mode bit). -/
def MulMode.unsigned2 : MulMode → Bool
  | .ss | .us => false
  | .su | .uu => true

/-- A pattern as an integer, by its signedness (R201). -/
def factor {n : Nat} (unsigned : Bool) (a : BitVec n) : Int := if unsigned then a.toNat else a.toInt

/-- Prod (R201): integer or fractional, with the one saturating case; 2n bits. -/
def productOf (s : State) (mm : MulMode) (a b : BitVec s.cfg.n) : BitVec s.cfg.productWidth :=
  let z := factor (MulMode.unsigned1 mm) a * factor (MulMode.unsigned2 mm) b
  if s.flag .i then BitVec.ofInt s.cfg.productWidth z
  else if mm = .ss && decide (a = BitVec.intMin s.cfg.n) && decide (b = BitVec.intMin s.cfg.n) && s.flag .s then
    BitVec.intMax s.cfg.productWidth
  else BitVec.ofInt s.cfg.productWidth (2 * z)

/-! ## Conditions -/

/-- LTv of R126: N xor (V and not S). -/
def State.less (s : State) : Bool := s.flag .n ^^ (s.flag .v && !s.flag .s)

/-- The truth of a condition over MR0 (R126, Table 6.1). -/
def Cond.holds (c : Cond) (s : State) : Bool :=
  match c with
  | .always => true
  | .cs => s.flag .c
  | .es => s.flag .e
  | .vs => s.flag .v
  | .ns => s.flag .n
  | .zs => s.flag .z
  | .xs => s.flag .x
  | .ys => s.flag .y
  | .lt => s.less
  | .le => s.less || s.flag .z
  | .cc => !s.flag .c
  | .ec => !s.flag .e
  | .vc => !s.flag .v
  | .nc => !s.flag .n
  | .zc => !s.flag .z
  | .xc => !s.flag .x
  | .yc => !s.flag .y
  | .ge => !s.less
  | .gt => !(s.less || s.flag .z)

/-- The MR0 bits a condition reads, as a mask (R393). -/
def Cond.reads : Cond → PAddr
  | .always => 0
  | .cs | .cc => MrBit.c.mask
  | .es | .ec => MrBit.e.mask
  | .vs | .vc => MrBit.v.mask
  | .ns | .nc => MrBit.n.mask
  | .zs | .zc => MrBit.z.mask
  | .xs | .xc => MrBit.x.mask
  | .ys | .yc => MrBit.y.mask
  | .lt | .ge => MrBit.n.mask ||| MrBit.v.mask ||| MrBit.s.mask
  | .le | .gt => MrBit.n.mask ||| MrBit.v.mask ||| MrBit.s.mask ||| MrBit.z.mask

/-- The precondition of a conditional instruction (R288, R393): the previous instruction wrote no bit it reads. -/
def Cond.ready (c : Cond) (s : State) : Bool := decide (Cond.reads c &&& s.prevFlags = 0)

end Sys2Proof.Machine
end

