-- ==== Sys2Proof/Machine/Operands.lean ====
section
/-! DEFINITION. The operand forms: ALU operands (30_encoding.md R112, 40_alu_arithmetic.md R151, R152), address
generation (43_moves.md R230 to R236), and the moves of a word as effects computed before any is applied
(43_moves.md R220 to R227). -/

namespace Sys2Proof.Machine

/-! ## ALU operands and results -/

/-- A narrow operand, n bits (R151). A wide code never stands in a narrow operation (R150): its value is its middle
word. -/
def narrowOperand (s : State) : AOp → BitVec s.cfg.n
  | .reg r => s.regs.word s.cfg r
  | .null => 0
  | .ones => BitVec.allOnes s.cfg.n
  | .p => s.p.extractLsb' s.cfg.n s.cfg.n
  | .acc x => s.regs.word s.cfg x.high

/-- P at its width 2n (R25). -/
def State.product (s : State) : BitVec s.cfg.productWidth := s.p.setWidth s.cfg.productWidth

/-- A wide operand, W bits (R151): a register as sign, register, zeros; P sign extended (R202). -/
def wideOperand (s : State) : AOp → BitVec s.cfg.accWidth
  | .reg r => guardSign s.cfg (s.regs.word s.cfg r) ++ s.regs.word s.cfg r ++ 0#s.cfg.n
  | .null => 0
  | .ones => BitVec.allOnes s.cfg.accWidth
  | .p => s.product.signExtend s.cfg.accWidth
  | .acc x => s.regs.accum s.cfg x

/-- The register an ALU operation writes, with the value (R152), on a core with configuration `c`. -/
inductive AluWrite (c : Sys2Proof.Config) where
  | none
  | reg (r : AReg) (v : BitVec c.n)
  | acc (x : Acc) (v : BitVec c.accWidth)
  deriving DecidableEq, Repr

/-- The registers an ALU result changes (R152, R223). -/
def AluWrite.cells {c : Sys2Proof.Config} : AluWrite c → List FReg
  | .none => []
  | .reg r _ => FReg.cells (.areg r)
  | .acc x _ => [.areg x.low, .areg x.high, .guard x]

/-- What the ALU or multiplier part of a word does. -/
structure AluFx (c : Sys2Proof.Config) where
  result : AluWrite c
  flags : Option AluFlags
  product : Option (BitVec c.productWidth)
  deriving DecidableEq, Repr

/-- The ALU NOP (R188). -/
def AluFx.none {c : Sys2Proof.Config} : AluFx c := ⟨.none, Option.none, Option.none⟩

/-- A narrow result (R152). -/
def narrowFx {c : Sys2Proof.Config} (res : AReg) (o : AluOut c.n) : AluFx c := ⟨.reg res o.value, some o.flags, none⟩

/-- A wide result (R152). -/
def wideFx {c : Sys2Proof.Config} (x : Acc) (o : AluOut c.accWidth) : AluFx c := ⟨.acc x o.value, some o.flags, none⟩

/-- A two-operand ALU operation at the width of R150. -/
def alu2Fx (s : State) (op1 op2 : AOp) (res : AReg)
    (narrow : BitVec s.cfg.n → BitVec s.cfg.n → AluOut s.cfg.n)
    (wide : BitVec s.cfg.accWidth → BitVec s.cfg.accWidth → AluOut s.cfg.accWidth) : AluFx s.cfg :=
  if op1.isWide || op2.isWide then wideFx res.acc (wide (wideOperand s op1) (wideOperand s op2))
  else narrowFx res (narrow (narrowOperand s op1) (narrowOperand s op2))

/-- A single-operand ALU operation at the width of R150. -/
def alu1Fx (s : State) (op : AOp) (res : AReg) (narrow : BitVec s.cfg.n → AluOut s.cfg.n)
    (wide : BitVec s.cfg.accWidth → AluOut s.cfg.accWidth) : AluFx s.cfg :=
  if op.isWide then wideFx res.acc (wide (wideOperand s op)) else narrowFx res (narrow (narrowOperand s op))

/-- A multiplication (R203). -/
def productFx {c : Sys2Proof.Config} (p : BitVec c.productWidth) : AluFx c := ⟨.none, none, some p⟩

/-! ## Address generation -/

/-- What an address ALU answers: the value to write into the index register, if any, and the index flag (R236). -/
structure PostOut where
  index : Option DAddr
  flag : Bool
  deriving DecidableEq, Repr

/-- A linear or bit-reversed update: the flag is the uppermost bit of the new value (R236). The address ALU is AW = da
bits wide (R6). -/
def plainPost {aw : Nat} (i : BitVec aw) : PostOut := ⟨some (i.setWidth 23), i.msb⟩

/-- Modulo modification (R234): `mm1` is M - 1, the bits AW-4 to 0 of the pair register. -/
def moduloPost {aw : Nat} (i ib : BitVec aw) (step : Int) : Except Refusal PostOut :=
  let mm1 := (ib.extractLsb' 0 (aw - 3)).toNat
  let size := 2 ^ (Nat.log2 mm1 + 1)
  let lower : Int := (i.toNat / size * size : Nat)
  let lin : Int := i.toNat + step
  let new (z : Int) (wrapped : Bool) : PostOut := ⟨some ((BitVec.ofInt aw z).setWidth 23), wrapped⟩
  require (mm1 ≠ 0) .modM1 (.ok
    (if lin < lower then new (lin + (mm1 + 1)) true
     else if lower + mm1 < lin then new (lin - (mm1 + 1)) true
     else new lin false))

/-- Bit-reversed modification (R235): the addition of the reversals, reversed. -/
def bitReversedPost {aw : Nat} (i ib : BitVec aw) : PostOut :=
  plainPost (i.reverse + ((ib.extractLsb' 0 (aw - 2)).setWidth aw).reverse).reverse

/-- Post-modification by the pair register (R232): the mode is its three upper bits. -/
def pairPost (c : Sys2Proof.Config) {aw : Nat} (i ib : BitVec aw) : Except Refusal PostOut :=
  match (ib.extractLsb' (aw - 3) 3).toNat with
  | 0 => .ok (plainPost (i + ib))
  | 1 => .error .reservedMode
  | 2 => require (c.amm.getLsbD 0) .reservedMode (moduloPost i ib 2)
  | 3 => require (c.amm.getLsbD 0) .reservedMode (moduloPost i ib (-2))
  | 4 => require (c.amm.getLsbD 0) .reservedMode (moduloPost i ib 1)
  | 5 => require (c.amm.getLsbD 0) .reservedMode (moduloPost i ib (-1))
  | 6 => require (c.amm.getLsbD 1) .reservedMode (.ok (bitReversedPost i ib))
  | _ => .ok (plainPost (i + ib))

/-- Post-modification (R231, R232). A step of 0 leaves the index register unwritten, and the flag is that of the
unchanged register (R223, R236). -/
def postModify (c : Sys2Proof.Config) {aw : Nat} (i ib : BitVec aw) : Post → Except Refusal PostOut
  | .step k => .ok (if k = 0 then ⟨none, i.msb⟩ else plainPost (i + k.signExtend aw))
  | .byPair => pairPost c i ib

/-- An index register at its width da (R26). -/
def State.index (s : State) (r : IReg) : BitVec s.cfg.da := (s.idx.get r).setWidth s.cfg.da

/-- The post-modification of an index register in a state. -/
def postOf (s : State) (r : IReg) (p : Post) : Except Refusal PostOut :=
  postModify s.cfg (s.index r) (s.index r.pair) p

/-! ## Moves -/

/-- What a data bus carries in a word. -/
inductive BusMove where
  | idle
  | mem (m : FullMove)
  | reg (src dst : FReg)
  deriving DecidableEq, Repr

/-- The moves of a word (R220). -/
structure Moves where
  x : BusMove
  y : BusMove
  deriving DecidableEq, Repr

/-- No move. -/
def Moves.idle : Moves := ⟨.idle, .idle⟩

/-- One move on a bus. -/
def Moves.on (bus : Space) (m : BusMove) : Moves :=
  match bus with
  | .x => ⟨m, .idle⟩
  | .y => ⟨.idle, m⟩

/-- Two memory moves. -/
def Moves.both (x y : FullMove) : Moves := ⟨.mem x, .mem y⟩

/-- The moves of a parallel field (R118). A register move occupies both buses and is read on X (R245). -/
def PMove.moves : PMove → Moves
  | .full bus m => Moves.on bus (.mem m)
  | .short x y => Moves.both x.toFull y.toFull
  | .reg src dst => ⟨.reg src dst, .idle⟩

/-- The moves an instruction holds (R220). -/
def Instr.moves : Instr → Moves
  | .add _ _ _ pm | .addc _ _ _ pm | .sub _ _ _ pm | .subc _ _ _ pm => PMove.moves pm
  | .and _ _ _ pm | .or _ _ _ pm | .xor _ _ _ pm => PMove.moves pm
  | .lsl _ _ pm | .lslc _ _ pm | .not _ _ pm => PMove.moves pm
  | .abs _ _ pm | .asr _ _ pm | .lsr _ _ pm | .lsrc _ _ pm => PMove.moves pm
  | .nopAlu pm => PMove.moves pm
  | .mac _ _ _ _ pm | .msu _ _ _ _ pm => PMove.moves pm
  | .mulss _ _ pm | .mulsu _ _ pm | .mulus _ _ pm | .muluu _ _ pm => PMove.moves pm
  | .resp _ _ => Moves.idle
  | .ldc _ _ | .nop _ => Moves.idle
  | .ldxPar ix post dst => Moves.on .x (.mem ⟨.load, ix, post, dst⟩)
  | .ldyPar ix post dst => Moves.on .y (.mem ⟨.load, ix, post, dst⟩)
  | .stxPar ix post src => Moves.on .x (.mem ⟨.store, ix, post, src⟩)
  | .styPar ix post src => Moves.on .y (.mem ⟨.store, ix, post, src⟩)
  | .ldxShort ix mod dst other => Moves.both (ShortMove.toFull ⟨.load, ix, mod, dst⟩) other.toFull
  | .ldyShort ix mod dst other => Moves.both other.toFull (ShortMove.toFull ⟨.load, ix, mod, dst⟩)
  | .stxShort ix mod src other => Moves.both (ShortMove.toFull ⟨.store, ix, mod, src⟩) other.toFull
  | .styShort ix mod src other => Moves.both other.toFull (ShortMove.toFull ⟨.store, ix, mod, src⟩)
  | .ldxDbl ix post dst other => Moves.both ⟨.load, ix, post, dst⟩ other
  | .stxDbl ix post src other => Moves.both ⟨.store, ix, post, src⟩ other
  | .ldyDbl ix post dst => Moves.both FullMove.nop ⟨.load, ix, post, dst⟩
  | .styDbl ix post src => Moves.both FullMove.nop ⟨.store, ix, post, src⟩
  | .nopPar => Moves.on .x (.mem FullMove.nop)
  | .mvxPar src dst => PMove.moves (.reg src dst)
  | .mvxDbl xsrc xdst ysrc ydst => ⟨.reg xsrc xdst, .reg ysrc ydst⟩
  | .mvyDbl src dst => ⟨.idle, .reg src dst⟩
  | .jcc _ _ | .j _ | .callcc _ _ | .jmpi _ _ _ | .jrcc _ | .jr | .jrccPage _ _ => Moves.idle
  | .reti | .retiPage _ | .loop _ _ | .halt => Moves.idle

/-- What a move does, computed from the state before the word (R222). -/
structure MoveFx where
  store : Option (DAddr × Word)
  index : Option (IReg × DAddr)
  flag : Option Bool
  load : Option (FReg × Word)
  deriving DecidableEq, Repr

/-- A bus without effect. -/
def MoveFx.none : MoveFx := ⟨Option.none, Option.none, Option.none, Option.none⟩

/-- The effect of a load's or store's address ALU and data part together (R241, R243). -/
def MoveFx.ofPost (ix : IReg) (p : PostOut) (store : Option (DAddr × Word)) (load : Option (FReg × Word)) :
    MoveFx :=
  ⟨store, p.index.map fun v => (ix, v), some p.flag, load⟩

/-- A load (R241, R242). To NULL: the index register and the flag only (R224). To the move NOP register: nothing,
and no access, but for the cells of U-NULL-READ (R247, R77; log 14). -/
def loadFx (bus : Space) (m : FullMove) (s : State) : Except Refusal MoveFx :=
  if m.reg = .nop then andThen (nopAccess bus (s.idx.get m.ix) s) fun _ => .ok MoveFx.none
  else
    andThen (postOf s m.ix m.post) fun p =>
      if m.reg = .null then
        andThen (discardData bus (s.idx.get m.ix) s) fun _ => .ok (MoveFx.ofPost m.ix p none none)
      else
        andThen (checkWrite m.reg s) fun _ =>
          andThen (loadData bus (s.idx.get m.ix) s) fun v => .ok (MoveFx.ofPost m.ix p none (some (m.reg, v)))

/-- A store (R243, R244). -/
def storeFx (bus : Space) (m : FullMove) (s : State) : Except Refusal MoveFx :=
  andThen (readReg bus m.reg s) fun v =>
    andThen (postOf s m.ix m.post) fun p =>
      andThen (checkStore bus (s.idx.get m.ix) s) fun _ =>
        .ok (MoveFx.ofPost m.ix p (some (s.idx.get m.ix, v)) none)

/-- A register move (R245, R246): a move from the NOP register is no source (R227). -/
def regMoveFx (bus : Space) (src dst : FReg) (s : State) : Except Refusal MoveFx :=
  andThen (readReg bus src s) fun v =>
    andThen (checkWrite dst s) fun _ => .ok ⟨none, none, none, some (dst, v)⟩

/-- The effect of what a bus carries. -/
def moveFx (bus : Space) (b : BusMove) (s : State) : Except Refusal MoveFx :=
  match b with
  | .idle => .ok MoveFx.none
  | .mem m =>
    match m.dir with
    | .load => loadFx bus m s
    | .store => storeFx bus m s
  | .reg src dst => regMoveFx bus src dst s

/-- The registers a load's target stands for (R223, R24). -/
def loadCells : Option (FReg × Word) → List FReg
  | some (r, _) => FReg.cells r
  | none => []

/-- The index register a post-modification writes. -/
def indexCells : Option (IReg × DAddr) → List FReg
  | some (r, _) => [.ireg r]
  | none => []

/-- The registers a move writes (R223). -/
def MoveFx.cells (f : MoveFx) : List FReg := loadCells f.load ++ indexCells f.index

/-- Whether no register is written twice in a word (R223). -/
def noCollision {c : Sys2Proof.Config} (a : AluFx c) (x y : MoveFx) : Bool :=
  decide (AluWrite.cells a.result ++ MoveFx.cells x ++ MoveFx.cells y).Nodup

/-! ## Applying the effects of a word -/

/-- Write the result of the ALU (R152). -/
def putResult {c : Sys2Proof.Config} (w : AluWrite c) (s : State) : State :=
  match w with
  | .none => s
  | .reg r v => { s with regs := s.regs.write c r v }
  | .acc x v => { s with regs := s.regs.writeAccum c x v }

/-- Write the ALU flags (R153 to R157). -/
def putFlags (f : Option AluFlags) (s : State) : State :=
  match f with
  | some f => s.putBits aluBits f.bits
  | none => s

/-- Write P (R25). -/
def putProduct {w : Nat} (p : Option (BitVec w)) (s : State) : State :=
  match p with
  | some p => { s with p := p.setWidth 128 }
  | none => s

/-- Everything the ALU or multiplier part writes. -/
def putAlu {c : Sys2Proof.Config} (a : AluFx c) (s : State) : State :=
  putProduct a.product (putFlags a.flags (putResult a.result s))

/-- Write a post-modified index register (R230). -/
def putIndex (f : Option (IReg × DAddr)) (s : State) : State :=
  match f with
  | some (r, v) => { s with idx := s.idx.put r v }
  | none => s

/-- Write the index flag of a bus (R236). -/
def putIndexFlag (bus : Space) (f : Option Bool) (s : State) : State :=
  match f with
  | some b => s.putFlag (indexFlag bus) b
  | none => s

/-- Make the store of a bus (R243). -/
def putStore (bus : Space) (f : Option (DAddr × Word)) (s : State) : State :=
  match f with
  | some (a, v) => storeData bus a v s
  | none => s

/-- Write the register a move loads (R224). -/
def putLoad (f : Option (FReg × Word)) (s : State) : State :=
  match f with
  | some (r, v) => writeReg r v s
  | none => s

/-- The index register, the flag and the store of a move. -/
def putMove (bus : Space) (f : MoveFx) (s : State) : State :=
  putStore bus f.store (putIndexFlag bus f.flag (putIndex f.index s))

/-- All writes of a word (R222). The loads come last: a load of MR0 overrides every flag (R31, R223); no other order
can be seen, since no register is written twice. -/
def applyWord {c : Sys2Proof.Config} (a : AluFx c) (x y : MoveFx) (s : State) : State :=
  putLoad y.load (putLoad x.load (putMove .y y (putMove .x x (putAlu a s))))

/-- A word's moves and its ALU or multiplier part, executed together (R220 to R223). -/
def runParts {c : Sys2Proof.Config} (a : AluFx c) (m : Moves) (s : State) : Except Refusal State :=
  andThen (moveFx .x m.x s) fun x =>
    andThen (moveFx .y m.y s) fun y =>
      require (noCollision a x y) .doubleWrite (.ok (applyWord a x y s))

/-- One instruction word: the ALU or multiplier part given, and the moves it holds. -/
def runWord (i : Instr) (s : State) (a : AluFx s.cfg) : Except Refusal State :=
  require (i.wellFormed s.cfg) (.reserved .notAvailable) (runParts a (Instr.moves i) s)

/-- The execution units of the double register move (R245); NULL and the NOP register belong to none (log 26). -/
inductive ExecUnit where
  | alu
  | dag
  | pcu
  deriving DecidableEq, Repr

def execUnit : FReg → Option ExecUnit
  | .areg _ | .guard _ => some .alu
  | .ireg _ => some .dag
  | .lr0 | .lr1 | .mr0 | .mr1 | .lc | .ls | .le | .ipr0 | .ipr1 => some .pcu
  | .null | .nop => none

/-- The units of a double register move's half differ (R245). -/
def unitsDiffer (src dst : FReg) : Bool := decide (execUnit src ≠ execUnit dst) || (execUnit src).isNone

/-- A double register move (R245, R246): it exists on the core, then `units` says that its halves are each between
different units, then it executes (log 6: the order among the tags). -/
def runBetweenUnits (units : Bool) (i : Instr) (s : State) : Except Refusal State :=
  require (i.wellFormed s.cfg) (.reserved .notAvailable)
    (require units .mvUnit (runParts (AluFx.none : AluFx s.cfg) (Instr.moves i) s))

end Sys2Proof.Machine
end

