-- ==== Sys2Proof/Machine/Arith.lean ====
section
/-! DEFINITION. The ALU arithmetic instructions (40_alu_arithmetic.md R160 to R166). -/

namespace Sys2Proof.Machine

/-- ADD (R161). -/
def execAdd (op1 op2 : AOp) (res : AReg) (pm : PMove) (s : State) : Host.Outcome State Fault Refusal :=
  outcome (runWord (.add op1 op2 res pm) s (alu2Fx s op1 op2 res (narrowSum s false) (wideSum s false)))

/-- ADDC (R162): the carry in is the C of before the instruction. -/
def execAddc (op1 op2 : AOp) (res : AReg) (pm : PMove) (s : State) : Host.Outcome State Fault Refusal :=
  outcome (runWord (.addc op1 op2 res pm) s
    (alu2Fx s op1 op2 res (narrowSum s (s.flag .c)) (wideSum s (s.flag .c))))

/-- SUB (R163). -/
def execSub (op1 op2 : AOp) (res : AReg) (pm : PMove) (s : State) : Host.Outcome State Fault Refusal :=
  outcome (runWord (.sub op1 op2 res pm) s (alu2Fx s op1 op2 res (narrowDiff s false) (wideDiff s false)))

/-- SUBC (R164): the borrow in is the C of before the instruction. -/
def execSubc (op1 op2 : AOp) (res : AReg) (pm : PMove) (s : State) : Host.Outcome State Fault Refusal :=
  outcome (runWord (.subc op1 op2 res pm) s
    (alu2Fx s op1 op2 res (narrowDiff s (s.flag .c)) (wideDiff s (s.flag .c))))

/-- LSL (R165): the operand added to itself, with the saturation and rounding of ADD. -/
def execLsl (op : AOp) (res : AReg) (pm : PMove) (s : State) : Host.Outcome State Fault Refusal :=
  outcome (runWord (.lsl op res pm) s (alu2Fx s op op res (narrowSum s false) (wideSum s false)))

/-- LSLC (R166): the operand added to itself with the carry in. -/
def execLslc (op : AOp) (res : AReg) (pm : PMove) (s : State) : Host.Outcome State Fault Refusal :=
  outcome (runWord (.lslc op res pm) s
    (alu2Fx s op op res (narrowSum s (s.flag .c)) (wideSum s (s.flag .c))))

/-- ABS (R160). -/
def execAbs (op : AOp) (res : AReg) (pm : PMove) (s : State) : Host.Outcome State Fault Refusal :=
  outcome (runWord (.abs op res pm) s (alu1Fx s op res (narrowAbs s) (wideAbs s)))

end Sys2Proof.Machine
end

