-- ==== Sys2Proof/Machine/Traits.lean ====
section
/-! DEFINITION. What the instruction cycle asks of an instruction besides its effect: whether it changes the flow,
clears L, loads a register, and which MR0 bits it writes (44_control.md R284 to R286, 70_reset_and_hazards.md
R392, R393). -/

namespace Sys2Proof.Machine

/-- J, Jcc, CALLcc, JRcc, RETI and LOOP: the instructions that clear L (R286), have a delay slot (R285), and change
the flow from the interrupts' point of view (R339). -/
def Instr.clearsLoopFlag : Instr → Bool
  | .jcc _ _ | .j _ | .callcc _ _ | .jrcc _ | .jr | .jrccPage _ _ | .reti | .retiPage _ | .loop _ _ => true
  | .jmpi _ _ _ | .halt => false
  | .add _ _ _ _ | .addc _ _ _ _ | .sub _ _ _ _ | .subc _ _ _ _ => false
  | .and _ _ _ _ | .or _ _ _ _ | .xor _ _ _ _ | .lsl _ _ _ | .lslc _ _ _ | .not _ _ _ => false
  | .abs _ _ _ | .asr _ _ _ | .lsr _ _ _ | .lsrc _ _ _ | .nopAlu _ => false
  | .mac _ _ _ _ _ | .msu _ _ _ _ _ | .mulss _ _ _ | .mulsu _ _ _ | .mulus _ _ _ | .muluu _ _ _ => false
  | .resp _ _ | .ldc _ _ | .nop _ => false
  | .ldxPar _ _ _ | .ldyPar _ _ _ | .stxPar _ _ _ | .styPar _ _ _ => false
  | .ldxShort _ _ _ _ | .ldyShort _ _ _ _ | .stxShort _ _ _ _ | .styShort _ _ _ _ => false
  | .ldxDbl _ _ _ _ | .stxDbl _ _ _ _ | .ldyDbl _ _ _ | .styDbl _ _ _ | .nopPar => false
  | .mvxPar _ _ | .mvxDbl _ _ _ _ | .mvyDbl _ _ => false

/-- JMPI. -/
def Instr.isJmpi : Instr → Bool
  | .jmpi _ _ _ => true
  | _ => false

/-- The change-of-flow instructions of R285: those that clear L, and JMPI. -/
def Instr.isFlow (i : Instr) : Bool := Instr.clearsLoopFlag i || Instr.isJmpi i

/-- Whether a bus carries a value into the register (R284, R337). -/
def BusMove.loads (f : FReg) : BusMove → Bool
  | .idle => false
  | .mem m => decide (m.dir = .load ∧ m.reg = f)
  | .reg _ dst => decide (dst = f)

/-- Whether one of the moves loads the register. -/
def Moves.loads (f : FReg) (m : Moves) : Bool := BusMove.loads f m.x || BusMove.loads f m.y

/-- Whether a word is an LDC to the register. -/
def Instr.isLdcTo (f : FReg) : Instr → Bool
  | .ldc _ r => decide (r = f)
  | _ => false

/-- Whether an instruction loads the register by a move or LDC. -/
def Instr.loads (f : FReg) (i : Instr) : Bool := Moves.loads f (Instr.moves i) || Instr.isLdcTo f i

/-- Whether an instruction loads a loop register over a data bus (R284, R392). -/
def Instr.busLoadsLoop (i : Instr) : Bool :=
  Moves.loads .le (Instr.moves i) || Moves.loads .lc (Instr.moves i) || Moves.loads .ls (Instr.moves i)

/-- Whether a bus carries a memory move that is not the move NOP: it evaluates the index flag (R236). -/
def BusMove.indexes : BusMove → Bool
  | .idle => false
  | .mem m => !m.isNop
  | .reg _ _ => false

/-- The index flags the moves write. -/
def Moves.indexBits (m : Moves) : PAddr :=
  (if BusMove.indexes m.x then MrBit.x.mask else 0) ||| (if BusMove.indexes m.y then MrBit.y.mask else 0)

/-- Whether an ALU operation evaluates Z, N, V, E and C (R393). -/
def Instr.writesAluFlags : Instr → Bool
  | .add _ _ _ _ | .addc _ _ _ _ | .sub _ _ _ _ | .subc _ _ _ _ => true
  | .and _ _ _ _ | .or _ _ _ _ | .xor _ _ _ _ | .lsl _ _ _ | .lslc _ _ _ | .not _ _ _ => true
  | .abs _ _ _ | .asr _ _ _ | .lsr _ _ _ | .lsrc _ _ _ => true
  | .mac _ _ _ _ _ | .msu _ _ _ _ _ => true
  | .nopAlu _ | .mulss _ _ _ | .mulsu _ _ _ | .mulus _ _ _ | .muluu _ _ _ => false
  | .resp _ _ | .ldc _ _ | .nop _ => false
  | .ldxPar _ _ _ | .ldyPar _ _ _ | .stxPar _ _ _ | .styPar _ _ _ => false
  | .ldxShort _ _ _ _ | .ldyShort _ _ _ _ | .stxShort _ _ _ _ | .styShort _ _ _ _ => false
  | .ldxDbl _ _ _ _ | .stxDbl _ _ _ _ | .ldyDbl _ _ _ | .styDbl _ _ _ | .nopPar => false
  | .mvxPar _ _ | .mvxDbl _ _ _ _ | .mvyDbl _ _ => false
  | .jcc _ _ | .j _ | .callcc _ _ | .jmpi _ _ _ | .jrcc _ | .jr | .jrccPage _ _ => false
  | .reti | .retiPage _ | .loop _ _ | .halt => false

/-- The MR0 bits an instruction writes (R393): what the cycle puts into PREVFLAGS. -/
def Instr.flagsWritten (i : Instr) : PAddr :=
  if Instr.loads .mr0 i then allBits
  else
    (if Instr.writesAluFlags i then aluBits else 0) ||| Moves.indexBits (Instr.moves i) |||
      (if Instr.clearsLoopFlag i then MrBit.l.mask else 0)

/-- Whether a bus carries a store to INT_GLOB_EN (R333). -/
def BusMove.enables (bus : Space) (s : State) : BusMove → Bool
  | .idle => false
  | .mem m => decide (m.dir = .store) && Config.isEnable s.cfg bus (s.idx.get m.ix)
  | .reg _ _ => false

/-- Whether an instruction stores to INT_GLOB_EN (R333). -/
def Instr.enables (s : State) (i : Instr) : Bool :=
  BusMove.enables .x s (Instr.moves i).x || BusMove.enables .y s (Instr.moves i).y

/-- Whether a slot holds a change-of-flow instruction of R285, JMPI among them, in every rule that asks for D (R284,
R285, R339, R341): R339's own list leaves JMPI out, so a JMPI kept as the third instruction of an interrupt sequence
is the model's choice (log 28). An empty or cancelled slot, and a word that is no instruction, is none (R134). -/
def slotIsFlow (c : Sys2Proof.Config) : Option Slot → Bool
  | some d => !d.cancelled && (match decode c d.word with
    | .ok i => Instr.isFlow i
    | .error _ => false)
  | none => false

/-- Whether a fetched word is a change-of-flow instruction (R284). -/
def wordIsFlow (c : Sys2Proof.Config) (w : IWord) : Bool :=
  match decode c w with
  | .ok i => Instr.isFlow i
  | .error _ => false

end Sys2Proof.Machine
end

