-- ==== Sys2Proof/Machine/Control.lean ====
section
/-! DEFINITION. The control instructions (44_control.md R283 to R299). A meaning leaves NFA in the field pc: the cycle
fetches from there and then writes PC (R282, R283; log 6). -/

namespace Sys2Proof.Machine

/-- The common part of J, Jcc, CALLcc, JRcc, RETI and LOOP: the checks of R288 and R285, then the effect. -/
def changeFlow (i : Instr) (c : Cond) (s t : State) : Except Refusal State :=
  require (i.wellFormed s.cfg) (.reserved .notAvailable)
    (require (Cond.ready c s) .condHazard
      (require (!slotIsFlow s.cfg s.de) .cofDelay (.ok t)))

/-- `pc <- target` under a condition, and L cleared whether or not it holds (R283, R286, R291). -/
def jumpTo (c : Cond) (target : PAddr) (s : State) : State :=
  { s.clearLoopFlag with pc := if Cond.holds c s then target else s.pc }

/-- The page an index register names: its pa-bit value, as a register move on bus X would bring it (R293, R225; log
10). -/
def pageOf (s : State) (ix : IReg) : PAddr := trunc s.cfg.pa (onBus s .x s.cfg.da (s.regValue (.ireg ix)))

/-- IPR0 takes the page of an index register when the condition holds (R293, R296). -/
def withPage (c : Cond) (ix : IReg) (s t : State) : State :=
  { t with ipr0 := if Cond.holds c s then pageOf s ix else s.ipr0 }

/-- The pa-bit address of an address field (R125, R130). -/
def addressOf (c : Sys2Proof.Config) {w : Nat} (addr : BitVec w) : PAddr := trunc c.pa addr

/-- Jcc (R291). -/
def execJcc (cond : Cond) (addr : BitVec 18) (s : State) : Host.Outcome State Fault Refusal :=
  outcome (changeFlow (.jcc cond addr) cond s (jumpTo cond (addressOf s.cfg addr) s))

/-- J (R290): Jcc with the condition always. -/
def execJ (addr : BitVec 18) (s : State) : Host.Outcome State Fault Refusal :=
  outcome (changeFlow (.j addr) .always s (jumpTo .always (addressOf s.cfg addr) s))

/-- CALLcc (R292): LR0 takes the register PC, whether or not the condition holds. -/
def execCallcc (cond : Cond) (addr : BitVec 18) (s : State) : Host.Outcome State Fault Refusal :=
  outcome (changeFlow (.callcc cond addr) cond s { jumpTo cond (addressOf s.cfg addr) s with lr0 := s.pc })

/-- The index update of JMPI, da bits wide (R294). -/
def stepIndex (c : Sys2Proof.Config) (step : JmpiStep) (v : DAddr) : DAddr :=
  match step with
  | .none => v
  | .inc => trunc c.da (v + 1)
  | .dec => trunc c.da (v - 1)

/-- Cancel the instruction that has been fetched behind X (R281 part (g)). -/
def State.cancelDe (s : State) : State :=
  { s with de := s.de.map fun d => { d with cancelled := true } }

/-- JMPI (R294, R340): the jump goes to page 0 and cancels the word behind it; no flag changes. -/
def execJmpi (addr : BitVec 18) (step : JmpiStep) (ix : IReg) (s : State) : Host.Outcome State Fault Refusal :=
  outcome (require ((Instr.jmpi addr step ix).wellFormed s.cfg) (.reserved .notAvailable)
    (require (decide (s.ic ≠ .c2)) .jmpiInt
      (.ok { s.cancelDe with
        pc := addressOf s.cfg addr
        ipr0 := if s.cfg.hasIpr then 0 else s.ipr0
        idx := s.idx.put ix (stepIndex s.cfg step (s.idx.get ix)) })))

/-- JRcc (R293). -/
def execJrcc (cond : Cond) (s : State) : Host.Outcome State Fault Refusal :=
  outcome (changeFlow (.jrcc cond) cond s (jumpTo cond s.lr0 s))

/-- JR (R293): JRcc with the condition always. -/
def execJr (s : State) : Host.Outcome State Fault Refusal :=
  outcome (changeFlow .jr .always s (jumpTo .always s.lr0 s))

/-- JRcc (Op1) (R293): the page comes from an index register when the jump is taken. -/
def execJrccPage (cond : Cond) (ix : IReg) (s : State) : Host.Outcome State Fault Refusal :=
  outcome (changeFlow (.jrccPage cond ix) cond s (withPage cond ix s (jumpTo cond s.lr0 s)))

/-- RETI (R296). -/
def execReti (s : State) : Host.Outcome State Fault Refusal :=
  outcome (changeFlow .reti .always s (returnFromInterrupt s))

/-- RETI (Op1) (R296). -/
def execRetiPage (ix : IReg) (s : State) : Host.Outcome State Fault Refusal :=
  outcome (changeFlow (.retiPage ix) .always s (withPage .always ix s (returnFromInterrupt s)))

/-- LOOP (R297): LE, LC and LS; the count is read as a register move on bus X would bring it, adapted to pa bits
(R225, R226; log 10). -/
def execLoop (count : FReg) (addr : BitVec 20) (s : State) : Host.Outcome State Fault Refusal :=
  outcome (require ((Instr.loop count addr).wellFormed s.cfg) (.reserved .notAvailable)
    (andThen (readReg .x count s) fun n =>
      changeFlow (.loop count addr) .always s
        { s.clearLoopFlag with le := addressOf s.cfg addr, lc := trunc s.cfg.pa n, ls := s.pc }))

/-- HALT (R299): nothing unless the interrupt controller is idle; the cycle runs to its end before the core stops. -/
def execHalt (s : State) : Host.Outcome State Fault Refusal :=
  outcome (require (Instr.halt.wellFormed s.cfg) (.reserved .notAvailable)
    (.ok (if s.ic = .idle then { s with halted := true } else s)))

end Sys2Proof.Machine
end

