-- ==== Sys2Proof/Machine/Logic.lean ====
section
/-! DEFINITION. The ALU logic and right shift instructions and the ALU NOP (41_alu_logic_shift.md R180 to
R188). -/

namespace Sys2Proof.Machine

/-- AND (R181). -/
def execAnd (op1 op2 : AOp) (res : AReg) (pm : PMove) (s : State) : Host.Outcome State Fault Refusal :=
  outcome (runWord (.and op1 op2 res pm) s
    (alu2Fx s op1 op2 res (fun a b => bitsOut narrowExt (a &&& b) false)
      (fun a b => bitsOut (wideExt s.cfg) (a &&& b) false)))

/-- OR (R182). -/
def execOr (op1 op2 : AOp) (res : AReg) (pm : PMove) (s : State) : Host.Outcome State Fault Refusal :=
  outcome (runWord (.or op1 op2 res pm) s
    (alu2Fx s op1 op2 res (fun a b => bitsOut narrowExt (a ||| b) false)
      (fun a b => bitsOut (wideExt s.cfg) (a ||| b) false)))

/-- XOR (R183). -/
def execXor (op1 op2 : AOp) (res : AReg) (pm : PMove) (s : State) : Host.Outcome State Fault Refusal :=
  outcome (runWord (.xor op1 op2 res pm) s
    (alu2Fx s op1 op2 res (fun a b => bitsOut narrowExt (a ^^^ b) false)
      (fun a b => bitsOut (wideExt s.cfg) (a ^^^ b) false)))

/-- NOT (R184): the complement of the operand, at the operand's width. -/
def execNot (op : AOp) (res : AReg) (pm : PMove) (s : State) : Host.Outcome State Fault Refusal :=
  outcome (runWord (.not op res pm) s
    (alu1Fx s op res (fun a => bitsOut narrowExt (~~~a) false) (fun a => bitsOut (wideExt s.cfg) (~~~a) false)))

/-- ASR (R185): the sign enters at the top. -/
def execAsr (op : AOp) (res : AReg) (pm : PMove) (s : State) : Host.Outcome State Fault Refusal :=
  outcome (runWord (.asr op res pm) s
    (alu1Fx s op res (fun b => shiftOut s.cfg.n narrowExt b.msb b)
      (fun b => shiftOut s.cfg.accWidth (wideExt s.cfg) b.msb b)))

/-- LSR (R186): a zero enters at the top. -/
def execLsr (op : AOp) (res : AReg) (pm : PMove) (s : State) : Host.Outcome State Fault Refusal :=
  outcome (runWord (.lsr op res pm) s
    (alu1Fx s op res (shiftOut s.cfg.n narrowExt false) (shiftOut s.cfg.accWidth (wideExt s.cfg) false)))

/-- LSRC (R187): the C of before the instruction enters at the top. -/
def execLsrc (op : AOp) (res : AReg) (pm : PMove) (s : State) : Host.Outcome State Fault Refusal :=
  outcome (runWord (.lsrc op res pm) s
    (alu1Fx s op res (shiftOut s.cfg.n narrowExt (s.flag .c)) (shiftOut s.cfg.accWidth (wideExt s.cfg) (s.flag .c))))

/-- NOP in the ALU field (R188): the parallel move alone. -/
def execNopAlu (pm : PMove) (s : State) : Host.Outcome State Fault Refusal :=
  outcome (runWord (.nopAlu pm) s AluFx.none)

end Sys2Proof.Machine
end

