-- ==== Sys2Proof/Machine/Move.lean ====
section
/-! DEFINITION. The move instructions in their full, short and double forms, LDC, the register moves and the NOPs
(43_moves.md R240 to R247). -/

namespace Sys2Proof.Machine

/-- LDC (R240, R124): a register takes the sign extended constant, of which a register narrower than the constant takes
the low bits. -/
def execLdc (imm : BitVec 23) (reg : FReg) (s : State) : Host.Outcome State Fault Refusal :=
  outcome (require ((Instr.ldc imm reg).wellFormed s.cfg) (.reserved .notAvailable)
    (andThen (checkWrite reg s) fun _ => .ok (writeReg reg (imm.signExtend 64) s)))

/-- The total NOP (R247). -/
def execNop (imm : BitVec 23) (s : State) : Host.Outcome State Fault Refusal :=
  outcome (runWord (.nop imm) s AluFx.none)

/-- LDX beside the ALU NOP (R241). -/
def execLdxPar (ix : IReg) (post : Post) (dst : FReg) (s : State) : Host.Outcome State Fault Refusal :=
  outcome (runWord (.ldxPar ix post dst) s AluFx.none)

/-- LDY beside the ALU NOP (R242). -/
def execLdyPar (ix : IReg) (post : Post) (dst : FReg) (s : State) : Host.Outcome State Fault Refusal :=
  outcome (runWord (.ldyPar ix post dst) s AluFx.none)

/-- STX beside the ALU NOP (R243). -/
def execStxPar (ix : IReg) (post : Post) (src : FReg) (s : State) : Host.Outcome State Fault Refusal :=
  outcome (runWord (.stxPar ix post src) s AluFx.none)

/-- STY beside the ALU NOP (R244). -/
def execStyPar (ix : IReg) (post : Post) (src : FReg) (s : State) : Host.Outcome State Fault Refusal :=
  outcome (runWord (.styPar ix post src) s AluFx.none)

/-- The short LDX with a short move on Y (R241). -/
def execLdxShort (ix : IReg) (mod : Bool) (dst : AReg) (other : ShortMove) (s : State) :
    Host.Outcome State Fault Refusal :=
  outcome (runWord (.ldxShort ix mod dst other) s AluFx.none)

/-- The short LDY with a short move on X (R242). -/
def execLdyShort (ix : IReg) (mod : Bool) (dst : AReg) (other : ShortMove) (s : State) :
    Host.Outcome State Fault Refusal :=
  outcome (runWord (.ldyShort ix mod dst other) s AluFx.none)

/-- The short STX with a short move on Y (R243). -/
def execStxShort (ix : IReg) (mod : Bool) (src : AReg) (other : ShortMove) (s : State) :
    Host.Outcome State Fault Refusal :=
  outcome (runWord (.stxShort ix mod src other) s AluFx.none)

/-- The short STY with a short move on X (R244). -/
def execStyShort (ix : IReg) (mod : Bool) (src : AReg) (other : ShortMove) (s : State) :
    Host.Outcome State Fault Refusal :=
  outcome (runWord (.styShort ix mod src other) s AluFx.none)

/-- The double full move with LDX in its X half (R241). -/
def execLdxDbl (ix : IReg) (post : Post) (dst : FReg) (other : FullMove) (s : State) :
    Host.Outcome State Fault Refusal :=
  outcome (runWord (.ldxDbl ix post dst other) s AluFx.none)

/-- The double full move with STX in its X half (R243). -/
def execStxDbl (ix : IReg) (post : Post) (src : FReg) (other : FullMove) (s : State) :
    Host.Outcome State Fault Refusal :=
  outcome (runWord (.stxDbl ix post src other) s AluFx.none)

/-- The double full move with the move NOP and LDY (R242). -/
def execLdyDbl (ix : IReg) (post : Post) (dst : FReg) (s : State) : Host.Outcome State Fault Refusal :=
  outcome (runWord (.ldyDbl ix post dst) s AluFx.none)

/-- The double full move with the move NOP and STY (R244). -/
def execStyDbl (ix : IReg) (post : Post) (src : FReg) (s : State) : Host.Outcome State Fault Refusal :=
  outcome (runWord (.styDbl ix post src) s AluFx.none)

/-- The ALU NOP beside the move NOP (R247). -/
def execNopPar (s : State) : Host.Outcome State Fault Refusal := outcome (runWord .nopPar s AluFx.none)

/-- The parallel MVX, beside the ALU NOP (R245). -/
def execMvxPar (src dst : FReg) (s : State) : Host.Outcome State Fault Refusal :=
  outcome (runWord (.mvxPar src dst) s AluFx.none)

/-- The double MVX and MVY (R245, R246). -/
def execMvxDbl (xsrc xdst ysrc ydst : FReg) (s : State) : Host.Outcome State Fault Refusal :=
  outcome (runBetweenUnits (unitsDiffer xsrc xdst && unitsDiffer ysrc ydst) (.mvxDbl xsrc xdst ysrc ydst) s)

/-- MVY: the Y half of the double form, its X half idle (R246; log 26). -/
def execMvyDbl (src dst : FReg) (s : State) : Host.Outcome State Fault Refusal :=
  outcome (runBetweenUnits (unitsDiffer src dst) (.mvyDbl src dst) s)

end Sys2Proof.Machine
end

