-- ==== Sys2Proof/Machine/Multiply.lean ====
section
/-! DEFINITION. The multiplier instructions (42_multiplier.md R203 to R206). -/

namespace Sys2Proof.Machine

/-- MAC (R204): the accumulator takes the sum with the P of before the instruction, P the new product. -/
def execMac (op1 op2 : AReg) (mm : MulMode) (x : Acc) (pm : PMove) (s : State) :
    Host.Outcome State Fault Refusal :=
  outcome (runWord (.mac op1 op2 mm x pm) s
    { wideFx x (wideSum s false (wideOperand s (.acc x)) (wideOperand s .p)) with
      product := some (productOf s mm (s.regs.word s.cfg op1) (s.regs.word s.cfg op2)) })

/-- MSU (R205): as MAC with the difference. -/
def execMsu (op1 op2 : AReg) (mm : MulMode) (x : Acc) (pm : PMove) (s : State) :
    Host.Outcome State Fault Refusal :=
  outcome (runWord (.msu op1 op2 mm x pm) s
    { wideFx x (wideDiff s false (wideOperand s (.acc x)) (wideOperand s .p)) with
      product := some (productOf s mm (s.regs.word s.cfg op1) (s.regs.word s.cfg op2)) })

/-- MULSS (R203). -/
def execMulss (op1 op2 : AReg) (pm : PMove) (s : State) : Host.Outcome State Fault Refusal :=
  outcome (runWord (.mulss op1 op2 pm) s (productFx (productOf s .ss (s.regs.word s.cfg op1) (s.regs.word s.cfg op2))))

/-- MULSU (R203). -/
def execMulsu (op1 op2 : AReg) (pm : PMove) (s : State) : Host.Outcome State Fault Refusal :=
  outcome (runWord (.mulsu op1 op2 pm) s (productFx (productOf s .su (s.regs.word s.cfg op1) (s.regs.word s.cfg op2))))

/-- MULUS (R203). -/
def execMulus (op1 op2 : AReg) (pm : PMove) (s : State) : Host.Outcome State Fault Refusal :=
  outcome (runWord (.mulus op1 op2 pm) s (productFx (productOf s .us (s.regs.word s.cfg op1) (s.regs.word s.cfg op2))))

/-- MULUU (R203). -/
def execMuluu (op1 op2 : AReg) (pm : PMove) (s : State) : Host.Outcome State Fault Refusal :=
  outcome (runWord (.muluu op1 op2 pm) s (productFx (productOf s .uu (s.regs.word s.cfg op1) (s.regs.word s.cfg op2))))

/-- RESP (R206): P1 takes Op2, P0 takes Op1. -/
def execResp (op1 op2 : AReg) (s : State) : Host.Outcome State Fault Refusal :=
  outcome (runWord (.resp op1 op2) s (productFx (s.regs.word s.cfg op2 ++ s.regs.word s.cfg op1)))

end Sys2Proof.Machine
end

