-- ==== Sys2Proof/Machine/Dispatch.lean ====
section
/-! DEFINITION. The dispatch of every instruction to its meaning. -/

namespace Sys2Proof.Machine

def exec (i : Instr) (s : State) : Host.Outcome State Fault Refusal :=
  match i with
  | .add op1 op2 res pm => Sys2Proof.Machine.execAdd op1 op2 res pm s
  | .addc op1 op2 res pm => Sys2Proof.Machine.execAddc op1 op2 res pm s
  | .sub op1 op2 res pm => Sys2Proof.Machine.execSub op1 op2 res pm s
  | .subc op1 op2 res pm => Sys2Proof.Machine.execSubc op1 op2 res pm s
  | .and op1 op2 res pm => Sys2Proof.Machine.execAnd op1 op2 res pm s
  | .or op1 op2 res pm => Sys2Proof.Machine.execOr op1 op2 res pm s
  | .xor op1 op2 res pm => Sys2Proof.Machine.execXor op1 op2 res pm s
  | .lsl op res pm => Sys2Proof.Machine.execLsl op res pm s
  | .lslc op res pm => Sys2Proof.Machine.execLslc op res pm s
  | .not op res pm => Sys2Proof.Machine.execNot op res pm s
  | .abs op res pm => Sys2Proof.Machine.execAbs op res pm s
  | .asr op res pm => Sys2Proof.Machine.execAsr op res pm s
  | .lsr op res pm => Sys2Proof.Machine.execLsr op res pm s
  | .lsrc op res pm => Sys2Proof.Machine.execLsrc op res pm s
  | .nopAlu pm => Sys2Proof.Machine.execNopAlu pm s
  | .mac op1 op2 mm acc pm => Sys2Proof.Machine.execMac op1 op2 mm acc pm s
  | .msu op1 op2 mm acc pm => Sys2Proof.Machine.execMsu op1 op2 mm acc pm s
  | .mulss op1 op2 pm => Sys2Proof.Machine.execMulss op1 op2 pm s
  | .mulsu op1 op2 pm => Sys2Proof.Machine.execMulsu op1 op2 pm s
  | .mulus op1 op2 pm => Sys2Proof.Machine.execMulus op1 op2 pm s
  | .muluu op1 op2 pm => Sys2Proof.Machine.execMuluu op1 op2 pm s
  | .resp op1 op2 => Sys2Proof.Machine.execResp op1 op2 s
  | .ldc imm reg => Sys2Proof.Machine.execLdc imm reg s
  | .nop imm => Sys2Proof.Machine.execNop imm s
  | .ldxPar ix post dst => Sys2Proof.Machine.execLdxPar ix post dst s
  | .ldyPar ix post dst => Sys2Proof.Machine.execLdyPar ix post dst s
  | .stxPar ix post src => Sys2Proof.Machine.execStxPar ix post src s
  | .styPar ix post src => Sys2Proof.Machine.execStyPar ix post src s
  | .ldxShort ix mod dst other => Sys2Proof.Machine.execLdxShort ix mod dst other s
  | .ldyShort ix mod dst other => Sys2Proof.Machine.execLdyShort ix mod dst other s
  | .stxShort ix mod src other => Sys2Proof.Machine.execStxShort ix mod src other s
  | .styShort ix mod src other => Sys2Proof.Machine.execStyShort ix mod src other s
  | .ldxDbl ix post dst other => Sys2Proof.Machine.execLdxDbl ix post dst other s
  | .stxDbl ix post src other => Sys2Proof.Machine.execStxDbl ix post src other s
  | .ldyDbl ix post dst => Sys2Proof.Machine.execLdyDbl ix post dst s
  | .styDbl ix post src => Sys2Proof.Machine.execStyDbl ix post src s
  | .nopPar => Sys2Proof.Machine.execNopPar s
  | .mvxPar src dst => Sys2Proof.Machine.execMvxPar src dst s
  | .mvxDbl xsrc xdst ysrc ydst => Sys2Proof.Machine.execMvxDbl xsrc xdst ysrc ydst s
  | .mvyDbl src dst => Sys2Proof.Machine.execMvyDbl src dst s
  | .jcc cond addr => Sys2Proof.Machine.execJcc cond addr s
  | .j addr => Sys2Proof.Machine.execJ addr s
  | .callcc cond addr => Sys2Proof.Machine.execCallcc cond addr s
  | .jmpi addr step ix => Sys2Proof.Machine.execJmpi addr step ix s
  | .jrcc cond => Sys2Proof.Machine.execJrcc cond s
  | .jr => Sys2Proof.Machine.execJr s
  | .jrccPage cond ix => Sys2Proof.Machine.execJrccPage cond ix s
  | .reti => Sys2Proof.Machine.execReti s
  | .retiPage ix => Sys2Proof.Machine.execRetiPage ix s
  | .loop count addr => Sys2Proof.Machine.execLoop count addr s
  | .halt => Sys2Proof.Machine.execHalt s

end Sys2Proof.Machine
end

