-- ==== Sys2Proof/Machine/Cycle.lean ====
section
/-! DEFINITION. The instruction cycle (44_control.md R281 to R284): the word in the slot EX executes, a word is
fetched, the loop end is checked, the slots move on, and the interrupt controller acts. -/

namespace Sys2Proof.Machine

/-- What stands in the slot EX: an instruction, or nothing when the slot is empty or cancelled (R42). -/
inductive SlotContent where
  | idle
  | run (i : Instr)
  | bad (e : DecodeError)
  deriving DecidableEq, Repr

/-- The content of a slot on a configured core. -/
def slotContent (c : Sys2Proof.Config) : Option Slot → SlotContent
  | none => .idle
  | some d =>
    if d.cancelled then .idle
    else
      match decode c d.word with
      | .ok i => .run i
      | .error e => .bad e

/-- The fetch address plus one, modulo 2^pa (R27, D4). -/
def nextAddress (c : Sys2Proof.Config) (fa : PAddr) : PAddr := trunc c.pa (fa + 1)

/-- The loop end check of R284 and part (f) of R281, on a fetch that is no vector fetch. `suppressed`: X loads a loop
register over a bus; `l`: the L of this cycle; `flowNear`: the fetched word or D is a change-of-flow instruction. `t`
is the state after X, whose LE, LC and LS are the forwarded ones. -/
def loopCheck (suppressed l flowNear : Bool) (fa : PAddr) (t : State) : Except Refusal State :=
  if !t.cfg.hasLoops || suppressed || fa ≠ t.le || l then .ok { t with pc := nextAddress t.cfg fa }
  else
    require (!flowNear) .loopCof
      (.ok (if t.lc = 0 then { t with pc := nextAddress t.cfg fa } else { t with lc := t.lc - 1, pc := t.ls }))

/-- Part (f) of R281 at interrupt cycle 2: no loop end detection; a vector equal to LE with L = 0 is refused (R338).
L and LE are those of the start of the cycle. -/
def vectorCheck (s t : State) (fa : PAddr) : Except Refusal State :=
  require (!(s.cfg.hasLoops && !s.flag .l && fa = s.le)) .vectorLe (.ok { t with pc := nextAddress t.cfg fa })

/-- The fetch address (R281 part (c)): the vector at interrupt cycle 2, else NFA. -/
def fetchAddress (s t : State) : PAddr := if s.ic = .c2 then s.vector else t.pc

/-- The page of the fetch (R282, R338): page 0 for the vector, and everywhere on a core without page registers. -/
def fetchPage (s t : State) : PAddr := if s.ic = .c2 ∨ s.cfg.hasIpr = false then 0 else t.ipr0

/-- Part (g) of R281: the slots move on. -/
def shiftSlots (page fa : PAddr) (w : IWord) (t : State) : State :=
  { t with ex := t.de, de := some ⟨page, fa, w, false⟩ }

/-- What a cycle needs to know of X (R281): its traits, or those of a NOP. -/
structure XTraits where
  flow : Bool
  busLoadsLoop : Bool
  loadsLr1 : Bool
  enables : Bool
  flags : PAddr
  deriving DecidableEq, Repr

/-- The traits of an empty or cancelled slot (R42). -/
def XTraits.idle : XTraits := ⟨false, false, false, false, 0⟩

/-- The traits of an instruction. -/
def XTraits.of (s : State) (i : Instr) : XTraits :=
  ⟨Instr.clearsLoopFlag i, Instr.busLoadsLoop i, Instr.loads .lr1 i, Instr.enables s i, Instr.flagsWritten i⟩

/-- Whether the fetch address is the LE the comparison of this cycle used (R337): the forwarded LE, or the old one
when X loads a loop register over a bus (log 22). -/
def atLoopEnd (x : XTraits) (s t : State) (fa : PAddr) : Bool :=
  s.cfg.hasLoops && decide (fa = if x.busLoadsLoop then s.le else t.le)

/-- What the interrupt controller sees of the cycle from `s` in which X led to `t`. -/
def cycleView (x : XTraits) (s t : State) : CycleView where
  flow := x.flow
  nextFlow := slotIsFlow s.cfg t.de
  loadsLr1 := x.loadsLr1
  enables := x.enables
  nfa := t.pc
  fa := fetchAddress s t
  atLoopEnd := atLoopEnd x s t (fetchAddress s t)

/-- The rest of a cycle that began in `s` and in which X led to `t` (R281 parts (b) to (d) and (f) to (i)). -/
def finishCycle (x : XTraits) (s t : State) : Except Refusal State :=
  andThen (fetch (fetchPage s t) (fetchAddress s t) t) fun w =>
    andThen
      (if s.ic = .c2 then vectorCheck s t (fetchAddress s t)
       else loopCheck x.busLoadsLoop (!x.flow && s.flag .l) (wordIsFlow s.cfg w || slotIsFlow s.cfg t.de)
        (fetchAddress s t) t) fun u =>
      andThen (interruptEntry (cycleView x s t) s (shiftSlots (fetchPage s t) (fetchAddress s t) w u)) fun v =>
        .ok { v with prevFlags := x.flags }

/-- A cycle from an executed instruction on. -/
def afterExec (x : XTraits) (s : State) : Host.Outcome State Fault Refusal → Except Refusal State
  | .next t => finishCycle x s t
  | .fault f => nomatch f
  | .refused r => .error r

/-- A running cycle (R281): reset inactive, not halted. -/
def runningCycle (s : State) : Except Refusal State :=
  match slotContent s.cfg s.ex with
  | .idle => finishCycle XTraits.idle s s
  | .run i => afterExec (XTraits.of s i) s (exec i s)
  | .bad e => .error (.reserved e)

/-- The input of the cycle is used up and the counter advances (log 8, log 9). -/
def State.advance (s : State) : State := { s with inputs := s.inputs.tail, tick := s.tick + 1 }

/-- Finish a cycle, whatever kind it was. -/
def advanced : Except Refusal State → Except Refusal State
  | .ok s => .ok s.advance
  | .error e => .error e

/-- One cycle (R281, R299, R380): under the reset input, halted, or running. -/
def cycle (s : State) : Except Refusal State :=
  advanced
    (if s.input.reset then .ok (systemReset s)
     else if s.halted then .ok (haltedCycle s)
     else runningCycle s)

end Sys2Proof.Machine
end

