-- ==== Sys2Proof/Machine/Step.lean ====
section
/-! DEFINITION. The step of the machine: one instruction cycle (44_control.md R281; log 6). -/

namespace Sys2Proof.Machine

/-- One instruction cycle; a configuration the spec refuses runs nothing (R4, R125, R200; log 1). -/
def step (s : State) : Host.Outcome State Fault Refusal :=
  outcome (require s.cfg.supported .badConfig (cycle s))

/-- The state in which the next step runs the word `w`: the word stands in the slot EX, where a word of a loaded
program stands two cycles after its fetch, and the core is not halted (log 7). Words have 32 bits. -/
def State.withFetchWord (s : State) (nbits w : Nat) : State :=
  { s with ex := some ⟨0, s.pc, BitVec.ofNat 32 (w % 2 ^ nbits), false⟩, halted := false }

end Sys2Proof.Machine
end

