-- ==== Sys2Proof/Safety.lean ====
section
/-! DEFINITION. The terms claims use: the conditions under which a word executes normally, the registers and the
memory cells it writes, and the invariant of the machine. -/

namespace Sys2Proof.Machine

/-! ## When a word executes normally -/

/-- The pair register names a mode the core has, with a buffer length it can use (R232, R234). -/
def pairReady (c : Sys2Proof.Config) {aw : Nat} (ib : BitVec aw) : Bool :=
  match (ib.extractLsb' (aw - 3) 3).toNat with
  | 0 => true
  | 1 => false
  | 6 => c.amm.getLsbD 1
  | 7 => true
  | _ => c.amm.getLsbD 0 && decide (ib.extractLsb' 0 (aw - 3) ≠ 0)

/-- The post-modification has a meaning (R231, R232). -/
def postReady (s : State) (ix : IReg) : Post → Bool
  | .step _ => true
  | .byPair => pairReady s.cfg (s.index ix.pair)

/-- The register can be a source (R227), and is not MR1 in interrupt cycle 4 (R342). -/
def sourceReady (s : State) (f : FReg) : Bool :=
  decide (f ≠ .null) && decide (f ≠ .nop) && !(decide (f = .mr1) && decide (s.ic = .c4))

/-- The register can be written: it is not MR1 in interrupt cycle 4 (R342). -/
def targetReady (s : State) (f : FReg) : Bool := !(decide (f = .mr1) && decide (s.ic = .c4))

/-- A cell answers a load (R71). -/
def CellKind.answers : CellKind → Bool
  | .storage | .shadow | .device _ => true
  | .absent => false

/-- A cell whose read may be discarded (R77). -/
def CellKind.quiet : CellKind → Bool
  | .storage | .shadow => true
  | .device sideEffects => !sideEffects
  | .absent => false

/-- A cell that takes a store (R71, R84). -/
def CellKind.takes : CellKind → Bool
  | .storage | .device _ => true
  | .shadow | .absent => false

/-- A load executes normally; the move NOP wherever no read has side effects (R77, R247; log 14). -/
def loadReady (bus : Space) (m : FullMove) (s : State) : Bool :=
  if m.reg = .nop then decide (Config.cell s.cfg bus (s.idx.get m.ix) ≠ .device true)
  else
    postReady s m.ix m.post && targetReady s m.reg &&
      (if m.reg = .null then CellKind.quiet (Config.cell s.cfg bus (s.idx.get m.ix))
       else CellKind.answers (Config.cell s.cfg bus (s.idx.get m.ix)))

/-- A store executes normally. -/
def storeReady (bus : Space) (m : FullMove) (s : State) : Bool :=
  sourceReady s m.reg && postReady s m.ix m.post && CellKind.takes (Config.cell s.cfg bus (s.idx.get m.ix))

/-- LDX or LDY alone beside the ALU NOP (R241, R242). -/
def loneLoad (bus : Space) (ix : IReg) (post : Post) (dst : FReg) : Instr :=
  match bus with
  | .x => .ldxPar ix post dst
  | .y => .ldyPar ix post dst

/-- STX or STY alone beside the ALU NOP (R243, R244). -/
def loneStore (bus : Space) (ix : IReg) (post : Post) (src : FReg) : Instr :=
  match bus with
  | .x => .stxPar ix post src
  | .y => .styPar ix post src

/-- What a bus carries executes normally. -/
def busReady (bus : Space) (b : BusMove) (s : State) : Bool :=
  match b with
  | .idle => true
  | .mem m =>
    match m.dir with
    | .load => loadReady bus m s
    | .store => storeReady bus m s
  | .reg src dst => sourceReady s src && targetReady s dst

/-- The registers the ALU writes: the parts of the accumulator, or a register with its guard (R152). -/
def resultCells (wide : Bool) (res : AReg) : List FReg :=
  if wide then [.areg res.acc.low, .areg res.acc.high, .guard res.acc] else FReg.cells (.areg res)

/-- The registers the ALU part of an instruction, or LDC, writes. -/
def Instr.aluCells : Instr → List FReg
  | .add op1 op2 res _ | .addc op1 op2 res _ | .sub op1 op2 res _ | .subc op1 op2 res _ =>
    resultCells (op1.isWide || op2.isWide) res
  | .and op1 op2 res _ | .or op1 op2 res _ | .xor op1 op2 res _ => resultCells (op1.isWide || op2.isWide) res
  | .lsl op res _ | .lslc op res _ | .not op res _ => resultCells op.isWide res
  | .abs op res _ | .asr op res _ | .lsr op res _ | .lsrc op res _ => resultCells op.isWide res
  | .mac _ _ _ x _ | .msu _ _ _ x _ => [.areg x.low, .areg x.high, .guard x]
  | .nopAlu _ | .mulss _ _ _ | .mulsu _ _ _ | .mulus _ _ _ | .muluu _ _ _ => []
  | .ldc _ reg => FReg.cells reg
  | .resp _ _ | .nop _ => []
  | .ldxPar _ _ _ | .ldyPar _ _ _ | .stxPar _ _ _ | .styPar _ _ _ => []
  | .ldxShort _ _ _ _ | .ldyShort _ _ _ _ | .stxShort _ _ _ _ | .styShort _ _ _ _ => []
  | .ldxDbl _ _ _ _ | .stxDbl _ _ _ _ | .ldyDbl _ _ _ | .styDbl _ _ _ | .nopPar => []
  | .mvxPar _ _ | .mvxDbl _ _ _ _ | .mvyDbl _ _ => []
  | .jcc _ _ | .j _ | .callcc _ _ | .jmpi _ _ _ | .jrcc _ | .jr | .jrccPage _ _ => []
  | .reti | .retiPage _ | .loop _ _ | .halt => []

/-- The index register a move post-modifies: none for code 0000 (R223). -/
def postCells (ix : IReg) : Post → List FReg
  | .step k => if k = 0 then [] else [.ireg ix]
  | .byPair => [.ireg ix]

/-- The registers a move writes. -/
def BusMove.cells : BusMove → List FReg
  | .idle => []
  | .mem m =>
    match m.dir with
    | .load => if m.reg = .nop then [] else FReg.cells m.reg ++ postCells m.ix m.post
    | .store => postCells m.ix m.post
  | .reg _ dst => FReg.cells dst

/-- The arithmetic, guard, index and move-target registers an instruction's ALU part and moves write, each as often
as it is written (R223). -/
def Instr.targets (i : Instr) : List FReg :=
  Instr.aluCells i ++ BusMove.cells (Instr.moves i).x ++ BusMove.cells (Instr.moves i).y

/-- The instructions that are an ALU or multiplier part and the moves beside it: all but LDC, the double register moves
and the control instructions. -/
def Instr.isWord : Instr → Bool
  | .add _ _ _ _ | .addc _ _ _ _ | .sub _ _ _ _ | .subc _ _ _ _ => true
  | .and _ _ _ _ | .or _ _ _ _ | .xor _ _ _ _ | .lsl _ _ _ | .lslc _ _ _ | .not _ _ _ => true
  | .abs _ _ _ | .asr _ _ _ | .lsr _ _ _ | .lsrc _ _ _ | .nopAlu _ => true
  | .mac _ _ _ _ _ | .msu _ _ _ _ _ | .mulss _ _ _ | .mulsu _ _ _ | .mulus _ _ _ | .muluu _ _ _ => true
  | .resp _ _ | .nop _ => true
  | .ldc _ _ => false
  | .ldxPar _ _ _ | .ldyPar _ _ _ | .stxPar _ _ _ | .styPar _ _ _ => true
  | .ldxShort _ _ _ _ | .ldyShort _ _ _ _ | .stxShort _ _ _ _ | .styShort _ _ _ _ => true
  | .ldxDbl _ _ _ _ | .stxDbl _ _ _ _ | .ldyDbl _ _ _ | .styDbl _ _ _ | .nopPar | .mvxPar _ _ => true
  | .mvxDbl _ _ _ _ | .mvyDbl _ _ => false
  | .jcc _ _ | .j _ | .callcc _ _ | .jmpi _ _ _ | .jrcc _ | .jr | .jrccPage _ _ => false
  | .reti | .retiPage _ | .loop _ _ | .halt => false

/-- A word with an ALU or multiplier part and moves executes normally: it exists on the core (R134), its moves are
ready, and no register is written twice (R223). -/
def wordReady (i : Instr) (s : State) : Bool :=
  i.wellFormed s.cfg && busReady .x (Instr.moves i).x s && busReady .y (Instr.moves i).y s &&
    decide (Instr.targets i).Nodup

/-- A change-of-flow instruction with a delay slot executes normally (R285, R288): it exists, the previous
instruction wrote no flag its condition reads, and the delay slot holds no change-of-flow instruction. -/
def flowReady (i : Instr) (c : Cond) (s : State) : Bool :=
  i.wellFormed s.cfg && Cond.ready c s && !slotIsFlow s.cfg s.de

/-! ## What a word writes -/

/-- A mode bit or flag that exists on the core (R32). -/
def Config.hasBit (c : Sys2Proof.Config) (b : MrBit) : Bool := c.activeBits.getLsbD b.pos

/-- Whether the multiplier part of an instruction writes P (R25). -/
def Instr.writesP : Instr → Bool
  | .mac _ _ _ _ _ | .msu _ _ _ _ _ | .mulss _ _ _ | .mulsu _ _ _ | .mulus _ _ _ | .muluu _ _ _ | .resp _ _ => true
  | .add _ _ _ _ | .addc _ _ _ _ | .sub _ _ _ _ | .subc _ _ _ _ => false
  | .and _ _ _ _ | .or _ _ _ _ | .xor _ _ _ _ | .lsl _ _ _ | .lslc _ _ _ | .not _ _ _ => false
  | .abs _ _ _ | .asr _ _ _ | .lsr _ _ _ | .lsrc _ _ _ | .nopAlu _ => false
  | .ldc _ _ | .nop _ => false
  | .ldxPar _ _ _ | .ldyPar _ _ _ | .stxPar _ _ _ | .styPar _ _ _ => false
  | .ldxShort _ _ _ _ | .ldyShort _ _ _ _ | .stxShort _ _ _ _ | .styShort _ _ _ _ => false
  | .ldxDbl _ _ _ _ | .stxDbl _ _ _ _ | .ldyDbl _ _ _ | .styDbl _ _ _ | .nopPar => false
  | .mvxPar _ _ | .mvxDbl _ _ _ _ | .mvyDbl _ _ => false
  | .jcc _ _ | .j _ | .callcc _ _ | .jmpi _ _ _ | .jrcc _ | .jr | .jrccPage _ _ => false
  | .reti | .retiPage _ | .loop _ _ | .halt => false

/-- The data address a bus stores to: the index register of before the word (R230, R243). -/
def BusMove.storesAt (s : State) : BusMove → Option DAddr
  | .mem m => if m.dir = .store then some (s.idx.get m.ix) else none
  | .idle | .reg _ _ => none

/-- The data address an instruction stores to in a space. -/
def Instr.storesAt (i : Instr) (s : State) : Space → Option DAddr
  | .x => BusMove.storesAt s (Instr.moves i).x
  | .y => BusMove.storesAt s (Instr.moves i).y

/-- What an instruction with an ALU or multiplier part and moves leaves unchanged: every register but its targets,
P but for the multiplier instructions, the bits of MR0 it does not write, every byte of data memory outside the words it
stores to, and everything else the machine holds (EN but for a store to INT_GLOB_EN). -/
structure WordFrame (i : Instr) (s t : State) : Prop where
  regs : ∀ f : FReg, f ≠ .mr0 → f ∉ Instr.targets i → t.regValue f = s.regValue f
  product : Instr.writesP i = false → t.p = s.p
  status : t.mr0Value &&& ~~~Instr.flagsWritten i = s.mr0Value &&& ~~~Instr.flagsWritten i
  memory : ∀ (sp : Space) (k : Nat),
    (∀ a, Instr.storesAt i s sp = some a → k / dataBytes ≠ a.toNat) →
      (t.mem sp).read k = (s.mem sp).read k
  enable : t.en = (s.en || Instr.enables s i)
  rest : t = { s with
    regs := t.regs, p := t.p, idx := t.idx, lr0 := t.lr0, lr1 := t.lr1, mr0 := t.mr0, mr1 := t.mr1, ls := t.ls,
    le := t.le, lc := t.lc, xmem := t.xmem, ymem := t.ymem, en := t.en }

/-! ## The effect of moves, in the words of the rules -/

/-- A register of a core with configuration `c` after a bus or a constant has written it: a register of width w holds
the low w bits (R224 to R226), X1 also puts its sign into X2 (R24), MR0 and MR1 hold their active bits (R32). -/
def loaded (c : Sys2Proof.Config) (t : State) (f : FReg) (v : Word) : Prop :=
  match f with
  | .areg r =>
    t.regValue f = trunc c.n v ∧ (r.isHigh = true → t.regs.guardWord c r.acc = guardSign c (v.setWidth c.n))
  | .mr0 | .mr1 => t.regValue f = (v.setWidth 20 &&& c.activeBits).setWidth 64
  | .null | .nop | .ipr0 | .ipr1 => True
  | f => t.regValue f = trunc (FReg.width c f) v

/-- The index register and the index flag after a memory move (R231 to R236): `p` is the address ALU's output. -/
def postDone (bus : Space) (i : Instr) (ix : IReg) (p : PostOut) (s t : State) : Prop :=
  (∀ v, p.index = some v → t.idx.get ix = v) ∧
    (Instr.loads .mr0 i = false → t.flag (indexFlag bus) = (Config.hasBit s.cfg (indexFlag bus) && p.flag))

/-- What a bus has done in a word (R241 to R247). -/
def busDone (bus : Space) (i : Instr) (b : BusMove) (s t : State) : Prop :=
  match b with
  | .idle => True
  | .mem m =>
    match m.dir with
    | .load => m.reg = .nop ∨ ∃ p, postOf s m.ix m.post = .ok p ∧ postDone bus i m.ix p s t ∧
        (m.reg = .null ∨ ∃ v, loadData bus (s.idx.get m.ix) s = .ok v ∧ loaded s.cfg t m.reg v)
    | .store => ∃ p v, postOf s m.ix m.post = .ok p ∧ postDone bus i m.ix p s t ∧ readReg bus m.reg s = .ok v ∧
        (Config.cell s.cfg bus (s.idx.get m.ix) = .storage → (s.mem bus).wf = true →
          (t.mem bus).word (s.idx.get m.ix) = v)
  | .reg src dst => ∃ v, readReg bus src s = .ok v ∧ loaded s.cfg t dst v

/-! ## Results and flags, in the words of the rules -/

/-- An exact result that w bits do not hold (R155). -/
def outOfRange (w : Nat) (z : Int) : Prop := z < -(2 : Int) ^ (w - 1) ∨ (2 : Int) ^ (w - 1) - 1 < z

/-- The pattern R158 writes for an exact result: saturated when `sat`, else wrapped. -/
def clamp (w : Nat) (sat : Bool) (z : Int) : BitVec w :=
  if sat = true ∧ (2 : Int) ^ (w - 1) - 1 < z then BitVec.ofInt w (2 ^ (w - 1) - 1)
  else if sat = true ∧ z < -(2 : Int) ^ (w - 1) then BitVec.ofInt w (-2 ^ (w - 1))
  else BitVec.ofInt w z

/-- A flag after an instruction that computes it: unless the same word loads MR0 (R31), the value given, on a core that
has the flag (R32). -/
def flagIs (i : Instr) (t : State) (b : MrBit) (v : Prop) : Prop :=
  Instr.loads .mr0 i = false → (t.flag b = true ↔ Config.hasBit t.cfg b = true ∧ v)

/-- The register a narrow result is written to, with its guard register (R152, R24). -/
def narrowWritten (c : Sys2Proof.Config) (t : State) (res : AReg) (r : BitVec c.n) : Prop :=
  t.regs.word c res = r ∧ (res.isHigh = true → t.regs.guardWord c res.acc = guardSign c r)

/-- Z, N and E of a narrow result (R153, R154, R156). -/
def narrowZne {w : Nat} (i : Instr) (t : State) (r : BitVec w) : Prop :=
  flagIs i t .z (r = 0) ∧ flagIs i t .n (r.toInt < 0) ∧ flagIs i t .e False

/-- Z, N and E of a wide result (R153, R154, R156): E when the value does not fit in 2n bits. -/
def wideZne (c : Sys2Proof.Config) (i : Instr) (t : State) (r : BitVec c.accWidth) : Prop :=
  flagIs i t .z (r = 0) ∧ flagIs i t .n (r.toInt < 0) ∧ flagIs i t .e (outOfRange c.productWidth r.toInt)

/-- The carry or borrow the adder is given. -/
def carryIn (use : Bool) (s : State) : Nat := if use && s.flag .c then 1 else 0

/-- The sums of R158: an instruction with its operands, its result register and whether C is added (R161, R162, R165,
R166). -/
inductive SumForm : Instr → AOp → AOp → AReg → Bool → Prop where
  | add (op1 op2 : AOp) (res : AReg) (pm : PMove) : SumForm (.add op1 op2 res pm) op1 op2 res false
  | addc (op1 op2 : AOp) (res : AReg) (pm : PMove) : SumForm (.addc op1 op2 res pm) op1 op2 res true
  | lsl (op : AOp) (res : AReg) (pm : PMove) : SumForm (.lsl op res pm) op op res false
  | lslc (op : AOp) (res : AReg) (pm : PMove) : SumForm (.lslc op res pm) op op res true

/-- The differences of R158 (R163, R164). -/
inductive DiffForm : Instr → AOp → AOp → AReg → Bool → Prop where
  | sub (op1 op2 : AOp) (res : AReg) (pm : PMove) : DiffForm (.sub op1 op2 res pm) op1 op2 res false
  | subc (op1 op2 : AOp) (res : AReg) (pm : PMove) : DiffForm (.subc op1 op2 res pm) op1 op2 res true

/-- The bitwise operations (R181 to R184), each with what it does to one pair of bits. NOT takes one operand: its second
is ONES (R184), which does not count for the width. -/
inductive LogicForm : Instr → AOp → AOp → AReg → (Bool → Bool → Bool) → Prop where
  | and (op1 op2 : AOp) (res : AReg) (pm : PMove) : LogicForm (.and op1 op2 res pm) op1 op2 res (fun a b => a && b)
  | or (op1 op2 : AOp) (res : AReg) (pm : PMove) : LogicForm (.or op1 op2 res pm) op1 op2 res (fun a b => a || b)
  | xor (op1 op2 : AOp) (res : AReg) (pm : PMove) : LogicForm (.xor op1 op2 res pm) op1 op2 res (fun a b => a ^^ b)
  | not (op : AOp) (res : AReg) (pm : PMove) : LogicForm (.not op res pm) op .ones res (fun a _ => !a)

/-- The right shifts (R185 to R187), each with the bit that enters at the top: from C and the sign of the operand. -/
inductive ShiftForm : Instr → AOp → AReg → (Bool → Bool → Bool) → Prop where
  | asr (op : AOp) (res : AReg) (pm : PMove) : ShiftForm (.asr op res pm) op res (fun _ sign => sign)
  | lsr (op : AOp) (res : AReg) (pm : PMove) : ShiftForm (.lsr op res pm) op res (fun _ _ => false)
  | lsrc (op : AOp) (res : AReg) (pm : PMove) : ShiftForm (.lsrc op res pm) op res (fun c _ => c)

/-- The product of R201. -/
def isProduct (s : State) (mm : MulMode) (a b : BitVec s.cfg.n) (p : BitVec s.cfg.productWidth) : Prop :=
  ∃ x y : Int,
    (x = if mm = .us ∨ mm = .uu then (a.toNat : Int) else a.toInt) ∧
    (y = if mm = .su ∨ mm = .uu then (b.toNat : Int) else b.toInt) ∧
    (s.flag .i = true → p = BitVec.ofInt s.cfg.productWidth (x * y)) ∧
    (s.flag .i = false →
      if mm = .ss ∧ a = BitVec.intMin s.cfg.n ∧ b = BitVec.intMin s.cfg.n ∧ s.flag .s = true then
        p = BitVec.intMax s.cfg.productWidth
      else p = BitVec.ofInt s.cfg.productWidth (2 * (x * y)))

/-- The flags after an instruction that clears L and no other flag (R286). -/
def clearsL (s t : State) : Prop := ∀ b : MrBit, t.flag b = (decide (b ≠ .l) && s.flag b)

/-! ## A cycle -/

/-- The cycle from `s`, on a configuration the spec gives a behaviour (log 1), is a running one (R281), and its slot
EX has led to `t`: an instruction that executed, with its traits, or an empty or cancelled slot, with those of a NOP.
-/
def ran (s : State) (x : XTraits) (t : State) : Prop :=
  s.cfg.supported = true ∧ s.input.reset = false ∧ s.halted = false ∧
    ((slotContent s.cfg s.ex = .idle ∧ x = XTraits.idle ∧ t = s) ∨
      ∃ i, slotContent s.cfg s.ex = .run i ∧ exec i s = .next t ∧ x = XTraits.of s i)

/-- The word fetched in the cycle (R281 part (c)). -/
def fetched (s t : State) : IWord := t.imem.iword (programAddress s.cfg (fetchPage s t) (fetchAddress s t))

/-- The instruction memory has a word at the cycle's fetch address (R71). -/
def fetchReady (s t : State) : Prop :=
  Region.cellAt s.cfg.imap (programAddress s.cfg (fetchPage s t) (fetchAddress s t)) = .storage

/-- The cycle's fetch is a loop end (R284): of an LE in force, with L clear, and no move loads a loop register. -/
def loopEnd (s : State) (x : XTraits) (t : State) : Bool :=
  s.cfg.hasLoops && !x.busLoadsLoop && decide (t.pc = t.le) && (x.flow || !s.flag .l)

/-- The fetched word, or the one fetched before it, is a change of flow (R284). -/
def flowNear (s t : State) : Bool := wordIsFlow s.cfg (fetched s t) || slotIsFlow s.cfg t.de

/-- The state after a cycle in which no interrupt cycle and no loop end falls (R281 parts (f), (g), (i)), with the
cycle's input used up. -/
def linearNext (s : State) (x : XTraits) (t : State) : State :=
  { t with
    pc := nextAddress s.cfg (fetchAddress s t)
    ex := t.de
    de := some ⟨fetchPage s t, fetchAddress s t, fetched s t, false⟩
    prevFlags := x.flags
    inputs := t.inputs.tail
    tick := t.tick + 1 }

/-- The state after a cycle in which no interrupt cycle falls: a new loop round at a loop end with LC not 0 (R284). -/
def roundNext (s : State) (x : XTraits) (t : State) : State :=
  if loopEnd s x t = true ∧ t.lc ≠ 0 then { linearNext s x t with pc := t.ls, lc := t.lc - 1 } else linearNext s x t

/-! ## The invariant -/

/-- A slot's page and address have pa bits. -/
def slotFits (c : Sys2Proof.Config) (d : Slot) : Prop := fits c.pa d.page ∧ fits c.pa d.addr

/-- What holds in every state the machine reaches: every register holds no more bits than its configured width (R20),
the memories are in canonical form (log 4), inactive bits of MR0 and MR1 are 0 (R32), a halted core is idle (R299),
WOKE is set in interrupt cycles 1 and 2 only (R49), the page registers of a core without them are 0 (R36), an arbiter
that does not exist enables nothing (R333), the word just fetched is not cancelled (R281), and PREVFLAGS names bits of
MR0 (R46). -/
structure State.Inv (s : State) : Prop where
  widths : ∀ f : FReg, fits (FReg.width s.cfg f) (s.regValue f)
  product : fits s.cfg.productWidth s.p
  pc : fits s.cfg.pa s.pc
  slots : ∀ d, s.de = some d ∨ s.ex = some d → slotFits s.cfg d
  xmem : s.xmem.wf = true
  ymem : s.ymem.wf = true
  imem : s.imem.wf = true
  mr0 : s.mr0 &&& ~~~s.cfg.activeBits = 0
  mr1 : s.mr1 &&& ~~~s.cfg.activeBits = 0
  halted : s.halted = true → s.ic = .idle
  woke : s.woke = true → s.ic = .c1 ∨ s.ic = .c2
  pages : s.cfg.hasIpr = false → s.ipr0 = 0 ∧ s.ipr1 = 0
  arbiter : s.cfg.arbiter = none → s.en = false
  fetched : ∀ d, s.de = some d → d.cancelled = false
  prevFlags : s.prevFlags &&& ~~~allBits = 0

end Sys2Proof.Machine
end

