-- ==== Sys2Proof/Certificates/Slice0/Obligations.lean ====
section
/-! DEFINITION. The statements for the provers: encoding, reset, the cycle, what each instruction does and what it
leaves alone, address generation, interrupts and stops. -/

open Sys2Proof Sys2Proof.Machine

/-! ## Encoding -/

/-- R102 to R139: the word the encoder writes for a well-formed instruction decodes to it (to its canonical form, log
21: a macro to its expansion, a lone move to the ALU NOP with that move). Rests on the class R positions (log 19). -/
def Obligations.DecodeEncodeCanonical : Prop :=
  ∀ (c : Config) (i : Instr) (w : IWord), c.encRecon = true → i.wellFormed c = true → encode i = some w →
    decode c w = .ok i.canonical

/-- R139, R134, R101: what the decoder answers exists on the core, is in canonical form, and its own word, don't-care
bits zero, decodes to it again, with and without ENC_RECON. -/
def Obligations.DecodedWordsReencode : Prop :=
  ∀ (c : Config) (w : IWord) (i : Instr), decode c w = .ok i →
    i.wellFormed c = true ∧ i.canonical = i ∧ ∃ v, encode i = some v ∧ decode c v = .ok i

/-- R134, R101 to R104, R111 to R113, R116, R120, R126, R127: the reserved operation, control, single-operand, ALU
operand, accumulator, move register and condition codes and the class X patterns are refused on every core. That JMPI
has its step field in bits 4 to 3, that the parallel selector is bits 16 to 15, and the register fields of LDC, LOOP
and the double move are the class R positions (log 19). That 011rrr is refused on a core with NI = 16 too is log 1. -/
def Obligations.ReservedCodesRefused : Prop :=
  ∀ (c : Config) (w : IWord),
    ((w.extractLsb' 28 4 = 0b1010 ∨ w.extractLsb' 28 4 = 0b1110) → decode c w = .error .reservedOperation) ∧
    (w.extractLsb' 28 4 = 0b0010 →
      (w.extractLsb' 24 4 = 0b0011 ∨ w.extractLsb' 24 4 = 0b1100 ∨ w.extractLsb' 24 4 = 0b1110 ∨
        w.extractLsb' 24 4 = 0b1111) → decode c w = .error .reservedControl) ∧
    (w.extractLsb' 24 8 = 0b00101011 → decode c w = .error .lostEncoding) ∧
    (w.extractLsb' 24 8 = 0b00101010 → w.extractLsb' 3 2 = 0b10 → decode c w = .error .reservedStep) ∧
    (w.extractLsb' 28 4 = 0b1111 → 5 ≤ (w.extractLsb' 24 4).toNat → (w.extractLsb' 24 4).toNat ≤ 13 →
      decode c w = .error .reservedSingle) ∧
    (w.extractLsb' 28 4 = 0b0100 → w.extractLsb' 24 4 = 0b1010 → decode c w = .error .reservedOperand) ∧
    (w.extractLsb' 28 4 = 0b0100 → w.extractLsb' 24 4 = 0b1011 → ∀ i, decode c w ≠ .ok i) ∧
    ((w.extractLsb' 28 4 = 0b0100 ∨ w.extractLsb' 28 4 = 0b0101 ∨ w.extractLsb' 28 4 = 0b1111) →
      w.extractLsb' 15 2 = 0b01 → ∀ i, decode c w ≠ .ok i) ∧
    ((w.extractLsb' 28 4 = 0b0101 ∨ w.extractLsb' 28 4 = 0b0111) → w.extractLsb' 17 1 = 0 →
      decode c w = .error .reservedResult) ∧
    (w.extractLsb' 28 4 = 0b0100 → (12 ≤ (w.extractLsb' 24 4).toNat ∨ 11 ≤ (w.extractLsb' 20 4).toNat) →
      w.extractLsb' 17 1 = 0 → ∀ i, decode c w ≠ .ok i) ∧
    ((w.extractLsb' 24 8 = 0b00101000 ∨ w.extractLsb' 24 8 = 0b00101001) →
      (10 ≤ (w.extractLsb' 0 6).toNat ∧ (w.extractLsb' 0 6).toNat ≤ 16 ∨ 26 ≤ (w.extractLsb' 0 6).toNat) →
      decode c w = .error .reservedCondition) ∧
    (∀ r : BitVec 6, (0b100101 ≤ r.toNat ∧ r.toNat ≤ 0b111101 ∨ r.extractLsb' 3 3 = 0b011) →
      ((w.extractLsb' 29 3 = 0b000 ∨ w.extractLsb' 26 6 = 0b001001) → w.extractLsb' 0 6 = r →
        decode c w = .error .reservedRegister) ∧
      (w.extractLsb' 28 4 = 0b0011 → (w.extractLsb' 0 6 = r ∨ w.extractLsb' 14 6 = r) → ∀ i, decode c w ≠ .ok i) ∧
      (w.extractLsb' 28 4 = 0b0100 → w.extractLsb' 15 2 = 0b00 → w.extractLsb' 0 6 = r → ∀ i, decode c w ≠ .ok i))

/-- Words written out from the examples of the spec (R161, R163, R204, R241, R291, R296, R297, R299) decode to what they
stand for. -/
def Obligations.SampleWordsDecode : Prop :=
  decode Config.vhdl 0x40140024 = .ok (.add (.reg .a0) (.reg .a1) .b0 PMove.nop) ∧
  decode Config.vhdl 0x60200024 = .ok (.sub (.reg .a0) (.reg .b0) .a0 PMove.nop) ∧
  decode Config.vhdl 0x56230B2A =
    .ok (.mac .b1 .b0 .ss .a (.short ⟨.load, .i0, true, .b1⟩ ⟨.load, .i2, true, .b0⟩)) ∧
  decode Config.vhdl 0x30100024 = .ok (.ldxDbl .i0 (.step 1) (.areg .a0) FullMove.nop) ∧
  decode Config.vhdl 0x28004005 = .ok (.jcc .zs 0x100) ∧
  decode Config.vhdl 0x21000000 = .ok .reti ∧
  decode Config.vhdl 0x24008284 = .ok (.loop (.areg .c0) 0x20A) ∧
  decode Config.vhdl 0x2D000000 = .ok .halt

/-! ## Reset -/

/-- R380, R60: the machine after reset. RESET_VECTOR, LR1, the configuration and what memory holds are the model's
choice (logs 2, 3, 4); the widths are those of that configuration (R20). -/
def Obligations.ResetState : Prop :=
  (∀ r, State.reset.regs.get r = 0) ∧ (∀ x, State.reset.regs.guard x = 0) ∧ (∀ r, State.reset.idx.get r = 0) ∧
  State.reset.p = 0 ∧ State.reset.lr0 = 0 ∧ State.reset.lr1 = 0 ∧ State.reset.mr0 = 0 ∧ State.reset.mr1 = 0 ∧
  State.reset.ipr0 = 0 ∧ State.reset.ipr1 = 0 ∧ State.reset.ls = 0 ∧ State.reset.lc = 0 ∧ State.reset.le = 0xFFFF ∧
  State.reset.pc = State.reset.cfg.resetVector ∧ State.reset.de = none ∧ State.reset.ex = none ∧
  State.reset.ic = .c3 ∧ State.reset.lehit = false ∧ State.reset.halted = false ∧ State.reset.woke = false ∧
  State.reset.prevFlags = 0 ∧ (∀ sp k, (State.reset.mem sp).read k = 0) ∧ (∀ k, State.reset.imem.read k = 0)

/-- R380: under the reset input every step resets the core, whatever it was doing: memory, and what is not the core's,
stays (LR1 is log 3; the input as an event of one cycle is log 27). -/
def Obligations.ResetInputResets : Prop :=
  ∀ s : State, s.cfg.supported = true → s.input.reset = true →
    ∃ t, step s = .next t ∧ (∀ r, t.regs.get r = 0) ∧ (∀ x, t.regs.guard x = 0) ∧ (∀ r, t.idx.get r = 0) ∧
      t = { s with
        regs := t.regs, idx := t.idx, p := 0, pc := trunc s.cfg.pa s.cfg.resetVector, lr0 := 0, lr1 := 0, mr0 := 0,
        mr1 := 0, ipr0 := 0, ipr1 := 0, ls := 0, le := BitVec.ofNat 20 (2 ^ s.cfg.pa - 1), lc := 0, de := none,
        ex := none, ic := .c3, lehit := false, halted := false, prevFlags := 0, woke := false,
        en := Config.enReset s.cfg, inputs := s.inputs.tail, tick := s.tick + 1 }

/-- R381, R43: the first two cycles after reset fetch the words at the reset vector and behind it and execute nothing;
the first instruction stands in EX for the third cycle, and the controller leaves interrupt cycle 3 for 4 and 5. -/
def Obligations.ResetSequence : Prop :=
  ∀ (c : Config) (x y i : Memory) (inputs : List Input) (tick : Nat),
    c.supported = true → (∀ p ∈ inputs, p.reset = false) → c.resetVector.toNat + 1 < 2 ^ c.pa - 1 →
    Region.cellAt c.imap c.resetVector.toNat = .storage →
    Region.cellAt c.imap (c.resetVector.toNat + 1) = .storage →
    ∃ t u, step (State.resetOf c x y i inputs tick) = .next t ∧ step t = .next u ∧
      t.ex = none ∧ t.de = some ⟨0, c.resetVector, i.iword c.resetVector.toNat, false⟩ ∧ t.ic = .c4 ∧
      t.pc = c.resetVector + 1 ∧
      u.ex = t.de ∧ u.de = some ⟨0, c.resetVector + 1, i.iword (c.resetVector.toNat + 1), false⟩ ∧ u.ic = .c5 ∧
      u.pc = c.resetVector + 2 ∧ u.mr1 = 0

/-- The invariant holds after reset. -/
def Obligations.ResetHasInvariant : Prop := State.reset.Inv

/-- Every step keeps the invariant, from any state that has it: canonical memories, no bit of MR0 or MR1 outside
MODEMASK (R32), every register within its configured width (R20), halted only when idle (R299), WOKE only in interrupt
cycles 1 and 2 (R49), no page on a core without page registers (R36), no enable without an arbiter (R333). -/
def Obligations.StepKeepsInvariant : Prop := ∀ s t : State, s.Inv → step s = .next t → t.Inv

/-! ## The cycle -/

/-- R281: a running cycle with an instruction in EX runs exec of that instruction, then the rest of the cycle; a
refusal of the instruction is the step's. No step faults, whatever its state (R330). -/
def Obligations.StepRunsDecoded : Prop :=
  (∀ (s : State) (d : Slot) (i : Instr), s.cfg.supported = true → s.input.reset = false → s.halted = false →
    s.ex = some d → d.cancelled = false → decode s.cfg d.word = .ok i →
    (∀ t, exec i s = .next t → step s = outcome (advanced (finishCycle (XTraits.of s i) s t))) ∧
    (∀ r, exec i s = .refused r → step s = .refused r)) ∧
  (∀ (s : State) (f : Fault), step s ≠ .fault f)

/-- R42, R134: an empty or cancelled slot runs the cycle of a NOP, whatever word it holds; an uncancelled word that is
no instruction is refused with the reason. -/
def Obligations.EmptyAndReservedSlots : Prop :=
  ∀ s : State, s.cfg.supported = true → s.input.reset = false → s.halted = false →
    ((s.ex = none ∨ ∃ d, s.ex = some d ∧ d.cancelled = true) →
      step s = outcome (advanced (finishCycle XTraits.idle s s))) ∧
    (∀ d e, s.ex = some d → d.cancelled = false → decode s.cfg d.word = .error e → step s = .refused (.reserved e))

/-- R281 parts (c), (f), (g), (i), R282, R335: a cycle without a loop end, a request or an interrupt cycle fetches at
NFA, moves the slots on, sets PC to the address behind the fetch and PREVFLAGS to what X wrote; nothing else changes
beyond X's own effect. R71, R382: a fetch where nothing or a device answers is refused, in every cycle, the first
after reset among them; the premises on the loop end, the vector and the kept instruction leave no second tag in the
cycle (log 6). -/
def Obligations.LinearCycle : Prop :=
  ∀ (s t : State) (x : XTraits) (cell : CellKind), ran s x t →
    cell = Region.cellAt s.cfg.imap (programAddress s.cfg (fetchPage s t) (fetchAddress s t)) →
    (s.ic = .idle → s.requested = false → fetchReady s t → loopEnd s x t = false →
      step s = .next (linearNext s x t)) ∧
    ((cell = .absent ∨ ∃ sideEffects, cell = .device sideEffects) →
      (s.ic ≠ .c2 → loopEnd s x t = false → step s = .refused .memAbsent) ∧
      (s.ic = .c2 → (s.cfg.hasLoops = true → s.flag .l = false → s.vector ≠ s.le) → slotIsFlow s.cfg t.de = false →
        step s = .refused .memAbsent))

/-- R284, R285, R38 to R40: at a loop end the cycle starts a new round when LC is not 0 (PC takes LS, LC counts down),
goes on linearly when LC is 0, and is refused when the fetched word or the one before it changes the flow. LE, LC and
LS are those X leaves, so an LDC or a LOOP of the same cycle counts. -/
def Obligations.LoopEndCycle : Prop :=
  ∀ (s t : State) (x : XTraits), ran s x t → s.ic = .idle → s.requested = false → fetchReady s t →
    loopEnd s x t = true →
    (flowNear s t = true → step s = .refused .loopCof) ∧
    (flowNear s t = false →
      (t.lc ≠ 0 → step s = .next { linearNext s x t with pc := t.ls, lc := t.lc - 1 }) ∧
      (t.lc = 0 → step s = .next (linearNext s x t)))

/-- R333, R334, R299: a request received in an idle cycle leads to interrupt cycle 1 and disables the arbiter; the
cycle itself runs as any other. A HALT in that cycle is ended at once, with WOKE set. When X itself stores to
INT_GLOB_EN in that cycle EN is open (log 12). -/
def Obligations.RequestReceived : Prop :=
  ∀ (s t : State) (x : XTraits), ran s x t → s.ic = .idle → s.requested = true → fetchReady s t →
    (loopEnd s x t = true → flowNear s t = false) →
    ∃ u, step s = .next u ∧ (x.enables = false → u.en = false) ∧
      u = { roundNext s x t with ic := .c1, en := u.en, woke := t.woke || t.halted, halted := false }

/-- R337, R335: interrupt cycle 1 is an ordinary cycle, loop end included, after which LR1 holds the fetch address,
unless X loads LR1, and LEHIT whether the fetch was from the LE of the comparison (with a move to a loop register in X
there is no comparison: log 22, not stated). -/
def Obligations.InterruptCycle1 : Prop :=
  ∀ (s t : State) (x : XTraits), ran s x t → s.ic = .c1 → fetchReady s t →
    (loopEnd s x t = true → flowNear s t = false) →
    ∃ u, step s = .next u ∧
      (s.cfg.hasLoops = false ∨ (x.busLoadsLoop = false ∧ t.pc ≠ t.le) → u.lehit = false) ∧
      (s.cfg.hasLoops = true → x.busLoadsLoop = false → t.pc = t.le → u.lehit = true) ∧
      u = { roundNext s x t with ic := .c2, lehit := u.lehit, lr1 := if x.loadsLr1 = true then t.lr1 else t.pc }

/-- R338, R339, R341: interrupt cycle 2 fetches the vector from page 0 with no loop end check, copies IPR0 to IPR1,
sets L over whatever X wrote, and either keeps the instruction fetched in cycle 1 and takes NFA as the return address,
or cancels it and leaves LR1. Refused when the vector is LE with L clear (R338), or when the kept instruction changes
the flow. The model's choices: the vector is compared with the LE of the start of the cycle (log 23); a change of flow
as the second instruction after a HALT runs with HALT_THIRD executed (log 24); vectorLe is named before loopCof and
haltCof (log 6); a kept JMPI counts as a change of flow (log 28). -/
def Obligations.InterruptCycle2 : Prop :=
  ∀ (s t : State) (x : XTraits), ran s x t → s.ic = .c2 → fetchReady s t →
    (s.cfg.hasLoops = true ∧ s.flag .l = false ∧ s.vector = s.le → step s = .refused .vectorLe) ∧
    (¬ (s.cfg.hasLoops = true ∧ s.flag .l = false ∧ s.vector = s.le) →
      ((x.flow = true ∨ s.lehit = true ∨ (s.woke = true ∧ s.cfg.haltThird = .executed)) →
        (slotIsFlow s.cfg t.de = false →
          ∃ u, step s = .next u ∧ (∀ b, u.flag b = if b = .l then Config.hasBit s.cfg .l else t.flag b) ∧
            u = { linearNext s x t with
              ic := .c3, woke := false, mr0 := u.mr0, ipr1 := if s.cfg.hasIpr = true then s.ipr0 else t.ipr1,
              lr1 := if x.loadsLr1 = true then t.lr1 else t.pc }) ∧
        (slotIsFlow s.cfg t.de = true →
          step s = .refused (if x.flow = true ∨ s.lehit = true then .loopCof else .haltCof))) ∧
      (¬ (x.flow = true ∨ s.lehit = true ∨ (s.woke = true ∧ s.cfg.haltThird = .executed)) →
        ∃ u, step s = .next u ∧ (∀ b, u.flag b = if b = .l then Config.hasBit s.cfg .l else t.flag b) ∧
          u = { linearNext s x t with
            ic := .c3, woke := false, mr0 := u.mr0, ipr1 := if s.cfg.hasIpr = true then s.ipr0 else t.ipr1,
            ex := t.de.map fun d => { d with cancelled := true } }))

/-- R342, R335: interrupt cycles 3 and 5 do nothing of their own; cycle 4 copies the MR0 of its start to MR1. -/
def Obligations.InterruptCycles345 : Prop :=
  ∀ (s t : State) (x : XTraits), ran s x t → fetchReady s t → (loopEnd s x t = true → flowNear s t = false) →
    (s.ic = .c3 → step s = .next { roundNext s x t with ic := .c4 }) ∧
    (s.ic = .c4 → step s = .next { roundNext s x t with ic := .c5, mr1 := s.mr0Value }) ∧
    (s.ic = .c5 → step s = .next { roundNext s x t with ic := .idle })

/-- R299, R333, R45: a halted core changes nothing until a request is received; the request ends the halt, sets WOKE,
disables the arbiter and leads to interrupt cycle 1. -/
def Obligations.HaltedCycle : Prop :=
  ∀ s : State, s.cfg.supported = true → s.input.reset = false → s.halted = true →
    (s.requested = false → step s = .next { s with inputs := s.inputs.tail, tick := s.tick + 1 }) ∧
    (s.requested = true →
      step s = .next { s with
        halted := false, ic := .c1, woke := true, en := false, inputs := s.inputs.tail, tick := s.tick + 1 })

/-! ## What a step can change -/

/-- R36, R37, R338: IPR1 changes only in interrupt cycle 2, to IPR0; IPR0 only by JMPI, to 0 (the (Op1) forms have no
encoding, log 20). -/
def Obligations.PageRegistersWritten : Prop :=
  ∀ s t : State, s.input.reset = false → step s = .next t →
    (t.ipr1 = s.ipr1 ∨ (s.ic = .c2 ∧ s.cfg.hasIpr = true ∧ t.ipr1 = s.ipr0)) ∧
    (t.ipr0 = s.ipr0 ∨ (t.ipr0 = 0 ∧ ∃ a st r, slotContent s.cfg s.ex = .run (.jmpi a st r)))

/-- R34: the mode bits S, I and R change only by an instruction that loads MR0. -/
def Obligations.ModeBitsWritten : Prop :=
  ∀ s t : State, s.input.reset = false → step s = .next t → ∀ b : MrBit, (b = .s ∨ b = .i ∨ b = .r) →
    t.flag b ≠ s.flag b → ∃ i, slotContent s.cfg s.ex = .run i ∧ Instr.loads .mr0 i = true

/-- R81, R84, R72: a byte of data memory changes only in the word that the executing instruction stores to in that
space; instruction memory and the configuration never change. -/
def Obligations.MemoryWritten : Prop :=
  ∀ s t : State, step s = .next t →
    t.imem = s.imem ∧ t.cfg = s.cfg ∧
    ∀ (sp : Space) (k : Nat), (t.mem sp).read k ≠ (s.mem sp).read k →
      ∃ i a, slotContent s.cfg s.ex = .run i ∧ Instr.storesAt i s sp = some a ∧
        k / dataBytes = a.toNat

/-- R333: the arbiter's enable EN is set only by a store to INT_GLOB_EN. -/
def Obligations.EnableSet : Prop :=
  ∀ s t : State, s.input.reset = false → step s = .next t → s.en = false → t.en = true →
    ∃ i, slotContent s.cfg s.ex = .run i ∧ Instr.enables s i = true

/-! ## What an instruction leaves alone -/

/-- R33, R393: no instruction changes a bit of MR0 outside those it is listed to write. -/
def Obligations.FlagsWrittenOnly : Prop :=
  ∀ (i : Instr) (s t : State), exec i s = .next t →
    t.mr0Value &&& ~~~Instr.flagsWritten i = s.mr0Value &&& ~~~Instr.flagsWritten i

/-- R222, R223: the frame of the ALU instructions, the multiplier instructions, the moves, LDC, the register moves and
the NOPs (ADD ADDC SUB SUBC AND OR XOR LSL LSLC NOT ABS ASR LSR LSRC NOP MAC MSU MULSS MULSU MULUS MULUU RESP LDC LDX
LDY STX STY MVX MVY). -/
def Obligations.WordFrames : Prop :=
  ∀ (i : Instr) (s t : State),
    (Instr.isWord i = true ∨ (∃ imm reg, i = .ldc imm reg) ∨ (∃ a b c d, i = .mvxDbl a b c d) ∨
      (∃ a b, i = .mvyDbl a b)) →
    exec i s = .next t → WordFrame i s t

/-! ## Moves -/

/-- R241 to R247, R230, R222: every word that is ready executes, and each bus does its move: a load brings the word at
the index register's old value into the target, a store takes the source's old value there, the index register is
post-modified and the index flag written (ADD ADDC SUB SUBC AND OR XOR LSL LSLC NOT ABS ASR LSR LSRC NOP MAC MSU MULSS
MULSU MULUS MULUU RESP with their parallel moves; LDX LDY STX STY full, short and double; parallel MVX; the NOPs). -/
def Obligations.WordMoves : Prop :=
  ∀ (i : Instr) (s : State), Instr.isWord i = true → wordReady i s = true →
    ∃ t, exec i s = .next t ∧ busDone .x i (Instr.moves i).x s t ∧ busDone .y i (Instr.moves i).y s t

/-- R240, R124: LDC loads its sign extended constant, or as many low bits of it as the register has, into any register
that can be a target; into NULL or the NOP register it does nothing. -/
def Obligations.LdcLoads : Prop :=
  ∀ (imm : BitVec 23) (reg : FReg) (s : State), reg.legalTarget s.cfg = true → targetReady s reg = true →
    ∃ t, exec (.ldc imm reg) s = .next t ∧ loaded s.cfg t reg (imm.signExtend 64) ∧
      (reg = .null ∨ reg = .nop → t = s)

/-- R245, R246, R222: a double register move that is ready (it exists on the core, its registers can be read and
written now, none is written twice, so that no other tag meets this one) executes when each half's units differ, both
from the registers of before the word; it is refused when a half, X or Y, stays within one unit. That NULL and the NOP
register are in no unit, and MVY alone, are log 26. -/
def Obligations.DoubleRegisterMoves : Prop :=
  ∀ (xsrc xdst ysrc ydst : FReg) (s : State),
    (wordReady (.mvxDbl xsrc xdst ysrc ydst) s = true →
      (unitsDiffer xsrc xdst = true → unitsDiffer ysrc ydst = true →
        ∃ t v w, exec (.mvxDbl xsrc xdst ysrc ydst) s = .next t ∧ readReg .x xsrc s = .ok v ∧ loaded s.cfg t xdst v ∧
          readReg .y ysrc s = .ok w ∧ loaded s.cfg t ydst w) ∧
      (unitsDiffer xsrc xdst = false ∨ unitsDiffer ysrc ydst = false →
        exec (.mvxDbl xsrc xdst ysrc ydst) s = .refused .mvUnit)) ∧
    (wordReady (.mvyDbl ysrc ydst) s = true →
      (unitsDiffer ysrc ydst = true →
        ∃ t w, exec (.mvyDbl ysrc ydst) s = .next t ∧ readReg .y ysrc s = .ok w ∧ loaded s.cfg t ydst w) ∧
      (unitsDiffer ysrc ydst = false → exec (.mvyDbl ysrc ydst) s = .refused .mvUnit))

/-- R247, R188, R135, R77: the NOPs do nothing at all: the total NOP with any constant, the canonical parallel move
NOP, and the ALU NOP beside a move NOP with any address and modification fields. Where the index register of a move
NOP points at a device whose read has side effects, the tag table of 93_implementation_defined.md refuses it
(U-NULL-READ; log 14 says how R77 and R247 are held together). -/
def Obligations.NopsDoNothing : Prop :=
  ∀ s : State, (∀ imm, exec (.nop imm) s = .next s) ∧
    (Config.cell s.cfg .x (s.idx.get .i0) ≠ .device true → exec .nopPar s = .next s) ∧
    (Config.cell s.cfg .x (s.idx.get .i0) = .device true → exec .nopPar s = .refused .nullRead) ∧
    ∀ bus ix post, post.wellFormed = true →
      (Config.cell s.cfg bus (s.idx.get ix) ≠ .device true →
        exec (.nopAlu (.full bus (FullMove.nopAt ix post))) s = .next s) ∧
      (Config.cell s.cfg bus (s.idx.get ix) = .device true →
        exec (.nopAlu (.full bus (FullMove.nopAt ix post))) s = .refused .nullRead)

/-- R81, R71, R394: a register stored to a storage cell is what the next instruction loads from there, on either bus. -/
def Obligations.StoreThenLoad : Prop :=
  ∀ (s t u : State) (ix : IReg) (r q : AReg), s.xmem.wf = true → s.ymem.wf = true →
    (Config.cell s.cfg .x (s.idx.get ix) = .storage → exec (.stxPar ix (.step 0) (.areg r)) s = .next t →
      exec (.ldxPar ix (.step 0) (.areg q)) t = .next u → u.regs.word s.cfg q = s.regs.word s.cfg r) ∧
    (Config.cell s.cfg .y (s.idx.get ix) = .storage → exec (.styPar ix (.step 0) (.areg r)) s = .next t →
      exec (.ldyPar ix (.step 0) (.areg q)) t = .next u → u.regs.word s.cfg q = s.regs.word s.cfg r)

/-! ## Arithmetic -/

/-- R158, R161, R162, R165, R166, R150 to R157: a narrow ADD, ADDC, LSL or LSLC: the sum of two's complement words,
wrapped or saturated, with its guard register and the five flags. -/
def Obligations.NarrowSums : Prop :=
  ∀ (i : Instr) (op1 op2 : AOp) (res : AReg) (carry : Bool) (s : State), SumForm i op1 op2 res carry →
    op1.isWide = false → op2.isWide = false → wordReady i s = true →
    ∃ t, exec i s = .next t ∧
      ∃ (a b r : BitVec s.cfg.n) (z : Int), a = narrowOperand s op1 ∧ b = narrowOperand s op2 ∧
        z = a.toInt + b.toInt + carryIn carry s ∧ r = clamp s.cfg.n (s.flag .s) z ∧
        narrowWritten s.cfg t res r ∧ narrowZne i t r ∧ flagIs i t .v (outOfRange s.cfg.n z) ∧
        flagIs i t .c (2 ^ s.cfg.n ≤ a.toNat + b.toNat + carryIn carry s)

/-- R158, R159, R161, R162, R165, R166: the wide sums: rounded when R is set, then saturated or wrapped at W bits; C is
the adder's. -/
def Obligations.WideSums : Prop :=
  ∀ (i : Instr) (op1 op2 : AOp) (res : AReg) (carry : Bool) (s : State), SumForm i op1 op2 res carry →
    (op1.isWide = true ∨ op2.isWide = true) → wordReady i s = true →
    ∃ t, exec i s = .next t ∧
      ∃ (a b r : BitVec s.cfg.accWidth) (z : Int), a = wideOperand s op1 ∧ b = wideOperand s op2 ∧
        z = wideRound s (a.toInt + b.toInt + carryIn carry s) ∧ r = clamp s.cfg.accWidth (s.flag .s) z ∧
        t.regs.accum s.cfg res.acc = r ∧ wideZne s.cfg i t r ∧ flagIs i t .v (outOfRange s.cfg.accWidth z) ∧
        flagIs i t .c (2 ^ s.cfg.accWidth ≤ a.toNat + b.toNat + carryIn carry s)

/-- R158, R163, R164, R150 to R157: a narrow SUB or SUBC; C is the borrow. -/
def Obligations.NarrowDifferences : Prop :=
  ∀ (i : Instr) (op1 op2 : AOp) (res : AReg) (carry : Bool) (s : State), DiffForm i op1 op2 res carry →
    op1.isWide = false → op2.isWide = false → wordReady i s = true →
    ∃ t, exec i s = .next t ∧
      ∃ (a b r : BitVec s.cfg.n) (z : Int), a = narrowOperand s op1 ∧ b = narrowOperand s op2 ∧
        z = a.toInt - b.toInt - carryIn carry s ∧ r = clamp s.cfg.n (s.flag .s) z ∧
        narrowWritten s.cfg t res r ∧ narrowZne i t r ∧ flagIs i t .v (outOfRange s.cfg.n z) ∧
        flagIs i t .c (a.toNat < b.toNat + carryIn carry s)

/-- R158, R159, R163, R164: a wide SUB or SUBC. -/
def Obligations.WideDifferences : Prop :=
  ∀ (i : Instr) (op1 op2 : AOp) (res : AReg) (carry : Bool) (s : State), DiffForm i op1 op2 res carry →
    (op1.isWide = true ∨ op2.isWide = true) → wordReady i s = true →
    ∃ t, exec i s = .next t ∧
      ∃ (a b r : BitVec s.cfg.accWidth) (z : Int), a = wideOperand s op1 ∧ b = wideOperand s op2 ∧
        z = wideRound s (a.toInt - b.toInt - carryIn carry s) ∧ r = clamp s.cfg.accWidth (s.flag .s) z ∧
        t.regs.accum s.cfg res.acc = r ∧ wideZne s.cfg i t r ∧ flagIs i t .v (outOfRange s.cfg.accWidth z) ∧
        flagIs i t .c (a.toNat < b.toNat + carryIn carry s)

/-- R160: ABS, narrow and wide; the most negative value overflows and saturates. C is open (log 9) and not stated. -/
def Obligations.AbsoluteValue : Prop :=
  ∀ (op : AOp) (res : AReg) (pm : PMove) (s : State), wordReady (.abs op res pm) s = true →
    ∃ t, exec (.abs op res pm) s = .next t ∧
      (op.isWide = false → ∃ (r : BitVec s.cfg.n) (z : Int), z = |(narrowOperand s op).toInt| ∧
        r = clamp s.cfg.n (s.flag .s) z ∧ narrowWritten s.cfg t res r ∧
        narrowZne (.abs op res pm) t r ∧ flagIs (.abs op res pm) t .v (outOfRange s.cfg.n z)) ∧
      (op.isWide = true → ∃ (r : BitVec s.cfg.accWidth) (z : Int), z = wideRound s |(wideOperand s op).toInt| ∧
        r = clamp s.cfg.accWidth (s.flag .s) z ∧ t.regs.accum s.cfg res.acc = r ∧ wideZne s.cfg (.abs op res pm) t r ∧
        flagIs (.abs op res pm) t .v (outOfRange s.cfg.accWidth z))

/-- R159, R158: rounding clears the n bits of the lower half; the upper half is cut off, or rounded to the nearest,
ties upward, to even, or to odd; a wide result is rounded by the configured mode when R is set and left alone when R
is clear. -/
def Obligations.RoundingToNearest : Prop :=
  (∀ (n : Nat) (z : Int), 0 < n → (∀ m, roundTo m n z % 2 ^ n = 0) ∧
    (0 ≤ z - roundTo .truncate n z ∧ z - roundTo .truncate n z < 2 ^ n) ∧
    (∀ m, m ≠ .truncate → |roundTo m n z - z| ≤ 2 ^ (n - 1)) ∧
    (z % 2 ^ n = 2 ^ (n - 1) → roundTo .round n z = z + 2 ^ (n - 1) ∧ roundTo .convergent0 n z / 2 ^ n % 2 = 0 ∧
      roundTo .convergent1 n z / 2 ^ n % 2 = 1)) ∧
  (∀ (s : State) (z : Int), (s.flag .r = true → wideRound s z = roundTo s.cfg.roundMode s.cfg.n z) ∧
    (s.flag .r = false → wideRound s z = z))

/-- R157, R162: ADD of the low words and ADDC of the high words add two 2n-bit numbers (with S clear, on a core with
C). -/
def Obligations.TwoWordAddition : Prop :=
  ∀ (s t u : State) (x y : Acc), s.flag .s = false → Config.hasBit s.cfg .c = true →
    exec (.add (.reg x.low) (.reg y.low) x.low PMove.nop) s = .next t →
    exec (.addc (.reg x.high) (.reg y.high) x.high PMove.nop) t = .next u →
    u.regs.word s.cfg x.high ++ u.regs.word s.cfg x.low =
      (s.regs.word s.cfg x.high ++ s.regs.word s.cfg x.low) + (s.regs.word s.cfg y.high ++ s.regs.word s.cfg y.low)

/-- R126, R157, R167: after a narrow SUB the conditions LT, LE, GE, GT give the signed order of the operands, with and
without saturation, ZS their equality, and CS the unsigned order. -/
def Obligations.ComparisonAfterSub : Prop :=
  ∀ (op1 op2 : AOp) (res : AReg) (pm : PMove) (s t : State), op1.isWide = false → op2.isWide = false →
    Instr.loads .mr0 (.sub op1 op2 res pm) = false → Config.hasBit s.cfg .n = true → Config.hasBit s.cfg .v = true →
    Config.hasBit s.cfg .z = true → Config.hasBit s.cfg .c = true → exec (.sub op1 op2 res pm) s = .next t →
    ∃ a b : BitVec s.cfg.n, a = narrowOperand s op1 ∧ b = narrowOperand s op2 ∧
      (Cond.holds .lt t = true ↔ a.toInt < b.toInt) ∧ (Cond.holds .le t = true ↔ a.toInt ≤ b.toInt) ∧
      (Cond.holds .ge t = true ↔ b.toInt ≤ a.toInt) ∧ (Cond.holds .gt t = true ↔ b.toInt < a.toInt) ∧
      (Cond.holds .zs t = true ↔ a = b) ∧ (Cond.holds .cs t = true ↔ a.toNat < b.toNat)

/-! ## Logic, shifts, multiplier -/

/-- R180 to R184: AND, OR, XOR and NOT, bit by bit, at the width of the operands; V and C are cleared. -/
def Obligations.LogicResults : Prop :=
  ∀ (i : Instr) (op1 op2 : AOp) (res : AReg) (f : Bool → Bool → Bool) (s : State), LogicForm i op1 op2 res f →
    wordReady i s = true →
    ∃ t, exec i s = .next t ∧ flagIs i t .v False ∧ flagIs i t .c False ∧
      (op1.isWide = false → op2.isWide = false →
        ∃ r : BitVec s.cfg.n, (∀ k, k < s.cfg.n →
            r.getLsbD k = f ((narrowOperand s op1).getLsbD k) ((narrowOperand s op2).getLsbD k)) ∧
          narrowWritten s.cfg t res r ∧ narrowZne i t r) ∧
      (op1.isWide = true ∨ op2.isWide = true →
        ∃ r : BitVec s.cfg.accWidth, (∀ k, k < s.cfg.accWidth →
            r.getLsbD k = f ((wideOperand s op1).getLsbD k) ((wideOperand s op2).getLsbD k)) ∧
          t.regs.accum s.cfg res.acc = r ∧ wideZne s.cfg i t r)

/-- R180, R185 to R187: ASR, LSR and LSRC shift right by one; C is the bit shifted out, V is cleared. -/
def Obligations.ShiftResults : Prop :=
  ∀ (i : Instr) (op : AOp) (res : AReg) (top : Bool → Bool → Bool) (s : State), ShiftForm i op res top →
    wordReady i s = true →
    ∃ t, exec i s = .next t ∧ flagIs i t .v False ∧
      (op.isWide = false →
        ∃ b r : BitVec s.cfg.n, b = narrowOperand s op ∧ (∀ k, k + 1 < s.cfg.n → r.getLsbD k = b.getLsbD (k + 1)) ∧
          r.getLsbD (s.cfg.n - 1) = top (s.flag .c) (b.getLsbD (s.cfg.n - 1)) ∧ narrowWritten s.cfg t res r ∧
          narrowZne i t r ∧ flagIs i t .c (b.getLsbD 0 = true)) ∧
      (op.isWide = true →
        ∃ b r : BitVec s.cfg.accWidth, b = wideOperand s op ∧
          (∀ k, k + 1 < s.cfg.accWidth → r.getLsbD k = b.getLsbD (k + 1)) ∧
          r.getLsbD (s.cfg.accWidth - 1) = top (s.flag .c) (b.getLsbD (s.cfg.accWidth - 1)) ∧
          t.regs.accum s.cfg res.acc = r ∧ wideZne s.cfg i t r ∧ flagIs i t .c (b.getLsbD 0 = true))

/-- R203, R201: MULSS, MULSU, MULUS and MULUU put the product of the old registers into P. -/
def Obligations.Products : Prop :=
  ∀ (op1 op2 : AReg) (pm : PMove) (s : State),
    (wordReady (.mulss op1 op2 pm) s = true →
      ∃ t, exec (.mulss op1 op2 pm) s = .next t ∧ isProduct s .ss (s.regs.word s.cfg op1) (s.regs.word s.cfg op2)
        (t.p.setWidth s.cfg.productWidth)) ∧
    (wordReady (.mulsu op1 op2 pm) s = true →
      ∃ t, exec (.mulsu op1 op2 pm) s = .next t ∧ isProduct s .su (s.regs.word s.cfg op1) (s.regs.word s.cfg op2)
        (t.p.setWidth s.cfg.productWidth)) ∧
    (wordReady (.mulus op1 op2 pm) s = true →
      ∃ t, exec (.mulus op1 op2 pm) s = .next t ∧ isProduct s .us (s.regs.word s.cfg op1) (s.regs.word s.cfg op2)
        (t.p.setWidth s.cfg.productWidth)) ∧
    (wordReady (.muluu op1 op2 pm) s = true →
      ∃ t, exec (.muluu op1 op2 pm) s = .next t ∧ isProduct s .uu (s.regs.word s.cfg op1) (s.regs.word s.cfg op2)
        (t.p.setWidth s.cfg.productWidth))

/-- R204, R205, R201, R202: MAC and MSU add the old P to, or take it from, the accumulator, and put the new product into
P. -/
def Obligations.MultiplyAccumulate : Prop :=
  ∀ (op1 op2 : AReg) (mm : MulMode) (x : Acc) (pm : PMove) (s : State) (i : Instr) (sum : Bool),
    ((i = .mac op1 op2 mm x pm ∧ sum = true) ∨ (i = .msu op1 op2 mm x pm ∧ sum = false)) → wordReady i s = true →
    ∃ t, exec i s = .next t ∧ isProduct s mm (s.regs.word s.cfg op1) (s.regs.word s.cfg op2)
        (t.p.setWidth s.cfg.productWidth) ∧
      ∃ (a p r : BitVec s.cfg.accWidth) (z : Int), a = s.regs.accum s.cfg x ∧ p = s.product.signExtend s.cfg.accWidth ∧
        z = wideRound s (if sum then a.toInt + p.toInt else a.toInt - p.toInt) ∧
          r = clamp s.cfg.accWidth (s.flag .s) z ∧
        t.regs.accum s.cfg x = r ∧ wideZne s.cfg i t r ∧ flagIs i t .v (outOfRange s.cfg.accWidth z) ∧
        flagIs i t .c (if sum then 2 ^ s.cfg.accWidth ≤ a.toNat + p.toNat else a.toNat < p.toNat)

/-- R206: RESP puts Op2 into P1 and Op1 into P0 and does nothing else; its word is 0010 0010 d RRR rrr and don't-care
bits (R129, a class R reconstruction: log 19); after `ADD NULL,P,An` with R clear it restores P, whatever S is. -/
def Obligations.RespRestoresP : Prop :=
  (∀ (op1 op2 : AReg) (s : State), (Instr.resp op1 op2).wellFormed s.cfg = true →
    exec (.resp op1 op2) s =
      .next { s with p := (s.regs.word s.cfg op2 ++ s.regs.word s.cfg op1).setWidth 128 }) ∧
  (∀ w : IWord, w.extractLsb' 24 8 = 0b00100010 →
    decodeFields w = .ok (.resp (AReg.ofCode (w.extractLsb' 17 3)) (AReg.ofCode (w.extractLsb' 20 3)))) ∧
  (∀ (x : Acc) (s t : State), s.flag .r = false → exec (.add .null .p x.high PMove.nop) s = .next t →
    ∃ u, exec (.resp x.low x.high) t = .next u ∧ u.p = s.product.setWidth 128)

/-! ## Control -/

/-- R290, R291, R283, R286, R288: J and Jcc: the fetch of the cycle goes to the address when the condition holds, else
on; L is cleared either way; nothing else changes. -/
def Obligations.Jumps : Prop :=
  ∀ (addr : BitVec 18) (s : State),
    (∀ cond, flowReady (.jcc cond addr) cond s = true →
      ∃ t, exec (.jcc cond addr) s = .next t ∧ clearsL s t ∧
        t = { s with mr0 := t.mr0, pc := if Cond.holds cond s = true then trunc s.cfg.pa addr else s.pc }) ∧
    (flowReady (.j addr) .always s = true →
      ∃ t, exec (.j addr) s = .next t ∧ clearsL s t ∧ t = { s with mr0 := t.mr0, pc := trunc s.cfg.pa addr })

/-- R292, R286, R288: CALLcc saves the register PC in LR0, whether or not the jump is taken. -/
def Obligations.Calls : Prop :=
  ∀ (cond : Cond) (addr : BitVec 18) (s : State), flowReady (.callcc cond addr) cond s = true →
    ∃ t, exec (.callcc cond addr) s = .next t ∧ clearsL s t ∧
      t = { s with
        mr0 := t.mr0, lr0 := s.pc, pc := if Cond.holds cond s = true then trunc s.cfg.pa addr else s.pc }

/-- R293, R286, R288: JR and JRcc jump to LR0; JRcc (Op1) also takes the page from an index register, when the condition
holds: pa bits, of which the lowest da are the index register's and any others are open (R225, log 10). -/
def Obligations.RegisterJumps : Prop :=
  ∀ s : State,
    (∀ cond, flowReady (.jrcc cond) cond s = true →
      ∃ t, exec (.jrcc cond) s = .next t ∧ clearsL s t ∧
        t = { s with mr0 := t.mr0, pc := if Cond.holds cond s = true then s.lr0 else s.pc }) ∧
    (flowReady .jr .always s = true →
      ∃ t, exec .jr s = .next t ∧ clearsL s t ∧ t = { s with mr0 := t.mr0, pc := s.lr0 }) ∧
    (∀ cond ix, flowReady (.jrccPage cond ix) cond s = true →
      ∃ t page, exec (.jrccPage cond ix) s = .next t ∧ clearsL s t ∧ fits s.cfg.pa page ∧
        (trunc s.cfg.da page : PAddr) = trunc s.cfg.pa (s.index ix) ∧
        t = { s with
          mr0 := t.mr0, pc := if Cond.holds cond s = true then s.lr0 else s.pc,
          ipr0 := if Cond.holds cond s = true then page else s.ipr0 })

/-- R296, R345, R286: RETI goes to LR1 and clears L; RETI (Op1) also takes the page, as JRcc (Op1) does; nothing else is
restored. -/
def Obligations.InterruptReturns : Prop :=
  ∀ s : State,
    (flowReady .reti .always s = true →
      ∃ t, exec .reti s = .next t ∧ clearsL s t ∧ t = { s with mr0 := t.mr0, pc := s.lr1 }) ∧
    (∀ ix, flowReady (.retiPage ix) .always s = true →
      ∃ t, exec (.retiPage ix) s = .next t ∧ clearsL s t ∧ fits s.cfg.pa t.ipr0 ∧
        (trunc s.cfg.da t.ipr0 : PAddr) = trunc s.cfg.pa (s.index ix) ∧
        t = { s with mr0 := t.mr0, pc := s.lr1, ipr0 := t.ipr0 })

/-- R294, R281 part (g): JMPI jumps on page 0, steps an index register, cancels the word behind it, and leaves every
flag alone. -/
def Obligations.VectorTableJump : Prop :=
  ∀ (addr : BitVec 18) (st : JmpiStep) (ix : IReg) (s : State), s.ic ≠ .c2 →
    ∃ t, exec (.jmpi addr st ix) s = .next t ∧
      (∀ r, t.idx.get r =
        if r = ix then (match st with
            | .none => s.idx.get ix
            | .inc => trunc s.cfg.da (s.idx.get ix + 1)
            | .dec => trunc s.cfg.da (s.idx.get ix - 1))
          else s.idx.get r) ∧
      t = { s with
        idx := t.idx, pc := trunc s.cfg.pa addr, ipr0 := if s.cfg.hasIpr = true then 0 else s.ipr0,
        de := s.de.map fun d => { d with cancelled := true } }

/-- R297, R286, R225, R226: LOOP sets LE, takes LC from the count register adapted to pa bits, and LS from the
register PC, and clears L. The bits above a count register narrower than pa are open (log 10). -/
def Obligations.LoopStarts : Prop :=
  ∀ (count : FReg) (addr : BitVec 20) (s : State), flowReady (.loop count addr) .always s = true →
    sourceReady s count = true →
    ∃ t, exec (.loop count addr) s = .next t ∧ clearsL s t ∧
      t = { s with mr0 := t.mr0, le := trunc s.cfg.pa addr, lc := t.lc, ls := s.pc } ∧
      fits s.cfg.pa t.lc ∧
      (trunc (FReg.width s.cfg count) t.lc : PAddr) =
        trunc s.cfg.pa (trunc (FReg.width s.cfg count) (s.regValue count) : Word) ∧
      (s.cfg.pa ≤ FReg.width s.cfg count → t.lc = trunc s.cfg.pa (s.regValue count))

/-- R299: HALT halts the core when the interrupt controller is idle and is a NOP otherwise. -/
def Obligations.HaltStops : Prop :=
  ∀ s : State, exec .halt s = .next (if s.ic = .idle then { s with halted := true } else s)

/-! ## Address generation -/

/-- R231: post-modification by an immediate: the register plus the signed code, modulo 2^AW, AW = da; code 0000 leaves
the register unwritten; code 1000 selects the pair register. In each case the index flag is the top bit of the address
ALU's output, which for code 0000 is the register itself (R236, the spec's decision D22; log 25). -/
def Obligations.PostModifyImmediate : Prop :=
  (∀ (s : State) (ix : IReg) (k : BitVec 4), k ≠ 0b0000 → k ≠ 0b1000 →
    ∃ v : BitVec s.cfg.da, v = BitVec.ofInt s.cfg.da ((s.index ix).toNat + k.toInt) ∧
      postOf s ix (.step k) = .ok ⟨some (v.setWidth 23), v.msb⟩) ∧
  (∀ (s : State) (ix : IReg), postOf s ix (.step 0b0000) = .ok ⟨none, (s.index ix).msb⟩) ∧
  (∀ k : BitVec 4, Post.ofCode k = .byPair ↔ k = 0b1000)

/-- R233: linear modification by the pair register: in modes 000 and 111 the pair register is its own low AW-2 bits sign
extended, and is added modulo 2^AW, AW = da, read unsigned or signed alike; the index flag is the top bit of the sum
(R236). -/
def Obligations.PostModifyByPair : Prop :=
  ∀ (s : State) (ix : IReg) (i ib : BitVec s.cfg.da), i = s.index ix → ib = s.index ix.pair →
    (ib.extractLsb' (s.cfg.da - 3) 3 = 0b000 ∨ ib.extractLsb' (s.cfg.da - 3) 3 = 0b111) →
    ib = (ib.extractLsb' 0 (s.cfg.da - 2)).signExtend s.cfg.da ∧
    ∃ v : BitVec s.cfg.da, v = BitVec.ofNat s.cfg.da (i.toNat + ib.toNat) ∧
      v = BitVec.ofInt s.cfg.da (i.toNat + ib.toInt) ∧ postOf s ix .byPair = .ok ⟨some (v.setWidth 23), v.msb⟩

/-- R234, step by step: with Mm1 the low AW-3 bits of the pair register (AW = da) and k the position of its uppermost
1 bit, `lower` is the register with bits k to 0 cleared; the register plus the step, as an unbounded integer, is
corrected once by M = Mm1 + 1 when it leaves the buffer, which `wrapped` says, and written modulo 2^AW, wherever the
register points; Mm1 = 0 is refused (U-MOD-M1). It follows that a pointer in the buffer stays in it and moves by the
step modulo M. -/
def Obligations.ModuloStaysInBuffer : Prop :=
  ∀ (s : State) (ix : IReg) (i ib : BitVec s.cfg.da) (mm1 : Nat) (step : Int), s.cfg.amm.getLsbD 0 = true →
    i = s.index ix → ib = s.index ix.pair → mm1 = (ib.extractLsb' 0 (s.cfg.da - 3)).toNat →
    ((ib.extractLsb' (s.cfg.da - 3) 3 = 0b010 ∧ step = 2) ∨ (ib.extractLsb' (s.cfg.da - 3) 3 = 0b011 ∧ step = -2) ∨
      (ib.extractLsb' (s.cfg.da - 3) 3 = 0b100 ∧ step = 1) ∨ (ib.extractLsb' (s.cfg.da - 3) 3 = 0b101 ∧ step = -1)) →
    (mm1 = 0 → postOf s ix .byPair = .error .modM1) ∧
    ∀ k lower : Nat, 2 ^ k ≤ mm1 → mm1 < 2 ^ (k + 1) → lower = i.toNat - i.toNat % 2 ^ (k + 1) →
      ∃ (new : Int) (wrapped : Bool) (v : BitVec s.cfg.da), v = BitVec.ofInt s.cfg.da new ∧
        postOf s ix .byPair = .ok ⟨some (v.setWidth 23), wrapped⟩ ∧
        (i.toNat + step < lower → new = i.toNat + step + (mm1 + 1) ∧ wrapped = true) ∧
        ((lower : Int) + mm1 < i.toNat + step → new = i.toNat + step - (mm1 + 1) ∧ wrapped = true) ∧
        ((lower : Int) ≤ i.toNat + step → i.toNat + step ≤ (lower : Int) + mm1 →
          new = i.toNat + step ∧ wrapped = false) ∧
        (i.toNat ≤ lower + mm1 → lower ≤ v.toNat ∧ v.toNat ≤ lower + mm1 ∧
          (v.toNat : Int) - lower = ((i.toNat : Int) - lower + step) % (mm1 + 1) ∧
          (wrapped = true ↔ (v.toNat : Int) ≠ i.toNat + step))

/-- R235: bit-reversed modification: the reversed register plus the reversed low AW-2 bits of the pair register,
reversed, AW = da; the index flag is the top bit of the new value (R236). -/
def Obligations.PostModifyReversed : Prop :=
  ∀ (s : State) (ix : IReg) (i ib : BitVec s.cfg.da), s.cfg.amm.getLsbD 1 = true →
    i = s.index ix → ib = s.index ix.pair → ib.extractLsb' (s.cfg.da - 3) 3 = 0b110 →
    ∃ v : BitVec s.cfg.da, postOf s ix .byPair = .ok ⟨some (v.setWidth 23), v.msb⟩ ∧
      v.reverse = i.reverse + ((ib.extractLsb' 0 (s.cfg.da - 2)).setWidth s.cfg.da).reverse

/-! ## Stops -/

/-- R223, R245: a word whose parts write one register twice, with no winner named, is refused: the ALU part and the
moves, and the two halves of a double register move (one target twice, or X1 with X2). -/
def Obligations.DoubleWriteRefused : Prop :=
  (∀ (i : Instr) (s : State), Instr.isWord i = true → i.wellFormed s.cfg = true →
    busReady .x (Instr.moves i).x s = true → busReady .y (Instr.moves i).y s = true → ¬ (Instr.targets i).Nodup →
    exec i s = .refused .doubleWrite) ∧
  (∀ (xsrc xdst ysrc ydst : FReg) (s : State), (Instr.mvxDbl xsrc xdst ysrc ydst).wellFormed s.cfg = true →
    unitsDiffer xsrc xdst = true → unitsDiffer ysrc ydst = true →
    sourceReady s xsrc = true → sourceReady s ysrc = true → targetReady s xdst = true → targetReady s ydst = true →
    ((xdst = ydst ∧ xdst ≠ .null ∧ xdst ≠ .nop) ∨
      (∃ x : Acc, (xdst = .areg x.high ∧ ydst = .guard x) ∨ (xdst = .guard x ∧ ydst = .areg x.high))) →
    exec (.mvxDbl xsrc xdst ysrc ydst) s = .refused .doubleWrite)

/-- R285, R288, R393, R340: a change of flow in the delay slot, a condition on a flag the previous instruction wrote,
and JMPI in interrupt cycle 2 are refused. -/
def Obligations.FlowRefused : Prop :=
  ∀ (cond : Cond) (addr : BitVec 18) (end_ : BitVec 20) (count : FReg) (st : JmpiStep) (ix : IReg) (s : State),
    (Cond.ready cond s = false →
      exec (.jcc cond addr) s = .refused .condHazard ∧ exec (.callcc cond addr) s = .refused .condHazard ∧
      exec (.jrcc cond) s = .refused .condHazard ∧
      (s.cfg.hasIpr = true → exec (.jrccPage cond ix) s = .refused .condHazard)) ∧
    (slotIsFlow s.cfg s.de = true →
      exec (.j addr) s = .refused .cofDelay ∧ exec .jr s = .refused .cofDelay ∧ exec .reti s = .refused .cofDelay ∧
      (s.cfg.hasIpr = true → exec (.retiPage ix) s = .refused .cofDelay) ∧
      (Cond.ready cond s = true → exec (.jcc cond addr) s = .refused .cofDelay ∧
        exec (.callcc cond addr) s = .refused .cofDelay ∧ exec (.jrcc cond) s = .refused .cofDelay ∧
        (s.cfg.hasIpr = true → exec (.jrccPage cond ix) s = .refused .cofDelay)) ∧
      ((Instr.loop count end_).wellFormed s.cfg = true → sourceReady s count = true →
        exec (.loop count end_) s = .refused .cofDelay)) ∧
    (Cond.ready .always s = true) ∧
    (s.ic = .c2 → exec (.jmpi addr st ix) s = .refused .jmpiInt)

/-- R71, R77, R84, R227, R232, R234, R342: where a lone full move on either bus stops: absent cells, stores to cells
that alias instruction memory, a discarded load and a move NOP at a device with a side effect, NULL and the NOP
register as sources, reserved and disabled modes, a zero buffer length, and MR1 in interrupt cycle 4. Each clause but
the first has the premise that the cell itself does not stop the move, so none rests on the order in which the model
tests (log 6). -/
def Obligations.MovesStop : Prop :=
  ∀ (bus : Space) (ix : IReg) (r : AReg) (k : BitVec 4) (s : State) (cell : CellKind) (mode : BitVec 3),
    r.available s.cfg = true → k ≠ 8 → cell = Config.cell s.cfg bus (s.idx.get ix) →
    mode = (s.index ix.pair).extractLsb' (s.cfg.da - 3) 3 →
    (cell = .absent →
      exec (loneLoad bus ix (.step k) (.areg r)) s = .refused .memAbsent ∧
      exec (loneLoad bus ix (.step k) .null) s = .refused .memAbsent ∧
      exec (loneStore bus ix (.step k) (.areg r)) s = .refused .memAbsent) ∧
    (cell = .shadow → exec (loneStore bus ix (.step k) (.areg r)) s = .refused .imemWrite) ∧
    (cell = .device true →
      exec (loneLoad bus ix (.step k) .null) s = .refused .nullRead ∧
      exec (.nopAlu (.full bus (FullMove.nopAt ix (.step k)))) s = .refused .nullRead) ∧
    (CellKind.takes cell = true →
      exec (loneStore bus ix (.step k) .null) s = .refused .nullStore ∧
      exec (loneStore bus ix (.step k) .nop) s = .refused .nullStore) ∧
    (CellKind.takes cell = true →
      (mode = 0b001 ∨ (2 ≤ mode.toNat ∧ mode.toNat ≤ 5 ∧ s.cfg.amm.getLsbD 0 = false) ∨
        (mode = 0b110 ∧ s.cfg.amm.getLsbD 1 = false)) →
      exec (loneLoad bus ix .byPair (.areg r)) s = .refused .reservedMode ∧
      exec (loneStore bus ix .byPair (.areg r)) s = .refused .reservedMode) ∧
    (CellKind.takes cell = true → 2 ≤ mode.toNat → mode.toNat ≤ 5 → s.cfg.amm.getLsbD 0 = true →
      (s.index ix.pair).extractLsb' 0 (s.cfg.da - 3) = 0 →
      exec (loneLoad bus ix .byPair (.areg r)) s = .refused .modM1 ∧
      exec (loneStore bus ix .byPair (.areg r)) s = .refused .modM1) ∧
    (s.ic = .c4 →
      (CellKind.takes cell = true →
        exec (loneStore bus ix (.step k) .mr1) s = .refused .mr1Early ∧
        exec (loneLoad bus ix (.step k) .mr1) s = .refused .doubleWrite) ∧
      (∀ imm, exec (.ldc imm .mr1) s = .refused .doubleWrite) ∧
      exec (.mvxPar .mr1 (.areg r)) s = .refused .mr1Early ∧ exec (.mvxPar (.areg r) .mr1) s = .refused .doubleWrite)

/-! ## Conditions -/

/-- R126, Table 6.1: the code of each condition, every other code reserved, and the truth of each condition over the
flags of MR0. -/
def Obligations.ConditionTable : Prop :=
  ((Cond.ofCode 0b000000 = .ok .always ∧ Cond.ofCode 0b000001 = .ok .cs ∧
    Cond.ofCode 0b000010 = .ok .es ∧ Cond.ofCode 0b000011 = .ok .vs ∧
    Cond.ofCode 0b000100 = .ok .ns ∧ Cond.ofCode 0b000101 = .ok .zs ∧
    Cond.ofCode 0b000110 = .ok .xs ∧ Cond.ofCode 0b000111 = .ok .ys ∧
    Cond.ofCode 0b001000 = .ok .lt ∧ Cond.ofCode 0b001001 = .ok .le ∧
    Cond.ofCode 0b010001 = .ok .cc ∧ Cond.ofCode 0b010010 = .ok .ec ∧
    Cond.ofCode 0b010011 = .ok .vc ∧ Cond.ofCode 0b010100 = .ok .nc ∧
    Cond.ofCode 0b010101 = .ok .zc ∧ Cond.ofCode 0b010110 = .ok .xc ∧
    Cond.ofCode 0b010111 = .ok .yc ∧ Cond.ofCode 0b011000 = .ok .ge ∧
    Cond.ofCode 0b011001 = .ok .gt) ∧
    ∀ k : BitVec 6, (0b001010 ≤ k.toNat ∧ k.toNat ≤ 0b010000 ∨ 0b011010 ≤ k.toNat) →
      Cond.ofCode k = .error .reservedCondition) ∧
  ∀ s : State,
    Cond.holds .always s = true ∧
    (Cond.holds .cs s = s.flag .c ∧ Cond.holds .cc s = !s.flag .c) ∧
    (Cond.holds .es s = s.flag .e ∧ Cond.holds .ec s = !s.flag .e) ∧
    (Cond.holds .vs s = s.flag .v ∧ Cond.holds .vc s = !s.flag .v) ∧
    (Cond.holds .ns s = s.flag .n ∧ Cond.holds .nc s = !s.flag .n) ∧
    (Cond.holds .zs s = s.flag .z ∧ Cond.holds .zc s = !s.flag .z) ∧
    (Cond.holds .xs s = s.flag .x ∧ Cond.holds .xc s = !s.flag .x) ∧
    (Cond.holds .ys s = s.flag .y ∧ Cond.holds .yc s = !s.flag .y) ∧
    (Cond.holds .lt s = (s.flag .n ^^ (s.flag .v && !s.flag .s)) ∧ Cond.holds .ge s = !Cond.holds .lt s) ∧
    (Cond.holds .le s = (Cond.holds .lt s || s.flag .z) ∧ Cond.holds .gt s = !Cond.holds .le s)

/-! ## Configurations, vectors, buses -/

/-- R200, R125, R4: the configurations the spec refuses or leaves out (m other than n, pa above 18, 16 index
registers, MODONLY, more than one level of loop hardware) run nothing, and only those are refused so. That a step is
where the refusal is made is the model's choice (log 1). -/
def Obligations.UnsupportedConfigRefused : Prop :=
  ∀ s : State,
    (s.cfg.supported = true ↔
      s.cfg.m = s.cfg.n ∧ s.cfg.pa ≤ 18 ∧ s.cfg.ni = .eight ∧ s.cfg.modOnly = false ∧ s.cfg.loopHw.val ≤ 1) ∧
    (s.cfg.supported = false → step s = .refused .badConfig) ∧
    (s.cfg.supported = true → step s ≠ .refused .badConfig)

/-- R331, R333: the vector is an address in 0x20 to 0x3F; on a platform whose arbiter has an enabled source it is the
vector of one of them, and any of them can be the one; without an enabled source no request is received (log 8). -/
def Obligations.VectorFromTable : Prop :=
  ∀ s : State, (0x20 ≤ s.vector.toNat ∧ s.vector.toNat ≤ 0x3F) ∧
    (∀ b, s.cfg.arbiter = some b → (∃ x ∈ b.sources, x.enabled = true) →
      (∃ x ∈ b.sources, x.enabled = true ∧ s.vector.toNat = 0x20 + x.vector.toNat) ∧
      (∀ x ∈ b.sources, x.enabled = true → ∃ k, ∀ t : State, t.cfg = s.cfg → t.input.source = k →
        t.vector.toNat = 0x20 + x.vector.toNat)) ∧
    ((s.cfg.arbiter = none ∨ ∃ b, s.cfg.arbiter = some b ∧ ∀ x ∈ b.sources, x.enabled = false) → s.requested = false)

/-- R225, R226: a register of width w on a bus appears in the low w bits, the bus has n bits, and a register of full
width fills it; the bits between are open (log 10). -/
def Obligations.RegistersOnTheBus : Prop :=
  ∀ (bus : Space) (f : FReg) (s : State), sourceReady s f = true →
    ∃ v, readReg bus f s = .ok v ∧ fits s.cfg.n v ∧
      (trunc (FReg.width s.cfg f) v : Word) = trunc (FReg.width s.cfg f) (s.regValue f) ∧
      (FReg.width s.cfg f = s.cfg.n → v = trunc s.cfg.n (s.regValue f))
end

