-- ==== Sys2Proof/Laws/State.lean ====
section
/-! SUPPORT. The fields an update leaves alone, one lemma per field and update. -/

set_option Elab.async false

namespace Sys2Proof.Machine

/-! ### putMem -/

@[simp] theorem putMem_regs (sp : Space) (m : Memory) (s : State) : (s.putMem sp m).regs = s.regs := by cases sp <;> rfl
@[simp] theorem putMem_p (sp : Space) (m : Memory) (s : State) : (s.putMem sp m).p = s.p := by cases sp <;> rfl
@[simp] theorem putMem_idx (sp : Space) (m : Memory) (s : State) : (s.putMem sp m).idx = s.idx := by cases sp <;> rfl
@[simp] theorem putMem_pc (sp : Space) (m : Memory) (s : State) : (s.putMem sp m).pc = s.pc := by cases sp <;> rfl
@[simp] theorem putMem_lr0 (sp : Space) (m : Memory) (s : State) : (s.putMem sp m).lr0 = s.lr0 := by cases sp <;> rfl
@[simp] theorem putMem_lr1 (sp : Space) (m : Memory) (s : State) : (s.putMem sp m).lr1 = s.lr1 := by cases sp <;> rfl
@[simp] theorem putMem_mr0 (sp : Space) (m : Memory) (s : State) : (s.putMem sp m).mr0 = s.mr0 := by cases sp <;> rfl
@[simp] theorem putMem_mr1 (sp : Space) (m : Memory) (s : State) : (s.putMem sp m).mr1 = s.mr1 := by cases sp <;> rfl
@[simp] theorem putMem_ipr0 (sp : Space) (m : Memory) (s : State) : (s.putMem sp m).ipr0 = s.ipr0 := by cases sp <;> rfl
@[simp] theorem putMem_ipr1 (sp : Space) (m : Memory) (s : State) : (s.putMem sp m).ipr1 = s.ipr1 := by cases sp <;> rfl
@[simp] theorem putMem_ls (sp : Space) (m : Memory) (s : State) : (s.putMem sp m).ls = s.ls := by cases sp <;> rfl
@[simp] theorem putMem_le (sp : Space) (m : Memory) (s : State) : (s.putMem sp m).le = s.le := by cases sp <;> rfl
@[simp] theorem putMem_lc (sp : Space) (m : Memory) (s : State) : (s.putMem sp m).lc = s.lc := by cases sp <;> rfl
@[simp] theorem putMem_de (sp : Space) (m : Memory) (s : State) : (s.putMem sp m).de = s.de := by cases sp <;> rfl
@[simp] theorem putMem_ex (sp : Space) (m : Memory) (s : State) : (s.putMem sp m).ex = s.ex := by cases sp <;> rfl
@[simp] theorem putMem_ic (sp : Space) (m : Memory) (s : State) : (s.putMem sp m).ic = s.ic := by cases sp <;> rfl
@[simp] theorem putMem_lehit (sp : Space) (m : Memory) (s : State) : (s.putMem sp m).lehit = s.lehit := by
  cases sp <;> rfl
@[simp] theorem putMem_halted (sp : Space) (m : Memory) (s : State) : (s.putMem sp m).halted = s.halted := by
  cases sp <;> rfl
@[simp] theorem putMem_prevFlags (sp : Space) (m : Memory) (s : State) : (s.putMem sp m).prevFlags = s.prevFlags := by
  cases sp <;> rfl
@[simp] theorem putMem_woke (sp : Space) (m : Memory) (s : State) : (s.putMem sp m).woke = s.woke := by cases sp <;> rfl
@[simp] theorem putMem_imem (sp : Space) (m : Memory) (s : State) : (s.putMem sp m).imem = s.imem := by cases sp <;> rfl
@[simp] theorem putMem_en (sp : Space) (m : Memory) (s : State) : (s.putMem sp m).en = s.en := by cases sp <;> rfl
@[simp] theorem putMem_inputs (sp : Space) (m : Memory) (s : State) : (s.putMem sp m).inputs = s.inputs := by
  cases sp <;> rfl
@[simp] theorem putMem_tick (sp : Space) (m : Memory) (s : State) : (s.putMem sp m).tick = s.tick := by cases sp <;> rfl
@[simp] theorem putMem_cfg (sp : Space) (m : Memory) (s : State) : (s.putMem sp m).cfg = s.cfg := by cases sp <;> rfl

/-! ### putBits -/

@[simp] theorem putBits_regs (m v : PAddr) (s : State) : (s.putBits m v).regs = s.regs := rfl
@[simp] theorem putBits_p (m v : PAddr) (s : State) : (s.putBits m v).p = s.p := rfl
@[simp] theorem putBits_idx (m v : PAddr) (s : State) : (s.putBits m v).idx = s.idx := rfl
@[simp] theorem putBits_pc (m v : PAddr) (s : State) : (s.putBits m v).pc = s.pc := rfl
@[simp] theorem putBits_lr0 (m v : PAddr) (s : State) : (s.putBits m v).lr0 = s.lr0 := rfl
@[simp] theorem putBits_lr1 (m v : PAddr) (s : State) : (s.putBits m v).lr1 = s.lr1 := rfl
@[simp] theorem putBits_mr1 (m v : PAddr) (s : State) : (s.putBits m v).mr1 = s.mr1 := rfl
@[simp] theorem putBits_ipr0 (m v : PAddr) (s : State) : (s.putBits m v).ipr0 = s.ipr0 := rfl
@[simp] theorem putBits_ipr1 (m v : PAddr) (s : State) : (s.putBits m v).ipr1 = s.ipr1 := rfl
@[simp] theorem putBits_ls (m v : PAddr) (s : State) : (s.putBits m v).ls = s.ls := rfl
@[simp] theorem putBits_le (m v : PAddr) (s : State) : (s.putBits m v).le = s.le := rfl
@[simp] theorem putBits_lc (m v : PAddr) (s : State) : (s.putBits m v).lc = s.lc := rfl
@[simp] theorem putBits_de (m v : PAddr) (s : State) : (s.putBits m v).de = s.de := rfl
@[simp] theorem putBits_ex (m v : PAddr) (s : State) : (s.putBits m v).ex = s.ex := rfl
@[simp] theorem putBits_ic (m v : PAddr) (s : State) : (s.putBits m v).ic = s.ic := rfl
@[simp] theorem putBits_lehit (m v : PAddr) (s : State) : (s.putBits m v).lehit = s.lehit := rfl
@[simp] theorem putBits_halted (m v : PAddr) (s : State) : (s.putBits m v).halted = s.halted := rfl
@[simp] theorem putBits_prevFlags (m v : PAddr) (s : State) : (s.putBits m v).prevFlags = s.prevFlags := rfl
@[simp] theorem putBits_woke (m v : PAddr) (s : State) : (s.putBits m v).woke = s.woke := rfl
@[simp] theorem putBits_xmem (m v : PAddr) (s : State) : (s.putBits m v).xmem = s.xmem := rfl
@[simp] theorem putBits_ymem (m v : PAddr) (s : State) : (s.putBits m v).ymem = s.ymem := rfl
@[simp] theorem putBits_imem (m v : PAddr) (s : State) : (s.putBits m v).imem = s.imem := rfl
@[simp] theorem putBits_en (m v : PAddr) (s : State) : (s.putBits m v).en = s.en := rfl
@[simp] theorem putBits_inputs (m v : PAddr) (s : State) : (s.putBits m v).inputs = s.inputs := rfl
@[simp] theorem putBits_tick (m v : PAddr) (s : State) : (s.putBits m v).tick = s.tick := rfl
@[simp] theorem putBits_cfg (m v : PAddr) (s : State) : (s.putBits m v).cfg = s.cfg := rfl

/-! ### putFlag -/

@[simp] theorem putFlag_regs (b : MrBit) (v : Bool) (s : State) : (s.putFlag b v).regs = s.regs := rfl
@[simp] theorem putFlag_p (b : MrBit) (v : Bool) (s : State) : (s.putFlag b v).p = s.p := rfl
@[simp] theorem putFlag_idx (b : MrBit) (v : Bool) (s : State) : (s.putFlag b v).idx = s.idx := rfl
@[simp] theorem putFlag_pc (b : MrBit) (v : Bool) (s : State) : (s.putFlag b v).pc = s.pc := rfl
@[simp] theorem putFlag_lr0 (b : MrBit) (v : Bool) (s : State) : (s.putFlag b v).lr0 = s.lr0 := rfl
@[simp] theorem putFlag_lr1 (b : MrBit) (v : Bool) (s : State) : (s.putFlag b v).lr1 = s.lr1 := rfl
@[simp] theorem putFlag_mr1 (b : MrBit) (v : Bool) (s : State) : (s.putFlag b v).mr1 = s.mr1 := rfl
@[simp] theorem putFlag_ipr0 (b : MrBit) (v : Bool) (s : State) : (s.putFlag b v).ipr0 = s.ipr0 := rfl
@[simp] theorem putFlag_ipr1 (b : MrBit) (v : Bool) (s : State) : (s.putFlag b v).ipr1 = s.ipr1 := rfl
@[simp] theorem putFlag_ls (b : MrBit) (v : Bool) (s : State) : (s.putFlag b v).ls = s.ls := rfl
@[simp] theorem putFlag_le (b : MrBit) (v : Bool) (s : State) : (s.putFlag b v).le = s.le := rfl
@[simp] theorem putFlag_lc (b : MrBit) (v : Bool) (s : State) : (s.putFlag b v).lc = s.lc := rfl
@[simp] theorem putFlag_de (b : MrBit) (v : Bool) (s : State) : (s.putFlag b v).de = s.de := rfl
@[simp] theorem putFlag_ex (b : MrBit) (v : Bool) (s : State) : (s.putFlag b v).ex = s.ex := rfl
@[simp] theorem putFlag_ic (b : MrBit) (v : Bool) (s : State) : (s.putFlag b v).ic = s.ic := rfl
@[simp] theorem putFlag_lehit (b : MrBit) (v : Bool) (s : State) : (s.putFlag b v).lehit = s.lehit := rfl
@[simp] theorem putFlag_halted (b : MrBit) (v : Bool) (s : State) : (s.putFlag b v).halted = s.halted := rfl
@[simp] theorem putFlag_prevFlags (b : MrBit) (v : Bool) (s : State) : (s.putFlag b v).prevFlags = s.prevFlags := rfl
@[simp] theorem putFlag_woke (b : MrBit) (v : Bool) (s : State) : (s.putFlag b v).woke = s.woke := rfl
@[simp] theorem putFlag_xmem (b : MrBit) (v : Bool) (s : State) : (s.putFlag b v).xmem = s.xmem := rfl
@[simp] theorem putFlag_ymem (b : MrBit) (v : Bool) (s : State) : (s.putFlag b v).ymem = s.ymem := rfl
@[simp] theorem putFlag_imem (b : MrBit) (v : Bool) (s : State) : (s.putFlag b v).imem = s.imem := rfl
@[simp] theorem putFlag_en (b : MrBit) (v : Bool) (s : State) : (s.putFlag b v).en = s.en := rfl
@[simp] theorem putFlag_inputs (b : MrBit) (v : Bool) (s : State) : (s.putFlag b v).inputs = s.inputs := rfl
@[simp] theorem putFlag_tick (b : MrBit) (v : Bool) (s : State) : (s.putFlag b v).tick = s.tick := rfl
@[simp] theorem putFlag_cfg (b : MrBit) (v : Bool) (s : State) : (s.putFlag b v).cfg = s.cfg := rfl

/-! ### clearLoopFlag -/

@[simp] theorem clearLoopFlag_regs (s : State) : (s.clearLoopFlag).regs = s.regs := rfl
@[simp] theorem clearLoopFlag_p (s : State) : (s.clearLoopFlag).p = s.p := rfl
@[simp] theorem clearLoopFlag_idx (s : State) : (s.clearLoopFlag).idx = s.idx := rfl
@[simp] theorem clearLoopFlag_pc (s : State) : (s.clearLoopFlag).pc = s.pc := rfl
@[simp] theorem clearLoopFlag_lr0 (s : State) : (s.clearLoopFlag).lr0 = s.lr0 := rfl
@[simp] theorem clearLoopFlag_lr1 (s : State) : (s.clearLoopFlag).lr1 = s.lr1 := rfl
@[simp] theorem clearLoopFlag_mr1 (s : State) : (s.clearLoopFlag).mr1 = s.mr1 := rfl
@[simp] theorem clearLoopFlag_ipr0 (s : State) : (s.clearLoopFlag).ipr0 = s.ipr0 := rfl
@[simp] theorem clearLoopFlag_ipr1 (s : State) : (s.clearLoopFlag).ipr1 = s.ipr1 := rfl
@[simp] theorem clearLoopFlag_ls (s : State) : (s.clearLoopFlag).ls = s.ls := rfl
@[simp] theorem clearLoopFlag_le (s : State) : (s.clearLoopFlag).le = s.le := rfl
@[simp] theorem clearLoopFlag_lc (s : State) : (s.clearLoopFlag).lc = s.lc := rfl
@[simp] theorem clearLoopFlag_de (s : State) : (s.clearLoopFlag).de = s.de := rfl
@[simp] theorem clearLoopFlag_ex (s : State) : (s.clearLoopFlag).ex = s.ex := rfl
@[simp] theorem clearLoopFlag_ic (s : State) : (s.clearLoopFlag).ic = s.ic := rfl
@[simp] theorem clearLoopFlag_lehit (s : State) : (s.clearLoopFlag).lehit = s.lehit := rfl
@[simp] theorem clearLoopFlag_halted (s : State) : (s.clearLoopFlag).halted = s.halted := rfl
@[simp] theorem clearLoopFlag_prevFlags (s : State) : (s.clearLoopFlag).prevFlags = s.prevFlags := rfl
@[simp] theorem clearLoopFlag_woke (s : State) : (s.clearLoopFlag).woke = s.woke := rfl
@[simp] theorem clearLoopFlag_xmem (s : State) : (s.clearLoopFlag).xmem = s.xmem := rfl
@[simp] theorem clearLoopFlag_ymem (s : State) : (s.clearLoopFlag).ymem = s.ymem := rfl
@[simp] theorem clearLoopFlag_imem (s : State) : (s.clearLoopFlag).imem = s.imem := rfl
@[simp] theorem clearLoopFlag_en (s : State) : (s.clearLoopFlag).en = s.en := rfl
@[simp] theorem clearLoopFlag_inputs (s : State) : (s.clearLoopFlag).inputs = s.inputs := rfl
@[simp] theorem clearLoopFlag_tick (s : State) : (s.clearLoopFlag).tick = s.tick := rfl
@[simp] theorem clearLoopFlag_cfg (s : State) : (s.clearLoopFlag).cfg = s.cfg := rfl

/-! ### cancelEx -/

@[simp] theorem cancelEx_regs (s : State) : (s.cancelEx).regs = s.regs := rfl
@[simp] theorem cancelEx_p (s : State) : (s.cancelEx).p = s.p := rfl
@[simp] theorem cancelEx_idx (s : State) : (s.cancelEx).idx = s.idx := rfl
@[simp] theorem cancelEx_pc (s : State) : (s.cancelEx).pc = s.pc := rfl
@[simp] theorem cancelEx_lr0 (s : State) : (s.cancelEx).lr0 = s.lr0 := rfl
@[simp] theorem cancelEx_lr1 (s : State) : (s.cancelEx).lr1 = s.lr1 := rfl
@[simp] theorem cancelEx_mr0 (s : State) : (s.cancelEx).mr0 = s.mr0 := rfl
@[simp] theorem cancelEx_mr1 (s : State) : (s.cancelEx).mr1 = s.mr1 := rfl
@[simp] theorem cancelEx_ipr0 (s : State) : (s.cancelEx).ipr0 = s.ipr0 := rfl
@[simp] theorem cancelEx_ipr1 (s : State) : (s.cancelEx).ipr1 = s.ipr1 := rfl
@[simp] theorem cancelEx_ls (s : State) : (s.cancelEx).ls = s.ls := rfl
@[simp] theorem cancelEx_le (s : State) : (s.cancelEx).le = s.le := rfl
@[simp] theorem cancelEx_lc (s : State) : (s.cancelEx).lc = s.lc := rfl
@[simp] theorem cancelEx_de (s : State) : (s.cancelEx).de = s.de := rfl
@[simp] theorem cancelEx_ic (s : State) : (s.cancelEx).ic = s.ic := rfl
@[simp] theorem cancelEx_lehit (s : State) : (s.cancelEx).lehit = s.lehit := rfl
@[simp] theorem cancelEx_halted (s : State) : (s.cancelEx).halted = s.halted := rfl
@[simp] theorem cancelEx_prevFlags (s : State) : (s.cancelEx).prevFlags = s.prevFlags := rfl
@[simp] theorem cancelEx_woke (s : State) : (s.cancelEx).woke = s.woke := rfl
@[simp] theorem cancelEx_xmem (s : State) : (s.cancelEx).xmem = s.xmem := rfl
@[simp] theorem cancelEx_ymem (s : State) : (s.cancelEx).ymem = s.ymem := rfl
@[simp] theorem cancelEx_imem (s : State) : (s.cancelEx).imem = s.imem := rfl
@[simp] theorem cancelEx_en (s : State) : (s.cancelEx).en = s.en := rfl
@[simp] theorem cancelEx_inputs (s : State) : (s.cancelEx).inputs = s.inputs := rfl
@[simp] theorem cancelEx_tick (s : State) : (s.cancelEx).tick = s.tick := rfl
@[simp] theorem cancelEx_cfg (s : State) : (s.cancelEx).cfg = s.cfg := rfl

/-! ### cancelDe -/

@[simp] theorem cancelDe_regs (s : State) : (s.cancelDe).regs = s.regs := rfl
@[simp] theorem cancelDe_p (s : State) : (s.cancelDe).p = s.p := rfl
@[simp] theorem cancelDe_idx (s : State) : (s.cancelDe).idx = s.idx := rfl
@[simp] theorem cancelDe_pc (s : State) : (s.cancelDe).pc = s.pc := rfl
@[simp] theorem cancelDe_lr0 (s : State) : (s.cancelDe).lr0 = s.lr0 := rfl
@[simp] theorem cancelDe_lr1 (s : State) : (s.cancelDe).lr1 = s.lr1 := rfl
@[simp] theorem cancelDe_mr0 (s : State) : (s.cancelDe).mr0 = s.mr0 := rfl
@[simp] theorem cancelDe_mr1 (s : State) : (s.cancelDe).mr1 = s.mr1 := rfl
@[simp] theorem cancelDe_ipr0 (s : State) : (s.cancelDe).ipr0 = s.ipr0 := rfl
@[simp] theorem cancelDe_ipr1 (s : State) : (s.cancelDe).ipr1 = s.ipr1 := rfl
@[simp] theorem cancelDe_ls (s : State) : (s.cancelDe).ls = s.ls := rfl
@[simp] theorem cancelDe_le (s : State) : (s.cancelDe).le = s.le := rfl
@[simp] theorem cancelDe_lc (s : State) : (s.cancelDe).lc = s.lc := rfl
@[simp] theorem cancelDe_ex (s : State) : (s.cancelDe).ex = s.ex := rfl
@[simp] theorem cancelDe_ic (s : State) : (s.cancelDe).ic = s.ic := rfl
@[simp] theorem cancelDe_lehit (s : State) : (s.cancelDe).lehit = s.lehit := rfl
@[simp] theorem cancelDe_halted (s : State) : (s.cancelDe).halted = s.halted := rfl
@[simp] theorem cancelDe_prevFlags (s : State) : (s.cancelDe).prevFlags = s.prevFlags := rfl
@[simp] theorem cancelDe_woke (s : State) : (s.cancelDe).woke = s.woke := rfl
@[simp] theorem cancelDe_xmem (s : State) : (s.cancelDe).xmem = s.xmem := rfl
@[simp] theorem cancelDe_ymem (s : State) : (s.cancelDe).ymem = s.ymem := rfl
@[simp] theorem cancelDe_imem (s : State) : (s.cancelDe).imem = s.imem := rfl
@[simp] theorem cancelDe_en (s : State) : (s.cancelDe).en = s.en := rfl
@[simp] theorem cancelDe_inputs (s : State) : (s.cancelDe).inputs = s.inputs := rfl
@[simp] theorem cancelDe_tick (s : State) : (s.cancelDe).tick = s.tick := rfl
@[simp] theorem cancelDe_cfg (s : State) : (s.cancelDe).cfg = s.cfg := rfl

/-! ### advance -/

@[simp] theorem advance_regs (s : State) : (s.advance).regs = s.regs := rfl
@[simp] theorem advance_p (s : State) : (s.advance).p = s.p := rfl
@[simp] theorem advance_idx (s : State) : (s.advance).idx = s.idx := rfl
@[simp] theorem advance_pc (s : State) : (s.advance).pc = s.pc := rfl
@[simp] theorem advance_lr0 (s : State) : (s.advance).lr0 = s.lr0 := rfl
@[simp] theorem advance_lr1 (s : State) : (s.advance).lr1 = s.lr1 := rfl
@[simp] theorem advance_mr0 (s : State) : (s.advance).mr0 = s.mr0 := rfl
@[simp] theorem advance_mr1 (s : State) : (s.advance).mr1 = s.mr1 := rfl
@[simp] theorem advance_ipr0 (s : State) : (s.advance).ipr0 = s.ipr0 := rfl
@[simp] theorem advance_ipr1 (s : State) : (s.advance).ipr1 = s.ipr1 := rfl
@[simp] theorem advance_ls (s : State) : (s.advance).ls = s.ls := rfl
@[simp] theorem advance_le (s : State) : (s.advance).le = s.le := rfl
@[simp] theorem advance_lc (s : State) : (s.advance).lc = s.lc := rfl
@[simp] theorem advance_de (s : State) : (s.advance).de = s.de := rfl
@[simp] theorem advance_ex (s : State) : (s.advance).ex = s.ex := rfl
@[simp] theorem advance_ic (s : State) : (s.advance).ic = s.ic := rfl
@[simp] theorem advance_lehit (s : State) : (s.advance).lehit = s.lehit := rfl
@[simp] theorem advance_halted (s : State) : (s.advance).halted = s.halted := rfl
@[simp] theorem advance_prevFlags (s : State) : (s.advance).prevFlags = s.prevFlags := rfl
@[simp] theorem advance_woke (s : State) : (s.advance).woke = s.woke := rfl
@[simp] theorem advance_xmem (s : State) : (s.advance).xmem = s.xmem := rfl
@[simp] theorem advance_ymem (s : State) : (s.advance).ymem = s.ymem := rfl
@[simp] theorem advance_imem (s : State) : (s.advance).imem = s.imem := rfl
@[simp] theorem advance_en (s : State) : (s.advance).en = s.en := rfl
@[simp] theorem advance_cfg (s : State) : (s.advance).cfg = s.cfg := rfl

/-! ### storeData -/

@[simp] theorem storeData_regs (sp : Space) (a : DAddr) (v : Word) (s : State) :
    (storeData sp a v s).regs = s.regs := by
  unfold storeData; split
  · rfl
  · split <;> first | rfl | simp
@[simp] theorem storeData_p (sp : Space) (a : DAddr) (v : Word) (s : State) : (storeData sp a v s).p = s.p := by
  unfold storeData; split
  · rfl
  · split <;> first | rfl | simp
@[simp] theorem storeData_idx (sp : Space) (a : DAddr) (v : Word) (s : State) : (storeData sp a v s).idx = s.idx := by
  unfold storeData; split
  · rfl
  · split <;> first | rfl | simp
@[simp] theorem storeData_pc (sp : Space) (a : DAddr) (v : Word) (s : State) : (storeData sp a v s).pc = s.pc := by
  unfold storeData; split
  · rfl
  · split <;> first | rfl | simp
@[simp] theorem storeData_lr0 (sp : Space) (a : DAddr) (v : Word) (s : State) : (storeData sp a v s).lr0 = s.lr0 := by
  unfold storeData; split
  · rfl
  · split <;> first | rfl | simp
@[simp] theorem storeData_lr1 (sp : Space) (a : DAddr) (v : Word) (s : State) : (storeData sp a v s).lr1 = s.lr1 := by
  unfold storeData; split
  · rfl
  · split <;> first | rfl | simp
@[simp] theorem storeData_mr0 (sp : Space) (a : DAddr) (v : Word) (s : State) : (storeData sp a v s).mr0 = s.mr0 := by
  unfold storeData; split
  · rfl
  · split <;> first | rfl | simp
@[simp] theorem storeData_mr1 (sp : Space) (a : DAddr) (v : Word) (s : State) : (storeData sp a v s).mr1 = s.mr1 := by
  unfold storeData; split
  · rfl
  · split <;> first | rfl | simp
@[simp] theorem storeData_ipr0 (sp : Space) (a : DAddr) (v : Word) (s : State) :
    (storeData sp a v s).ipr0 = s.ipr0 := by
  unfold storeData; split
  · rfl
  · split <;> first | rfl | simp
@[simp] theorem storeData_ipr1 (sp : Space) (a : DAddr) (v : Word) (s : State) :
    (storeData sp a v s).ipr1 = s.ipr1 := by
  unfold storeData; split
  · rfl
  · split <;> first | rfl | simp
@[simp] theorem storeData_ls (sp : Space) (a : DAddr) (v : Word) (s : State) : (storeData sp a v s).ls = s.ls := by
  unfold storeData; split
  · rfl
  · split <;> first | rfl | simp
@[simp] theorem storeData_le (sp : Space) (a : DAddr) (v : Word) (s : State) : (storeData sp a v s).le = s.le := by
  unfold storeData; split
  · rfl
  · split <;> first | rfl | simp
@[simp] theorem storeData_lc (sp : Space) (a : DAddr) (v : Word) (s : State) : (storeData sp a v s).lc = s.lc := by
  unfold storeData; split
  · rfl
  · split <;> first | rfl | simp
@[simp] theorem storeData_de (sp : Space) (a : DAddr) (v : Word) (s : State) : (storeData sp a v s).de = s.de := by
  unfold storeData; split
  · rfl
  · split <;> first | rfl | simp
@[simp] theorem storeData_ex (sp : Space) (a : DAddr) (v : Word) (s : State) : (storeData sp a v s).ex = s.ex := by
  unfold storeData; split
  · rfl
  · split <;> first | rfl | simp
@[simp] theorem storeData_ic (sp : Space) (a : DAddr) (v : Word) (s : State) : (storeData sp a v s).ic = s.ic := by
  unfold storeData; split
  · rfl
  · split <;> first | rfl | simp
@[simp] theorem storeData_lehit (sp : Space) (a : DAddr) (v : Word) (s : State) :
    (storeData sp a v s).lehit = s.lehit := by
  unfold storeData; split
  · rfl
  · split <;> first | rfl | simp
@[simp] theorem storeData_halted (sp : Space) (a : DAddr) (v : Word) (s : State) :
    (storeData sp a v s).halted = s.halted := by
  unfold storeData; split
  · rfl
  · split <;> first | rfl | simp
@[simp] theorem storeData_prevFlags (sp : Space) (a : DAddr) (v : Word) (s : State) :
    (storeData sp a v s).prevFlags = s.prevFlags := by
  unfold storeData; split
  · rfl
  · split <;> first | rfl | simp
@[simp] theorem storeData_woke (sp : Space) (a : DAddr) (v : Word) (s : State) :
    (storeData sp a v s).woke = s.woke := by
  unfold storeData; split
  · rfl
  · split <;> first | rfl | simp
@[simp] theorem storeData_imem (sp : Space) (a : DAddr) (v : Word) (s : State) :
    (storeData sp a v s).imem = s.imem := by
  unfold storeData; split
  · rfl
  · split <;> first | rfl | simp
@[simp] theorem storeData_inputs (sp : Space) (a : DAddr) (v : Word) (s : State) :
    (storeData sp a v s).inputs = s.inputs := by
  unfold storeData; split
  · rfl
  · split <;> first | rfl | simp
@[simp] theorem storeData_tick (sp : Space) (a : DAddr) (v : Word) (s : State) :
    (storeData sp a v s).tick = s.tick := by
  unfold storeData; split
  · rfl
  · split <;> first | rfl | simp
@[simp] theorem storeData_cfg (sp : Space) (a : DAddr) (v : Word) (s : State) : (storeData sp a v s).cfg = s.cfg := by
  unfold storeData; split
  · rfl
  · split <;> first | rfl | simp

/-! ### writeReg -/

@[simp] theorem writeReg_p (f : FReg) (v : Word) (s : State) : (writeReg f v s).p = s.p := by cases f <;> rfl
@[simp] theorem writeReg_pc (f : FReg) (v : Word) (s : State) : (writeReg f v s).pc = s.pc := by cases f <;> rfl
@[simp] theorem writeReg_ipr0 (f : FReg) (v : Word) (s : State) : (writeReg f v s).ipr0 = s.ipr0 := by cases f <;> rfl
@[simp] theorem writeReg_ipr1 (f : FReg) (v : Word) (s : State) : (writeReg f v s).ipr1 = s.ipr1 := by cases f <;> rfl
@[simp] theorem writeReg_de (f : FReg) (v : Word) (s : State) : (writeReg f v s).de = s.de := by cases f <;> rfl
@[simp] theorem writeReg_ex (f : FReg) (v : Word) (s : State) : (writeReg f v s).ex = s.ex := by cases f <;> rfl
@[simp] theorem writeReg_ic (f : FReg) (v : Word) (s : State) : (writeReg f v s).ic = s.ic := by cases f <;> rfl
@[simp] theorem writeReg_lehit (f : FReg) (v : Word) (s : State) : (writeReg f v s).lehit = s.lehit := by
  cases f <;> rfl
@[simp] theorem writeReg_halted (f : FReg) (v : Word) (s : State) : (writeReg f v s).halted = s.halted := by
  cases f <;> rfl
@[simp] theorem writeReg_prevFlags (f : FReg) (v : Word) (s : State) : (writeReg f v s).prevFlags = s.prevFlags := by
  cases f <;> rfl
@[simp] theorem writeReg_woke (f : FReg) (v : Word) (s : State) : (writeReg f v s).woke = s.woke := by cases f <;> rfl
@[simp] theorem writeReg_xmem (f : FReg) (v : Word) (s : State) : (writeReg f v s).xmem = s.xmem := by cases f <;> rfl
@[simp] theorem writeReg_ymem (f : FReg) (v : Word) (s : State) : (writeReg f v s).ymem = s.ymem := by cases f <;> rfl
@[simp] theorem writeReg_imem (f : FReg) (v : Word) (s : State) : (writeReg f v s).imem = s.imem := by cases f <;> rfl
@[simp] theorem writeReg_en (f : FReg) (v : Word) (s : State) : (writeReg f v s).en = s.en := by cases f <;> rfl
@[simp] theorem writeReg_inputs (f : FReg) (v : Word) (s : State) : (writeReg f v s).inputs = s.inputs := by
  cases f <;> rfl
@[simp] theorem writeReg_tick (f : FReg) (v : Word) (s : State) : (writeReg f v s).tick = s.tick := by cases f <;> rfl
@[simp] theorem writeReg_cfg (f : FReg) (v : Word) (s : State) : (writeReg f v s).cfg = s.cfg := by cases f <;> rfl

/-! ### putResult -/

@[simp] theorem putResult_p {c : Sys2Proof.Config} (w : AluWrite c) (s : State) : (putResult w s).p = s.p := by
  cases w <;> rfl
@[simp] theorem putResult_idx {c : Sys2Proof.Config} (w : AluWrite c) (s : State) : (putResult w s).idx = s.idx := by
  cases w <;> rfl
@[simp] theorem putResult_pc {c : Sys2Proof.Config} (w : AluWrite c) (s : State) : (putResult w s).pc = s.pc := by
  cases w <;> rfl
@[simp] theorem putResult_lr0 {c : Sys2Proof.Config} (w : AluWrite c) (s : State) : (putResult w s).lr0 = s.lr0 := by
  cases w <;> rfl
@[simp] theorem putResult_lr1 {c : Sys2Proof.Config} (w : AluWrite c) (s : State) : (putResult w s).lr1 = s.lr1 := by
  cases w <;> rfl
@[simp] theorem putResult_mr0 {c : Sys2Proof.Config} (w : AluWrite c) (s : State) : (putResult w s).mr0 = s.mr0 := by
  cases w <;> rfl
@[simp] theorem putResult_mr1 {c : Sys2Proof.Config} (w : AluWrite c) (s : State) : (putResult w s).mr1 = s.mr1 := by
  cases w <;> rfl
@[simp] theorem putResult_ipr0 {c : Sys2Proof.Config} (w : AluWrite c) (s : State) : (putResult w s).ipr0 = s.ipr0 := by
  cases w <;> rfl
@[simp] theorem putResult_ipr1 {c : Sys2Proof.Config} (w : AluWrite c) (s : State) : (putResult w s).ipr1 = s.ipr1 := by
  cases w <;> rfl
@[simp] theorem putResult_ls {c : Sys2Proof.Config} (w : AluWrite c) (s : State) : (putResult w s).ls = s.ls := by
  cases w <;> rfl
@[simp] theorem putResult_le {c : Sys2Proof.Config} (w : AluWrite c) (s : State) : (putResult w s).le = s.le := by
  cases w <;> rfl
@[simp] theorem putResult_lc {c : Sys2Proof.Config} (w : AluWrite c) (s : State) : (putResult w s).lc = s.lc := by
  cases w <;> rfl
@[simp] theorem putResult_de {c : Sys2Proof.Config} (w : AluWrite c) (s : State) : (putResult w s).de = s.de := by
  cases w <;> rfl
@[simp] theorem putResult_ex {c : Sys2Proof.Config} (w : AluWrite c) (s : State) : (putResult w s).ex = s.ex := by
  cases w <;> rfl
@[simp] theorem putResult_ic {c : Sys2Proof.Config} (w : AluWrite c) (s : State) : (putResult w s).ic = s.ic := by
  cases w <;> rfl
@[simp] theorem putResult_lehit {c : Sys2Proof.Config} (w : AluWrite c) (s : State) :
    (putResult w s).lehit = s.lehit := by
  cases w <;> rfl
@[simp] theorem putResult_halted {c : Sys2Proof.Config} (w : AluWrite c) (s : State) :
    (putResult w s).halted = s.halted := by
  cases w <;> rfl
@[simp] theorem putResult_prevFlags {c : Sys2Proof.Config} (w : AluWrite c) (s : State) :
    (putResult w s).prevFlags = s.prevFlags := by
  cases w <;> rfl
@[simp] theorem putResult_woke {c : Sys2Proof.Config} (w : AluWrite c) (s : State) : (putResult w s).woke = s.woke := by
  cases w <;> rfl
@[simp] theorem putResult_xmem {c : Sys2Proof.Config} (w : AluWrite c) (s : State) : (putResult w s).xmem = s.xmem := by
  cases w <;> rfl
@[simp] theorem putResult_ymem {c : Sys2Proof.Config} (w : AluWrite c) (s : State) : (putResult w s).ymem = s.ymem := by
  cases w <;> rfl
@[simp] theorem putResult_imem {c : Sys2Proof.Config} (w : AluWrite c) (s : State) : (putResult w s).imem = s.imem := by
  cases w <;> rfl
@[simp] theorem putResult_en {c : Sys2Proof.Config} (w : AluWrite c) (s : State) : (putResult w s).en = s.en := by
  cases w <;> rfl
@[simp] theorem putResult_inputs {c : Sys2Proof.Config} (w : AluWrite c) (s : State) :
    (putResult w s).inputs = s.inputs := by
  cases w <;> rfl
@[simp] theorem putResult_tick {c : Sys2Proof.Config} (w : AluWrite c) (s : State) : (putResult w s).tick = s.tick := by
  cases w <;> rfl
@[simp] theorem putResult_cfg {c : Sys2Proof.Config} (w : AluWrite c) (s : State) : (putResult w s).cfg = s.cfg := by
  cases w <;> rfl

/-! ### putFlags -/

@[simp] theorem putFlags_regs (f : Option AluFlags) (s : State) : (putFlags f s).regs = s.regs := by cases f <;> rfl
@[simp] theorem putFlags_p (f : Option AluFlags) (s : State) : (putFlags f s).p = s.p := by cases f <;> rfl
@[simp] theorem putFlags_idx (f : Option AluFlags) (s : State) : (putFlags f s).idx = s.idx := by cases f <;> rfl
@[simp] theorem putFlags_pc (f : Option AluFlags) (s : State) : (putFlags f s).pc = s.pc := by cases f <;> rfl
@[simp] theorem putFlags_lr0 (f : Option AluFlags) (s : State) : (putFlags f s).lr0 = s.lr0 := by cases f <;> rfl
@[simp] theorem putFlags_lr1 (f : Option AluFlags) (s : State) : (putFlags f s).lr1 = s.lr1 := by cases f <;> rfl
@[simp] theorem putFlags_mr1 (f : Option AluFlags) (s : State) : (putFlags f s).mr1 = s.mr1 := by cases f <;> rfl
@[simp] theorem putFlags_ipr0 (f : Option AluFlags) (s : State) : (putFlags f s).ipr0 = s.ipr0 := by cases f <;> rfl
@[simp] theorem putFlags_ipr1 (f : Option AluFlags) (s : State) : (putFlags f s).ipr1 = s.ipr1 := by cases f <;> rfl
@[simp] theorem putFlags_ls (f : Option AluFlags) (s : State) : (putFlags f s).ls = s.ls := by cases f <;> rfl
@[simp] theorem putFlags_le (f : Option AluFlags) (s : State) : (putFlags f s).le = s.le := by cases f <;> rfl
@[simp] theorem putFlags_lc (f : Option AluFlags) (s : State) : (putFlags f s).lc = s.lc := by cases f <;> rfl
@[simp] theorem putFlags_de (f : Option AluFlags) (s : State) : (putFlags f s).de = s.de := by cases f <;> rfl
@[simp] theorem putFlags_ex (f : Option AluFlags) (s : State) : (putFlags f s).ex = s.ex := by cases f <;> rfl
@[simp] theorem putFlags_ic (f : Option AluFlags) (s : State) : (putFlags f s).ic = s.ic := by cases f <;> rfl
@[simp] theorem putFlags_lehit (f : Option AluFlags) (s : State) : (putFlags f s).lehit = s.lehit := by cases f <;> rfl
@[simp] theorem putFlags_halted (f : Option AluFlags) (s : State) : (putFlags f s).halted = s.halted := by
  cases f <;> rfl
@[simp] theorem putFlags_prevFlags (f : Option AluFlags) (s : State) : (putFlags f s).prevFlags = s.prevFlags := by
  cases f <;> rfl
@[simp] theorem putFlags_woke (f : Option AluFlags) (s : State) : (putFlags f s).woke = s.woke := by cases f <;> rfl
@[simp] theorem putFlags_xmem (f : Option AluFlags) (s : State) : (putFlags f s).xmem = s.xmem := by cases f <;> rfl
@[simp] theorem putFlags_ymem (f : Option AluFlags) (s : State) : (putFlags f s).ymem = s.ymem := by cases f <;> rfl
@[simp] theorem putFlags_imem (f : Option AluFlags) (s : State) : (putFlags f s).imem = s.imem := by cases f <;> rfl
@[simp] theorem putFlags_en (f : Option AluFlags) (s : State) : (putFlags f s).en = s.en := by cases f <;> rfl
@[simp] theorem putFlags_inputs (f : Option AluFlags) (s : State) : (putFlags f s).inputs = s.inputs := by
  cases f <;> rfl
@[simp] theorem putFlags_tick (f : Option AluFlags) (s : State) : (putFlags f s).tick = s.tick := by cases f <;> rfl
@[simp] theorem putFlags_cfg (f : Option AluFlags) (s : State) : (putFlags f s).cfg = s.cfg := by cases f <;> rfl

/-! ### putProduct -/

@[simp] theorem putProduct_regs {w : Nat} (q : Option (BitVec w)) (s : State) : (putProduct q s).regs = s.regs := by
  cases q <;> rfl
@[simp] theorem putProduct_idx {w : Nat} (q : Option (BitVec w)) (s : State) : (putProduct q s).idx = s.idx := by
  cases q <;> rfl
@[simp] theorem putProduct_pc {w : Nat} (q : Option (BitVec w)) (s : State) : (putProduct q s).pc = s.pc := by
  cases q <;> rfl
@[simp] theorem putProduct_lr0 {w : Nat} (q : Option (BitVec w)) (s : State) : (putProduct q s).lr0 = s.lr0 := by
  cases q <;> rfl
@[simp] theorem putProduct_lr1 {w : Nat} (q : Option (BitVec w)) (s : State) : (putProduct q s).lr1 = s.lr1 := by
  cases q <;> rfl
@[simp] theorem putProduct_mr0 {w : Nat} (q : Option (BitVec w)) (s : State) : (putProduct q s).mr0 = s.mr0 := by
  cases q <;> rfl
@[simp] theorem putProduct_mr1 {w : Nat} (q : Option (BitVec w)) (s : State) : (putProduct q s).mr1 = s.mr1 := by
  cases q <;> rfl
@[simp] theorem putProduct_ipr0 {w : Nat} (q : Option (BitVec w)) (s : State) : (putProduct q s).ipr0 = s.ipr0 := by
  cases q <;> rfl
@[simp] theorem putProduct_ipr1 {w : Nat} (q : Option (BitVec w)) (s : State) : (putProduct q s).ipr1 = s.ipr1 := by
  cases q <;> rfl
@[simp] theorem putProduct_ls {w : Nat} (q : Option (BitVec w)) (s : State) : (putProduct q s).ls = s.ls := by
  cases q <;> rfl
@[simp] theorem putProduct_le {w : Nat} (q : Option (BitVec w)) (s : State) : (putProduct q s).le = s.le := by
  cases q <;> rfl
@[simp] theorem putProduct_lc {w : Nat} (q : Option (BitVec w)) (s : State) : (putProduct q s).lc = s.lc := by
  cases q <;> rfl
@[simp] theorem putProduct_de {w : Nat} (q : Option (BitVec w)) (s : State) : (putProduct q s).de = s.de := by
  cases q <;> rfl
@[simp] theorem putProduct_ex {w : Nat} (q : Option (BitVec w)) (s : State) : (putProduct q s).ex = s.ex := by
  cases q <;> rfl
@[simp] theorem putProduct_ic {w : Nat} (q : Option (BitVec w)) (s : State) : (putProduct q s).ic = s.ic := by
  cases q <;> rfl
@[simp] theorem putProduct_lehit {w : Nat} (q : Option (BitVec w)) (s : State) : (putProduct q s).lehit = s.lehit := by
  cases q <;> rfl
@[simp] theorem putProduct_halted {w : Nat} (q : Option (BitVec w)) (s : State) :
    (putProduct q s).halted = s.halted := by
  cases q <;> rfl
@[simp] theorem putProduct_prevFlags {w : Nat} (q : Option (BitVec w)) (s : State) :
    (putProduct q s).prevFlags = s.prevFlags := by
  cases q <;> rfl
@[simp] theorem putProduct_woke {w : Nat} (q : Option (BitVec w)) (s : State) : (putProduct q s).woke = s.woke := by
  cases q <;> rfl
@[simp] theorem putProduct_xmem {w : Nat} (q : Option (BitVec w)) (s : State) : (putProduct q s).xmem = s.xmem := by
  cases q <;> rfl
@[simp] theorem putProduct_ymem {w : Nat} (q : Option (BitVec w)) (s : State) : (putProduct q s).ymem = s.ymem := by
  cases q <;> rfl
@[simp] theorem putProduct_imem {w : Nat} (q : Option (BitVec w)) (s : State) : (putProduct q s).imem = s.imem := by
  cases q <;> rfl
@[simp] theorem putProduct_en {w : Nat} (q : Option (BitVec w)) (s : State) : (putProduct q s).en = s.en := by
  cases q <;> rfl
@[simp] theorem putProduct_inputs {w : Nat} (q : Option (BitVec w)) (s : State) :
    (putProduct q s).inputs = s.inputs := by
  cases q <;> rfl
@[simp] theorem putProduct_tick {w : Nat} (q : Option (BitVec w)) (s : State) : (putProduct q s).tick = s.tick := by
  cases q <;> rfl
@[simp] theorem putProduct_cfg {w : Nat} (q : Option (BitVec w)) (s : State) : (putProduct q s).cfg = s.cfg := by
  cases q <;> rfl

/-! ### putAlu -/

@[simp] theorem putAlu_idx {c : Sys2Proof.Config} (a : AluFx c) (s : State) : (putAlu a s).idx = s.idx := by
  simp [putAlu]
@[simp] theorem putAlu_pc {c : Sys2Proof.Config} (a : AluFx c) (s : State) : (putAlu a s).pc = s.pc := by simp [putAlu]
@[simp] theorem putAlu_lr0 {c : Sys2Proof.Config} (a : AluFx c) (s : State) : (putAlu a s).lr0 = s.lr0 := by
  simp [putAlu]
@[simp] theorem putAlu_lr1 {c : Sys2Proof.Config} (a : AluFx c) (s : State) : (putAlu a s).lr1 = s.lr1 := by
  simp [putAlu]
@[simp] theorem putAlu_mr1 {c : Sys2Proof.Config} (a : AluFx c) (s : State) : (putAlu a s).mr1 = s.mr1 := by
  simp [putAlu]
@[simp] theorem putAlu_ipr0 {c : Sys2Proof.Config} (a : AluFx c) (s : State) : (putAlu a s).ipr0 = s.ipr0 := by
  simp [putAlu]
@[simp] theorem putAlu_ipr1 {c : Sys2Proof.Config} (a : AluFx c) (s : State) : (putAlu a s).ipr1 = s.ipr1 := by
  simp [putAlu]
@[simp] theorem putAlu_ls {c : Sys2Proof.Config} (a : AluFx c) (s : State) : (putAlu a s).ls = s.ls := by simp [putAlu]
@[simp] theorem putAlu_le {c : Sys2Proof.Config} (a : AluFx c) (s : State) : (putAlu a s).le = s.le := by simp [putAlu]
@[simp] theorem putAlu_lc {c : Sys2Proof.Config} (a : AluFx c) (s : State) : (putAlu a s).lc = s.lc := by simp [putAlu]
@[simp] theorem putAlu_de {c : Sys2Proof.Config} (a : AluFx c) (s : State) : (putAlu a s).de = s.de := by simp [putAlu]
@[simp] theorem putAlu_ex {c : Sys2Proof.Config} (a : AluFx c) (s : State) : (putAlu a s).ex = s.ex := by simp [putAlu]
@[simp] theorem putAlu_ic {c : Sys2Proof.Config} (a : AluFx c) (s : State) : (putAlu a s).ic = s.ic := by simp [putAlu]
@[simp] theorem putAlu_lehit {c : Sys2Proof.Config} (a : AluFx c) (s : State) : (putAlu a s).lehit = s.lehit := by
  simp [putAlu]
@[simp] theorem putAlu_halted {c : Sys2Proof.Config} (a : AluFx c) (s : State) : (putAlu a s).halted = s.halted := by
  simp [putAlu]
@[simp] theorem putAlu_prevFlags {c : Sys2Proof.Config} (a : AluFx c) (s : State) :
    (putAlu a s).prevFlags = s.prevFlags := by
  simp [putAlu]
@[simp] theorem putAlu_woke {c : Sys2Proof.Config} (a : AluFx c) (s : State) : (putAlu a s).woke = s.woke := by
  simp [putAlu]
@[simp] theorem putAlu_xmem {c : Sys2Proof.Config} (a : AluFx c) (s : State) : (putAlu a s).xmem = s.xmem := by
  simp [putAlu]
@[simp] theorem putAlu_ymem {c : Sys2Proof.Config} (a : AluFx c) (s : State) : (putAlu a s).ymem = s.ymem := by
  simp [putAlu]
@[simp] theorem putAlu_imem {c : Sys2Proof.Config} (a : AluFx c) (s : State) : (putAlu a s).imem = s.imem := by
  simp [putAlu]
@[simp] theorem putAlu_en {c : Sys2Proof.Config} (a : AluFx c) (s : State) : (putAlu a s).en = s.en := by simp [putAlu]
@[simp] theorem putAlu_inputs {c : Sys2Proof.Config} (a : AluFx c) (s : State) : (putAlu a s).inputs = s.inputs := by
  simp [putAlu]
@[simp] theorem putAlu_tick {c : Sys2Proof.Config} (a : AluFx c) (s : State) : (putAlu a s).tick = s.tick := by
  simp [putAlu]
@[simp] theorem putAlu_cfg {c : Sys2Proof.Config} (a : AluFx c) (s : State) : (putAlu a s).cfg = s.cfg := by
  simp [putAlu]

/-! ### putIndex -/

@[simp] theorem putIndex_regs (f : Option (IReg × DAddr)) (s : State) : (putIndex f s).regs = s.regs := by
  cases f <;> rfl
@[simp] theorem putIndex_p (f : Option (IReg × DAddr)) (s : State) : (putIndex f s).p = s.p := by cases f <;> rfl
@[simp] theorem putIndex_pc (f : Option (IReg × DAddr)) (s : State) : (putIndex f s).pc = s.pc := by cases f <;> rfl
@[simp] theorem putIndex_lr0 (f : Option (IReg × DAddr)) (s : State) : (putIndex f s).lr0 = s.lr0 := by cases f <;> rfl
@[simp] theorem putIndex_lr1 (f : Option (IReg × DAddr)) (s : State) : (putIndex f s).lr1 = s.lr1 := by cases f <;> rfl
@[simp] theorem putIndex_mr0 (f : Option (IReg × DAddr)) (s : State) : (putIndex f s).mr0 = s.mr0 := by cases f <;> rfl
@[simp] theorem putIndex_mr1 (f : Option (IReg × DAddr)) (s : State) : (putIndex f s).mr1 = s.mr1 := by cases f <;> rfl
@[simp] theorem putIndex_ipr0 (f : Option (IReg × DAddr)) (s : State) : (putIndex f s).ipr0 = s.ipr0 := by
  cases f <;> rfl
@[simp] theorem putIndex_ipr1 (f : Option (IReg × DAddr)) (s : State) : (putIndex f s).ipr1 = s.ipr1 := by
  cases f <;> rfl
@[simp] theorem putIndex_ls (f : Option (IReg × DAddr)) (s : State) : (putIndex f s).ls = s.ls := by cases f <;> rfl
@[simp] theorem putIndex_le (f : Option (IReg × DAddr)) (s : State) : (putIndex f s).le = s.le := by cases f <;> rfl
@[simp] theorem putIndex_lc (f : Option (IReg × DAddr)) (s : State) : (putIndex f s).lc = s.lc := by cases f <;> rfl
@[simp] theorem putIndex_de (f : Option (IReg × DAddr)) (s : State) : (putIndex f s).de = s.de := by cases f <;> rfl
@[simp] theorem putIndex_ex (f : Option (IReg × DAddr)) (s : State) : (putIndex f s).ex = s.ex := by cases f <;> rfl
@[simp] theorem putIndex_ic (f : Option (IReg × DAddr)) (s : State) : (putIndex f s).ic = s.ic := by cases f <;> rfl
@[simp] theorem putIndex_lehit (f : Option (IReg × DAddr)) (s : State) : (putIndex f s).lehit = s.lehit := by
  cases f <;> rfl
@[simp] theorem putIndex_halted (f : Option (IReg × DAddr)) (s : State) : (putIndex f s).halted = s.halted := by
  cases f <;> rfl
@[simp] theorem putIndex_prevFlags (f : Option (IReg × DAddr)) (s : State) :
    (putIndex f s).prevFlags = s.prevFlags := by
  cases f <;> rfl
@[simp] theorem putIndex_woke (f : Option (IReg × DAddr)) (s : State) : (putIndex f s).woke = s.woke := by
  cases f <;> rfl
@[simp] theorem putIndex_xmem (f : Option (IReg × DAddr)) (s : State) : (putIndex f s).xmem = s.xmem := by
  cases f <;> rfl
@[simp] theorem putIndex_ymem (f : Option (IReg × DAddr)) (s : State) : (putIndex f s).ymem = s.ymem := by
  cases f <;> rfl
@[simp] theorem putIndex_imem (f : Option (IReg × DAddr)) (s : State) : (putIndex f s).imem = s.imem := by
  cases f <;> rfl
@[simp] theorem putIndex_en (f : Option (IReg × DAddr)) (s : State) : (putIndex f s).en = s.en := by cases f <;> rfl
@[simp] theorem putIndex_inputs (f : Option (IReg × DAddr)) (s : State) : (putIndex f s).inputs = s.inputs := by
  cases f <;> rfl
@[simp] theorem putIndex_tick (f : Option (IReg × DAddr)) (s : State) : (putIndex f s).tick = s.tick := by
  cases f <;> rfl
@[simp] theorem putIndex_cfg (f : Option (IReg × DAddr)) (s : State) : (putIndex f s).cfg = s.cfg := by cases f <;> rfl

/-! ### putIndexFlag -/

@[simp] theorem putIndexFlag_regs (b : Space) (f : Option Bool) (s : State) : (putIndexFlag b f s).regs = s.regs := by
  cases f <;> rfl
@[simp] theorem putIndexFlag_p (b : Space) (f : Option Bool) (s : State) : (putIndexFlag b f s).p = s.p := by
  cases f <;> rfl
@[simp] theorem putIndexFlag_idx (b : Space) (f : Option Bool) (s : State) : (putIndexFlag b f s).idx = s.idx := by
  cases f <;> rfl
@[simp] theorem putIndexFlag_pc (b : Space) (f : Option Bool) (s : State) : (putIndexFlag b f s).pc = s.pc := by
  cases f <;> rfl
@[simp] theorem putIndexFlag_lr0 (b : Space) (f : Option Bool) (s : State) : (putIndexFlag b f s).lr0 = s.lr0 := by
  cases f <;> rfl
@[simp] theorem putIndexFlag_lr1 (b : Space) (f : Option Bool) (s : State) : (putIndexFlag b f s).lr1 = s.lr1 := by
  cases f <;> rfl
@[simp] theorem putIndexFlag_mr1 (b : Space) (f : Option Bool) (s : State) : (putIndexFlag b f s).mr1 = s.mr1 := by
  cases f <;> rfl
@[simp] theorem putIndexFlag_ipr0 (b : Space) (f : Option Bool) (s : State) : (putIndexFlag b f s).ipr0 = s.ipr0 := by
  cases f <;> rfl
@[simp] theorem putIndexFlag_ipr1 (b : Space) (f : Option Bool) (s : State) : (putIndexFlag b f s).ipr1 = s.ipr1 := by
  cases f <;> rfl
@[simp] theorem putIndexFlag_ls (b : Space) (f : Option Bool) (s : State) : (putIndexFlag b f s).ls = s.ls := by
  cases f <;> rfl
@[simp] theorem putIndexFlag_le (b : Space) (f : Option Bool) (s : State) : (putIndexFlag b f s).le = s.le := by
  cases f <;> rfl
@[simp] theorem putIndexFlag_lc (b : Space) (f : Option Bool) (s : State) : (putIndexFlag b f s).lc = s.lc := by
  cases f <;> rfl
@[simp] theorem putIndexFlag_de (b : Space) (f : Option Bool) (s : State) : (putIndexFlag b f s).de = s.de := by
  cases f <;> rfl
@[simp] theorem putIndexFlag_ex (b : Space) (f : Option Bool) (s : State) : (putIndexFlag b f s).ex = s.ex := by
  cases f <;> rfl
@[simp] theorem putIndexFlag_ic (b : Space) (f : Option Bool) (s : State) : (putIndexFlag b f s).ic = s.ic := by
  cases f <;> rfl
@[simp] theorem putIndexFlag_lehit (b : Space) (f : Option Bool) (s : State) :
    (putIndexFlag b f s).lehit = s.lehit := by
  cases f <;> rfl
@[simp] theorem putIndexFlag_halted (b : Space) (f : Option Bool) (s : State) :
    (putIndexFlag b f s).halted = s.halted := by
  cases f <;> rfl
@[simp] theorem putIndexFlag_prevFlags (b : Space) (f : Option Bool) (s : State) :
    (putIndexFlag b f s).prevFlags = s.prevFlags := by
  cases f <;> rfl
@[simp] theorem putIndexFlag_woke (b : Space) (f : Option Bool) (s : State) : (putIndexFlag b f s).woke = s.woke := by
  cases f <;> rfl
@[simp] theorem putIndexFlag_xmem (b : Space) (f : Option Bool) (s : State) : (putIndexFlag b f s).xmem = s.xmem := by
  cases f <;> rfl
@[simp] theorem putIndexFlag_ymem (b : Space) (f : Option Bool) (s : State) : (putIndexFlag b f s).ymem = s.ymem := by
  cases f <;> rfl
@[simp] theorem putIndexFlag_imem (b : Space) (f : Option Bool) (s : State) : (putIndexFlag b f s).imem = s.imem := by
  cases f <;> rfl
@[simp] theorem putIndexFlag_en (b : Space) (f : Option Bool) (s : State) : (putIndexFlag b f s).en = s.en := by
  cases f <;> rfl
@[simp] theorem putIndexFlag_inputs (b : Space) (f : Option Bool) (s : State) :
    (putIndexFlag b f s).inputs = s.inputs := by
  cases f <;> rfl
@[simp] theorem putIndexFlag_tick (b : Space) (f : Option Bool) (s : State) : (putIndexFlag b f s).tick = s.tick := by
  cases f <;> rfl
@[simp] theorem putIndexFlag_cfg (b : Space) (f : Option Bool) (s : State) : (putIndexFlag b f s).cfg = s.cfg := by
  cases f <;> rfl

/-! ### putStore -/

@[simp] theorem putStore_regs (b : Space) (f : Option (DAddr × Word)) (s : State) : (putStore b f s).regs = s.regs := by
  cases f <;> simp [putStore]
@[simp] theorem putStore_p (b : Space) (f : Option (DAddr × Word)) (s : State) : (putStore b f s).p = s.p := by
  cases f <;> simp [putStore]
@[simp] theorem putStore_idx (b : Space) (f : Option (DAddr × Word)) (s : State) : (putStore b f s).idx = s.idx := by
  cases f <;> simp [putStore]
@[simp] theorem putStore_pc (b : Space) (f : Option (DAddr × Word)) (s : State) : (putStore b f s).pc = s.pc := by
  cases f <;> simp [putStore]
@[simp] theorem putStore_lr0 (b : Space) (f : Option (DAddr × Word)) (s : State) : (putStore b f s).lr0 = s.lr0 := by
  cases f <;> simp [putStore]
@[simp] theorem putStore_lr1 (b : Space) (f : Option (DAddr × Word)) (s : State) : (putStore b f s).lr1 = s.lr1 := by
  cases f <;> simp [putStore]
@[simp] theorem putStore_mr0 (b : Space) (f : Option (DAddr × Word)) (s : State) : (putStore b f s).mr0 = s.mr0 := by
  cases f <;> simp [putStore]
@[simp] theorem putStore_mr1 (b : Space) (f : Option (DAddr × Word)) (s : State) : (putStore b f s).mr1 = s.mr1 := by
  cases f <;> simp [putStore]
@[simp] theorem putStore_ipr0 (b : Space) (f : Option (DAddr × Word)) (s : State) : (putStore b f s).ipr0 = s.ipr0 := by
  cases f <;> simp [putStore]
@[simp] theorem putStore_ipr1 (b : Space) (f : Option (DAddr × Word)) (s : State) : (putStore b f s).ipr1 = s.ipr1 := by
  cases f <;> simp [putStore]
@[simp] theorem putStore_ls (b : Space) (f : Option (DAddr × Word)) (s : State) : (putStore b f s).ls = s.ls := by
  cases f <;> simp [putStore]
@[simp] theorem putStore_le (b : Space) (f : Option (DAddr × Word)) (s : State) : (putStore b f s).le = s.le := by
  cases f <;> simp [putStore]
@[simp] theorem putStore_lc (b : Space) (f : Option (DAddr × Word)) (s : State) : (putStore b f s).lc = s.lc := by
  cases f <;> simp [putStore]
@[simp] theorem putStore_de (b : Space) (f : Option (DAddr × Word)) (s : State) : (putStore b f s).de = s.de := by
  cases f <;> simp [putStore]
@[simp] theorem putStore_ex (b : Space) (f : Option (DAddr × Word)) (s : State) : (putStore b f s).ex = s.ex := by
  cases f <;> simp [putStore]
@[simp] theorem putStore_ic (b : Space) (f : Option (DAddr × Word)) (s : State) : (putStore b f s).ic = s.ic := by
  cases f <;> simp [putStore]
@[simp] theorem putStore_lehit (b : Space) (f : Option (DAddr × Word)) (s : State) :
    (putStore b f s).lehit = s.lehit := by
  cases f <;> simp [putStore]
@[simp] theorem putStore_halted (b : Space) (f : Option (DAddr × Word)) (s : State) :
    (putStore b f s).halted = s.halted := by
  cases f <;> simp [putStore]
@[simp] theorem putStore_prevFlags (b : Space) (f : Option (DAddr × Word)) (s : State) :
    (putStore b f s).prevFlags = s.prevFlags := by
  cases f <;> simp [putStore]
@[simp] theorem putStore_woke (b : Space) (f : Option (DAddr × Word)) (s : State) : (putStore b f s).woke = s.woke := by
  cases f <;> simp [putStore]
@[simp] theorem putStore_imem (b : Space) (f : Option (DAddr × Word)) (s : State) : (putStore b f s).imem = s.imem := by
  cases f <;> simp [putStore]
@[simp] theorem putStore_inputs (b : Space) (f : Option (DAddr × Word)) (s : State) :
    (putStore b f s).inputs = s.inputs := by
  cases f <;> simp [putStore]
@[simp] theorem putStore_tick (b : Space) (f : Option (DAddr × Word)) (s : State) : (putStore b f s).tick = s.tick := by
  cases f <;> simp [putStore]
@[simp] theorem putStore_cfg (b : Space) (f : Option (DAddr × Word)) (s : State) : (putStore b f s).cfg = s.cfg := by
  cases f <;> simp [putStore]

/-! ### putMove -/

@[simp] theorem putMove_regs (b : Space) (f : MoveFx) (s : State) : (putMove b f s).regs = s.regs := by simp [putMove]
@[simp] theorem putMove_p (b : Space) (f : MoveFx) (s : State) : (putMove b f s).p = s.p := by simp [putMove]
@[simp] theorem putMove_pc (b : Space) (f : MoveFx) (s : State) : (putMove b f s).pc = s.pc := by simp [putMove]
@[simp] theorem putMove_lr0 (b : Space) (f : MoveFx) (s : State) : (putMove b f s).lr0 = s.lr0 := by simp [putMove]
@[simp] theorem putMove_lr1 (b : Space) (f : MoveFx) (s : State) : (putMove b f s).lr1 = s.lr1 := by simp [putMove]
@[simp] theorem putMove_mr1 (b : Space) (f : MoveFx) (s : State) : (putMove b f s).mr1 = s.mr1 := by simp [putMove]
@[simp] theorem putMove_ipr0 (b : Space) (f : MoveFx) (s : State) : (putMove b f s).ipr0 = s.ipr0 := by simp [putMove]
@[simp] theorem putMove_ipr1 (b : Space) (f : MoveFx) (s : State) : (putMove b f s).ipr1 = s.ipr1 := by simp [putMove]
@[simp] theorem putMove_ls (b : Space) (f : MoveFx) (s : State) : (putMove b f s).ls = s.ls := by simp [putMove]
@[simp] theorem putMove_le (b : Space) (f : MoveFx) (s : State) : (putMove b f s).le = s.le := by simp [putMove]
@[simp] theorem putMove_lc (b : Space) (f : MoveFx) (s : State) : (putMove b f s).lc = s.lc := by simp [putMove]
@[simp] theorem putMove_de (b : Space) (f : MoveFx) (s : State) : (putMove b f s).de = s.de := by simp [putMove]
@[simp] theorem putMove_ex (b : Space) (f : MoveFx) (s : State) : (putMove b f s).ex = s.ex := by simp [putMove]
@[simp] theorem putMove_ic (b : Space) (f : MoveFx) (s : State) : (putMove b f s).ic = s.ic := by simp [putMove]
@[simp] theorem putMove_lehit (b : Space) (f : MoveFx) (s : State) : (putMove b f s).lehit = s.lehit := by
  simp [putMove]
@[simp] theorem putMove_halted (b : Space) (f : MoveFx) (s : State) : (putMove b f s).halted = s.halted := by
  simp [putMove]
@[simp] theorem putMove_prevFlags (b : Space) (f : MoveFx) (s : State) : (putMove b f s).prevFlags = s.prevFlags := by
  simp [putMove]
@[simp] theorem putMove_woke (b : Space) (f : MoveFx) (s : State) : (putMove b f s).woke = s.woke := by simp [putMove]
@[simp] theorem putMove_imem (b : Space) (f : MoveFx) (s : State) : (putMove b f s).imem = s.imem := by simp [putMove]
@[simp] theorem putMove_inputs (b : Space) (f : MoveFx) (s : State) : (putMove b f s).inputs = s.inputs := by
  simp [putMove]
@[simp] theorem putMove_tick (b : Space) (f : MoveFx) (s : State) : (putMove b f s).tick = s.tick := by simp [putMove]
@[simp] theorem putMove_cfg (b : Space) (f : MoveFx) (s : State) : (putMove b f s).cfg = s.cfg := by simp [putMove]

/-! ### putLoad -/

@[simp] theorem putLoad_p (f : Option (FReg × Word)) (s : State) : (putLoad f s).p = s.p := by
  cases f <;> simp [putLoad]
@[simp] theorem putLoad_pc (f : Option (FReg × Word)) (s : State) : (putLoad f s).pc = s.pc := by
  cases f <;> simp [putLoad]
@[simp] theorem putLoad_ipr0 (f : Option (FReg × Word)) (s : State) : (putLoad f s).ipr0 = s.ipr0 := by
  cases f <;> simp [putLoad]
@[simp] theorem putLoad_ipr1 (f : Option (FReg × Word)) (s : State) : (putLoad f s).ipr1 = s.ipr1 := by
  cases f <;> simp [putLoad]
@[simp] theorem putLoad_de (f : Option (FReg × Word)) (s : State) : (putLoad f s).de = s.de := by
  cases f <;> simp [putLoad]
@[simp] theorem putLoad_ex (f : Option (FReg × Word)) (s : State) : (putLoad f s).ex = s.ex := by
  cases f <;> simp [putLoad]
@[simp] theorem putLoad_ic (f : Option (FReg × Word)) (s : State) : (putLoad f s).ic = s.ic := by
  cases f <;> simp [putLoad]
@[simp] theorem putLoad_lehit (f : Option (FReg × Word)) (s : State) : (putLoad f s).lehit = s.lehit := by
  cases f <;> simp [putLoad]
@[simp] theorem putLoad_halted (f : Option (FReg × Word)) (s : State) : (putLoad f s).halted = s.halted := by
  cases f <;> simp [putLoad]
@[simp] theorem putLoad_prevFlags (f : Option (FReg × Word)) (s : State) : (putLoad f s).prevFlags = s.prevFlags := by
  cases f <;> simp [putLoad]
@[simp] theorem putLoad_woke (f : Option (FReg × Word)) (s : State) : (putLoad f s).woke = s.woke := by
  cases f <;> simp [putLoad]
@[simp] theorem putLoad_xmem (f : Option (FReg × Word)) (s : State) : (putLoad f s).xmem = s.xmem := by
  cases f <;> simp [putLoad]
@[simp] theorem putLoad_ymem (f : Option (FReg × Word)) (s : State) : (putLoad f s).ymem = s.ymem := by
  cases f <;> simp [putLoad]
@[simp] theorem putLoad_imem (f : Option (FReg × Word)) (s : State) : (putLoad f s).imem = s.imem := by
  cases f <;> simp [putLoad]
@[simp] theorem putLoad_en (f : Option (FReg × Word)) (s : State) : (putLoad f s).en = s.en := by
  cases f <;> simp [putLoad]
@[simp] theorem putLoad_inputs (f : Option (FReg × Word)) (s : State) : (putLoad f s).inputs = s.inputs := by
  cases f <;> simp [putLoad]
@[simp] theorem putLoad_tick (f : Option (FReg × Word)) (s : State) : (putLoad f s).tick = s.tick := by
  cases f <;> simp [putLoad]
@[simp] theorem putLoad_cfg (f : Option (FReg × Word)) (s : State) : (putLoad f s).cfg = s.cfg := by
  cases f <;> simp [putLoad]

/-! ### applyWord -/

@[simp] theorem applyWord_pc {c : Sys2Proof.Config} (a : AluFx c) (x y : MoveFx) (s : State) :
    (applyWord a x y s).pc = s.pc := by
  simp [applyWord]
@[simp] theorem applyWord_ipr0 {c : Sys2Proof.Config} (a : AluFx c) (x y : MoveFx) (s : State) :
    (applyWord a x y s).ipr0 = s.ipr0 := by
  simp [applyWord]
@[simp] theorem applyWord_ipr1 {c : Sys2Proof.Config} (a : AluFx c) (x y : MoveFx) (s : State) :
    (applyWord a x y s).ipr1 = s.ipr1 := by
  simp [applyWord]
@[simp] theorem applyWord_de {c : Sys2Proof.Config} (a : AluFx c) (x y : MoveFx) (s : State) :
    (applyWord a x y s).de = s.de := by
  simp [applyWord]
@[simp] theorem applyWord_ex {c : Sys2Proof.Config} (a : AluFx c) (x y : MoveFx) (s : State) :
    (applyWord a x y s).ex = s.ex := by
  simp [applyWord]
@[simp] theorem applyWord_ic {c : Sys2Proof.Config} (a : AluFx c) (x y : MoveFx) (s : State) :
    (applyWord a x y s).ic = s.ic := by
  simp [applyWord]
@[simp] theorem applyWord_lehit {c : Sys2Proof.Config} (a : AluFx c) (x y : MoveFx) (s : State) :
    (applyWord a x y s).lehit = s.lehit := by
  simp [applyWord]
@[simp] theorem applyWord_halted {c : Sys2Proof.Config} (a : AluFx c) (x y : MoveFx) (s : State) :
    (applyWord a x y s).halted = s.halted := by
  simp [applyWord]
@[simp] theorem applyWord_prevFlags {c : Sys2Proof.Config} (a : AluFx c) (x y : MoveFx) (s : State) :
    (applyWord a x y s).prevFlags = s.prevFlags := by
  simp [applyWord]
@[simp] theorem applyWord_woke {c : Sys2Proof.Config} (a : AluFx c) (x y : MoveFx) (s : State) :
    (applyWord a x y s).woke = s.woke := by
  simp [applyWord]
@[simp] theorem applyWord_imem {c : Sys2Proof.Config} (a : AluFx c) (x y : MoveFx) (s : State) :
    (applyWord a x y s).imem = s.imem := by
  simp [applyWord]
@[simp] theorem applyWord_inputs {c : Sys2Proof.Config} (a : AluFx c) (x y : MoveFx) (s : State) :
    (applyWord a x y s).inputs = s.inputs := by
  simp [applyWord]
@[simp] theorem applyWord_tick {c : Sys2Proof.Config} (a : AluFx c) (x y : MoveFx) (s : State) :
    (applyWord a x y s).tick = s.tick := by
  simp [applyWord]
@[simp] theorem applyWord_cfg {c : Sys2Proof.Config} (a : AluFx c) (x y : MoveFx) (s : State) :
    (applyWord a x y s).cfg = s.cfg := by
  simp [applyWord]

/-! ### shiftSlots -/

@[simp] theorem shiftSlots_regs (g a : PAddr) (w : IWord) (s : State) : (shiftSlots g a w s).regs = s.regs := rfl
@[simp] theorem shiftSlots_p (g a : PAddr) (w : IWord) (s : State) : (shiftSlots g a w s).p = s.p := rfl
@[simp] theorem shiftSlots_idx (g a : PAddr) (w : IWord) (s : State) : (shiftSlots g a w s).idx = s.idx := rfl
@[simp] theorem shiftSlots_pc (g a : PAddr) (w : IWord) (s : State) : (shiftSlots g a w s).pc = s.pc := rfl
@[simp] theorem shiftSlots_lr0 (g a : PAddr) (w : IWord) (s : State) : (shiftSlots g a w s).lr0 = s.lr0 := rfl
@[simp] theorem shiftSlots_lr1 (g a : PAddr) (w : IWord) (s : State) : (shiftSlots g a w s).lr1 = s.lr1 := rfl
@[simp] theorem shiftSlots_mr0 (g a : PAddr) (w : IWord) (s : State) : (shiftSlots g a w s).mr0 = s.mr0 := rfl
@[simp] theorem shiftSlots_mr1 (g a : PAddr) (w : IWord) (s : State) : (shiftSlots g a w s).mr1 = s.mr1 := rfl
@[simp] theorem shiftSlots_ipr0 (g a : PAddr) (w : IWord) (s : State) : (shiftSlots g a w s).ipr0 = s.ipr0 := rfl
@[simp] theorem shiftSlots_ipr1 (g a : PAddr) (w : IWord) (s : State) : (shiftSlots g a w s).ipr1 = s.ipr1 := rfl
@[simp] theorem shiftSlots_ls (g a : PAddr) (w : IWord) (s : State) : (shiftSlots g a w s).ls = s.ls := rfl
@[simp] theorem shiftSlots_le (g a : PAddr) (w : IWord) (s : State) : (shiftSlots g a w s).le = s.le := rfl
@[simp] theorem shiftSlots_lc (g a : PAddr) (w : IWord) (s : State) : (shiftSlots g a w s).lc = s.lc := rfl
@[simp] theorem shiftSlots_ic (g a : PAddr) (w : IWord) (s : State) : (shiftSlots g a w s).ic = s.ic := rfl
@[simp] theorem shiftSlots_lehit (g a : PAddr) (w : IWord) (s : State) : (shiftSlots g a w s).lehit = s.lehit := rfl
@[simp] theorem shiftSlots_halted (g a : PAddr) (w : IWord) (s : State) : (shiftSlots g a w s).halted = s.halted := rfl
@[simp] theorem shiftSlots_prevFlags (g a : PAddr) (w : IWord) (s : State) :
    (shiftSlots g a w s).prevFlags = s.prevFlags :=
  rfl
@[simp] theorem shiftSlots_woke (g a : PAddr) (w : IWord) (s : State) : (shiftSlots g a w s).woke = s.woke := rfl
@[simp] theorem shiftSlots_xmem (g a : PAddr) (w : IWord) (s : State) : (shiftSlots g a w s).xmem = s.xmem := rfl
@[simp] theorem shiftSlots_ymem (g a : PAddr) (w : IWord) (s : State) : (shiftSlots g a w s).ymem = s.ymem := rfl
@[simp] theorem shiftSlots_imem (g a : PAddr) (w : IWord) (s : State) : (shiftSlots g a w s).imem = s.imem := rfl
@[simp] theorem shiftSlots_en (g a : PAddr) (w : IWord) (s : State) : (shiftSlots g a w s).en = s.en := rfl
@[simp] theorem shiftSlots_inputs (g a : PAddr) (w : IWord) (s : State) : (shiftSlots g a w s).inputs = s.inputs := rfl
@[simp] theorem shiftSlots_tick (g a : PAddr) (w : IWord) (s : State) : (shiftSlots g a w s).tick = s.tick := rfl
@[simp] theorem shiftSlots_cfg (g a : PAddr) (w : IWord) (s : State) : (shiftSlots g a w s).cfg = s.cfg := rfl

/-! ### jumpTo -/

@[simp] theorem jumpTo_regs (c : Cond) (a : PAddr) (s : State) : (jumpTo c a s).regs = s.regs := rfl
@[simp] theorem jumpTo_p (c : Cond) (a : PAddr) (s : State) : (jumpTo c a s).p = s.p := rfl
@[simp] theorem jumpTo_idx (c : Cond) (a : PAddr) (s : State) : (jumpTo c a s).idx = s.idx := rfl
@[simp] theorem jumpTo_lr0 (c : Cond) (a : PAddr) (s : State) : (jumpTo c a s).lr0 = s.lr0 := rfl
@[simp] theorem jumpTo_lr1 (c : Cond) (a : PAddr) (s : State) : (jumpTo c a s).lr1 = s.lr1 := rfl
@[simp] theorem jumpTo_mr1 (c : Cond) (a : PAddr) (s : State) : (jumpTo c a s).mr1 = s.mr1 := rfl
@[simp] theorem jumpTo_ipr0 (c : Cond) (a : PAddr) (s : State) : (jumpTo c a s).ipr0 = s.ipr0 := rfl
@[simp] theorem jumpTo_ipr1 (c : Cond) (a : PAddr) (s : State) : (jumpTo c a s).ipr1 = s.ipr1 := rfl
@[simp] theorem jumpTo_ls (c : Cond) (a : PAddr) (s : State) : (jumpTo c a s).ls = s.ls := rfl
@[simp] theorem jumpTo_le (c : Cond) (a : PAddr) (s : State) : (jumpTo c a s).le = s.le := rfl
@[simp] theorem jumpTo_lc (c : Cond) (a : PAddr) (s : State) : (jumpTo c a s).lc = s.lc := rfl
@[simp] theorem jumpTo_de (c : Cond) (a : PAddr) (s : State) : (jumpTo c a s).de = s.de := rfl
@[simp] theorem jumpTo_ex (c : Cond) (a : PAddr) (s : State) : (jumpTo c a s).ex = s.ex := rfl
@[simp] theorem jumpTo_ic (c : Cond) (a : PAddr) (s : State) : (jumpTo c a s).ic = s.ic := rfl
@[simp] theorem jumpTo_lehit (c : Cond) (a : PAddr) (s : State) : (jumpTo c a s).lehit = s.lehit := rfl
@[simp] theorem jumpTo_halted (c : Cond) (a : PAddr) (s : State) : (jumpTo c a s).halted = s.halted := rfl
@[simp] theorem jumpTo_prevFlags (c : Cond) (a : PAddr) (s : State) : (jumpTo c a s).prevFlags = s.prevFlags := rfl
@[simp] theorem jumpTo_woke (c : Cond) (a : PAddr) (s : State) : (jumpTo c a s).woke = s.woke := rfl
@[simp] theorem jumpTo_xmem (c : Cond) (a : PAddr) (s : State) : (jumpTo c a s).xmem = s.xmem := rfl
@[simp] theorem jumpTo_ymem (c : Cond) (a : PAddr) (s : State) : (jumpTo c a s).ymem = s.ymem := rfl
@[simp] theorem jumpTo_imem (c : Cond) (a : PAddr) (s : State) : (jumpTo c a s).imem = s.imem := rfl
@[simp] theorem jumpTo_en (c : Cond) (a : PAddr) (s : State) : (jumpTo c a s).en = s.en := rfl
@[simp] theorem jumpTo_inputs (c : Cond) (a : PAddr) (s : State) : (jumpTo c a s).inputs = s.inputs := rfl
@[simp] theorem jumpTo_tick (c : Cond) (a : PAddr) (s : State) : (jumpTo c a s).tick = s.tick := rfl
@[simp] theorem jumpTo_cfg (c : Cond) (a : PAddr) (s : State) : (jumpTo c a s).cfg = s.cfg := rfl

/-! ### withPage -/

@[simp] theorem withPage_regs (c : Cond) (ix : IReg) (s t : State) : (withPage c ix s t).regs = t.regs := rfl
@[simp] theorem withPage_p (c : Cond) (ix : IReg) (s t : State) : (withPage c ix s t).p = t.p := rfl
@[simp] theorem withPage_idx (c : Cond) (ix : IReg) (s t : State) : (withPage c ix s t).idx = t.idx := rfl
@[simp] theorem withPage_pc (c : Cond) (ix : IReg) (s t : State) : (withPage c ix s t).pc = t.pc := rfl
@[simp] theorem withPage_lr0 (c : Cond) (ix : IReg) (s t : State) : (withPage c ix s t).lr0 = t.lr0 := rfl
@[simp] theorem withPage_lr1 (c : Cond) (ix : IReg) (s t : State) : (withPage c ix s t).lr1 = t.lr1 := rfl
@[simp] theorem withPage_mr0 (c : Cond) (ix : IReg) (s t : State) : (withPage c ix s t).mr0 = t.mr0 := rfl
@[simp] theorem withPage_mr1 (c : Cond) (ix : IReg) (s t : State) : (withPage c ix s t).mr1 = t.mr1 := rfl
@[simp] theorem withPage_ipr1 (c : Cond) (ix : IReg) (s t : State) : (withPage c ix s t).ipr1 = t.ipr1 := rfl
@[simp] theorem withPage_ls (c : Cond) (ix : IReg) (s t : State) : (withPage c ix s t).ls = t.ls := rfl
@[simp] theorem withPage_le (c : Cond) (ix : IReg) (s t : State) : (withPage c ix s t).le = t.le := rfl
@[simp] theorem withPage_lc (c : Cond) (ix : IReg) (s t : State) : (withPage c ix s t).lc = t.lc := rfl
@[simp] theorem withPage_de (c : Cond) (ix : IReg) (s t : State) : (withPage c ix s t).de = t.de := rfl
@[simp] theorem withPage_ex (c : Cond) (ix : IReg) (s t : State) : (withPage c ix s t).ex = t.ex := rfl
@[simp] theorem withPage_ic (c : Cond) (ix : IReg) (s t : State) : (withPage c ix s t).ic = t.ic := rfl
@[simp] theorem withPage_lehit (c : Cond) (ix : IReg) (s t : State) : (withPage c ix s t).lehit = t.lehit := rfl
@[simp] theorem withPage_halted (c : Cond) (ix : IReg) (s t : State) : (withPage c ix s t).halted = t.halted := rfl
@[simp] theorem withPage_prevFlags (c : Cond) (ix : IReg) (s t : State) : (withPage c ix s t).prevFlags = t.prevFlags :=
  rfl
@[simp] theorem withPage_woke (c : Cond) (ix : IReg) (s t : State) : (withPage c ix s t).woke = t.woke := rfl
@[simp] theorem withPage_xmem (c : Cond) (ix : IReg) (s t : State) : (withPage c ix s t).xmem = t.xmem := rfl
@[simp] theorem withPage_ymem (c : Cond) (ix : IReg) (s t : State) : (withPage c ix s t).ymem = t.ymem := rfl
@[simp] theorem withPage_imem (c : Cond) (ix : IReg) (s t : State) : (withPage c ix s t).imem = t.imem := rfl
@[simp] theorem withPage_en (c : Cond) (ix : IReg) (s t : State) : (withPage c ix s t).en = t.en := rfl
@[simp] theorem withPage_inputs (c : Cond) (ix : IReg) (s t : State) : (withPage c ix s t).inputs = t.inputs := rfl
@[simp] theorem withPage_tick (c : Cond) (ix : IReg) (s t : State) : (withPage c ix s t).tick = t.tick := rfl
@[simp] theorem withPage_cfg (c : Cond) (ix : IReg) (s t : State) : (withPage c ix s t).cfg = t.cfg := rfl

/-! ### returnFromInterrupt -/

@[simp] theorem returnFromInterrupt_regs (s : State) : (returnFromInterrupt s).regs = s.regs := rfl
@[simp] theorem returnFromInterrupt_p (s : State) : (returnFromInterrupt s).p = s.p := rfl
@[simp] theorem returnFromInterrupt_idx (s : State) : (returnFromInterrupt s).idx = s.idx := rfl
@[simp] theorem returnFromInterrupt_lr0 (s : State) : (returnFromInterrupt s).lr0 = s.lr0 := rfl
@[simp] theorem returnFromInterrupt_lr1 (s : State) : (returnFromInterrupt s).lr1 = s.lr1 := rfl
@[simp] theorem returnFromInterrupt_mr1 (s : State) : (returnFromInterrupt s).mr1 = s.mr1 := rfl
@[simp] theorem returnFromInterrupt_ipr0 (s : State) : (returnFromInterrupt s).ipr0 = s.ipr0 := rfl
@[simp] theorem returnFromInterrupt_ipr1 (s : State) : (returnFromInterrupt s).ipr1 = s.ipr1 := rfl
@[simp] theorem returnFromInterrupt_ls (s : State) : (returnFromInterrupt s).ls = s.ls := rfl
@[simp] theorem returnFromInterrupt_le (s : State) : (returnFromInterrupt s).le = s.le := rfl
@[simp] theorem returnFromInterrupt_lc (s : State) : (returnFromInterrupt s).lc = s.lc := rfl
@[simp] theorem returnFromInterrupt_de (s : State) : (returnFromInterrupt s).de = s.de := rfl
@[simp] theorem returnFromInterrupt_ex (s : State) : (returnFromInterrupt s).ex = s.ex := rfl
@[simp] theorem returnFromInterrupt_ic (s : State) : (returnFromInterrupt s).ic = s.ic := rfl
@[simp] theorem returnFromInterrupt_lehit (s : State) : (returnFromInterrupt s).lehit = s.lehit := rfl
@[simp] theorem returnFromInterrupt_halted (s : State) : (returnFromInterrupt s).halted = s.halted := rfl
@[simp] theorem returnFromInterrupt_prevFlags (s : State) : (returnFromInterrupt s).prevFlags = s.prevFlags := rfl
@[simp] theorem returnFromInterrupt_woke (s : State) : (returnFromInterrupt s).woke = s.woke := rfl
@[simp] theorem returnFromInterrupt_xmem (s : State) : (returnFromInterrupt s).xmem = s.xmem := rfl
@[simp] theorem returnFromInterrupt_ymem (s : State) : (returnFromInterrupt s).ymem = s.ymem := rfl
@[simp] theorem returnFromInterrupt_imem (s : State) : (returnFromInterrupt s).imem = s.imem := rfl
@[simp] theorem returnFromInterrupt_en (s : State) : (returnFromInterrupt s).en = s.en := rfl
@[simp] theorem returnFromInterrupt_inputs (s : State) : (returnFromInterrupt s).inputs = s.inputs := rfl
@[simp] theorem returnFromInterrupt_tick (s : State) : (returnFromInterrupt s).tick = s.tick := rfl
@[simp] theorem returnFromInterrupt_cfg (s : State) : (returnFromInterrupt s).cfg = s.cfg := rfl

/-! ### receiveRequest -/

@[simp] theorem receiveRequest_regs (v : CycleView) (s t : State) : (receiveRequest v s t).regs = t.regs := rfl
@[simp] theorem receiveRequest_p (v : CycleView) (s t : State) : (receiveRequest v s t).p = t.p := rfl
@[simp] theorem receiveRequest_idx (v : CycleView) (s t : State) : (receiveRequest v s t).idx = t.idx := rfl
@[simp] theorem receiveRequest_pc (v : CycleView) (s t : State) : (receiveRequest v s t).pc = t.pc := rfl
@[simp] theorem receiveRequest_lr0 (v : CycleView) (s t : State) : (receiveRequest v s t).lr0 = t.lr0 := rfl
@[simp] theorem receiveRequest_lr1 (v : CycleView) (s t : State) : (receiveRequest v s t).lr1 = t.lr1 := rfl
@[simp] theorem receiveRequest_mr0 (v : CycleView) (s t : State) : (receiveRequest v s t).mr0 = t.mr0 := rfl
@[simp] theorem receiveRequest_mr1 (v : CycleView) (s t : State) : (receiveRequest v s t).mr1 = t.mr1 := rfl
@[simp] theorem receiveRequest_ipr0 (v : CycleView) (s t : State) : (receiveRequest v s t).ipr0 = t.ipr0 := rfl
@[simp] theorem receiveRequest_ipr1 (v : CycleView) (s t : State) : (receiveRequest v s t).ipr1 = t.ipr1 := rfl
@[simp] theorem receiveRequest_ls (v : CycleView) (s t : State) : (receiveRequest v s t).ls = t.ls := rfl
@[simp] theorem receiveRequest_le (v : CycleView) (s t : State) : (receiveRequest v s t).le = t.le := rfl
@[simp] theorem receiveRequest_lc (v : CycleView) (s t : State) : (receiveRequest v s t).lc = t.lc := rfl
@[simp] theorem receiveRequest_de (v : CycleView) (s t : State) : (receiveRequest v s t).de = t.de := rfl
@[simp] theorem receiveRequest_ex (v : CycleView) (s t : State) : (receiveRequest v s t).ex = t.ex := rfl
@[simp] theorem receiveRequest_lehit (v : CycleView) (s t : State) : (receiveRequest v s t).lehit = t.lehit := rfl
@[simp] theorem receiveRequest_prevFlags (v : CycleView) (s t : State) :
    (receiveRequest v s t).prevFlags = t.prevFlags :=
  rfl
@[simp] theorem receiveRequest_xmem (v : CycleView) (s t : State) : (receiveRequest v s t).xmem = t.xmem := rfl
@[simp] theorem receiveRequest_ymem (v : CycleView) (s t : State) : (receiveRequest v s t).ymem = t.ymem := rfl
@[simp] theorem receiveRequest_imem (v : CycleView) (s t : State) : (receiveRequest v s t).imem = t.imem := rfl
@[simp] theorem receiveRequest_inputs (v : CycleView) (s t : State) : (receiveRequest v s t).inputs = t.inputs := rfl
@[simp] theorem receiveRequest_tick (v : CycleView) (s t : State) : (receiveRequest v s t).tick = t.tick := rfl
@[simp] theorem receiveRequest_cfg (v : CycleView) (s t : State) : (receiveRequest v s t).cfg = t.cfg := rfl

/-! ### entryCycle1 -/

@[simp] theorem entryCycle1_regs (v : CycleView) (t : State) : (entryCycle1 v t).regs = t.regs := rfl
@[simp] theorem entryCycle1_p (v : CycleView) (t : State) : (entryCycle1 v t).p = t.p := rfl
@[simp] theorem entryCycle1_idx (v : CycleView) (t : State) : (entryCycle1 v t).idx = t.idx := rfl
@[simp] theorem entryCycle1_pc (v : CycleView) (t : State) : (entryCycle1 v t).pc = t.pc := rfl
@[simp] theorem entryCycle1_lr0 (v : CycleView) (t : State) : (entryCycle1 v t).lr0 = t.lr0 := rfl
@[simp] theorem entryCycle1_mr0 (v : CycleView) (t : State) : (entryCycle1 v t).mr0 = t.mr0 := rfl
@[simp] theorem entryCycle1_mr1 (v : CycleView) (t : State) : (entryCycle1 v t).mr1 = t.mr1 := rfl
@[simp] theorem entryCycle1_ipr0 (v : CycleView) (t : State) : (entryCycle1 v t).ipr0 = t.ipr0 := rfl
@[simp] theorem entryCycle1_ipr1 (v : CycleView) (t : State) : (entryCycle1 v t).ipr1 = t.ipr1 := rfl
@[simp] theorem entryCycle1_ls (v : CycleView) (t : State) : (entryCycle1 v t).ls = t.ls := rfl
@[simp] theorem entryCycle1_le (v : CycleView) (t : State) : (entryCycle1 v t).le = t.le := rfl
@[simp] theorem entryCycle1_lc (v : CycleView) (t : State) : (entryCycle1 v t).lc = t.lc := rfl
@[simp] theorem entryCycle1_de (v : CycleView) (t : State) : (entryCycle1 v t).de = t.de := rfl
@[simp] theorem entryCycle1_ex (v : CycleView) (t : State) : (entryCycle1 v t).ex = t.ex := rfl
@[simp] theorem entryCycle1_halted (v : CycleView) (t : State) : (entryCycle1 v t).halted = t.halted := rfl
@[simp] theorem entryCycle1_prevFlags (v : CycleView) (t : State) : (entryCycle1 v t).prevFlags = t.prevFlags := rfl
@[simp] theorem entryCycle1_woke (v : CycleView) (t : State) : (entryCycle1 v t).woke = t.woke := rfl
@[simp] theorem entryCycle1_xmem (v : CycleView) (t : State) : (entryCycle1 v t).xmem = t.xmem := rfl
@[simp] theorem entryCycle1_ymem (v : CycleView) (t : State) : (entryCycle1 v t).ymem = t.ymem := rfl
@[simp] theorem entryCycle1_imem (v : CycleView) (t : State) : (entryCycle1 v t).imem = t.imem := rfl
@[simp] theorem entryCycle1_en (v : CycleView) (t : State) : (entryCycle1 v t).en = t.en := rfl
@[simp] theorem entryCycle1_inputs (v : CycleView) (t : State) : (entryCycle1 v t).inputs = t.inputs := rfl
@[simp] theorem entryCycle1_tick (v : CycleView) (t : State) : (entryCycle1 v t).tick = t.tick := rfl
@[simp] theorem entryCycle1_cfg (v : CycleView) (t : State) : (entryCycle1 v t).cfg = t.cfg := rfl

/-! ### entryCycle4 -/

@[simp] theorem entryCycle4_regs (s t : State) : (entryCycle4 s t).regs = t.regs := rfl
@[simp] theorem entryCycle4_p (s t : State) : (entryCycle4 s t).p = t.p := rfl
@[simp] theorem entryCycle4_idx (s t : State) : (entryCycle4 s t).idx = t.idx := rfl
@[simp] theorem entryCycle4_pc (s t : State) : (entryCycle4 s t).pc = t.pc := rfl
@[simp] theorem entryCycle4_lr0 (s t : State) : (entryCycle4 s t).lr0 = t.lr0 := rfl
@[simp] theorem entryCycle4_lr1 (s t : State) : (entryCycle4 s t).lr1 = t.lr1 := rfl
@[simp] theorem entryCycle4_mr0 (s t : State) : (entryCycle4 s t).mr0 = t.mr0 := rfl
@[simp] theorem entryCycle4_ipr0 (s t : State) : (entryCycle4 s t).ipr0 = t.ipr0 := rfl
@[simp] theorem entryCycle4_ipr1 (s t : State) : (entryCycle4 s t).ipr1 = t.ipr1 := rfl
@[simp] theorem entryCycle4_ls (s t : State) : (entryCycle4 s t).ls = t.ls := rfl
@[simp] theorem entryCycle4_le (s t : State) : (entryCycle4 s t).le = t.le := rfl
@[simp] theorem entryCycle4_lc (s t : State) : (entryCycle4 s t).lc = t.lc := rfl
@[simp] theorem entryCycle4_de (s t : State) : (entryCycle4 s t).de = t.de := rfl
@[simp] theorem entryCycle4_ex (s t : State) : (entryCycle4 s t).ex = t.ex := rfl
@[simp] theorem entryCycle4_lehit (s t : State) : (entryCycle4 s t).lehit = t.lehit := rfl
@[simp] theorem entryCycle4_halted (s t : State) : (entryCycle4 s t).halted = t.halted := rfl
@[simp] theorem entryCycle4_prevFlags (s t : State) : (entryCycle4 s t).prevFlags = t.prevFlags := rfl
@[simp] theorem entryCycle4_woke (s t : State) : (entryCycle4 s t).woke = t.woke := rfl
@[simp] theorem entryCycle4_xmem (s t : State) : (entryCycle4 s t).xmem = t.xmem := rfl
@[simp] theorem entryCycle4_ymem (s t : State) : (entryCycle4 s t).ymem = t.ymem := rfl
@[simp] theorem entryCycle4_imem (s t : State) : (entryCycle4 s t).imem = t.imem := rfl
@[simp] theorem entryCycle4_en (s t : State) : (entryCycle4 s t).en = t.en := rfl
@[simp] theorem entryCycle4_inputs (s t : State) : (entryCycle4 s t).inputs = t.inputs := rfl
@[simp] theorem entryCycle4_tick (s t : State) : (entryCycle4 s t).tick = t.tick := rfl
@[simp] theorem entryCycle4_cfg (s t : State) : (entryCycle4 s t).cfg = t.cfg := rfl

end Sys2Proof.Machine
end

