-- ==== Sys2Proof/Laws/Memory.lean ====
section
/-! SUPPORT. Memory: what a write changes, and that every memory operation keeps the canonical form. -/

set_option Elab.async false

namespace Sys2Proof.Machine

/-! ### Bytes -/

/-- An address below the range of a rising memory is unlisted. -/
theorem Memory.read_below (m : Memory) (lo a : Nat) (h : m.risesFrom lo = true) (ha : a < lo) : m.read a = 0 := by
  induction m generalizing lo with
  | nil => rfl
  | cons c m ih =>
    obtain ⟨k, v⟩ := c
    simp only [Memory.risesFrom, Bool.and_eq_true, decide_eq_true_eq] at h
    have hk : k ≠ a := by omega
    simp only [Memory.read, hk, if_false]
    exact ih (k + 1) h.2 (by omega)

/-- A rising memory rises from any lower bound. -/
theorem Memory.risesFrom_mono (m : Memory) (lo lo' : Nat) (hl : lo' ≤ lo) (h : m.risesFrom lo = true) :
    m.risesFrom lo' = true := by
  cases m with
  | nil => rfl
  | cons c m =>
    obtain ⟨k, v⟩ := c
    simp only [Memory.risesFrom, Bool.and_eq_true, decide_eq_true_eq] at h ⊢
    exact ⟨⟨by omega, h.1.2⟩, h.2⟩

/-- A write leaves every other byte alone, in any memory. -/
theorem Memory.read_write_ne (m : Memory) (a k : Nat) (b : Byte) (h : k ≠ a) : (m.write a b).read k = m.read k := by
  induction m with
  | nil =>
    simp only [Memory.write]
    split
    · rfl
    · simp [Memory.read, Ne.symm h]
  | cons c m ih =>
    obtain ⟨j, v⟩ := c
    simp only [Memory.write]
    split
    · simp only [Memory.read, ih]
    · split
      · subst j
        split
        · simp [Memory.read, Ne.symm h]
        · simp [Memory.read, Ne.symm h]
      · split
        · rfl
        · simp [Memory.read, Ne.symm h]

/-- A byte written is read back, in a memory in canonical form. -/
theorem Memory.read_write_self (m : Memory) (lo a : Nat) (b : Byte) (h : m.risesFrom lo = true) :
    (m.write a b).read a = b := by
  induction m generalizing lo with
  | nil =>
    simp only [Memory.write]
    split
    · rename_i hb; simp [Memory.read, hb]
    · simp [Memory.read]
  | cons c m ih =>
    obtain ⟨j, v⟩ := c
    simp only [Memory.risesFrom, Bool.and_eq_true, decide_eq_true_eq] at h
    simp only [Memory.write]
    split
    · rename_i hj
      have : j ≠ a := by omega
      simp only [Memory.read, this, if_false]
      exact ih (j + 1) h.2
    · split
      · subst j
        split
        · rename_i hb
          rw [hb]; exact Memory.read_below m (a + 1) a h.2 (by omega)
        · simp [Memory.read]
      · rename_i h1 h2
        split
        · rename_i hb
          rw [hb]
          have : j ≠ a := h2
          simp only [Memory.read, this, if_false]
          exact Memory.read_below m (j + 1) a h.2 (by omega)
        · simp [Memory.read]

/-- A write keeps the canonical form. -/
theorem Memory.risesFrom_write (m : Memory) (lo a : Nat) (b : Byte) (h : m.risesFrom lo = true) :
    (m.write a b).risesFrom (min lo a) = true := by
  induction m generalizing lo with
  | nil =>
    simp only [Memory.write]
    split
    · rfl
    · rename_i hb; simpa [Memory.risesFrom] using hb
  | cons c m ih =>
    obtain ⟨j, v⟩ := c
    simp only [Memory.risesFrom, Bool.and_eq_true, decide_eq_true_eq] at h
    simp only [Memory.write]
    split
    · simp only [Memory.risesFrom, Bool.and_eq_true, decide_eq_true_eq]
      have := ih (j + 1) h.2
      rw [Nat.min_eq_left (by omega : j + 1 ≤ a)] at this
      exact ⟨⟨by omega, h.1.2⟩, this⟩
    · split
      · subst j
        split
        · exact Memory.risesFrom_mono m _ _ (by omega) h.2
        · rename_i hb
          simp only [Memory.risesFrom, Bool.and_eq_true, decide_eq_true_eq]
          exact ⟨⟨by omega, hb⟩, h.2⟩
      · split
        · simp only [Memory.risesFrom, Bool.and_eq_true, decide_eq_true_eq]
          exact ⟨⟨by omega, h.1.2⟩, h.2⟩
        · rename_i hb
          simp only [Memory.risesFrom, Bool.and_eq_true, decide_eq_true_eq]
          exact ⟨⟨by omega, hb⟩, ⟨by omega, h.1.2⟩, h.2⟩

/-- A write keeps the canonical form. -/
theorem Memory.wf_write (m : Memory) (a : Nat) (b : Byte) (h : m.wf = true) : (m.write a b).wf = true := by
  have := Memory.risesFrom_write m 0 a b h
  rwa [Nat.zero_min] at this

/-- A byte written is read back. -/
theorem Memory.read_write (m : Memory) (a k : Nat) (b : Byte) (h : m.wf = true) :
    (m.write a b).read k = if k = a then b else m.read k := by
  split
  · rename_i hk; rw [hk]; exact Memory.read_write_self m 0 a b h
  · rename_i hk; exact Memory.read_write_ne m a k b hk

/-! ### Words -/

/-- Stored bytes keep the canonical form. -/
theorem Memory.wf_putBytes (m : Memory) (k len v : Nat) (h : m.wf = true) : (m.putBytes k len v).wf = true := by
  induction len generalizing m k v with
  | zero => exact h
  | succ len ih => exact ih _ _ _ (Memory.wf_write m k _ h)

/-- Stored bytes leave every other byte alone, in any memory. -/
theorem Memory.read_putBytes_ne (m : Memory) (k len v a : Nat) (h : a < k ∨ k + len ≤ a) :
    (m.putBytes k len v).read a = m.read a := by
  induction len generalizing m k v with
  | zero => rfl
  | succ len ih => rw [Memory.putBytes, ih _ _ _ (by omega), Memory.read_write_ne _ _ _ _ (by omega)]

/-- The number read depends on its bytes only. -/
theorem Memory.bytes_congr (m m' : Memory) (k len : Nat) (h : ∀ a, k ≤ a → a < k + len → m'.read a = m.read a) :
    m'.bytes k len = m.bytes k len := by
  induction len generalizing k with
  | zero => rfl
  | succ len ih =>
    rw [Memory.bytes, Memory.bytes, h k (by omega) (by omega), ih (k + 1) fun a h1 h2 => h a (by omega) (by omega)]

/-- A stored number is read back, as far as its bytes reach. -/
theorem Memory.bytes_putBytes_self (m : Memory) (k len v : Nat) (h : m.wf = true) :
    (m.putBytes k len v).bytes k len = v % 256 ^ len := by
  induction len generalizing m k v with
  | zero => simp [Memory.bytes, Nat.mod_one]
  | succ len ih =>
    rw [Memory.putBytes, Memory.bytes, ih _ _ _ (Memory.wf_write m k _ h), Memory.read_putBytes_ne _ _ _ _ _ (by omega),
      Memory.read_write _ _ _ _ h, if_pos rfl, pow_succ', Nat.mod_mul]
    simp

/-- A number read is below the power of its length. -/
theorem Memory.bytes_lt (m : Memory) (k len : Nat) : m.bytes k len < 256 ^ len := by
  induction len generalizing k with
  | zero => simp [Memory.bytes]
  | succ len ih =>
    have h1 := (m.read k).isLt
    have h2 := ih (k + 1)
    rw [Memory.bytes, pow_succ']
    omega

/-- A stored word keeps the canonical form. -/
theorem Memory.wf_putWord (m : Memory) (a : DAddr) (v : Word) (h : m.wf = true) : (m.putWord a v).wf = true :=
  Memory.wf_putBytes _ _ _ _ h

/-- A stored word leaves every byte outside it alone, in any memory. -/
theorem Memory.read_putWord_ne (m : Memory) (a : DAddr) (v : Word) (k : Nat) (h : k / dataBytes ≠ a.toNat) :
    (m.putWord a v).read k = m.read k := by
  rw [Memory.putWord, Memory.read_putBytes_ne]
  simp only [dataBytes] at *
  omega

/-- A stored word is read back. -/
theorem Memory.word_putWord_self (m : Memory) (a : DAddr) (v : Word) (h : m.wf = true) :
    (m.putWord a v).word a = v := by
  rw [Memory.word, Memory.putWord, Memory.bytes_putBytes_self _ _ _ _ h]
  apply BitVec.eq_of_toNat_eq
  have := v.isLt
  rw [BitVec.toNat_ofNat]
  simp only [dataBytes]
  omega

/-- A stored word leaves every other word alone. -/
theorem Memory.word_putWord_ne (m : Memory) (a b : DAddr) (v : Word) (h : b ≠ a) :
    (m.putWord a v).word b = m.word b := by
  have hn : b.toNat ≠ a.toNat := fun e => h (BitVec.eq_of_toNat_eq e)
  rw [Memory.word, Memory.word, Memory.bytes_congr m]
  intro k h1 h2
  apply Memory.read_putWord_ne
  simp only [dataBytes] at *
  omega

/-- A placed instruction word keeps the canonical form. -/
theorem Memory.wf_putIword (m : Memory) (p : Nat) (w : IWord) (h : m.wf = true) : (m.putIword p w).wf = true :=
  Memory.wf_putBytes _ _ _ _ h

/-- A placed instruction word is read back. -/
theorem Memory.iword_putIword_self (m : Memory) (p : Nat) (w : IWord) (h : m.wf = true) :
    (m.putIword p w).iword p = w := by
  rw [Memory.iword, Memory.putIword, Memory.bytes_putBytes_self _ _ _ _ h]
  apply BitVec.eq_of_toNat_eq
  have := w.isLt
  rw [BitVec.toNat_ofNat]
  simp only [codeBytes]
  omega

/-! ### The memory of a state -/

@[simp] theorem mem_putMem_self (sp : Space) (m : Memory) (s : State) : (s.putMem sp m).mem sp = m := by
  cases sp <;> rfl

theorem mem_putMem_ne (sp sq : Space) (m : Memory) (s : State) (h : sq ≠ sp) : (s.putMem sp m).mem sq = s.mem sq := by
  cases sp <;> cases sq <;> first | rfl | exact absurd rfl h

/-- Everything a store can do: EN is set by a store to INT_GLOB_EN and by nothing else, storage takes the word, and no
other memory changes. -/
theorem storeData_cases (sp : Space) (a : DAddr) (v : Word) (s : State) :
    (Config.isEnable s.cfg sp a = true ∧ storeData sp a v s = { s with en := true }) ∨
      (Config.isEnable s.cfg sp a = false ∧ Config.cell s.cfg sp a = .storage ∧
        storeData sp a v s = s.putMem sp ((s.mem sp).putWord a v)) ∨
      (Config.isEnable s.cfg sp a = false ∧ Config.cell s.cfg sp a ≠ .storage ∧ storeData sp a v s = s) := by
  unfold storeData
  by_cases h : Config.isEnable s.cfg sp a = true
  · simp [h]
  · cases hc : Config.cell s.cfg sp a <;> simp [h]

/-- A store changes no byte outside the word it stores to. -/
theorem read_storeData_ne (sp sq : Space) (a : DAddr) (v : Word) (s : State) (k : Nat)
    (h : sq = sp → k / dataBytes ≠ a.toNat) :
    ((storeData sp a v s).mem sq).read k = (s.mem sq).read k := by
  rcases storeData_cases sp a v s with ⟨_, e⟩ | ⟨_, _, e⟩ | ⟨_, _, e⟩ <;> rw [e]
  · cases sq <;> rfl
  · by_cases hs : sq = sp
    · subst hs
      rw [mem_putMem_self, Memory.read_putWord_ne _ _ _ _ (h rfl)]
    · rw [mem_putMem_ne _ _ _ _ hs]

/-- A store sets EN when it goes to INT_GLOB_EN, and leaves it otherwise (R333). -/
theorem storeData_en (sp : Space) (a : DAddr) (v : Word) (s : State) :
    (storeData sp a v s).en = (s.en || Config.isEnable s.cfg sp a) := by
  rcases storeData_cases sp a v s with ⟨h, e⟩ | ⟨h, _, e⟩ | ⟨h, _, e⟩ <;> rw [e] <;> simp [h]

/-- A store keeps the canonical form of both data memories. -/
theorem wf_storeData (sp : Space) (a : DAddr) (v : Word) (s : State) (hx : s.xmem.wf = true) (hy : s.ymem.wf = true) :
    (storeData sp a v s).xmem.wf = true ∧ (storeData sp a v s).ymem.wf = true := by
  rcases storeData_cases sp a v s with ⟨_, e⟩ | ⟨_, _, e⟩ | ⟨_, _, e⟩ <;> rw [e]
  · exact ⟨hx, hy⟩
  · cases sp
    · exact ⟨Memory.wf_putWord _ _ _ hx, hy⟩
    · exact ⟨hx, Memory.wf_putWord _ _ _ hy⟩
  · exact ⟨hx, hy⟩

/-- A word stored to storage is what is read there (R71, R81). -/
theorem word_storeData_self (sp : Space) (a : DAddr) (v : Word) (s : State) (hm : (s.mem sp).wf = true)
    (hc : Config.cell s.cfg sp a = .storage) : ((storeData sp a v s).mem sp).word a = v := by
  rcases storeData_cases sp a v s with ⟨h, _⟩ | ⟨_, _, e⟩ | ⟨_, hn, _⟩
  · simp [Config.cell, h] at hc
  · rw [e, mem_putMem_self, Memory.word_putWord_self _ _ _ hm]
  · exact absurd hc hn

end Sys2Proof.Machine
end

