-- ==== Sys2Proof/Laws/Widths.lean ====
section
/-! SUPPORT. Values kept in wider types: what trunc keeps, and which values fit a width. -/

set_option Elab.async false

namespace Sys2Proof

/-- The bits trunc keeps. -/
@[simp] theorem getLsbD_trunc (w : Nat) {k l : Nat} (v : BitVec k) (i : Nat) :
    (trunc w v : BitVec l).getLsbD i = (decide (i < l) && decide (i < w) && v.getLsbD i) := by
  simp [trunc, Bool.and_assoc]

/-- A value fits a width when its bits from there on are 0. -/
theorem fits_iff (w : Nat) {l : Nat} (v : BitVec l) : fits w v ↔ ∀ i, w ≤ i → v.getLsbD i = false := by
  constructor
  · intro h i hi
    rw [← h]; simp [Nat.not_lt.mpr hi]
  · intro h
    apply BitVec.eq_of_getLsbD_eq
    intro i hi
    rw [getLsbD_trunc]
    by_cases hw : i < w
    · simp [hi, hw]
    · rw [h i (Nat.not_lt.mp hw)]; simp

theorem fits_trunc (w : Nat) {k l : Nat} (v : BitVec k) : fits w (trunc w v : BitVec l) := by
  rw [fits_iff]; intro i hi; simp [Nat.not_lt.mpr hi]

theorem fits_mono (w w' : Nat) {l : Nat} (v : BitVec l) (hw : w ≤ w') (h : fits w v) : fits w' v := by
  rw [fits_iff] at *; intro i hi; exact h i (by omega)

theorem fits_setWidth {w : Nat} (l : Nat) (v : BitVec w) : fits w (v.setWidth l) := by
  rw [fits_iff]; intro i hi
  simp [BitVec.getLsbD_of_ge v i hi]

theorem fits_zero (w l : Nat) : fits w (0 : BitVec l) := by
  rw [fits_iff]; intro i _; simp

theorem fits_and_left (w : Nat) {l : Nat} (u v : BitVec l) (h : fits w u) : fits w (u &&& v) := by
  rw [fits_iff] at *; intro i hi; simp [h i hi]

/-- A value that fits survives a wider type. -/
theorem fits_widen (w : Nat) {l : Nat} (k : Nat) (v : BitVec l) (h : fits w v) : fits w (v.setWidth k) := by
  rw [fits_iff] at *; intro i hi; simp [h i hi]

/-- A value kept in a type with room for it is read back. -/
theorem setWidth_setWidth_self {w : Nat} (l : Nat) (v : BitVec w) (h : w ≤ l) : (v.setWidth l).setWidth w = v := by
  apply BitVec.eq_of_getLsbD_eq
  intro i hi
  simp [hi, Nat.lt_of_lt_of_le hi h]

/-- The low bits of a value are those of its low bits. -/
theorem setWidth_trunc (w : Nat) {k : Nat} (l : Nat) (v : BitVec k) (h : w ≤ l) :
    (trunc w v : BitVec l).setWidth w = v.setWidth w := setWidth_setWidth_self l _ h

/-- trunc of a value that fits leaves it alone. -/
theorem trunc_of_fits (w : Nat) {l : Nat} (v : BitVec l) (h : fits w v) : trunc w v = v := h

/-- A kept value of fewer bits is the same in every type with room for it. -/
theorem setWidth_trunc_wide (w : Nat) {k l : Nat} (l' : Nat) (v : BitVec k) (h : w ≤ l) :
    (trunc w v : BitVec l).setWidth l' = trunc w v := by
  apply BitVec.eq_of_getLsbD_eq
  intro i hi
  simp only [BitVec.getLsbD_setWidth, getLsbD_trunc]
  by_cases hw : i < w
  · simp [hi, hw, Nat.lt_of_lt_of_le hw h]
  · simp [hw]

/-- Whether a value fits a width is the same in every wider type. -/
theorem fits_narrow (w : Nat) {l : Nat} (k : Nat) (v : BitVec l) (h : l ≤ k) :
    fits w (v.setWidth k) ↔ fits w v := by
  refine ⟨fun hk => ?_, fits_widen w k v⟩
  rw [fits_iff] at *
  intro i hi
  have := hk i hi
  rw [BitVec.getLsbD_setWidth] at this
  by_cases hl : i < l
  · simpa [Nat.lt_of_lt_of_le hl h] using this
  · exact BitVec.getLsbD_of_ge v i (by omega)

theorem fits_trunc_widen (w k : Nat) {a l : Nat} (v : BitVec a) : fits w ((trunc w v : BitVec l).setWidth k) :=
  fits_widen w k _ (fits_trunc w v)

end Sys2Proof
end

