-- ==== Sys2Proof/Laws/Registers.lean ====
section
/-! SUPPORT. Registers and the bits of MR0: what reads back after a write, and what a write leaves alone. -/

set_option Elab.async false

namespace Sys2Proof.Machine

/-! ### Arithmetic and guard registers -/

@[simp] theorem ARegs.get_put (r : ARegs) (a b : AReg) (v : Word) :
    (r.put a v).get b = if b = a then v else r.get b := by
  cases a <;> cases b <;> rfl

@[simp] theorem ARegs.guard_put (r : ARegs) (a : AReg) (x : Acc) (v : Word) : (r.put a v).guard x = r.guard x := by
  cases a <;> rfl

@[simp] theorem ARegs.get_putGuard (r : ARegs) (x : Acc) (a : AReg) (v : Guard) :
    (r.putGuard x v).get a = r.get a := by
  cases x <;> rfl

@[simp] theorem ARegs.guard_putGuard (r : ARegs) (x y : Acc) (v : Guard) :
    (r.putGuard x v).guard y = if y = x then v else r.guard y := by
  cases x <;> cases y <;> rfl

/-- A write of an arithmetic register as reads of the others see it. -/
@[simp] theorem ARegs.get_write (c : Sys2Proof.Config) (r : ARegs) (a b : AReg) (v : BitVec c.n) :
    (r.write c a v).get b = if b = a then v.setWidth 64 else r.get b := by
  unfold ARegs.write; split <;> simp

/-- A write of X1 writes X2 with the sign; a write of X0 writes no guard register (R24). -/
@[simp] theorem ARegs.guard_write (c : Sys2Proof.Config) (r : ARegs) (a : AReg) (x : Acc) (v : BitVec c.n) :
    (r.write c a v).guard x =
      if a.isHigh = true ∧ x = a.acc then (guardSign c v).setWidth 16 else r.guard x := by
  unfold ARegs.write
  by_cases h : a.isHigh = true <;> simp [h]

/-- A written register reads back at its width. -/
@[simp] theorem ARegs.word_write (c : Sys2Proof.Config) (r : ARegs) (a b : AReg) (v : BitVec c.n) :
    (r.write c a v).word c b = if b = a then v else r.word c b := by
  simp only [ARegs.word, ARegs.get_write]
  split
  · exact setWidth_setWidth_self 64 v c.nRange.2
  · rfl

@[simp] theorem ARegs.guardWord_write (c : Sys2Proof.Config) (r : ARegs) (a : AReg) (x : Acc) (v : BitVec c.n) :
    (r.write c a v).guardWord c x = if a.isHigh = true ∧ x = a.acc then guardSign c v else r.guardWord c x := by
  simp only [ARegs.guardWord, ARegs.guard_write]
  split
  · exact setWidth_setWidth_self 16 _ c.gRange.1
  · rfl

@[simp] theorem Acc.low_acc (x : Acc) : x.low.acc = x := by cases x <;> rfl
@[simp] theorem Acc.high_acc (x : Acc) : x.high.acc = x := by cases x <;> rfl
@[simp] theorem Acc.low_isHigh (x : Acc) : x.low.isHigh = false := by cases x <;> rfl
@[simp] theorem Acc.high_isHigh (x : Acc) : x.high.isHigh = true := by cases x <;> rfl
@[simp] theorem Acc.low_ne_high (x : Acc) : x.low ≠ x.high := by cases x <;> decide
@[simp] theorem Acc.high_ne_low (x : Acc) : x.high ≠ x.low := by cases x <;> decide

/-- A register that stands in a pair is its low or its high half. -/
theorem AReg.eq_low_or_high (r : AReg) : r = r.acc.low ∨ r = r.acc.high := by cases r <;> decide

theorem AReg.isHigh_iff (r : AReg) : r.isHigh = true ↔ r = r.acc.high := by cases r <;> decide

@[simp] theorem ARegs.get_writeAccum (c : Sys2Proof.Config) (r : ARegs) (x : Acc) (a : AReg) (v : BitVec c.accWidth) :
    (r.writeAccum c x v).get a =
      if a = x.low then trunc c.n v else if a = x.high then trunc c.n (v >>> c.n) else r.get a := by
  cases x <;> cases a <;> rfl

@[simp] theorem ARegs.guard_writeAccum (c : Sys2Proof.Config) (r : ARegs) (x y : Acc) (v : BitVec c.accWidth) :
    (r.writeAccum c x v).guard y = if y = x then trunc c.g (v >>> (c.n + c.n)) else r.guard y := by
  cases x <;> cases y <;> rfl

/-- The three parts of an accumulator value give it back (R22). -/
theorem accum_parts (c : Sys2Proof.Config) (v : BitVec c.accWidth) :
    (v >>> (c.n + c.n)).setWidth c.g ++ (v >>> c.n).setWidth c.n ++ v.setWidth c.n = v := by
  apply BitVec.eq_of_getLsbD_eq
  intro i hi
  simp only [BitVec.getLsbD_append, BitVec.getLsbD_setWidth, BitVec.getLsbD_ushiftRight]
  by_cases h1 : i < c.n
  · simp [h1]
  · by_cases h2 : i - c.n < c.n
    · simp [h1, h2, show c.n + (i - c.n) = i by omega]
    · have h3 : i - c.n - c.n < c.g := by omega
      simp [h1, h2, h3, show c.n + c.n + (i - c.n - c.n) = i by omega]

/-- An accumulator written is read back whole (R22). -/
@[simp] theorem ARegs.accum_writeAccum (c : Sys2Proof.Config) (r : ARegs) (x : Acc) (v : BitVec c.accWidth) :
    (r.writeAccum c x v).accum c x = v := by
  simp only [ARegs.accum, ARegs.word, ARegs.guardWord, ARegs.get_writeAccum, ARegs.guard_writeAccum]
  simp only [if_true, Acc.high_ne_low, if_false]
  rw [setWidth_trunc c.n 64 _ c.nRange.2, setWidth_trunc c.n 64 _ c.nRange.2, setWidth_trunc c.g 16 _ c.gRange.1]
  exact accum_parts c v

/-! ### Index registers -/

@[simp] theorem IRegs.get_put (r : IRegs) (i j : IReg) (v : DAddr) :
    (r.put i v).get j = if j = i then v else r.get j := by
  cases i <;> cases j <;> rfl

theorem IReg.pair_ne (r : IReg) : r.pair ≠ r := by cases r <;> decide

theorem IReg.pair_pair (r : IReg) : r.pair.pair = r := by cases r <;> rfl

/-! ### The bits of MR0 -/

theorem MrBit.pos_lt (b : MrBit) : b.pos < 20 := by cases b <;> decide

theorem MrBit.pos_injective (b d : MrBit) (h : b.pos = d.pos) : b = d := by
  cases b <;> cases d <;> first | rfl | exact absurd h (by decide)

theorem MrBit.getLsbD_mask (b d : MrBit) : b.mask.getLsbD d.pos = decide (d = b) := by
  cases b <;> cases d <;> decide

/-- Flags depend on MR0 and the configuration only. -/
theorem flag_congr (s t : State) (b : MrBit) (hm : t.mr0 = s.mr0) (hc : t.cfg = s.cfg) : t.flag b = s.flag b := by
  simp [State.flag, State.mr0Value, hm, hc]

theorem mr0Value_congr (s t : State) (hm : t.mr0 = s.mr0) (hc : t.cfg = s.cfg) : t.mr0Value = s.mr0Value := by
  simp [State.mr0Value, hm, hc]

/-- MR0 after a masked write (R32). -/
theorem mr0Value_putBits (s : State) (m v : PAddr) :
    (s.putBits m v).mr0Value = (s.mr0Value &&& ~~~m) ||| (v &&& m &&& s.cfg.activeBits) := by
  simp only [State.mr0Value, State.putBits]
  ext i hi
  simp only [BitVec.getElem_and, BitVec.getElem_or, BitVec.getElem_not]
  cases s.mr0[i] <;> cases s.cfg.activeBits[i] <;> cases m[i] <;> cases v[i] <;> rfl

/-- A flag after a masked write: the bits under the mask take the value where they exist (R32). -/
theorem flag_putBits (s : State) (m v : PAddr) (b : MrBit) :
    (s.putBits m v).flag b =
      if m.getLsbD b.pos then Config.hasBit s.cfg b && v.getLsbD b.pos else s.flag b := by
  have hp := MrBit.pos_lt b
  simp only [State.flag, mr0Value_putBits, Config.hasBit, BitVec.getLsbD_or, BitVec.getLsbD_and, BitVec.getLsbD_not]
  cases m.getLsbD b.pos <;> simp [hp, Bool.and_comm]

/-- A flag after a write of one flag. -/
@[simp] theorem flag_putFlag (s : State) (b d : MrBit) (v : Bool) :
    (s.putFlag b v).flag d = if d = b then Config.hasBit s.cfg b && v else s.flag d := by
  rw [State.putFlag, flag_putBits, MrBit.getLsbD_mask]
  by_cases h : d = b
  · subst h
    simp only [decide_true, if_true]
    cases v <;> simp [MrBit.getLsbD_mask]
  · simp [h]

/-- Clearing L clears it and no other bit (R286). -/
@[simp] theorem flag_clearLoopFlag (s : State) (d : MrBit) :
    s.clearLoopFlag.flag d = if d = .l then false else s.flag d := by
  rw [State.clearLoopFlag, flag_putFlag]
  by_cases h : d = .l <;> simp [h]

/-- The ALU flags at their places. -/
theorem AluFlags.getLsbD_bits (f : AluFlags) (b : MrBit) (h : aluBits.getLsbD b.pos = true) :
    f.bits.getLsbD b.pos = match b with
      | .z => f.z
      | .n => f.n
      | .v => f.v
      | .e => f.e
      | .c => f.c
      | _ => false := by
  obtain ⟨z, n, v, e, c⟩ := f
  cases b <;> first
    | (exact absurd h (by decide))
    | (cases z <;> cases n <;> cases v <;> cases e <;> cases c <;> rfl)

/-- MR0 never shows a bit outside the eleven defined ones. -/
theorem mr0Value_and_allBits (s : State) : s.mr0Value &&& ~~~allBits = 0 := by
  simp only [State.mr0Value, Sys2Proof.Config.activeBits, allBits]
  ext i hi
  simp only [BitVec.getElem_and, BitVec.getElem_not]
  cases (0x007FF#20)[i] <;> simp

/-! ### Registers on a bus -/

/-- A source that is ready is read (R227, R342). -/
theorem readReg_of_ready (bus : Space) (f : FReg) (s : State) (h : sourceReady s f = true) :
    readReg bus f s = .ok (onBus s bus (FReg.width s.cfg f) (s.regValue f)) := by
  simp only [sourceReady, Bool.and_eq_true] at h
  simp [readReg, require, h.1, h.2]

/-- Everything a read of a source can answer (R224 to R227, R342). -/
theorem readReg_ok (bus : Space) (f : FReg) (s : State) (v : Word) :
    readReg bus f s = .ok v ↔
      sourceReady s f = true ∧ v = onBus s bus (FReg.width s.cfg f) (s.regValue f) := by
  constructor
  · intro h
    have hr : sourceReady s f = true := by
      unfold readReg require at h
      unfold sourceReady
      split at h
      · split at h
        · simp_all
        · cases h
      · cases h
    refine ⟨hr, ?_⟩
    rw [readReg_of_ready _ _ _ hr] at h
    exact (Except.ok.inj h).symm
  · rintro ⟨h, rfl⟩; exact readReg_of_ready _ _ _ h

theorem readReg_ready (bus : Space) (f : FReg) (s : State) :
    sourceReady s f = true ↔ ∃ v, readReg bus f s = .ok v := by
  simp [readReg_ok]

/-- A value on a bus has n bits (R225). -/
theorem fits_onBus (s : State) (bus : Space) (w : Nat) (v : Word) : fits s.cfg.n (onBus s bus w v) := fits_trunc _ _

/-- The low w bits of a bus are those of the register of width w on it (R225). -/
theorem trunc_onBus (s : State) (bus : Space) (w : Nat) (v : Word) (l : Nat) (h : w ≤ s.cfg.n) :
    (trunc w (onBus s bus w v) : BitVec l) = trunc w v := by
  apply BitVec.eq_of_getLsbD_eq
  intro i hi
  have := s.cfg.nRange.2
  simp only [getLsbD_trunc, onBus]
  by_cases hw : i < w
  · have h64 : i < 64 := by omega
    have hn : i < s.cfg.n := by omega
    split <;> simp [-BitVec.getLsbD_eq_getElem, getLsbD_trunc, hi, hw, h64, hn]
  · simp [hw]

/-- A register of full width fills the bus (R225). -/
theorem onBus_full (s : State) (bus : Space) (v : Word) : onBus s bus s.cfg.n v = trunc s.cfg.n v := by simp [onBus]

/-- No register a move can name is wider than the bus (R225). -/
theorem FReg.width_le (c : Sys2Proof.Config) (f : FReg) : FReg.width c f ≤ c.n := by
  cases f <;> simp only [FReg.width] <;>
    first | exact Nat.le_refl _ | exact c.gRange.2 | exact c.daRange.2.2 | exact c.paRange.2.2

/-- A write of a target leaves every other register alone (R24). -/
theorem regValue_writeReg_ne (f g : FReg) (v : Word) (s : State) (h : g ∉ FReg.cells f) :
    (writeReg f v s).regValue g = s.regValue g := by
  cases f with
  | areg r =>
    simp only [FReg.cells] at h
    cases g with
    | areg q =>
      have : q ≠ r := by
        rintro rfl; split at h <;> simp at h
      simp [writeReg, State.regValue, this]
    | guard x =>
      have : ¬(r.isHigh = true ∧ x = r.acc) := by
        rintro ⟨hr, rfl⟩; simp [hr] at h
      simp [writeReg, State.regValue, this]
    | _ => rfl
  | guard x =>
    cases g with
    | guard y =>
      have : y ≠ x := by rintro rfl; simp [FReg.cells] at h
      simp [writeReg, State.regValue, this]
    | areg q => simp [writeReg, State.regValue]
    | _ => rfl
  | ireg r =>
    cases g with
    | ireg q =>
      have : q ≠ r := by rintro rfl; simp [FReg.cells] at h
      simp [writeReg, State.regValue, this]
    | _ => rfl
  | _ => cases g <;> first | rfl | (exact absurd (List.mem_singleton.mpr rfl) h)

/-- A target that takes a value holds it (R224 to R226, R24, R32). -/
theorem loaded_writeReg (f : FReg) (v : Word) (s : State) : loaded s.cfg (writeReg f v s) f v := by
  have hg := s.cfg.gRange.1
  have hd := s.cfg.daRange.2.1
  have hp := s.cfg.paRange.2.1
  cases f with
  | areg r =>
    refine ⟨by simp [writeReg, State.regValue, trunc], fun hr => ?_⟩
    simp [writeReg, hr]
  | guard x => simp [loaded, writeReg, State.regValue, FReg.width, setWidth_trunc_wide _ _ _ hg]
  | ireg r => simp [loaded, writeReg, State.regValue, FReg.width, setWidth_trunc_wide _ _ _ hd]
  | mr0 => simp [loaded, writeReg, State.regValue, State.mr0Value, BitVec.and_assoc]
  | mr1 => simp [loaded, writeReg, State.regValue, State.mr1Value, BitVec.and_assoc]
  | null => trivial
  | nop => trivial
  | ipr0 => trivial
  | ipr1 => trivial
  | _ => simp [loaded, writeReg, State.regValue, FReg.width, setWidth_trunc_wide _ _ _ hp]

end Sys2Proof.Machine
end

