-- ==== Sys2Proof/Laws/Moves.lean ====
section
/-! SUPPORT. The moves of a word: when they are ready, what they then answer, and what a whole word does. -/

set_option Elab.async false

namespace Sys2Proof.Machine

/-! ### Sequencing -/

theorem andThen_ok {α β : Type} (r : Except Refusal α) (k : α → Except Refusal β) (b : β) :
    andThen r k = .ok b ↔ ∃ a, r = .ok a ∧ k a = .ok b := by
  cases r <;> simp [andThen]

theorem require_ok {α : Type} (b : Bool) (r : Refusal) (k : Except Refusal α) (a : α) :
    require b r k = .ok a ↔ b = true ∧ k = .ok a := by
  cases b <;> simp [require]

theorem outcome_next (r : Except Refusal State) (t : State) : outcome r = .next t ↔ r = .ok t := by
  cases r <;> simp [outcome]

/-- What a stop is called. -/
theorem outcome_refused (r : Except Refusal State) (e : Refusal) : outcome r = .refused e ↔ r = .error e := by
  cases r <;> simp [outcome]

theorem require_error {α : Type} (b : Bool) (r e : Refusal) (k : Except Refusal α) :
    require b r k = .error e ↔ (b = false ∧ r = e) ∨ (b = true ∧ k = .error e) := by
  cases b <;> simp [require]

theorem andThen_error {α β : Type} (r : Except Refusal α) (k : α → Except Refusal β) (e : Refusal) :
    andThen r k = .error e ↔ r = .error e ∨ ∃ a, r = .ok a ∧ k a = .error e := by
  cases r <;> simp [andThen]

/-! ### Parts of a move -/

/-- A load answers when the cell does (R71). -/
theorem loadData_answers (bus : Space) (a : DAddr) (s : State) :
    CellKind.answers (Config.cell s.cfg bus a) = true ↔ ∃ v, loadData bus a s = .ok v := by
  unfold loadData
  cases Config.cell s.cfg bus a <;> simp [CellKind.answers]

/-- A discarded load completes when the cell answers quietly (R77). -/
theorem discardData_quiet (bus : Space) (a : DAddr) (s : State) :
    CellKind.quiet (Config.cell s.cfg bus a) = true ↔ discardData bus a s = .ok () := by
  unfold discardData
  cases Config.cell s.cfg bus a with
  | device b => cases b <;> simp [CellKind.quiet, require]
  | _ => simp [CellKind.quiet]

/-- The move NOP completes where no read has side effects (R77; log 14). -/
theorem nopAccess_ready (bus : Space) (a : DAddr) (s : State) :
    Config.cell s.cfg bus a ≠ .device true ↔ nopAccess bus a s = .ok () := by
  simp [nopAccess, require_ok]

/-- A store may be made when the cell takes it (R71, R84). -/
theorem checkStore_takes (bus : Space) (a : DAddr) (s : State) :
    CellKind.takes (Config.cell s.cfg bus a) = true ↔ checkStore bus a s = .ok () := by
  unfold checkStore
  cases Config.cell s.cfg bus a <;> simp [CellKind.takes]

theorem checkWrite_ready (f : FReg) (s : State) : targetReady s f = true ↔ checkWrite f s = .ok () := by
  unfold checkWrite targetReady require
  by_cases h : f = .mr1 <;> by_cases h' : s.ic = .c4 <;> simp [h, h']

/-- Modulo modification answers when the length field is not 0 (R234). -/
theorem moduloPost_ready {aw : Nat} (i ib : BitVec aw) (step : Int) :
    ib.extractLsb' 0 (aw - 3) ≠ 0 ↔ ∃ p, moduloPost i ib step = .ok p := by
  have hm : ((ib.extractLsb' 0 (aw - 3)).toNat ≠ 0) ↔ ib.extractLsb' 0 (aw - 3) ≠ 0 :=
    ⟨fun h e => h (by rw [e]; rfl), fun h e => h (BitVec.eq_of_toNat_eq e)⟩
  unfold moduloPost
  simp only [require_ok, decide_eq_true_eq, hm]
  exact ⟨fun h => ⟨_, h, rfl⟩, fun ⟨_, h, _⟩ => h⟩

/-- A post-modification by the pair register answers when it has a meaning (R232). -/
theorem pairPost_ready (c : Sys2Proof.Config) {aw : Nat} (i ib : BitVec aw) :
    pairReady c ib = true ↔ ∃ p, pairPost c i ib = .ok p := by
  have hl : (ib.extractLsb' (aw - 3) 3).toNat < 8 := (ib.extractLsb' (aw - 3) 3).isLt
  unfold pairReady pairPost
  generalize (ib.extractLsb' (aw - 3) 3).toNat = mode at hl
  rcases mode with _ | _ | _ | _ | _ | _ | _ | _ | n
  all_goals first
    | omega
    | (simp [require_ok]; done)
    | (simp [require_ok]; exact fun _ => moduloPost_ready i ib _)

theorem postOf_ready (s : State) (ix : IReg) (p : Post) :
    postReady s ix p = true ↔ ∃ q, postOf s ix p = .ok q := by
  cases p with
  | step k => simp [postReady, postOf, postModify]
  | byPair => exact pairPost_ready _ _ _

/-- A post-modification writes the index register unless its code is 0000 (R223). -/
theorem postOf_index (s : State) (ix : IReg) (p : Post) (q : PostOut) (h : postOf s ix p = .ok q) :
    indexCells (q.index.map fun v => (ix, v)) = postCells ix p := by
  cases p with
  | step k =>
    simp only [postOf, postModify, Except.ok.injEq] at h
    subst h
    by_cases hk : k = 0
    · subst hk; rfl
    · simp only [hk, if_false, postCells, plainPost, Option.map, indexCells]
  | byPair =>
    have hs : q.index.isSome = true := by
      simp only [postOf, postModify] at h
      unfold pairPost moduloPost at h
      repeat' split at h
      all_goals simp only [require_ok, Except.ok.injEq, reduceCtorEq] at h
      all_goals first
        | (subst h; rfl)
        | (obtain ⟨_, h⟩ := h; subst h; rfl)
        | (obtain ⟨_, _, h⟩ := h; subst h; split <;> first | rfl | (split <;> rfl))
    obtain ⟨v, hv⟩ := Option.isSome_iff_exists.mp hs
    simp [hv, postCells, indexCells]

/-! ### A move -/

/-- Everything a load can answer (R241, R242). -/
theorem loadFx_cases (bus : Space) (m : FullMove) (s : State) (f : MoveFx) (h : loadFx bus m s = .ok f) :
    (m.reg = .nop ∧ Config.cell s.cfg bus (s.idx.get m.ix) ≠ .device true ∧ f = MoveFx.none) ∨
      (m.reg ≠ .nop ∧ ∃ p, postOf s m.ix m.post = .ok p ∧
        ((m.reg = .null ∧ discardData bus (s.idx.get m.ix) s = .ok () ∧ f = MoveFx.ofPost m.ix p none none) ∨
          (m.reg ≠ .null ∧ checkWrite m.reg s = .ok () ∧ ∃ v, loadData bus (s.idx.get m.ix) s = .ok v ∧
            f = MoveFx.ofPost m.ix p none (some (m.reg, v))))) := by
  unfold loadFx at h
  by_cases hn : m.reg = .nop
  · left
    simp only [hn, if_true, andThen_ok, Except.ok.injEq] at h
    obtain ⟨_, hc, h⟩ := h
    exact ⟨hn, (nopAccess_ready _ _ _).mpr hc, h.symm⟩
  · right
    simp only [hn, if_false, andThen_ok] at h
    obtain ⟨p, hp, h⟩ := h
    refine ⟨hn, p, hp, ?_⟩
    by_cases h0 : m.reg = .null
    · simp only [h0, if_true, andThen_ok, Except.ok.injEq] at h
      obtain ⟨_, hd, h⟩ := h
      exact .inl ⟨h0, hd, h.symm⟩
    · simp only [h0, if_false, andThen_ok, Except.ok.injEq] at h
      obtain ⟨_, hw, v, hv, h⟩ := h
      exact .inr ⟨h0, hw, v, hv, h.symm⟩

/-- Everything a store can answer (R243, R244). -/
theorem storeFx_cases (bus : Space) (m : FullMove) (s : State) (f : MoveFx) (h : storeFx bus m s = .ok f) :
    ∃ v p, readReg bus m.reg s = .ok v ∧ postOf s m.ix m.post = .ok p ∧
      checkStore bus (s.idx.get m.ix) s = .ok () ∧
      f = MoveFx.ofPost m.ix p (some (s.idx.get m.ix, v)) none := by
  simp only [storeFx, andThen_ok, Except.ok.injEq] at h
  obtain ⟨v, hv, p, hp, _, hc, h⟩ := h
  exact ⟨v, p, hv, hp, hc, h.symm⟩

/-- Everything a register move can answer (R245). -/
theorem regMoveFx_cases (bus : Space) (src dst : FReg) (s : State) (f : MoveFx)
    (h : regMoveFx bus src dst s = .ok f) :
    ∃ v, readReg bus src s = .ok v ∧ checkWrite dst s = .ok () ∧ f = ⟨none, none, none, some (dst, v)⟩ := by
  simp only [regMoveFx, andThen_ok, Except.ok.injEq] at h
  obtain ⟨v, hv, _, hw, h⟩ := h
  exact ⟨v, hv, hw, h.symm⟩

/-- A move answers exactly when it is ready. -/
theorem moveFx_ready (bus : Space) (b : BusMove) (s : State) :
    busReady bus b s = true ↔ ∃ f, moveFx bus b s = .ok f := by
  cases b with
  | idle => simp [busReady, moveFx]
  | reg src dst =>
    simp only [busReady, moveFx, regMoveFx, Bool.and_eq_true, readReg_ready bus, checkWrite_ready, andThen_ok]
    constructor
    · rintro ⟨⟨v, hv⟩, hw⟩; exact ⟨_, v, hv, (), hw, rfl⟩
    · rintro ⟨f, v, hv, _, hw, _⟩; exact ⟨⟨v, hv⟩, hw⟩
  | mem m =>
    cases hd : m.dir with
    | load =>
      simp only [busReady, moveFx, hd]
      constructor
      · intro h
        unfold loadFx
        by_cases hn : m.reg = .nop
        · simp only [loadReady, hn, if_true, decide_eq_true_eq] at h
          rw [if_pos hn, (nopAccess_ready _ _ _).mp h]; exact ⟨_, rfl⟩
        · simp only [loadReady, hn, if_false, Bool.and_eq_true] at h
          obtain ⟨⟨hp, ht⟩, hc⟩ := h
          obtain ⟨p, hp⟩ := (postOf_ready _ _ _).mp hp
          simp only [hn, if_false, hp, andThen]
          by_cases h0 : m.reg = .null
          · rw [if_pos h0] at hc
            rw [if_pos h0, (discardData_quiet _ _ _).mp hc]; exact ⟨_, rfl⟩
          · rw [if_neg h0] at hc
            obtain ⟨v, hv⟩ := (loadData_answers _ _ _).mp hc
            rw [if_neg h0, (checkWrite_ready _ _).mp ht, hv]; exact ⟨_, rfl⟩
      · rintro ⟨f, h⟩
        unfold loadReady
        rcases loadFx_cases _ _ _ _ h with ⟨hn, hc, _⟩ | ⟨hn, p, hp, ⟨h0, hd', _⟩ | ⟨h0, hw, v, hv, _⟩⟩
        · simp [hn, hc]
        · simp only [h0, if_true, (postOf_ready _ _ _).mpr ⟨p, hp⟩, (discardData_quiet _ _ _).mpr hd']
          simp [targetReady]
        · simp only [hn, h0, if_false, (postOf_ready _ _ _).mpr ⟨p, hp⟩, (checkWrite_ready _ _).mpr hw,
            (loadData_answers _ _ _).mpr ⟨v, hv⟩]
          simp
    | store =>
      simp only [busReady, moveFx, hd, storeReady, Bool.and_eq_true, readReg_ready bus, postOf_ready,
        checkStore_takes, storeFx, andThen_ok]
      constructor
      · rintro ⟨⟨⟨v, hv⟩, p, hp⟩, hc⟩; exact ⟨_, v, hv, p, hp, (), hc, rfl⟩
      · rintro ⟨f, v, hv, p, hp, _, hc, _⟩; exact ⟨⟨⟨v, hv⟩, p, hp⟩, hc⟩

/-- The registers a move's effect writes are those the move names (R223). -/
theorem moveFx_cells (bus : Space) (b : BusMove) (s : State) (f : MoveFx) (h : moveFx bus b s = .ok f) :
    MoveFx.cells f = BusMove.cells b := by
  cases b with
  | idle => simp only [moveFx, Except.ok.injEq] at h; subst h; rfl
  | reg src dst =>
    obtain ⟨v, _, _, rfl⟩ := regMoveFx_cases _ _ _ _ _ h
    simp [MoveFx.cells, BusMove.cells, loadCells, indexCells]
  | mem m =>
    cases hd : m.dir with
    | load =>
      simp only [moveFx, hd] at h
      rcases loadFx_cases _ _ _ _ h with ⟨hn, _, rfl⟩ | ⟨hn, p, hp, ⟨h0, _, rfl⟩ | ⟨h0, _, v, _, rfl⟩⟩
      · simp [BusMove.cells, hd, hn, MoveFx.cells, MoveFx.none, loadCells, indexCells]
      · simp only [MoveFx.cells, MoveFx.ofPost, BusMove.cells, hd, h0, postOf_index _ _ _ _ hp]
        simp [FReg.cells, loadCells]
      · simp only [MoveFx.cells, MoveFx.ofPost, BusMove.cells, hd, hn, if_false, postOf_index _ _ _ _ hp, loadCells]
    | store =>
      simp only [moveFx, hd] at h
      obtain ⟨v, p, _, hp, _, rfl⟩ := storeFx_cases _ _ _ _ h
      simp only [MoveFx.cells, MoveFx.ofPost, BusMove.cells, hd, postOf_index _ _ _ _ hp, loadCells, List.nil_append]

end Sys2Proof.Machine
end

