-- ==== Sys2Proof/Laws/Word.lean ====
section
/-! SUPPORT. A whole word: everything runWord can do, said once. -/

set_option Elab.async false

namespace Sys2Proof.Machine

/-! ### When a word runs -/

/-- Everything runParts can answer. -/
theorem runParts_ok {c : Sys2Proof.Config} (a : AluFx c) (m : Moves) (s t : State) :
    runParts a m s = .ok t ↔
      ∃ x y, moveFx .x m.x s = .ok x ∧ moveFx .y m.y s = .ok y ∧ noCollision a x y = true ∧ t = applyWord a x y s := by
  simp only [runParts, andThen_ok, require_ok, Except.ok.injEq]
  constructor
  · rintro ⟨x, hx, y, hy, hn, rfl⟩; exact ⟨x, y, hx, hy, hn, rfl⟩
  · rintro ⟨x, y, hx, hy, hn, rfl⟩; exact ⟨x, hx, y, hy, hn, rfl⟩

/-- Everything runWord can answer. -/
theorem runWord_ok (i : Instr) (s t : State) (a : AluFx s.cfg) :
    runWord i s a = .ok t ↔
      i.wellFormed s.cfg = true ∧
        ∃ x y, moveFx .x (Instr.moves i).x s = .ok x ∧ moveFx .y (Instr.moves i).y s = .ok y ∧
          noCollision a x y = true ∧ t = applyWord a x y s := by
  rw [runWord, require_ok, runParts_ok]

theorem noCollision_iff {c : Sys2Proof.Config} (a : AluFx c) (x y : MoveFx) :
    noCollision a x y = true ↔ (AluWrite.cells a.result ++ MoveFx.cells x ++ MoveFx.cells y).Nodup := by
  simp [noCollision]

/-- The collision check is about the registers the instruction names. -/
theorem noCollision_targets (i : Instr) {c : Sys2Proof.Config} (a : AluFx c) (s : State) (x y : MoveFx)
    (hx : moveFx .x (Instr.moves i).x s = .ok x) (hy : moveFx .y (Instr.moves i).y s = .ok y)
    (ha : AluWrite.cells a.result = Instr.aluCells i) :
    noCollision a x y = true ↔ (Instr.targets i).Nodup := by
  rw [noCollision_iff, ha, moveFx_cells _ _ _ _ hx, moveFx_cells _ _ _ _ hy, Instr.targets]

/-- A word that is ready runs. -/
theorem runWord_ready (i : Instr) (s : State) (a : AluFx s.cfg) (h : wordReady i s = true)
    (ha : AluWrite.cells a.result = Instr.aluCells i) :
    ∃ x y, moveFx .x (Instr.moves i).x s = .ok x ∧ moveFx .y (Instr.moves i).y s = .ok y ∧
      noCollision a x y = true ∧ runWord i s a = .ok (applyWord a x y s) := by
  simp only [wordReady, Bool.and_eq_true] at h
  obtain ⟨⟨⟨hw, hx⟩, hy⟩, hn⟩ := h
  obtain ⟨x, hx⟩ := (moveFx_ready _ _ _).mp hx
  obtain ⟨y, hy⟩ := (moveFx_ready _ _ _).mp hy
  have hc : noCollision a x y = true := (noCollision_targets i a s x y hx hy ha).mpr (of_decide_eq_true hn)
  exact ⟨x, y, hx, hy, hc, (runWord_ok _ _ _ _).mpr ⟨hw, x, y, hx, hy, hc, rfl⟩⟩

/-- What a move's effect holds, read off the move. -/
theorem moveFx_traits (bus : Space) (b : BusMove) (s : State) (f : MoveFx) (h : moveFx bus b s = .ok f) :
    f.flag.isSome = BusMove.indexes b ∧ f.store.map Prod.fst = BusMove.storesAt s b ∧
      (∀ r v, f.load = some (r, v) → BusMove.loads r b = true) := by
  cases b with
  | idle => simp only [moveFx, Except.ok.injEq] at h; subst h; simp [MoveFx.none, BusMove.indexes, BusMove.storesAt]
  | reg src dst =>
    obtain ⟨v, _, _, rfl⟩ := regMoveFx_cases _ _ _ _ _ h
    simp [BusMove.indexes, BusMove.storesAt, BusMove.loads]
  | mem m =>
    cases hd : m.dir with
    | load =>
      simp only [moveFx, hd] at h
      rcases loadFx_cases _ _ _ _ h with ⟨hn, _, rfl⟩ | ⟨hn, p, hp, ⟨h0, _, rfl⟩ | ⟨h0, _, v, _, rfl⟩⟩
      · simp [BusMove.indexes, BusMove.storesAt, hd, MoveFx.none, FullMove.isNop, hn]
      · simp [BusMove.indexes, BusMove.storesAt, hd, MoveFx.ofPost, FullMove.isNop, h0]
      · simp [BusMove.indexes, BusMove.storesAt, hd, MoveFx.ofPost, FullMove.isNop, hn, BusMove.loads]
    | store =>
      simp only [moveFx, hd] at h
      obtain ⟨v, p, _, hp, _, rfl⟩ := storeFx_cases _ _ _ _ h
      simp [BusMove.indexes, BusMove.storesAt, hd, MoveFx.ofPost, FullMove.isNop]

/-- The address and the word a move stores. -/
theorem moveFx_store (bus : Space) (b : BusMove) (s : State) (f : MoveFx) (a : DAddr) (v : Word)
    (h : moveFx bus b s = .ok f) (hs : f.store = some (a, v)) : BusMove.storesAt s b = some a := by
  rw [← (moveFx_traits _ _ _ _ h).2.1, hs]; rfl

/-! ### Registers after a word -/

theorem regValue_putResult {c : Sys2Proof.Config} (w : AluWrite c) (f : FReg) (s : State) (h : f ∉ AluWrite.cells w) :
    (putResult w s).regValue f = s.regValue f := by
  cases w with
  | none => rfl
  | reg r v =>
    simp only [AluWrite.cells, FReg.cells] at h
    cases f with
    | areg q =>
      have : q ≠ r := by rintro rfl; split at h <;> simp at h
      simp [putResult, State.regValue, this]
    | guard x =>
      have : ¬(r.isHigh = true ∧ x = r.acc) := by rintro ⟨hr, rfl⟩; simp [hr] at h
      simp [putResult, State.regValue, this]
    | _ => rfl
  | acc x v =>
    simp only [AluWrite.cells, List.mem_cons, List.not_mem_nil, or_false, not_or] at h
    cases f with
    | areg q =>
      have h1 : q ≠ x.low := fun e => h.1 (by rw [e])
      have h2 : q ≠ x.high := fun e => h.2.1 (by rw [e])
      simp [putResult, State.regValue, h1, h2]
    | guard y =>
      have h3 : y ≠ x := fun e => h.2.2 (by rw [e])
      simp [putResult, State.regValue, h3]
    | _ => rfl

theorem regValue_putFlags (a : Option AluFlags) (f : FReg) (s : State) (h : f ≠ .mr0) :
    (putFlags a s).regValue f = s.regValue f := by
  cases f <;> first | exact absurd rfl h | simp [State.regValue, State.mr1Value]

theorem regValue_putProduct {w : Nat} (q : Option (BitVec w)) (f : FReg) (s : State) :
    (putProduct q s).regValue f = s.regValue f := by
  cases f <;> simp [State.regValue, State.mr1Value, State.mr0Value]

theorem regValue_putAlu {c : Sys2Proof.Config} (a : AluFx c) (f : FReg) (s : State) (h0 : f ≠ .mr0)
    (h : f ∉ AluWrite.cells a.result) :
    (putAlu a s).regValue f = s.regValue f := by
  rw [putAlu, regValue_putProduct, regValue_putFlags _ _ _ h0, regValue_putResult _ _ _ h]

theorem regValue_putIndex (x : Option (IReg × DAddr)) (f : FReg) (s : State) (h : f ∉ indexCells x) :
    (putIndex x s).regValue f = s.regValue f := by
  rcases x with _ | ⟨r, v⟩
  · rfl
  · cases f with
    | ireg q =>
      have : q ≠ r := by rintro rfl; simp [indexCells] at h
      simp [putIndex, State.regValue, this]
    | _ => rfl

theorem regValue_putIndexFlag (bus : Space) (x : Option Bool) (f : FReg) (s : State) (h : f ≠ .mr0) :
    (putIndexFlag bus x s).regValue f = s.regValue f := by
  cases f <;> first | exact absurd rfl h | simp [State.regValue, State.mr1Value]

theorem regValue_putStore (bus : Space) (x : Option (DAddr × Word)) (f : FReg) (s : State) :
    (putStore bus x s).regValue f = s.regValue f := by
  cases f <;> simp [State.regValue, State.mr1Value, State.mr0Value]

theorem regValue_putMove (bus : Space) (m : MoveFx) (f : FReg) (s : State) (h0 : f ≠ .mr0)
    (h : f ∉ indexCells m.index) : (putMove bus m s).regValue f = s.regValue f := by
  rw [putMove, regValue_putStore, regValue_putIndexFlag _ _ _ _ h0, regValue_putIndex _ _ _ h]

theorem regValue_putLoad (x : Option (FReg × Word)) (f : FReg) (s : State) (h : f ∉ loadCells x) :
    (putLoad x s).regValue f = s.regValue f := by
  rcases x with _ | ⟨r, v⟩
  · rfl
  · exact regValue_writeReg_ne r f v s h

/-- A word leaves every register alone that no part of it writes. -/
theorem regValue_applyWord {c : Sys2Proof.Config} (a : AluFx c) (x y : MoveFx) (f : FReg) (s : State) (h0 : f ≠ .mr0)
    (h : f ∉ AluWrite.cells a.result ++ MoveFx.cells x ++ MoveFx.cells y) :
    (applyWord a x y s).regValue f = s.regValue f := by
  simp only [MoveFx.cells, List.mem_append, not_or] at h
  rw [applyWord, regValue_putLoad _ _ _ h.2.1, regValue_putLoad _ _ _ h.1.2.1, regValue_putMove _ _ _ _ h0 h.2.2,
    regValue_putMove _ _ _ _ h0 h.1.2.2, regValue_putAlu _ _ _ h0 h.1.1]

theorem guard_of_regValue (s t : State) (x : Acc) (e : t.regValue (.guard x) = s.regValue (.guard x)) :
    t.regs.guard x = s.regs.guard x := by
  have := congrArg (fun w : Word => w.setWidth 16) e
  simpa only [State.regValue, setWidth_setWidth_self 64 _ (show 16 ≤ 64 by decide)] using this

/-- What a register holds is settled by the contents of its cells. -/
theorem loaded_congr (c : Sys2Proof.Config) (s t : State) (f : FReg) (v : Word)
    (h : ∀ g ∈ FReg.cells f, t.regValue g = s.regValue g) (hl : loaded c s f v) : loaded c t f v := by
  cases f with
  | areg r =>
    obtain ⟨h1, h2⟩ := hl
    refine ⟨(h (.areg r) (by simp only [FReg.cells]; split <;> simp)).trans h1, fun hr => ?_⟩
    have e := guard_of_regValue s t r.acc (h _ (by simp [FReg.cells, hr]))
    rw [ARegs.guardWord, e]; exact h2 hr
  | null => trivial
  | nop => trivial
  | ipr0 => trivial
  | ipr1 => trivial
  | _ => exact (h _ (by simp [FReg.cells])).trans hl

/-- The register the X bus loads holds its value at the end of the word (R222, R223). -/
theorem loaded_applyWord_x {c : Sys2Proof.Config} (a : AluFx c) (x y : MoveFx) (r : FReg) (v : Word) (s : State)
    (hn : noCollision a x y = true) (h : x.load = some (r, v)) : loaded s.cfg (applyWord a x y s) r v := by
  simp only [noCollision_iff, MoveFx.cells, List.nodup_append, List.mem_append] at hn
  have hl := loaded_writeReg r v (putMove .y y (putMove .x x (putAlu a s)))
  simp only [putMove_cfg, putAlu_cfg] at hl
  rw [applyWord]
  refine loaded_congr _ _ _ r v ?_ hl
  intro g hg
  rw [regValue_putLoad, h]
  · rfl
  · intro hy
    exact hn.2.2 g (.inr (.inl (by rw [h]; exact hg))) g (.inl hy) rfl

/-- The register the Y bus loads holds its value at the end of the word. -/
theorem loaded_applyWord_y {c : Sys2Proof.Config} (a : AluFx c) (x y : MoveFx) (r : FReg) (v : Word) (s : State)
    (h : y.load = some (r, v)) :
    loaded s.cfg (applyWord a x y s) r v := by
  have hl := loaded_writeReg r v (putLoad x.load (putMove .y y (putMove .x x (putAlu a s))))
  simp only [putLoad_cfg, putMove_cfg, putAlu_cfg] at hl
  rw [applyWord, h]; exact hl

theorem index_of_regValue (s t : State) (r : IReg) (e : t.regValue (.ireg r) = s.regValue (.ireg r)) :
    t.idx.get r = s.idx.get r := by
  have := congrArg (fun w : Word => w.setWidth 23) e
  simpa only [State.regValue, setWidth_setWidth_self 64 _ (show 23 ≤ 64 by decide)] using this

/-- The index register the X move post-modifies holds its new value (R230). -/
theorem index_applyWord_x {c : Sys2Proof.Config} (a : AluFx c) (x y : MoveFx) (r : IReg) (v : DAddr) (s : State)
    (hn : noCollision a x y = true) (h : x.index = some (r, v)) : (applyWord a x y s).idx.get r = v := by
  simp only [noCollision_iff, MoveFx.cells, List.nodup_append, List.mem_append] at hn
  have hx : FReg.ireg r ∈ indexCells x.index := by simp [h, indexCells]
  have hxl : FReg.ireg r ∉ loadCells x.load := fun hc => hn.1.2.1.2.2 _ hc _ hx rfl
  have hyl : FReg.ireg r ∉ loadCells y.load := fun hc => hn.2.2 _ (.inr (.inr hx)) _ (.inl hc) rfl
  have hyi : FReg.ireg r ∉ indexCells y.index := fun hc => hn.2.2 _ (.inr (.inr hx)) _ (.inr hc) rfl
  have e : (applyWord a x y s).regValue (.ireg r) = (putMove .x x (putAlu a s)).regValue (.ireg r) := by
    rw [applyWord, regValue_putLoad _ _ _ hyl, regValue_putLoad _ _ _ hxl,
      regValue_putMove _ _ _ _ (by simp) hyi]
  rw [index_of_regValue _ _ r e, putMove, putStore_idx, putIndexFlag_idx, h]
  simp [putIndex]

/-- The index register the Y move post-modifies holds its new value. -/
theorem index_applyWord_y {c : Sys2Proof.Config} (a : AluFx c) (x y : MoveFx) (r : IReg) (v : DAddr) (s : State)
    (hn : noCollision a x y = true) (h : y.index = some (r, v)) : (applyWord a x y s).idx.get r = v := by
  simp only [noCollision_iff, MoveFx.cells, List.nodup_append, List.mem_append] at hn
  have hy : FReg.ireg r ∈ indexCells y.index := by simp [h, indexCells]
  have hxl : FReg.ireg r ∉ loadCells x.load := fun hc => hn.2.2 _ (.inr (.inl hc)) _ (.inr hy) rfl
  have hyl : FReg.ireg r ∉ loadCells y.load := fun hc => hn.2.1.2.2 _ hc _ hy rfl
  have e : (applyWord a x y s).regValue (.ireg r) =
      (putMove .y y (putMove .x x (putAlu a s))).regValue (.ireg r) := by
    rw [applyWord, regValue_putLoad _ _ _ hyl, regValue_putLoad _ _ _ hxl]
  rw [index_of_regValue _ _ r e, putMove, putStore_idx, putIndexFlag_idx, h]
  simp [putIndex]

/-- The cells of an ALU result hold after the word what the ALU part put there (R222, R223). -/
theorem regValue_applyWord_alu {c : Sys2Proof.Config} (a : AluFx c) (x y : MoveFx) (g : FReg) (s : State)
    (hn : noCollision a x y = true) (hg : g ∈ AluWrite.cells a.result) (h0 : g ≠ .mr0) :
    (applyWord a x y s).regValue g = (putAlu a s).regValue g := by
  simp only [noCollision_iff, MoveFx.cells, List.nodup_append, List.mem_append] at hn
  rw [applyWord, regValue_putLoad _ _ _ (fun hc => hn.2.2 g (.inl hg) g (.inl hc) rfl),
    regValue_putLoad _ _ _ (fun hc => hn.1.2.2 g hg g (.inl hc) rfl),
    regValue_putMove _ _ _ _ h0 (fun hc => hn.2.2 g (.inl hg) g (.inr hc) rfl),
    regValue_putMove _ _ _ _ h0 (fun hc => hn.1.2.2 g hg g (.inr hc) rfl)]

/-- The register a narrow result goes to holds it, with its guard register, at the end of the word (R152). -/
theorem narrow_applyWord {c : Sys2Proof.Config} (a : AluFx c) (x y : MoveFx) (r : AReg) (v : BitVec c.n) (s : State)
    (hn : noCollision a x y = true) (h : a.result = .reg r v) : narrowWritten c (applyWord a x y s) r v := by
  have e : (putAlu a s).regs = s.regs.write c r v := by simp [putAlu, h, putResult]
  have k1 : (applyWord a x y s).regs.get r = (s.regs.write c r v).get r := by
    have := regValue_applyWord_alu a x y (.areg r) s hn
      (by rw [h]; simp only [AluWrite.cells, FReg.cells]; split <;> simp) (by simp)
    simpa only [State.regValue, e] using this
  refine ⟨by rw [ARegs.word, k1, ← ARegs.word, ARegs.word_write, if_pos rfl], fun hr => ?_⟩
  have k2 := guard_of_regValue _ _ r.acc
    (regValue_applyWord_alu a x y (.guard r.acc) s hn (by rw [h]; simp [AluWrite.cells, FReg.cells, hr]) (by simp))
  rw [ARegs.guardWord, k2, e, ← ARegs.guardWord, ARegs.guardWord_write, if_pos ⟨hr, rfl⟩]

/-- The accumulator a wide result goes to holds it at the end of the word (R152). -/
theorem wide_applyWord {c : Sys2Proof.Config} (a : AluFx c) (x y : MoveFx) (z : Acc) (v : BitVec c.accWidth) (s : State)
    (hn : noCollision a x y = true) (h : a.result = .acc z v) : (applyWord a x y s).regs.accum c z = v := by
  have e : (putAlu a s).regs = s.regs.writeAccum c z v := by simp [putAlu, h, putResult]
  have k : ∀ g ∈ [FReg.areg z.low, .areg z.high, .guard z], (applyWord a x y s).regValue g = (putAlu a s).regValue g :=
    fun g hg => regValue_applyWord_alu a x y g s hn (by rw [h]; exact hg) (by rintro rfl; simp at hg)
  have k1 := k (.areg z.low) (by simp)
  have k2 := k (.areg z.high) (by simp)
  have k3 := guard_of_regValue _ _ z (k (.guard z) (by simp))
  simp only [State.regValue, e] at k1 k2 k3
  rw [← ARegs.accum_writeAccum c s.regs z v]
  simp only [ARegs.accum, ARegs.word, ARegs.guardWord, k1, k2, k3]

/-- P after a word (R25). -/
theorem p_applyWord {c : Sys2Proof.Config} (a : AluFx c) (x y : MoveFx) (s : State) :
    (applyWord a x y s).p = (a.product.map (BitVec.setWidth 128)).getD s.p := by
  simp only [applyWord, putLoad_p, putMove_p]
  simp only [putAlu]
  cases a.product <;> simp [putProduct]

/-! ### MR0 after a word -/

theorem mr0Value_writeReg_ne (f : FReg) (v : Word) (s : State) (h : f ≠ .mr0) :
    (writeReg f v s).mr0Value = s.mr0Value := by
  cases f <;> first | exact absurd rfl h | rfl

theorem mr0Value_putMove (bus : Space) (m : MoveFx) (s : State) :
    (putMove bus m s).mr0Value = (putIndexFlag bus m.flag s).mr0Value := by
  refine mr0Value_congr _ _ ?_ (by simp)
  simp only [putMove, putStore_mr0]
  cases m.flag <;> cases m.index <;> rfl

theorem flag_putMove (bus : Space) (m : MoveFx) (s : State) (b : MrBit) :
    (putMove bus m s).flag b = (putIndexFlag bus m.flag s).flag b := by
  rw [State.flag, mr0Value_putMove, State.flag]

theorem flag_putIndexFlag (bus : Space) (x : Option Bool) (s : State) (b : MrBit) :
    (putIndexFlag bus x s).flag b =
      match x with
      | some v => if b = indexFlag bus then Config.hasBit s.cfg (indexFlag bus) && v else s.flag b
      | none => s.flag b := by
  cases x
  · rfl
  · simp [putIndexFlag]

theorem flag_putFlags (f : Option AluFlags) (s : State) (b : MrBit) :
    (putFlags f s).flag b =
      match f with
      | some f => if aluBits.getLsbD b.pos then Config.hasBit s.cfg b && f.bits.getLsbD b.pos else s.flag b
      | none => s.flag b := by
  cases f
  · rfl
  · simp [putFlags, flag_putBits]

theorem flag_putAlu {c : Sys2Proof.Config} (a : AluFx c) (s : State) (b : MrBit) :
    (putAlu a s).flag b = (putFlags a.flags s).flag b := by
  refine flag_congr _ _ _ ?_ (by simp)
  simp only [putAlu, putProduct_mr0]
  cases a.flags
  · simp [putFlags]
  · simp [putFlags, State.putBits, State.mr0Value]

/-- A flag after a word that does not load MR0: an index flag from its move, an ALU flag from the ALU. -/
theorem flag_applyWord {c : Sys2Proof.Config} (a : AluFx c) (x y : MoveFx) (s : State) (b : MrBit)
    (hx : ∀ v, x.load ≠ some (.mr0, v)) (hy : ∀ v, y.load ≠ some (.mr0, v)) :
    (applyWord a x y s).flag b =
      (putIndexFlag .y y.flag (putIndexFlag .x x.flag (putFlags a.flags s))).flag b := by
  have hl : ∀ (l : Option (FReg × Word)) (u : State), (∀ v, l ≠ some (.mr0, v)) →
      (putLoad l u).mr0Value = u.mr0Value := by
    intro l u h
    rcases l with _ | ⟨r, v⟩
    · rfl
    · exact mr0Value_writeReg_ne r v u (by rintro rfl; exact h v rfl)
  have e : (applyWord a x y s).flag b = (putMove .y y (putMove .x x (putAlu a s))).flag b := by
    rw [State.flag, applyWord, hl _ _ hy, hl _ _ hx, State.flag]
  rw [e, flag_putMove, flag_putIndexFlag, flag_putIndexFlag]
  simp only [flag_putMove, flag_putIndexFlag, flag_putAlu, putMove_cfg, putAlu_cfg, putIndexFlag_cfg, putFlags_cfg]

end Sys2Proof.Machine
end

