-- ==== Sys2Proof/Laws/Exec.lean ====
section
/-! SUPPORT. From exec to the shared operations: which word each meaning runs, and the frame of a word. -/

set_option Elab.async false

namespace Sys2Proof.Machine

/-- An ALU part writes what the instruction says its ALU part writes. -/
structure AluShape (i : Instr) {c : Sys2Proof.Config} (a : AluFx c) : Prop where
  cells : AluWrite.cells a.result = Instr.aluCells i
  flags : a.flags.isSome = Instr.writesAluFlags i
  product : a.product.isSome = Instr.writesP i

theorem aluShape_none (i : Instr) (c : Sys2Proof.Config) (h1 : Instr.aluCells i = [])
    (h2 : Instr.writesAluFlags i = false)
    (h3 : Instr.writesP i = false) : AluShape i (AluFx.none : AluFx c) :=
  ⟨by rw [h1]; rfl, by rw [h2]; rfl, by rw [h3]; rfl⟩

theorem aluShape_alu2 (i : Instr) (s : State) (op1 op2 : AOp) (res : AReg) 
    (n : BitVec s.cfg.n → BitVec s.cfg.n → AluOut s.cfg.n)
    (w : BitVec s.cfg.accWidth → BitVec s.cfg.accWidth → AluOut s.cfg.accWidth)
    (h1 : Instr.aluCells i = resultCells (op1.isWide || op2.isWide) res)
    (h2 : Instr.writesAluFlags i = true) (h3 : Instr.writesP i = false) : AluShape i (alu2Fx s op1 op2 res n w) := by
  unfold alu2Fx
  by_cases h : (op1.isWide || op2.isWide) = true
  · rw [if_pos h]; exact ⟨by rw [h1, h]; rfl, h2.symm, h3.symm⟩
  · rw [if_neg h]
    rw [Bool.not_eq_true] at h
    exact ⟨by rw [h1, h]; rfl, h2.symm, h3.symm⟩

theorem aluShape_alu1 (i : Instr) (s : State) (op : AOp) (res : AReg) (n : BitVec s.cfg.n → AluOut s.cfg.n)
    (w : BitVec s.cfg.accWidth → AluOut s.cfg.accWidth) (h1 : Instr.aluCells i = resultCells op.isWide res)
    (h2 : Instr.writesAluFlags i = true) (h3 : Instr.writesP i = false) : AluShape i (alu1Fx s op res n w) := by
  unfold alu1Fx
  by_cases h : op.isWide = true
  · rw [if_pos h]; exact ⟨by rw [h1, h]; rfl, h2.symm, h3.symm⟩
  · rw [if_neg h]
    rw [Bool.not_eq_true] at h
    exact ⟨by rw [h1, h]; rfl, h2.symm, h3.symm⟩

/-- Every word's meaning is runWord with an ALU part of the instruction's shape. -/
theorem exec_word (i : Instr) (s : State) (h : Instr.isWord i = true) :
    ∃ a : AluFx s.cfg, exec i s = outcome (runWord i s a) ∧ AluShape i a := by
  cases i
  all_goals first
    | exact absurd h Bool.false_ne_true
    | exact ⟨_, rfl, aluShape_none _ _ rfl rfl rfl⟩
    | exact ⟨_, rfl, aluShape_alu2 _ _ _ _ _ _ _ rfl rfl rfl⟩
    | exact ⟨_, rfl, aluShape_alu2 _ _ _ _ _ _ _ (by simp [Instr.aluCells]) rfl rfl⟩
    | exact ⟨_, rfl, aluShape_alu1 _ _ _ _ _ _ rfl rfl rfl⟩
    | exact ⟨_, rfl, ⟨rfl, rfl, rfl⟩⟩

/-- A word that is ready runs, with an ALU part of the instruction's shape. -/
theorem exec_word_ready (i : Instr) (s : State) (h : Instr.isWord i = true) (hr : wordReady i s = true) :
    ∃ (a : AluFx s.cfg) (x y : MoveFx), AluShape i a ∧ moveFx .x (Instr.moves i).x s = .ok x ∧
      moveFx .y (Instr.moves i).y s = .ok y ∧
      noCollision a x y = true ∧ exec i s = .next (applyWord a x y s) := by
  obtain ⟨a, he, ha⟩ := exec_word i s h
  obtain ⟨x, y, hx, hy, hn, ht⟩ := runWord_ready i s a hr ha.cells
  exact ⟨a, x, y, ha, hx, hy, hn, by rw [he, ht]; rfl⟩

/-! ### The frame of a word -/

/-- A masked write under a mask that M covers leaves the bits outside M alone. -/
theorem putBits_outside (s : State) (m v M : PAddr) (h : m &&& ~~~M = 0) :
    (s.putBits m v).mr0Value &&& ~~~M = s.mr0Value &&& ~~~M := by
  rw [mr0Value_putBits]
  ext k hk
  have hb := congrArg (fun w : PAddr => w[k]) h
  simp only [BitVec.getElem_and, BitVec.getElem_not, BitVec.getElem_or] at hb ⊢
  revert hb
  cases m[k] <;> cases M[k] <;> cases v[k] <;> cases s.mr0Value[k] <;> simp

/-- The MR0 bits a word without LDC writes. -/
theorem flagsWritten_word (i : Instr) (hw : ∀ f, Instr.isLdcTo f i = false) (hc : Instr.clearsLoopFlag i = false)
    (hl : Moves.loads .mr0 (Instr.moves i) = false) :
    Instr.flagsWritten i =
      (if Instr.writesAluFlags i then aluBits else 0) ||| Moves.indexBits (Instr.moves i) := by
  simp [Instr.flagsWritten, Instr.loads, hl, hw, hc]

/-- MR0 outside the bits an instruction writes is untouched by its word. -/
theorem status_applyWord (i : Instr) {c : Sys2Proof.Config} (a : AluFx c) (s : State) (x y : MoveFx) (ha : AluShape i a)
    (hx : moveFx .x (Instr.moves i).x s = .ok x) (hy : moveFx .y (Instr.moves i).y s = .ok y)
    (hw : ∀ f, Instr.isLdcTo f i = false) (hc : Instr.clearsLoopFlag i = false) :
    (applyWord a x y s).mr0Value &&& ~~~Instr.flagsWritten i = s.mr0Value &&& ~~~Instr.flagsWritten i := by
  by_cases hl : Moves.loads .mr0 (Instr.moves i) = true
  · have : Instr.flagsWritten i = allBits := by simp [Instr.flagsWritten, Instr.loads, hl]
    rw [this, mr0Value_and_allBits, mr0Value_and_allBits]
  · rw [Bool.not_eq_true] at hl
    have tx := moveFx_traits _ _ _ _ hx
    have ty := moveFx_traits _ _ _ _ hy
    have lx : ∀ v, x.load ≠ some (.mr0, v) := by
      intro v e
      have := tx.2.2 _ _ e
      simp [Moves.loads, this] at hl
    have ly : ∀ v, y.load ≠ some (.mr0, v) := by
      intro v e
      have := ty.2.2 _ _ e
      simp [Moves.loads, this] at hl
    have hp : ∀ (l : Option (FReg × Word)) (u : State), (∀ v, l ≠ some (.mr0, v)) →
        (putLoad l u).mr0Value = u.mr0Value := by
      intro l u h
      rcases l with _ | ⟨r, v⟩
      · rfl
      · exact mr0Value_writeReg_ne r v u (by rintro rfl; exact h v rfl)
    have hi : ∀ (bus : Space) (q : Option Bool) (u : State) (M : PAddr),
        (q.isSome = true → (indexFlag bus).mask &&& ~~~M = 0) →
        (putIndexFlag bus q u).mr0Value &&& ~~~M = u.mr0Value &&& ~~~M := by
      intro bus q u M hM
      cases q
      · rfl
      · exact putBits_outside _ _ _ _ (hM rfl)
    have hf : ∀ (q : Option AluFlags) (u : State) (M : PAddr), (q.isSome = true → aluBits &&& ~~~M = 0) →
        (putFlags q u).mr0Value &&& ~~~M = u.mr0Value &&& ~~~M := by
      intro q u M hM
      cases q
      · rfl
      · exact putBits_outside _ _ _ _ (hM rfl)
    have hr : (putResult a.result s).mr0Value = s.mr0Value := mr0Value_congr _ _ (by simp) (by simp)
    have hq : (putAlu a s).mr0Value = (putFlags a.flags (putResult a.result s)).mr0Value :=
      mr0Value_congr _ _ (by simp [putAlu]) (by simp [putAlu])
    rw [applyWord, hp _ _ ly, hp _ _ lx, mr0Value_putMove, flagsWritten_word i hw hc hl]
    have or_cover : ∀ p q M : PAddr, p &&& ~~~(p ||| M) = 0 ∧ p &&& ~~~(q ||| p) = 0 := by
      intro p q M
      constructor <;>
        (ext k hk; simp only [BitVec.getElem_and, BitVec.getElem_not, BitVec.getElem_or]; cases p[k] <;> simp)
    have sub_cover : ∀ p q M : PAddr, p &&& ~~~q = 0 → p &&& ~~~(M ||| q) = 0 ∧ p &&& ~~~(q ||| M) = 0 := by
      intro p q M h
      constructor <;>
        (ext k hk
         have hb := congrArg (fun w : PAddr => w[k]) h
         simp only [BitVec.getElem_and, BitVec.getElem_not, BitVec.getElem_or] at hb ⊢
         revert hb
         cases p[k] <;> cases q[k] <;> simp)
    rw [hi .y y.flag _ _ (fun h => ?_), mr0Value_putMove, hi .x x.flag _ _ (fun h => ?_), hq,
      hf a.flags _ _ (fun h => ?_), hr]
    · rw [ha.flags] at h; rw [if_pos h]; exact (or_cover _ 0 _).1
    · rw [tx.1] at h
      refine (sub_cover _ _ _ ?_).1
      simp only [Moves.indexBits, h, if_true]; exact (or_cover _ 0 _).1
    · rw [ty.1] at h
      refine (sub_cover _ _ _ ?_).1
      simp only [Moves.indexBits, h, if_true]; exact (or_cover _ _ 0).2

theorem read_putStore (bus : Space) (x : Option (DAddr × Word)) (s : State) (sp : Space) (k : Nat)
    (h : sp = bus → ∀ a, x.map Prod.fst = some a → k / dataBytes ≠ a.toNat) :
    ((putStore bus x s).mem sp).read k = (s.mem sp).read k := by
  rcases x with _ | ⟨a, v⟩
  · rfl
  · exact read_storeData_ne _ _ _ _ _ _ fun e => h e a rfl

theorem mem_congr (s t : State) (sp : Space) (hx : t.xmem = s.xmem) (hy : t.ymem = s.ymem) : t.mem sp = s.mem sp := by
  cases sp
  · exact hx
  · exact hy

/-- Every byte outside the words an instruction stores to is untouched by its word. -/
theorem read_applyWord {c : Sys2Proof.Config} (a : AluFx c) (x y : MoveFx) (s : State) (sp : Space) (k : Nat)
    (hx : sp = .x → ∀ b, x.store.map Prod.fst = some b → k / dataBytes ≠ b.toNat)
    (hy : sp = .y → ∀ b, y.store.map Prod.fst = some b → k / dataBytes ≠ b.toNat) :
    ((applyWord a x y s).mem sp).read k = (s.mem sp).read k := by
  rw [applyWord, mem_congr (putMove .y y (putMove .x x (putAlu a s))) _ sp (by simp) (by simp), putMove,
    read_putStore _ _ _ _ _ hy, mem_congr (putMove .x x (putAlu a s)) _ sp (by simp) (by simp), putMove,
    read_putStore _ _ _ _ _ hx, mem_congr s _ sp (by simp) (by simp)]

theorem en_putStore (bus : Space) (x : Option (DAddr × Word)) (s : State) :
    (putStore bus x s).en =
      (s.en || (match x.map Prod.fst with
        | some a => Config.isEnable s.cfg bus a
        | none => false)) := by
  rcases x with _ | ⟨a, v⟩
  · simp [putStore]
  · simp [putStore, storeData_en]

theorem enables_eq (bus : Space) (b : BusMove) (s : State) :
    BusMove.enables bus s b =
      (match BusMove.storesAt s b with
        | some a => Config.isEnable s.cfg bus a
        | none => false) := by
  cases b with
  | mem m => cases hd : m.dir <;> simp [BusMove.enables, BusMove.storesAt, hd]
  | _ => rfl

/-- Everything a word leaves alone (R222, R223). -/
theorem frame_applyWord (i : Instr) {c : Sys2Proof.Config} (a : AluFx c) (s : State) (x y : MoveFx) (ha : AluShape i a)
    (hx : moveFx .x (Instr.moves i).x s = .ok x) (hy : moveFx .y (Instr.moves i).y s = .ok y)
    (hw : ∀ f, Instr.isLdcTo f i = false) (hc : Instr.clearsLoopFlag i = false) :
    WordFrame i s (applyWord a x y s) where
  regs f h0 h := by
    refine regValue_applyWord a x y f s h0 ?_
    rwa [ha.cells, moveFx_cells _ _ _ _ hx, moveFx_cells _ _ _ _ hy]
  product h := by
    rw [p_applyWord]
    have := ha.product
    rw [h] at this
    rw [Option.isSome_eq_false_iff, Option.isNone_iff_eq_none] at this
    rw [this]; rfl
  status := status_applyWord i a s x y ha hx hy hw hc
  memory sp k h := by
    refine read_applyWord a x y s sp k (fun e b hb => ?_) (fun e b hb => ?_)
    · subst e; rw [(moveFx_traits _ _ _ _ hx).2.1] at hb; exact h b hb
    · subst e; rw [(moveFx_traits _ _ _ _ hy).2.1] at hb; exact h b hb
  enable := by
    have e1 : (applyWord a x y s).en = (putMove .y y (putMove .x x (putAlu a s))).en := by simp [applyWord]
    rw [e1, putMove, en_putStore, putIndexFlag_en, putIndex_en, putMove, en_putStore, putIndexFlag_en, putIndex_en,
      putAlu_en, (moveFx_traits _ _ _ _ hx).2.1, (moveFx_traits _ _ _ _ hy).2.1]
    simp only [putIndexFlag_cfg, putIndex_cfg, putStore_cfg, putAlu_cfg]
    rw [Instr.enables, enables_eq, enables_eq, Bool.or_assoc]
  rest := by
    have h : ∀ t : State, t.pc = s.pc → t.ipr0 = s.ipr0 → t.ipr1 = s.ipr1 → t.de = s.de → t.ex = s.ex → t.ic = s.ic →
        t.lehit = s.lehit → t.halted = s.halted → t.prevFlags = s.prevFlags → t.woke = s.woke → t.imem = s.imem →
        t.inputs = s.inputs → t.tick = s.tick → t.cfg = s.cfg →
        t = { s with
          regs := t.regs, p := t.p, idx := t.idx, lr0 := t.lr0, lr1 := t.lr1, mr0 := t.mr0, mr1 := t.mr1, ls := t.ls,
          le := t.le, lc := t.lc, xmem := t.xmem, ymem := t.ymem, en := t.en } := by
      intro t
      rcases t with ⟨⟩
      rcases s with ⟨⟩
      simp only [State.mk.injEq]
      rintro rfl rfl rfl rfl rfl rfl rfl rfl rfl rfl rfl rfl rfl rfl
      simp
    exact h _ (by simp) (by simp) (by simp) (by simp) (by simp) (by simp) (by simp) (by simp) (by simp) (by simp)
      (by simp) (by simp) (by simp) (by simp)

/-! ### The meanings that are not one word -/

/-- Everything LDC can do (R240). -/
theorem exec_ldc (imm : BitVec 23) (reg : FReg) (s t : State) :
    exec (.ldc imm reg) s = .next t ↔
      reg.legalTarget s.cfg = true ∧ targetReady s reg = true ∧ t = writeReg reg (imm.signExtend 64) s := by
  have e : exec (.ldc imm reg) s = execLdc imm reg s := rfl
  rw [e, execLdc, outcome_next, require_ok, andThen_ok, checkWrite_ready]
  constructor
  · rintro ⟨h, _, hw, ht⟩; exact ⟨h, hw, (Except.ok.inj ht).symm⟩
  · rintro ⟨h, hw, rfl⟩; exact ⟨h, (), hw, rfl⟩

/-- Everything a double register move can do with a next state (R245, R246). -/
theorem runBetweenUnits_ok (units : Bool) (i : Instr) (s t : State) :
    runBetweenUnits units i s = .ok t ↔ units = true ∧ runWord i s AluFx.none = .ok t := by
  rw [runBetweenUnits, runWord, require_ok, require_ok, require_ok, and_left_comm]

/-- A double register move that exists on the core, with a half within one unit, is refused (R245). -/
theorem runBetweenUnits_unit (i : Instr) (s : State) (h : i.wellFormed s.cfg = true) :
    runBetweenUnits false i s = .error .mvUnit := by
  rw [runBetweenUnits, h]; rfl

/-- Everything the double register move can do (R245). -/
theorem exec_mvxDbl (xsrc xdst ysrc ydst : FReg) (s t : State) :
    exec (.mvxDbl xsrc xdst ysrc ydst) s = .next t ↔
      unitsDiffer xsrc xdst = true ∧ unitsDiffer ysrc ydst = true ∧
        runWord (.mvxDbl xsrc xdst ysrc ydst) s AluFx.none = .ok t := by
  have e : exec (.mvxDbl xsrc xdst ysrc ydst) s = execMvxDbl xsrc xdst ysrc ydst s := rfl
  rw [e, execMvxDbl, outcome_next, runBetweenUnits_ok, Bool.and_eq_true, and_assoc]

/-- Everything MVY can do (R246). -/
theorem exec_mvyDbl (src dst : FReg) (s t : State) :
    exec (.mvyDbl src dst) s = .next t ↔
      unitsDiffer src dst = true ∧ runWord (.mvyDbl src dst) s AluFx.none = .ok t := by
  have e : exec (.mvyDbl src dst) s = execMvyDbl src dst s := rfl
  rw [e, execMvyDbl, outcome_next, runBetweenUnits_ok]

/-- Everything the common part of the changes of flow can answer (R285, R288). -/
theorem changeFlow_ok (i : Instr) (c : Cond) (s t u : State) :
    changeFlow i c s t = .ok u ↔ flowReady i c s = true ∧ u = t := by
  simp only [changeFlow, require_ok, flowReady, Bool.and_eq_true, and_assoc, Except.ok.injEq, eq_comm (a := u)]

theorem exec_jcc (cond : Cond) (addr : BitVec 18) (s t : State) :
    exec (.jcc cond addr) s = .next t ↔
      flowReady (.jcc cond addr) cond s = true ∧ t = jumpTo cond (addressOf s.cfg addr) s := by
  rw [← changeFlow_ok, ← outcome_next]; rfl

theorem exec_j (addr : BitVec 18) (s t : State) :
    exec (.j addr) s = .next t ↔
      flowReady (.j addr) .always s = true ∧ t = jumpTo .always (addressOf s.cfg addr) s := by
  rw [← changeFlow_ok, ← outcome_next]; rfl

theorem exec_callcc (cond : Cond) (addr : BitVec 18) (s t : State) :
    exec (.callcc cond addr) s = .next t ↔
      flowReady (.callcc cond addr) cond s = true ∧ t = { jumpTo cond (addressOf s.cfg addr) s with lr0 := s.pc } := by
  rw [← changeFlow_ok, ← outcome_next]; rfl

theorem exec_jrcc (cond : Cond) (s t : State) :
    exec (.jrcc cond) s = .next t ↔ flowReady (.jrcc cond) cond s = true ∧ t = jumpTo cond s.lr0 s := by
  rw [← changeFlow_ok, ← outcome_next]; rfl

theorem exec_jr (s t : State) :
    exec .jr s = .next t ↔ flowReady .jr .always s = true ∧ t = jumpTo .always s.lr0 s := by
  rw [← changeFlow_ok, ← outcome_next]; rfl

theorem exec_jrccPage (cond : Cond) (ix : IReg) (s t : State) :
    exec (.jrccPage cond ix) s = .next t ↔
      flowReady (.jrccPage cond ix) cond s = true ∧ t = withPage cond ix s (jumpTo cond s.lr0 s) := by
  rw [← changeFlow_ok, ← outcome_next]; rfl

theorem exec_reti (s t : State) :
    exec .reti s = .next t ↔ flowReady .reti .always s = true ∧ t = returnFromInterrupt s := by
  rw [← changeFlow_ok, ← outcome_next]; rfl

theorem exec_retiPage (ix : IReg) (s t : State) :
    exec (.retiPage ix) s = .next t ↔
      flowReady (.retiPage ix) .always s = true ∧ t = withPage .always ix s (returnFromInterrupt s) := by
  rw [← changeFlow_ok, ← outcome_next]; rfl

/-- Everything LOOP can do (R297). -/
theorem exec_loop (count : FReg) (addr : BitVec 20) (s t : State) :
    exec (.loop count addr) s = .next t ↔
      flowReady (.loop count addr) .always s = true ∧ ∃ n, readReg .x count s = .ok n ∧
        t = { s.clearLoopFlag with le := addressOf s.cfg addr, lc := trunc s.cfg.pa n, ls := s.pc } := by
  have e : exec (.loop count addr) s = execLoop count addr s := rfl
  rw [e, execLoop, outcome_next, require_ok, andThen_ok]
  constructor
  · rintro ⟨_, n, hn, h⟩
    obtain ⟨hf, ht⟩ := (changeFlow_ok _ _ _ _ _).mp h
    exact ⟨hf, n, hn, ht⟩
  · rintro ⟨hf, n, hn, ht⟩
    refine ⟨?_, n, hn, (changeFlow_ok _ _ _ _ _).mpr ⟨hf, ht⟩⟩
    simp only [flowReady, Bool.and_eq_true] at hf
    exact hf.1.1

/-- Everything JMPI can do (R294, R340). -/
theorem exec_jmpi (addr : BitVec 18) (st : JmpiStep) (ix : IReg) (s t : State) :
    exec (.jmpi addr st ix) s = .next t ↔
      s.ic ≠ .c2 ∧ t = { s.cancelDe with
        pc := addressOf s.cfg addr
        ipr0 := if s.cfg.hasIpr then 0 else s.ipr0
        idx := s.idx.put ix (stepIndex s.cfg st (s.idx.get ix)) } := by
  have e : exec (.jmpi addr st ix) s = execJmpi addr st ix s := rfl
  rw [e, execJmpi, outcome_next, require_ok, require_ok, decide_eq_true_eq, Except.ok.injEq, eq_comm (b := t)]
  exact ⟨fun h => h.2, fun h => ⟨rfl, h⟩⟩

theorem exec_halt (s t : State) :
    exec .halt s = .next t ↔ t = if s.ic = .idle then { s with halted := true } else s := by
  have e : exec .halt s = execHalt s := rfl
  rw [e, execHalt, outcome_next, require_ok, Except.ok.injEq, eq_comm (b := t)]
  exact ⟨fun h => h.2, fun h => ⟨rfl, h⟩⟩

/-! ### What no instruction writes -/

/-- An instruction that is none of the word forms, by name. -/
theorem exec_kinds (i : Instr) (s t : State) (h : exec i s = .next t) :
    (∃ (a : AluFx s.cfg) (x y : MoveFx), AluShape i a ∧ moveFx .x (Instr.moves i).x s = .ok x ∧
      moveFx .y (Instr.moves i).y s = .ok y ∧
      noCollision a x y = true ∧ i.wellFormed s.cfg = true ∧ (∀ f, Instr.isLdcTo f i = false) ∧
      Instr.clearsLoopFlag i = false ∧ t = applyWord a x y s) ∨
    (∃ imm reg, i = .ldc imm reg) ∨ (Instr.clearsLoopFlag i = true) ∨ (∃ a st r, i = .jmpi a st r) ∨ i = .halt := by
  have word : ∀ a : AluFx s.cfg, AluShape i a → runWord i s a = .ok t → (∀ f, Instr.isLdcTo f i = false) →
      Instr.clearsLoopFlag i = false →
      ∃ (a : AluFx s.cfg) (x y : MoveFx), AluShape i a ∧ moveFx .x (Instr.moves i).x s = .ok x ∧
        moveFx .y (Instr.moves i).y s = .ok y ∧
        noCollision a x y = true ∧ i.wellFormed s.cfg = true ∧ (∀ f, Instr.isLdcTo f i = false) ∧
        Instr.clearsLoopFlag i = false ∧ t = applyWord a x y s := by
    intro a ha hr h1 h2
    obtain ⟨hw, x, y, hx, hy, hn, ht⟩ := (runWord_ok _ _ _ _).mp hr
    exact ⟨a, x, y, ha, hx, hy, hn, hw, h1, h2, ht⟩
  by_cases hw : Instr.isWord i = true
  · left
    obtain ⟨a, he, ha⟩ := exec_word i s hw
    rw [he, outcome_next] at h
    refine word a ha h ?_ ?_
    · intro f; cases i <;> first | rfl | exact absurd hw Bool.false_ne_true
    · cases i <;> first | rfl | exact absurd hw Bool.false_ne_true
  · cases i
    all_goals first
      | exact absurd rfl hw
      | exact .inr (.inl ⟨_, _, rfl⟩)
      | exact .inr (.inr (.inl rfl))
      | exact .inr (.inr (.inr (.inl ⟨_, _, _, rfl⟩)))
      | exact .inr (.inr (.inr (.inr rfl)))
      | skip
    · exact .inl (word _ (aluShape_none _ _ rfl rfl rfl) ((exec_mvxDbl _ _ _ _ _ _).mp h).2.2 (fun _ => rfl) rfl)
    · exact .inl (word _ (aluShape_none _ _ rfl rfl rfl) ((exec_mvyDbl _ _ _ _).mp h).2 (fun _ => rfl) rfl)

/-- What no instruction writes: of the core, the slot EX, the interrupt controller, LEHIT, PREVFLAGS, WOKE and IPR1; and
instruction memory, what is to come, and the configuration. -/
structure SameOuter (s t : State) : Prop where
  ex : t.ex = s.ex
  ic : t.ic = s.ic
  lehit : t.lehit = s.lehit
  prevFlags : t.prevFlags = s.prevFlags
  woke : t.woke = s.woke
  ipr1 : t.ipr1 = s.ipr1
  imem : t.imem = s.imem
  inputs : t.inputs = s.inputs
  tick : t.tick = s.tick
  cfg : t.cfg = s.cfg

theorem sameOuter_writeReg (f : FReg) (v : Word) (s : State) : SameOuter s (writeReg f v s) := by
  constructor <;> cases f <;> rfl

theorem sameOuter_exec (i : Instr) (s t : State) (h : exec i s = .next t) : SameOuter s t := by
  rcases exec_kinds i s t h with ⟨a, x, y, _, _, _, _, _, _, _, rfl⟩ | ⟨imm, reg, rfl⟩ | hc | ⟨a, st, r, rfl⟩ | rfl
  · constructor <;> simp
  · obtain ⟨_, _, rfl⟩ := (exec_ldc _ _ _ _).mp h; exact sameOuter_writeReg _ _ _
  · cases i
    all_goals first
      | exact absurd hc Bool.false_ne_true
      | (obtain ⟨_, rfl⟩ := (exec_jcc _ _ _ _).mp h; constructor <;> rfl)
      | (obtain ⟨_, rfl⟩ := (exec_callcc _ _ _ _).mp h; constructor <;> rfl)
      | (obtain ⟨_, rfl⟩ := (exec_jrcc _ _ _).mp h; constructor <;> rfl)
      | (obtain ⟨_, rfl⟩ := (exec_jrccPage _ _ _ _).mp h; constructor <;> rfl)
      | (obtain ⟨_, rfl⟩ := (exec_reti _ _).mp h; constructor <;> rfl)
      | (obtain ⟨_, rfl⟩ := (exec_retiPage _ _ _).mp h; constructor <;> rfl)
      | (obtain ⟨_, _, _, rfl⟩ := (exec_loop _ _ _ _).mp h; constructor <;> rfl)
  · obtain ⟨_, rfl⟩ := (exec_jmpi _ _ _ _ _).mp h; constructor <;> rfl
  · have e := (exec_halt _ _).mp h
    subst e
    split <;> constructor <;> rfl

end Sys2Proof.Machine
end

