-- ==== Sys2Proof/Laws/Arith.lean ====
section
/-! SUPPORT. ALU results: the exact value saturated or wrapped, the flags that go with it, and where a word puts both.
-/

set_option Elab.async false

namespace Sys2Proof.Machine

/-! ### Results -/

/-- The value at the end of the arithmetic pipeline is the exact one, saturated or wrapped (R158). -/
theorem arithOut_value (w : Nat) (ext : BitVec w → Bool) (sat : Bool) (z : Int) (c : Bool) :
    (arithOut w ext sat z c).value = clamp w sat z := by
  have hp : (0 : Int) < 2 ^ (w - 1) := by positivity
  have hmin : BitVec.intMin w = BitVec.ofInt w (-2 ^ (w - 1)) := by
    rcases w with _ | w
    · exact Subsingleton.elim _ _
    · apply BitVec.eq_of_toInt_eq
      rw [BitVec.toInt_intMin, BitVec.toInt_ofInt, Int.bmod_eq_of_le]
      · simp
        rw [Int.emod_eq_of_lt] <;> first | positivity | skip
        exact_mod_cast Nat.pow_lt_pow_right (by decide) (Nat.lt_succ_self w)
      · push_cast; simp [pow_succ]
      · push_cast
        simp only [pow_succ]
        have : (0 : Int) < 2 ^ w := by positivity
        omega
  have hmax : BitVec.intMax w = BitVec.ofInt w (2 ^ (w - 1) - 1) := by
    have h1 : 1 ≤ 2 ^ (w - 1) := Nat.one_le_two_pow
    have : (2 : Int) ^ (w - 1) - 1 = ((2 ^ (w - 1) - 1 : Nat) : Int) := by
      push_cast [h1]; rfl
    rw [this, BitVec.ofInt_natCast]
    apply BitVec.eq_of_toNat_eq
    simp
    rw [Nat.mod_eq_of_lt]
    have := Nat.pow_le_pow_right (n := 2) (by decide) (Nat.sub_le w 1)
    omega
  unfold arithOut clamp
  simp only
  cases sat
  · simp
  · by_cases h1 : (2 : Int) ^ (w - 1) - 1 < z
    · have : 0 < z := by omega
      simp [h1, this, hmax]
    · by_cases h2 : z < -(2 : Int) ^ (w - 1)
      · have : ¬ 0 < z := by omega
        simp [h1, h2, this, hmin]
      · simp [h1, h2]

/-- V is the overflow of the exact value, before saturation (R155). -/
theorem arithOut_v (w : Nat) (ext : BitVec w → Bool) (sat : Bool) (z : Int) (c : Bool) :
    (arithOut w ext sat z c).flags.v = true ↔ outOfRange w z := by
  simp [arithOut, outOfRange]

/-- Z, N and E of a result are those of the value written (R153, R154, R156). -/
structure ZneOf {w : Nat} (ext : BitVec w → Bool) (o : AluOut w) : Prop where
  z : o.flags.z = decide (o.value = 0)
  n : o.flags.n = o.value.msb
  e : o.flags.e = ext o.value

theorem zneOf_arithOut (w : Nat) (ext : BitVec w → Bool) (sat : Bool) (z : Int) (c : Bool) :
    ZneOf ext (arithOut w ext sat z c) := ⟨rfl, rfl, rfl⟩

theorem zneOf_bitsOut {w : Nat} (ext : BitVec w → Bool) (r : BitVec w) (c : Bool) : ZneOf ext (bitsOut ext r c) :=
  ⟨rfl, rfl, rfl⟩

theorem zneOf_withCarry {w : Nat} (ext : BitVec w → Bool) (o : AluOut w) (c : Bool) (h : ZneOf ext o) :
    ZneOf ext (o.withCarry c) := ⟨h.z, h.n, h.e⟩

/-- E of a wide result says that it does not fit in 2n bits (R156). -/
theorem wideExt_iff (c : Sys2Proof.Config) (r : BitVec c.accWidth) :
    wideExt c r = true ↔ outOfRange c.productWidth r.toInt := by
  have hn : 8 ≤ c.n := c.nRange.1
  have hq : (r.extractLsb' (c.n + c.n - 1) (c.g + 1)).toNat = r.toNat / 2 ^ (c.n + c.n - 1) := by
    rw [BitVec.extractLsb'_toNat, Nat.shiftRight_eq_div_pow, Nat.mod_eq_of_lt]
    have := r.isLt
    rw [Nat.div_lt_iff_lt_mul (by positivity), ← pow_add]
    have e : c.g + 1 + (c.n + c.n - 1) = c.accWidth := by simp only [Config.accWidth]; omega
    rwa [e]
  have e0 : r.extractLsb' (c.n + c.n - 1) (c.g + 1) = 0 ↔ r.toNat / 2 ^ (c.n + c.n - 1) = 0 := by
    rw [← hq]; exact ⟨fun h => by rw [h]; simp, fun h => BitVec.eq_of_toNat_eq (by simp [h])⟩
  have e1 : r.extractLsb' (c.n + c.n - 1) (c.g + 1) = BitVec.allOnes (c.g + 1) ↔
      r.toNat / 2 ^ (c.n + c.n - 1) = 2 ^ (c.g + 1) - 1 := by
    rw [← hq]
    exact ⟨fun h => by rw [h]; simp, fun h => BitVec.eq_of_toNat_eq (by simp [h])⟩
  simp only [wideExt, Bool.not_eq_true', Bool.or_eq_false_iff, decide_eq_false_iff_not, e0, e1, outOfRange]
  have hr := r.isLt
  have hw : c.accWidth = (c.n + c.n - 1) + (c.g + 1) := by simp only [Config.accWidth]; omega
  rw [BitVec.toInt_eq_toNat_cond]
  have hpw : (2 : Nat) ^ c.accWidth = 2 ^ (c.n + c.n - 1) * 2 ^ (c.g + 1) := by rw [hw, pow_add]
  have hg2 : (2 : Nat) ^ (c.g + 1) = 2 * 2 ^ c.g := pow_succ' 2 c.g
  have hpos : 0 < (2 : Nat) ^ c.g := by positivity
  rw [show (2 : Int) ^ (c.productWidth - 1) = ((2 ^ (c.n + c.n - 1) : Nat) : Int) by push_cast; rfl]
  generalize (2 : Nat) ^ (c.n + c.n - 1) = M at *
  generalize (2 : Nat) ^ c.g = G at *
  generalize r.toNat = z at *
  rw [hpw, hg2] at *
  have hM : 0 < M := by
    rcases Nat.eq_zero_or_pos M with h | h
    · rw [h] at hr; omega
    · exact h
  have hd := Nat.div_add_mod z M
  have hm := Nat.mod_lt z hM
  generalize hk : z / M = k at *
  generalize z % M = l at *
  have hk2 : k < 2 * G := by
    by_contra hc
    have : M * (2 * G) ≤ M * k := Nat.mul_le_mul_left M (by omega)
    omega
  have hs : 2 * z < M * (2 * G) ↔ k < G := by
    constructor
    · intro h
      by_contra hc
      have : M * G ≤ M * k := Nat.mul_le_mul_left M (by omega)
      have e : M * (2 * G) = 2 * (M * G) := by ring
      omega
    · intro h
      have : M * (k + 1) ≤ M * G := Nat.mul_le_mul_left M h
      have e : M * (2 * G) = 2 * (M * G) := by ring
      have e' : M * (k + 1) = M * k + M := by ring
      omega
  by_cases hkG : k < G
  · rw [if_pos (hs.mpr hkG)]
    constructor
    · rintro ⟨h0, -⟩
      right
      have : M * 1 ≤ M * k := Nat.mul_le_mul_left M (by omega)
      omega
    · intro h
      refine ⟨fun h0 => ?_, by omega⟩
      subst h0
      simp only [Nat.mul_zero] at hd
      omega
  · rw [if_neg (fun h => hkG (hs.mp h))]
    constructor
    · rintro ⟨-, h1⟩
      left
      have h2 : M * (k + 2) ≤ M * (2 * G) := Nat.mul_le_mul_left M (by omega)
      have e' : M * (k + 2) = M * k + 2 * M := by ring
      omega
    · intro h
      refine ⟨by omega, fun h1 => ?_⟩
      have e' : M * (k + 1) = M * k + M := by ring
      have e2 : M * (k + 1) = M * (2 * G) := by rw [h1]; congr 1; omega
      omega

/-! ### The flags of a word -/

/-- An ALU flag after a word whose ALU part evaluates the flags. -/
theorem aluFlag_applyWord (i : Instr) {c : Sys2Proof.Config} (a : AluFx c) (s : State) (x y : MoveFx) (f : AluFlags)
    (b : MrBit)
    (hx : moveFx .x (Instr.moves i).x s = .ok x) (hy : moveFx .y (Instr.moves i).y s = .ok y)
    (hf : a.flags = some f) (hb : aluBits.getLsbD b.pos = true) :
    flagIs i (applyWord a x y s) b (f.bits.getLsbD b.pos = true) := by
  intro hl
  have lx : ∀ v, x.load ≠ some (.mr0, v) := by
    intro v e
    have := (moveFx_traits _ _ _ _ hx).2.2 _ _ e
    simp [Instr.loads, Moves.loads, this] at hl
  have ly : ∀ v, y.load ≠ some (.mr0, v) := by
    intro v e
    have := (moveFx_traits _ _ _ _ hy).2.2 _ _ e
    simp [Instr.loads, Moves.loads, this] at hl
  have hne : ∀ bus, b ≠ indexFlag bus := by
    intro bus
    rintro rfl
    cases bus <;> exact absurd hb (by decide)
  have step : ∀ (bus : Space) (q : Option Bool) (u : State), (putIndexFlag bus q u).flag b = u.flag b := by
    intro bus q u
    rw [flag_putIndexFlag]
    cases q <;> simp [hne bus]
  rw [flag_applyWord _ _ _ _ _ lx ly, step, step, flag_putFlags, hf]
  simp [hb]

/-- Z, N and E after a word with a narrow result (R153, R154, R156). -/
theorem narrowZne_applyWord (i : Instr) {c : Sys2Proof.Config} (a : AluFx c) (s : State) (x y : MoveFx) {w : Nat}
    (o : AluOut w)
    (hx : moveFx .x (Instr.moves i).x s = .ok x) (hy : moveFx .y (Instr.moves i).y s = .ok y)
    (hf : a.flags = some o.flags) (h : ZneOf narrowExt o) : narrowZne i (applyWord a x y s) o.value := by
  have k := fun b hb => aluFlag_applyWord i a s x y o.flags b hx hy hf hb
  refine ⟨fun hl => ?_, fun hl => ?_, fun hl => ?_⟩
  · rw [k .z (by decide) hl, AluFlags.getLsbD_bits _ _ (by decide), h.z, decide_eq_true_eq]
  · rw [k .n (by decide) hl, AluFlags.getLsbD_bits _ _ (by decide), h.n, BitVec.msb_eq_toInt, decide_eq_true_eq]
  · rw [k .e (by decide) hl, AluFlags.getLsbD_bits _ _ (by decide), h.e]; simp [narrowExt]

/-- Z, N and E after a word with a wide result. -/
theorem wideZne_applyWord (i : Instr) {c : Sys2Proof.Config} (a : AluFx c) (s : State) (x y : MoveFx)
    (o : AluOut c.accWidth)
    (hx : moveFx .x (Instr.moves i).x s = .ok x) (hy : moveFx .y (Instr.moves i).y s = .ok y)
    (hf : a.flags = some o.flags) (h : ZneOf (wideExt c) o) : wideZne c i (applyWord a x y s) o.value := by
  have k := fun b hb => aluFlag_applyWord i a s x y o.flags b hx hy hf hb
  refine ⟨fun hl => ?_, fun hl => ?_, fun hl => ?_⟩
  · rw [k .z (by decide) hl, AluFlags.getLsbD_bits _ _ (by decide), h.z, decide_eq_true_eq]
  · rw [k .n (by decide) hl, AluFlags.getLsbD_bits _ _ (by decide), h.n, BitVec.msb_eq_toInt, decide_eq_true_eq]
  · rw [k .e (by decide) hl, AluFlags.getLsbD_bits _ _ (by decide), h.e]
    simp only [wideExt_iff]

/-- V and C after a word whose ALU part evaluates the flags. -/
theorem vFlag_applyWord (i : Instr) {c : Sys2Proof.Config} (a : AluFx c) (s : State) (x y : MoveFx) (f : AluFlags)
    (hx : moveFx .x (Instr.moves i).x s = .ok x) (hy : moveFx .y (Instr.moves i).y s = .ok y)
    (hf : a.flags = some f) : flagIs i (applyWord a x y s) .v (f.v = true) := by
  intro hl
  rw [aluFlag_applyWord i a s x y f .v hx hy hf (by decide) hl, AluFlags.getLsbD_bits _ _ (by decide)]

theorem cFlag_applyWord (i : Instr) {c : Sys2Proof.Config} (a : AluFx c) (s : State) (x y : MoveFx) (f : AluFlags)
    (hx : moveFx .x (Instr.moves i).x s = .ok x) (hy : moveFx .y (Instr.moves i).y s = .ok y)
    (hf : a.flags = some f) : flagIs i (applyWord a x y s) .c (f.c = true) := by
  intro hl
  rw [aluFlag_applyWord i a s x y f .c hx hy hf (by decide) hl, AluFlags.getLsbD_bits _ _ (by decide)]

theorem flagIs_congr (i : Instr) (t : State) (b : MrBit) (p q : Prop) (h : p ↔ q) (hp : flagIs i t b p) :
    flagIs i t b q := fun hl => (hp hl).trans (and_congr_right fun _ => h)

/-- A word with a narrow ALU result that is ready: where the result and the flags go (R152 to R157). -/
theorem narrow_word (i : Instr) (s : State) (res : AReg) (o : AluOut s.cfg.n) (hr : wordReady i s = true)
    (hc : Instr.aluCells i = resultCells false res) (ho : ZneOf narrowExt o) :
    ∃ t, outcome (runWord i s (narrowFx res o)) = .next t ∧ narrowWritten s.cfg t res o.value ∧ narrowZne i t o.value ∧
      flagIs i t .v (o.flags.v = true) ∧ flagIs i t .c (o.flags.c = true) := by
  obtain ⟨x, y, hx, hy, hn, he⟩ := runWord_ready i s (narrowFx res o) hr (by rw [hc]; rfl)
  exact ⟨_, (outcome_next _ _).mpr he, narrow_applyWord _ _ _ _ _ _ hn rfl,
    narrowZne_applyWord _ _ _ _ _ _ hx hy rfl ho,
    vFlag_applyWord _ _ _ _ _ _ hx hy rfl, cFlag_applyWord _ _ _ _ _ _ hx hy rfl⟩

/-- The same of a wide result; a product may be written beside it. -/
theorem wide_word (i : Instr) (s : State) (x : Acc) (o : AluOut s.cfg.accWidth)
    (p : Option (BitVec s.cfg.productWidth)) (hr : wordReady i s = true)
    (hc : Instr.aluCells i = [.areg x.low, .areg x.high, .guard x]) (ho : ZneOf (wideExt s.cfg) o) :
    ∃ t, outcome (runWord i s { wideFx x o with product := p }) = .next t ∧ t.regs.accum s.cfg x = o.value ∧
      wideZne s.cfg i t o.value ∧ flagIs i t .v (o.flags.v = true) ∧ flagIs i t .c (o.flags.c = true) ∧
        t.p = (p.map (BitVec.setWidth 128)).getD s.p := by
  obtain ⟨mx, my, hx, hy, hn, he⟩ := runWord_ready i s { wideFx x o with product := p } hr (by rw [hc]; rfl)
  exact ⟨_, (outcome_next _ _).mpr he, wide_applyWord _ _ _ _ _ _ hn rfl, wideZne_applyWord _ _ _ _ _ _ hx hy rfl ho,
    vFlag_applyWord _ _ _ _ _ _ hx hy rfl, cFlag_applyWord _ _ _ _ _ _ hx hy rfl, p_applyWord _ _ _ _⟩

end Sys2Proof.Machine
end

