-- ==== Sys2Proof/Laws/Bus.lean ====
section
/-! SUPPORT. What each bus of a word has done when the word has run. -/

set_option Elab.async false

namespace Sys2Proof.Machine

/-- A word that loads MR0 on neither bus. -/
theorem load_ne_mr0 (i : Instr) (bus : Space) (s : State) (x : MoveFx) (h : Instr.loads .mr0 i = false)
    (hx : moveFx bus (match bus with | .x => (Instr.moves i).x | .y => (Instr.moves i).y) s = .ok x) :
    ∀ v, x.load ≠ some (.mr0, v) := by
  intro v e
  have := (moveFx_traits _ _ _ _ hx).2.2 _ _ e
  simp only [Instr.loads, Moves.loads, Bool.or_eq_false_iff] at h
  cases bus <;> simp_all

/-- Bus X of a word does its move (R241 to R247). -/
theorem busDone_x (i : Instr) {c : Sys2Proof.Config} (a : AluFx c) (s : State) (x y : MoveFx)
    (hx : moveFx .x (Instr.moves i).x s = .ok x) (hy : moveFx .y (Instr.moves i).y s = .ok y)
    (hn : noCollision a x y = true) : busDone .x i (Instr.moves i).x s (applyWord a x y s) := by
  have fl : ∀ p : PostOut, x.flag = some p.flag → Instr.loads .mr0 i = false →
      (applyWord a x y s).flag .x = (Config.hasBit s.cfg .x && p.flag) := by
    intro p hp hl
    rw [flag_applyWord _ _ _ _ _ (load_ne_mr0 i .x s x hl hx) (load_ne_mr0 i .y s y hl hy), flag_putIndexFlag,
      flag_putIndexFlag, hp]
    cases y.flag <;> simp [indexFlag]
  have st : ∀ b v, x.store = some (b, v) → Config.cell s.cfg .x b = .storage → (s.mem .x).wf = true →
      ((applyWord a x y s).mem .x).word b = v := by
    intro b v hs hc hm
    have e1 : (applyWord a x y s).mem .x = (putMove .y y (putMove .x x (putAlu a s))).mem .x :=
      mem_congr _ _ _ (by simp [applyWord]) (by simp [applyWord])
    rw [e1]
    have : ∀ u : State, ((putMove .y y u).mem .x) = u.mem .x := by
      intro u
      show (putMove .y y u).xmem = u.xmem
      rw [putMove]
      rcases y.store with _ | ⟨c, w⟩
      · simp [putStore]
      · rcases storeData_cases .y c w (putIndexFlag .y y.flag (putIndex y.index u)) with
            ⟨_, e⟩ | ⟨_, _, e⟩ | ⟨_, _, e⟩ <;>
          simp [putStore, e, State.putMem]
    rw [this, putMove, hs, putStore]
    apply word_storeData_self
    · have : (putIndexFlag .x x.flag (putIndex x.index (putAlu a s))).mem .x = s.mem .x :=
          mem_congr _ _ _ (by simp) (by simp)
      rw [this]; exact hm
    · simpa using hc
  have ix : ∀ ix (p : PostOut), x.index = (p.index.map fun v => (ix, v)) → ∀ v, p.index = some v →
      (applyWord a x y s).idx.get ix = v := by
    intro ix p h v hv
    exact index_applyWord_x _ _ _ _ _ _ hn (by rw [h, hv]; rfl)
  have ld : ∀ r v, x.load = some (r, v) → loaded s.cfg (applyWord a x y s) r v :=
    fun r v h => loaded_applyWord_x _ _ _ _ _ _ hn h
  generalize (Instr.moves i).x = b at hx
  cases b with
  | idle => trivial
  | reg src dst =>
    obtain ⟨v, hv, _, rfl⟩ := regMoveFx_cases _ _ _ _ _ hx
    exact ⟨v, hv, ld _ _ rfl⟩
  | mem m =>
    cases hd : m.dir with
    | load =>
      simp only [moveFx, hd] at hx
      simp only [busDone, hd]
      rcases loadFx_cases _ _ _ _ hx with ⟨h0, _, _⟩ | ⟨_, p, hp, ⟨h0, _, rfl⟩ | ⟨_, _, v, hv, rfl⟩⟩
      · exact .inl h0
      · exact .inr ⟨p, hp, ⟨ix _ _ rfl, fun hl => fl p rfl hl⟩, .inl h0⟩
      · exact .inr ⟨p, hp, ⟨ix _ _ rfl, fun hl => fl p rfl hl⟩, .inr ⟨v, hv, ld _ _ rfl⟩⟩
    | store =>
      simp only [moveFx, hd] at hx
      simp only [busDone, hd]
      obtain ⟨v, p, hv, hp, _, rfl⟩ := storeFx_cases _ _ _ _ hx
      exact ⟨p, v, hp, ⟨ix _ _ rfl, fun hl => fl p rfl hl⟩, hv, fun hc hm => st _ _ rfl hc hm⟩

/-- Bus Y of a word does its move. -/
theorem busDone_y (i : Instr) {c : Sys2Proof.Config} (a : AluFx c) (s : State) (x y : MoveFx)
    (hx : moveFx .x (Instr.moves i).x s = .ok x) (hy : moveFx .y (Instr.moves i).y s = .ok y)
    (hn : noCollision a x y = true) : busDone .y i (Instr.moves i).y s (applyWord a x y s) := by
  have fl : ∀ p : PostOut, y.flag = some p.flag → Instr.loads .mr0 i = false →
      (applyWord a x y s).flag .y = (Config.hasBit s.cfg .y && p.flag) := by
    intro p hp hl
    rw [flag_applyWord _ _ _ _ _ (load_ne_mr0 i .x s x hl hx) (load_ne_mr0 i .y s y hl hy), flag_putIndexFlag, hp]
    simp [indexFlag]
  have st : ∀ b v, y.store = some (b, v) → Config.cell s.cfg .y b = .storage → (s.mem .y).wf = true →
      ((applyWord a x y s).mem .y).word b = v := by
    intro b v hs hc hm
    have e1 : (applyWord a x y s).mem .y = (putMove .y y (putMove .x x (putAlu a s))).mem .y :=
      mem_congr _ _ _ (by simp [applyWord]) (by simp [applyWord])
    rw [e1, putMove, hs, putStore]
    apply word_storeData_self
    · have : (putIndexFlag .y y.flag (putIndex y.index (putMove .x x (putAlu a s)))).mem .y = s.mem .y := by
        show State.ymem _ = s.ymem
        simp only [putIndexFlag_ymem, putIndex_ymem, putMove]
        rcases x.store with _ | ⟨c, w⟩
        · simp [putStore]
        · rcases storeData_cases .x c w (putIndexFlag .x x.flag (putIndex x.index (putAlu a s))) with
              ⟨_, e⟩ | ⟨_, _, e⟩ | ⟨_, _, e⟩ <;>
            simp [putStore, e, State.putMem]
      rw [this]; exact hm
    · simpa using hc
  have ix : ∀ ix (p : PostOut), y.index = (p.index.map fun v => (ix, v)) → ∀ v, p.index = some v →
      (applyWord a x y s).idx.get ix = v := by
    intro ix p h v hv
    exact index_applyWord_y _ _ _ _ _ _ hn (by rw [h, hv]; rfl)
  have ld : ∀ r v, y.load = some (r, v) → loaded s.cfg (applyWord a x y s) r v :=
    fun r v h => loaded_applyWord_y _ _ _ _ _ _ h
  generalize (Instr.moves i).y = b at hy
  cases b with
  | idle => trivial
  | reg src dst =>
    obtain ⟨v, hv, _, rfl⟩ := regMoveFx_cases _ _ _ _ _ hy
    exact ⟨v, hv, ld _ _ rfl⟩
  | mem m =>
    cases hd : m.dir with
    | load =>
      simp only [moveFx, hd] at hy
      simp only [busDone, hd]
      rcases loadFx_cases _ _ _ _ hy with ⟨h0, _, _⟩ | ⟨_, p, hp, ⟨h0, _, rfl⟩ | ⟨_, _, v, hv, rfl⟩⟩
      · exact .inl h0
      · exact .inr ⟨p, hp, ⟨ix _ _ rfl, fun hl => fl p rfl hl⟩, .inl h0⟩
      · exact .inr ⟨p, hp, ⟨ix _ _ rfl, fun hl => fl p rfl hl⟩, .inr ⟨v, hv, ld _ _ rfl⟩⟩
    | store =>
      simp only [moveFx, hd] at hy
      simp only [busDone, hd]
      obtain ⟨v, p, hv, hp, _, rfl⟩ := storeFx_cases _ _ _ _ hy
      exact ⟨p, v, hp, ⟨ix _ _ rfl, fun hl => fl p rfl hl⟩, hv, fun hc hm => st _ _ rfl hc hm⟩

end Sys2Proof.Machine
end

