-- ==== Sys2Proof/Laws/Cycle.lean ====
section
/-! SUPPORT. The cycle: everything a step can do, said once. -/

set_option Elab.async false

namespace Sys2Proof.Machine

/-! ### A step -/

/-- A step of a supported configuration is a cycle. -/
theorem step_supported (s : State) (h : s.cfg.supported = true) : step s = outcome (cycle s) := by
  simp [step, h, require]

/-- A running cycle is the rest of the cycle after what stood in EX. -/
theorem step_ran (s t : State) (x : XTraits) (h : ran s x t) : step s = outcome (advanced (finishCycle x s t)) := by
  obtain ⟨hg, hr, hh, ⟨hs, rfl, rfl⟩ | ⟨i, hs, he, rfl⟩⟩ := h
  · simp [step, require, hg, cycle, hr, hh, runningCycle, hs]
  · simp [step, require, hg, cycle, hr, hh, runningCycle, hs, afterExec, he]

theorem advanced_ok (r : Except Refusal State) (u : State) : advanced r = .ok u ↔ ∃ v, r = .ok v ∧ u = v.advance := by
  cases r <;> simp [advanced, eq_comm]

/-- Everything a step can answer with a next state. -/
theorem step_next (s u : State) :
    step s = .next u ↔ s.cfg.supported = true ∧
      ((s.input.reset = true ∧ u = (systemReset s).advance) ∨
      (s.input.reset = false ∧ s.halted = true ∧ u = (haltedCycle s).advance) ∨
      ∃ x t v, ran s x t ∧ finishCycle x s t = .ok v ∧ u = v.advance) := by
  rw [step, outcome_next, require_ok]
  refine and_congr_right fun hg => ?_
  constructor
  · intro h
    rw [cycle, advanced_ok] at h
    obtain ⟨v, h, rfl⟩ := h
    by_cases hr : s.input.reset = true
    · rw [if_pos hr] at h
      exact .inl ⟨hr, by rw [Except.ok.inj h]⟩
    · rw [if_neg hr] at h
      rw [Bool.not_eq_true] at hr
      by_cases hh : s.halted = true
      · rw [if_pos hh] at h
        exact .inr (.inl ⟨hr, hh, by rw [Except.ok.inj h]⟩)
      · rw [if_neg hh] at h
        rw [Bool.not_eq_true] at hh
        unfold runningCycle at h
        split at h
        · rename_i hs
          exact .inr (.inr ⟨_, s, v, ⟨hg, hr, hh, .inl ⟨hs, rfl, rfl⟩⟩, h, rfl⟩)
        · rename_i i hs
          cases he : exec i s with
          | next t =>
            rw [he] at h
            exact .inr (.inr ⟨_, t, v, ⟨hg, hr, hh, .inr ⟨i, hs, he, rfl⟩⟩, h, rfl⟩)
          | fault f => cases f
          | refused r => rw [he] at h; cases h
        · cases h
  · rintro (⟨hr, rfl⟩ | ⟨hr, hh, rfl⟩ | ⟨x, t, v, h, hv, rfl⟩)
    · simp [cycle, hr, advanced]
    · simp [cycle, hr, hh, advanced]
    · have := step_ran s t x h
      rw [step_supported s hg, hv] at this
      exact (outcome_next _ _).mp (this.trans rfl)

/-! ### The rest of a cycle -/

/-- A fetch from storage answers the word (R71). -/
theorem fetch_storage (page addr : PAddr) (s : State)
    (h : Region.cellAt s.cfg.imap (programAddress s.cfg page addr) = .storage) :
    fetch page addr s = .ok (s.imem.iword (programAddress s.cfg page addr)) := by
  simp [fetch, h]

/-- Everything the rest of a cycle can answer. -/
theorem finishCycle_ok (x : XTraits) (s t v : State) :
    finishCycle x s t = .ok v ↔
      ∃ w u r, fetch (fetchPage s t) (fetchAddress s t) t = .ok w ∧
        (if s.ic = .c2 then vectorCheck s t (fetchAddress s t)
         else loopCheck x.busLoadsLoop (!x.flow && s.flag .l) (wordIsFlow s.cfg w || slotIsFlow s.cfg t.de)
          (fetchAddress s t) t) = .ok u ∧
        interruptEntry (cycleView x s t) s (shiftSlots (fetchPage s t) (fetchAddress s t) w u) = .ok r ∧
        v = { r with prevFlags := x.flags } := by
  simp only [finishCycle, andThen_ok, Except.ok.injEq, eq_comm (a := v)]
  constructor
  · rintro ⟨w, hw, u, hu, r, hr, hv⟩; exact ⟨w, u, r, hw, hu, hr, hv⟩
  · rintro ⟨w, u, r, hw, hu, hr, hv⟩; exact ⟨w, hw, u, hu, r, hr, hv⟩

/-- Everything the loop end check can answer: PC, and LC on a new round (R284). -/
theorem loopCheck_ok (b l f : Bool) (fa : PAddr) (t u : State) (h : loopCheck b l f fa t = .ok u) :
    u = { t with pc := u.pc, lc := u.lc } := by
  unfold loopCheck at h
  split at h
  · rw [← Except.ok.inj h]
  · rw [require_ok] at h
    have := Except.ok.inj h.2
    split at this <;> rw [← this]

theorem vectorCheck_ok (s t u : State) (fa : PAddr) (h : vectorCheck s t fa = .ok u) :
    u = { t with pc := nextAddress t.cfg fa } := by
  rw [vectorCheck, require_ok] at h
  exact (Except.ok.inj h.2).symm

/-- The state of a cycle before the interrupt controller acts: X's state with PC and LC. -/
theorem checked_ok (x : XTraits) (s t u : State) (f : Bool)
    (h : (if s.ic = .c2 then vectorCheck s t (fetchAddress s t)
         else loopCheck x.busLoadsLoop (!x.flow && s.flag .l) f (fetchAddress s t) t) = .ok u) :
    u = { t with pc := u.pc, lc := u.lc } := by
  split at h
  · rw [vectorCheck_ok _ _ _ _ h]
  · exact loopCheck_ok _ _ _ _ _ _ h

/-- A cycle that is not interrupt cycle 2, whose fetch finds a word and which no change of flow meets at a loop end: the
loop end check gives the round's PC and LC, and the controller acts on the state the slots have moved on in. -/
theorem finishCycle_round (x : XTraits) (s t : State) (hc : s.ic ≠ .c2) (hg : t.cfg = s.cfg) (hf : fetchReady s t)
    (hn : loopEnd s x t = true → flowNear s t = false) :
    ∃ u, u = (if loopEnd s x t = true ∧ t.lc ≠ 0 then { t with pc := t.ls, lc := t.lc - 1 }
        else { t with pc := nextAddress s.cfg t.pc }) ∧
      finishCycle x s t =
        andThen (interruptEntry (cycleView x s t) s (shiftSlots (fetchPage s t) (fetchAddress s t) (fetched s t) u))
          fun v => .ok { v with prevFlags := x.flags } := by
  refine ⟨_, rfl, ?_⟩
  have hfa : fetchAddress s t = t.pc := by simp [fetchAddress, hc]
  have hfetch : fetch (fetchPage s t) (fetchAddress s t) t = .ok (fetched s t) :=
    (fetch_storage _ _ _ (by rw [hg]; exact hf)).trans (by rw [fetched, hg])
  rw [finishCycle, hfetch]
  simp only [andThen, hc, if_false]
  have hl : loopCheck x.busLoadsLoop (!x.flow && s.flag .l) (wordIsFlow s.cfg (fetched s t) || slotIsFlow s.cfg t.de)
      (fetchAddress s t) t =
      .ok (if loopEnd s x t = true ∧ t.lc ≠ 0 then { t with pc := t.ls, lc := t.lc - 1 }
        else { t with pc := nextAddress s.cfg t.pc }) := by
    rw [hfa, loopCheck, hg]
    cases he : loopEnd s x t with
    | true =>
      have hnear := hn he
      simp only [flowNear] at hnear
      simp only [loopEnd, Bool.and_eq_true, decide_eq_true_eq, Bool.not_eq_true', Bool.or_eq_true] at he
      obtain ⟨⟨⟨h1, h2⟩, h3⟩, h4⟩ := he
      rw [hnear, h1, h2]
      by_cases h0 : t.lc = 0 <;> rcases h4 with h4 | h4 <;> simp [h3, h4, h0, require]
    | false =>
      have : (!s.cfg.hasLoops || x.busLoadsLoop || decide (t.pc ≠ t.le) || (!x.flow && s.flag .l)) = true := by
        revert he
        simp only [loopEnd]
        cases s.cfg.hasLoops <;> cases x.busLoadsLoop <;> cases x.flow <;> cases s.flag .l <;> simp
      rw [if_pos]
      · simp
      · simpa using this
  rw [hl]

/-! ### What the rest of a cycle leaves alone -/

/-- What the rest of a cycle that began in `s` can do to the state `t` that X left (R281, R335 to R342). -/
structure CycleFrame (s t v : State) : Prop where
  regs : v.regs = t.regs
  p : v.p = t.p
  idx : v.idx = t.idx
  lr0 : v.lr0 = t.lr0
  ipr0 : v.ipr0 = t.ipr0
  ls : v.ls = t.ls
  le : v.le = t.le
  xmem : v.xmem = t.xmem
  ymem : v.ymem = t.ymem
  imem : v.imem = t.imem
  inputs : v.inputs = t.inputs
  tick : v.tick = t.tick
  cfg : v.cfg = t.cfg
  mr0 : v.mr0 = t.mr0 ∨ v.mr0 = (t.putFlag .l true).mr0
  mr1 : v.mr1 = t.mr1 ∨ v.mr1 = s.mr0Value
  ipr1 : v.ipr1 = t.ipr1 ∨ (s.ic = .c2 ∧ s.cfg.hasIpr = true ∧ v.ipr1 = s.ipr0)
  en : v.en = t.en ∨ (s.ic = .idle ∧ s.requested = true)
  halted : v.halted = true → t.halted = true ∧ (s.ic = .idle → v.ic = .idle)
  woke : v.woke = true → v.ic = .c1 ∨ v.ic = .c2 ∨ (t.woke = true ∧ s.ic ≠ .c1 ∧ s.ic ≠ .c2)

/-- Everything the interrupt controller can do in a cycle to what the rest of the machine holds. -/
theorem interruptEntry_frame (view : CycleView) (s t v : State) (hi : t.ic = s.ic)
    (h : interruptEntry view s t = .ok v) : CycleFrame s t v := by
  cases hc : s.ic <;> simp only [interruptEntry, hc] at h
  · have e := Except.ok.inj h
    split at e
    · rename_i hq
      rw [← e]
      constructor <;> first
        | rfl | exact .inl rfl | exact .inr ⟨hc, hq⟩ | exact fun h => absurd h Bool.false_ne_true
        | exact fun _ => .inl rfl
    · rw [← e]
      constructor <;> first
        | rfl | exact .inl rfl | exact fun h => ⟨h, fun _ => hi.trans hc⟩
        | exact fun h => .inr (.inr ⟨h, by rw [hc]; decide, by rw [hc]; decide⟩)
  · rw [← Except.ok.inj h]
    constructor <;> first
      | rfl | exact .inl rfl | exact fun h => ⟨h, fun e => by rw [hc] at e; cases e⟩ | exact fun _ => .inr (.inl rfl)
  · unfold entryCycle2 at h
    have key : ∀ l1 : PAddr, ∀ sl : Option Slot, CycleFrame s t
        { t.putFlag .l true with
          ic := .c3, woke := false, ipr1 := if s.cfg.hasIpr then s.ipr0 else t.ipr1, lr1 := l1, ex := sl } := by
      intro l1 sl
      constructor <;> first
        | rfl | exact .inl rfl | exact .inr rfl | exact fun h => ⟨h, fun e => by rw [hc] at e; cases e⟩
        | exact fun h => absurd h Bool.false_ne_true | skip
      by_cases hp : s.cfg.hasIpr = true
      · exact .inr ⟨hc, hp, by simp [hp]⟩
      · exact .inl (by simp [hp])
    by_cases hk : keepsThird view s = true
    · simp only [hk, if_true, require_ok] at h
      rw [← Except.ok.inj h.2]; exact key _ _
    · simp only [hk] at h
      rw [← Except.ok.inj h]; exact key t.lr1 _
  · rw [← Except.ok.inj h]
    constructor <;> first
      | rfl | exact .inl rfl | exact fun h => ⟨h, fun e => by rw [hc] at e; cases e⟩
      | exact fun h => .inr (.inr ⟨h, by rw [hc]; decide, by rw [hc]; decide⟩)
  · rw [← Except.ok.inj h]
    constructor <;> first
      | rfl | exact .inl rfl | exact .inr rfl | exact fun h => ⟨h, fun e => by rw [hc] at e; cases e⟩
      | exact fun h => .inr (.inr ⟨h, by rw [hc]; decide, by rw [hc]; decide⟩)
  · rw [← Except.ok.inj h]
    constructor <;> first
      | rfl | exact .inl rfl | exact fun h => ⟨h, fun _ => rfl⟩
      | exact fun h => .inr (.inr ⟨h, by rw [hc]; decide, by rw [hc]; decide⟩)

/-- Everything the rest of a cycle can do to what the machine holds. -/
theorem finishCycle_frame (x : XTraits) (s t v : State) (hi : t.ic = s.ic) (h : finishCycle x s t = .ok v) :
    CycleFrame s t v ∧ v.prevFlags = x.flags ∧ ∃ page addr w, v.de = some ⟨page, addr, w, false⟩ := by
  obtain ⟨w, u, r, _, hu, hr, rfl⟩ := (finishCycle_ok _ _ _ _).mp h
  have hu := checked_ok _ _ _ _ _ hu
  have hic : (shiftSlots (fetchPage s t) (fetchAddress s t) w u).ic = s.ic := by rw [hu]; exact hi
  have f := interruptEntry_frame _ _ _ _ hic hr
  have hm : (State.putFlag (shiftSlots (fetchPage s t) (fetchAddress s t) w u) .l true).mr0 =
      (t.putFlag .l true).mr0 := by
    rw [hu]; rfl
  refine ⟨?_, rfl, ?_⟩
  · rw [hu] at f
    obtain ⟨f1, f2, f3, f4, f5, f6, f7, f8, f9, f10, f11, f12, f13, f14, f15, f16, f17, f18, f19⟩ := f
    exact ⟨f1, f2, f3, f4, f5, f6, f7, f8, f9, f10, f11, f12, f13, f14, f15, f16, f17, f18, f19⟩
  · refine ⟨fetchPage s t, fetchAddress s t, w, ?_⟩
    show r.de = _
    have : r.de = (shiftSlots (fetchPage s t) (fetchAddress s t) w u).de := by
      cases hc : s.ic <;> simp only [interruptEntry, hc] at hr
      · have e := Except.ok.inj hr
        rw [← e]; split <;> rfl
      · rw [← Except.ok.inj hr]; rfl
      · unfold entryCycle2 at hr
        by_cases hk : keepsThird (cycleView x s t) s = true
        · simp only [hk, if_true, require_ok] at hr
          rw [← Except.ok.inj hr.2]; rfl
        · simp only [hk] at hr
          rw [← Except.ok.inj hr]; rfl
      · rw [← Except.ok.inj hr]
      · rw [← Except.ok.inj hr]; rfl
      · rw [← Except.ok.inj hr]
    rw [this]; rfl

/-- What X left is what exec left, or the state before the cycle. -/
theorem ran_same (s t : State) (x : XTraits) (h : ran s x t) : SameOuter s t := by
  obtain ⟨_, _, _, ⟨_, _, rfl⟩ | ⟨i, _, he, _⟩⟩ := h
  · constructor <;> rfl
  · exact sameOuter_exec i s t he

end Sys2Proof.Machine
end

