-- ==== Sys2Proof/Laws/Encoding.lean ====
section
/-! SUPPORT. The encoder and the decoder field by field: each field's code reads back, each format's fields stand where
the decoder takes them, and a canonical instruction exists where the instruction does. -/

set_option Elab.async false

namespace Sys2Proof

/-! ### Fields -/

@[simp] theorem AReg.ofCode_code (r : AReg) : AReg.ofCode r.code = r := by cases r <;> rfl
@[simp] theorem IReg.ofCode_code (r : IReg) : IReg.ofCode r.code = r := by cases r <;> rfl
@[simp] theorem Acc.ofCode_code (x : Acc) : Acc.ofCode x.code = .ok x := by cases x <;> rfl
@[simp] theorem MulMode.ofCode_code (m : MulMode) : MulMode.ofCode m.code = m := by cases m <;> rfl
@[simp] theorem JmpiStep.ofCode_code (m : JmpiStep) : JmpiStep.ofCode m.code = .ok m := by cases m <;> rfl
@[simp] theorem Cond.ofCode_code (c : Cond) : Cond.ofCode c.code = .ok c := by cases c <;> rfl
@[simp] theorem Dir.ofCode_code (d : Dir) : Dir.ofCode d.code = d := by cases d <;> rfl
@[simp] theorem Space.ofCode_code (b : Space) : Space.ofCode b.code = b := by cases b <;> rfl

@[simp] theorem AOp.ofCode_code (o : AOp) : AOp.ofCode o.code = .ok o := by
  cases o with
  | reg r => cases r <;> rfl
  | acc x => cases x <;> rfl
  | _ => rfl

@[simp] theorem FReg.ofCode_code (f : FReg) : FReg.ofCode f.code = .ok f := by
  cases f with
  | areg r => cases r <;> rfl
  | ireg r => cases r <;> rfl
  | guard x => cases x <;> rfl
  | _ => rfl

theorem Post.ofCode_code (p : Post) (h : p.wellFormed = true) : Post.ofCode p.code = p := by
  cases p with
  | step k =>
    have hk : k ≠ 8 := of_decide_eq_true h
    simp only [Post.code, Post.ofCode, hk, if_false]
  | byPair => rfl

/-! ### Where the fields of a concatenation stand -/

/-- The fields of a 14-bit full move (R119). -/
theorem fields_full (w : BitVec 14) (d : BitVec 1) (i : BitVec 3) (p : BitVec 4) (r : BitVec 6)
    (h : w = d ++ i ++ p ++ r) :
    w.extractLsb' 13 1 = d ∧ w.extractLsb' 10 3 = i ∧ w.extractLsb' 6 4 = p ∧ w.extractLsb' 0 6 = r := by
  subst h
  refine ⟨?_, ?_, ?_, ?_⟩ <;>
    (repeat (first
      | rw [BitVec.extractLsb'_append_eq_of_le (by omega)]
      | rw [BitVec.extractLsb'_append_eq_of_add_le (by omega)])) <;> simp

/-- The fields of an 8-bit short move (R121). -/
theorem fields_short (w : BitVec 8) (d : BitVec 1) (i : BitVec 3) (p : Bool) (r : BitVec 3)
    (h : w = d ++ i ++ BitVec.ofBool p ++ r) :
    w.extractLsb' 7 1 = d ∧ w.extractLsb' 4 3 = i ∧ w.getLsbD 3 = p ∧ w.extractLsb' 0 3 = r := by
  subst h
  refine ⟨?_, ?_, ?_, ?_⟩
  · repeat (first
      | rw [BitVec.extractLsb'_append_eq_of_le (by omega)]
      | rw [BitVec.extractLsb'_append_eq_of_add_le (by omega)])
    simp
  · repeat (first
      | rw [BitVec.extractLsb'_append_eq_of_le (by omega)]
      | rw [BitVec.extractLsb'_append_eq_of_add_le (by omega)])
    simp
  · rw [BitVec.getLsbD_append, BitVec.getLsbD_append]
    simp
  · repeat (first
      | rw [BitVec.extractLsb'_append_eq_of_le (by omega)]
      | rw [BitVec.extractLsb'_append_eq_of_add_le (by omega)])
    simp

/-- The fields of a parallel full move (R118). -/
theorem fields_pfull (w : BitVec 17) (s : BitVec 2) (b : BitVec 1) (m : BitVec 14) (h : w = s ++ b ++ m) :
    w.extractLsb' 15 2 = s ∧ w.extractLsb' 14 1 = b ∧ w.extractLsb' 0 14 = m := by
  subst h
  refine ⟨?_, ?_, ?_⟩ <;>
    (repeat (first
      | rw [BitVec.extractLsb'_append_eq_of_le (by omega)]
      | rw [BitVec.extractLsb'_append_eq_of_add_le (by omega)])) <;> simp

/-- The fields of two parallel short moves (R118): the selector is 10 or 11. -/
theorem fields_pshort (w : BitVec 17) (x y : BitVec 8) (h : w = 1#1 ++ x ++ y) :
    ((w.extractLsb' 15 2).toNat = 2 ∨ (w.extractLsb' 15 2).toNat = 3) ∧ w.extractLsb' 8 8 = x ∧
      w.extractLsb' 0 8 = y := by
  subst h
  refine ⟨?_, ?_, ?_⟩
  · have hx := x.isLt
    have hy := y.isLt
    have e : ((1#1 ++ x ++ y).extractLsb' 15 2).toNat = 2 + x.toNat / 128 := by
      simp only [BitVec.extractLsb'_toNat, BitVec.toNat_append, BitVec.toNat_ofNat, Nat.shiftRight_eq_div_pow]
      rw [← Nat.shiftLeft_add_eq_or_of_lt hx, ← Nat.shiftLeft_add_eq_or_of_lt hy]
      simp only [Nat.shiftLeft_eq]
      omega
    rw [e]; omega
  · repeat (first
      | rw [BitVec.extractLsb'_append_eq_of_le (by omega)]
      | rw [BitVec.extractLsb'_append_eq_of_add_le (by omega)])
    simp
  · repeat (first
      | rw [BitVec.extractLsb'_append_eq_of_le (by omega)]
      | rw [BitVec.extractLsb'_append_eq_of_add_le (by omega)])
    simp

/-- The fields of formats ALU2 and ALU1 (R110, R111). -/
theorem fields_alu (w : IWord) (o a b : BitVec 4) (r : BitVec 3) (p : BitVec 17) (h : w = o ++ a ++ b ++ r ++ p) :
    w.extractLsb' 29 3 = o.extractLsb' 1 3 ∧ w.extractLsb' 28 4 = o ∧ w.extractLsb' 25 3 = a.extractLsb' 1 3 ∧
      w.extractLsb' 24 4 = a ∧ w.extractLsb' 20 4 = b ∧ w.extractLsb' 17 3 = r ∧ w.extractLsb' 0 17 = p := by
  subst h
  refine ⟨?_, ?_, ?_, ?_, ?_, ?_, ?_⟩ <;>
    (repeat (first
      | rw [BitVec.extractLsb'_append_eq_of_le (by omega)]
      | rw [BitVec.extractLsb'_append_eq_of_add_le (by omega)])) <;> simp

/-- The fields of format MAC (R116). -/
theorem fields_mac (w : IWord) (o : BitVec 4) (a : BitVec 3) (m : BitVec 2) (b r : BitVec 3) (p : BitVec 17)
    (h : w = o ++ a ++ m ++ b ++ r ++ p) :
    w.extractLsb' 29 3 = o.extractLsb' 1 3 ∧ w.extractLsb' 28 4 = o ∧ w.extractLsb' 25 3 = a ∧
      w.extractLsb' 23 2 = m ∧ w.extractLsb' 20 3 = b ∧ w.extractLsb' 17 3 = r ∧ w.extractLsb' 0 17 = p := by
  subst h
  refine ⟨?_, ?_, ?_, ?_, ?_, ?_, ?_⟩ <;>
    (repeat (first
      | rw [BitVec.extractLsb'_append_eq_of_le (by omega)]
      | rw [BitVec.extractLsb'_append_eq_of_add_le (by omega)])) <;> simp

/-- The fields of format MUL (R117). -/
theorem fields_mul (w : IWord) (o : BitVec 7) (m : BitVec 2) (b r : BitVec 3) (p : BitVec 17)
    (h : w = o ++ m ++ b ++ r ++ p) :
    w.extractLsb' 29 3 = o.extractLsb' 4 3 ∧ w.extractLsb' 28 4 = o.extractLsb' 3 4 ∧
      w.extractLsb' 25 3 = o.extractLsb' 0 3 ∧ w.extractLsb' 23 2 = m ∧ w.extractLsb' 20 3 = b ∧
      w.extractLsb' 17 3 = r ∧ w.extractLsb' 0 17 = p := by
  subst h
  refine ⟨?_, ?_, ?_, ?_, ?_, ?_, ?_⟩ <;>
    (repeat (first
      | rw [BitVec.extractLsb'_append_eq_of_le (by omega)]
      | rw [BitVec.extractLsb'_append_eq_of_add_le (by omega)])) <;> simp

/-- The fields of the ALU NOP (R111, R188). -/
theorem fields_nop (w : IWord) (o : BitVec 8) (d : BitVec 7) (p : BitVec 17) (h : w = o ++ d ++ p) :
    w.extractLsb' 29 3 = o.extractLsb' 5 3 ∧ w.extractLsb' 28 4 = o.extractLsb' 4 4 ∧
      w.extractLsb' 25 3 = o.extractLsb' 1 3 ∧ w.extractLsb' 24 4 = o.extractLsb' 0 4 ∧ w.extractLsb' 0 17 = p := by
  subst h
  refine ⟨?_, ?_, ?_, ?_, ?_⟩ <;>
    (repeat (first
      | rw [BitVec.extractLsb'_append_eq_of_le (by omega)]
      | rw [BitVec.extractLsb'_append_eq_of_add_le (by omega)])) <;> simp

/-- The fields of format DBL (R123). -/
theorem fields_double (w : IWord) (o : BitVec 4) (x y : BitVec 14) (h : w = o ++ x ++ y) :
    w.extractLsb' 29 3 = o.extractLsb' 1 3 ∧ w.extractLsb' 28 4 = o ∧ w.extractLsb' 14 14 = x ∧
      w.extractLsb' 0 14 = y := by
  subst h
  refine ⟨?_, ?_, ?_, ?_⟩ <;>
    (repeat (first
      | rw [BitVec.extractLsb'_append_eq_of_le (by omega)]
      | rw [BitVec.extractLsb'_append_eq_of_add_le (by omega)])) <;> simp

/-- The fields of formats JMP and JR (R125, R128). -/
theorem fields_jump (w : IWord) (k : BitVec 8) (a : BitVec 18) (c : BitVec 6) (h : w = k ++ a ++ c) :
    w.extractLsb' 29 3 = k.extractLsb' 5 3 ∧ w.extractLsb' 28 4 = k.extractLsb' 4 4 ∧
      w.extractLsb' 26 2 = k.extractLsb' 2 2 ∧ w.extractLsb' 24 4 = k.extractLsb' 0 4 ∧ w.extractLsb' 6 18 = a ∧
      w.extractLsb' 0 6 = c := by
  subst h
  refine ⟨?_, ?_, ?_, ?_, ?_, ?_⟩ <;>
    (repeat (first
      | rw [BitVec.extractLsb'_append_eq_of_le (by omega)]
      | rw [BitVec.extractLsb'_append_eq_of_add_le (by omega)])) <;> simp

/-- The fields of format JMPI (R127). -/
theorem fields_jmpi (w : IWord) (k : BitVec 8) (a : BitVec 18) (d : BitVec 1) (m : BitVec 2) (r : BitVec 3)
    (h : w = k ++ a ++ d ++ m ++ r) :
    w.extractLsb' 29 3 = k.extractLsb' 5 3 ∧ w.extractLsb' 28 4 = k.extractLsb' 4 4 ∧
      w.extractLsb' 26 2 = k.extractLsb' 2 2 ∧ w.extractLsb' 24 4 = k.extractLsb' 0 4 ∧ w.extractLsb' 6 18 = a ∧
      w.extractLsb' 3 2 = m ∧ w.extractLsb' 0 3 = r := by
  subst h
  refine ⟨?_, ?_, ?_, ?_, ?_, ?_, ?_⟩ <;>
    (repeat (first
      | rw [BitVec.extractLsb'_append_eq_of_le (by omega)]
      | rw [BitVec.extractLsb'_append_eq_of_add_le (by omega)])) <;> simp

/-- The fields of format RESP (R129). -/
theorem fields_resp (w : IWord) (k : BitVec 8) (d : BitVec 1) (b r : BitVec 3) (e : BitVec 17)
    (h : w = k ++ d ++ b ++ r ++ e) :
    w.extractLsb' 29 3 = k.extractLsb' 5 3 ∧ w.extractLsb' 28 4 = k.extractLsb' 4 4 ∧
      w.extractLsb' 26 2 = k.extractLsb' 2 2 ∧ w.extractLsb' 24 4 = k.extractLsb' 0 4 ∧ w.extractLsb' 20 3 = b ∧
      w.extractLsb' 17 3 = r := by
  subst h
  refine ⟨?_, ?_, ?_, ?_, ?_, ?_⟩ <;>
    (repeat (first
      | rw [BitVec.extractLsb'_append_eq_of_le (by omega)]
      | rw [BitVec.extractLsb'_append_eq_of_add_le (by omega)])) <;> simp

/-- The fields of format LDC (R124). -/
theorem fields_ldc (w : IWord) (k : BitVec 3) (a : BitVec 23) (c : BitVec 6) (h : w = k ++ a ++ c) :
    w.extractLsb' 29 3 = k ∧ w.extractLsb' 6 23 = a ∧ w.extractLsb' 0 6 = c := by
  subst h
  refine ⟨?_, ?_, ?_⟩ <;>
    (repeat (first
      | rw [BitVec.extractLsb'_append_eq_of_le (by omega)]
      | rw [BitVec.extractLsb'_append_eq_of_add_le (by omega)])) <;> simp

/-- The fields of format LOOP (R130). -/
theorem fields_loop (w : IWord) (k : BitVec 6) (a : BitVec 20) (c : BitVec 6) (h : w = k ++ a ++ c) :
    w.extractLsb' 29 3 = k.extractLsb' 3 3 ∧ w.extractLsb' 28 4 = k.extractLsb' 2 4 ∧
      w.extractLsb' 26 2 = k.extractLsb' 0 2 ∧ w.extractLsb' 6 20 = a ∧ w.extractLsb' 0 6 = c := by
  subst h
  refine ⟨?_, ?_, ?_, ?_, ?_⟩ <;>
    (repeat (first
      | rw [BitVec.extractLsb'_append_eq_of_le (by omega)]
      | rw [BitVec.extractLsb'_append_eq_of_add_le (by omega)])) <;> simp

/-! ### Moves -/

theorem FullMove.ofCode_code (m : FullMove) (h : m.post.wellFormed = true) : FullMove.ofCode m.code = .ok m := by
  obtain ⟨e0, e1, e2, e3⟩ := fields_full m.code _ _ _ _ rfl
  simp [FullMove.ofCode, e0, e1, e2, e3, Post.ofCode_code _ h]

theorem FullMove.post_wellFormed (c : Config) (bus : Space) (m : FullMove) (h : m.wellFormed c bus = true) :
    m.post.wellFormed = true := by
  simp only [FullMove.wellFormed, Bool.and_eq_true] at h
  exact h.1

theorem ShortMove.ofCode_code (m : ShortMove) : ShortMove.ofCode m.code = m := by
  obtain ⟨e0, e1, e2, e3⟩ := fields_short m.code _ _ _ _ rfl
  simp only [ShortMove.ofCode, e0, e1, e2, e3, Dir.ofCode_code, IReg.ofCode_code, AReg.ofCode_code]

/-- A parallel field reads back. -/
theorem PMove.ofCode_code (c : Config) (pm : PMove) (p : BitVec 17) (hp : pm.code = some p)
    (hw : pm.wellFormed c = true) : PMove.ofCode p = .ok pm := by
  cases pm with
  | full bus m =>
    simp only [PMove.code, Option.some.injEq] at hp
    obtain ⟨e0, e1, e2⟩ := fields_pfull p _ _ _ hp.symm
    simp [PMove.ofCode, e0, e1, e2, FullMove.ofCode_code m (FullMove.post_wellFormed c bus m hw)]
  | short x y =>
    simp only [PMove.code, Option.some.injEq] at hp
    obtain ⟨e0, e1, e2⟩ := fields_pshort p _ _ hp.symm
    rcases e0 with e0 | e0 <;> simp [PMove.ofCode, e0, e1, e2, ShortMove.ofCode_code]
  | reg src dst => simp [PMove.code] at hp

/-! ### The decoder on each format -/

theorem decode_of_fields (c : Config) (w : IWord) (i : Instr) (hd : decodeFields w = .ok i) (he : c.encRecon = true)
    (hw : i.wellFormed c = true) : decode c w = .ok i := by
  simp [decode, hd, he, hw]

/-- Everything a decoded word says: its fields read, its class is accepted, and it exists on the core. -/
theorem decode_ok (c : Config) (w : IWord) (i : Instr) :
    decode c w = .ok i ↔
      decodeFields w = .ok i ∧ (c.encRecon = true ∨ i.confirmed = true) ∧ i.wellFormed c = true := by
  unfold decode
  cases decodeFields w with
  | error e => simp
  | ok j =>
    cases c.encRecon <;> cases hc : j.confirmed <;> cases hw : j.wellFormed c <;> simp [hc, hw] <;>
      (try (rintro rfl; simp_all))

end Sys2Proof
end

