-- ==== Sys2Proof/Laws/Fits.lean ====
section
/-! SUPPORT. Widths: every register operation, every word and exec leave each register within its configured
width (R6). -/

set_option Elab.async false

namespace Sys2Proof.Machine

/-- The bits of MR0 and MR1 that exist lie within pa bits. -/
theorem fits_active (c : Sys2Proof.Config) (v : PAddr) : fits c.pa (v &&& c.activeBits) := by
  have hp := c.paRange.1
  rw [fits_iff]
  intro i hi
  have h : (0x007FF#20).getLsbD i = false := by
    by_cases h20 : i < 20
    · have : 11 ≤ i := by omega
      interval_cases i <;> rfl
    · exact BitVec.getLsbD_of_ge _ i (by omega)
  simp only [Config.activeBits, BitVec.getLsbD_and]
  have h' : BitVec.getLsbD (0x007FF : PAddr) i = false := h
  rw [h', Bool.and_false, Bool.and_false]

/-- Every register holds no more bits than its configured width (R6): the clause widths of State.Inv. -/
def RegsFit (s : State) : Prop := ∀ f : FReg, fits (FReg.width s.cfg f) (s.regValue f)

/-- A register write keeps every register within its width. -/
theorem regsFit_writeReg (r : FReg) (v : Word) (s : State) (h : RegsFit s) : RegsFit (writeReg r v s) := by
  intro f
  by_cases hf : f ∈ FReg.cells r
  · have hn : FReg.width (writeReg r v s).cfg f = FReg.width s.cfg f := by rw [(sameOuter_writeReg r v s).cfg]
    rw [hn]
    have hl := loaded_writeReg r v s
    cases r with
    | areg r =>
      have h1 : ∀ q, fits s.cfg.n (((s.regs.write s.cfg r (v.setWidth s.cfg.n)).get q)) := by
        intro q; rw [ARegs.get_write]; split
        · exact fits_setWidth _ _
        · exact h (.areg q)
      have h2 : ∀ x, fits s.cfg.g (((s.regs.write s.cfg r (v.setWidth s.cfg.n)).guard x)) := by
        intro q; rw [ARegs.guard_write]; split
        · exact fits_setWidth _ _
        · exact (fits_narrow _ 64 _ (by omega)).mp (h (.guard q))
      simp only [FReg.cells] at hf
      split at hf
      · rcases List.mem_cons.mp hf with rfl | hf
        · exact h1 _
        · rcases List.mem_cons.mp hf with rfl | hf
          · exact fits_widen _ _ _ (h2 _)
          · cases hf
      · rcases List.mem_cons.mp hf with rfl | hf
        · exact h1 _
        · cases hf
    | null => cases hf
    | nop => cases hf
    | ipr0 => cases hf
    | ipr1 => cases hf
    | mr0 =>
      rcases List.mem_cons.mp hf with rfl | hf
      · exact fits_widen _ _ _ (fits_active s.cfg _)
      · cases hf
    | mr1 =>
      rcases List.mem_cons.mp hf with rfl | hf
      · exact fits_widen _ _ _ (fits_active s.cfg _)
      · cases hf
    | _ =>
      rcases List.mem_cons.mp hf with rfl | hf
      · rw [show State.regValue _ _ = _ from hl]; exact fits_trunc _ _
      · cases hf
  · rw [regValue_writeReg_ne r f v s hf, (sameOuter_writeReg r v s).cfg]; exact h f

/-- A state with the same registers, MR0 aside, keeps them within their widths. -/
theorem regsFit_congr (s t : State) (hc : t.cfg = s.cfg) (h : RegsFit s)
    (hr : ∀ f, f ≠ .mr0 → t.regValue f = s.regValue f) : RegsFit t := by
  intro f
  by_cases hf : f = .mr0
  · subst hf; exact fits_widen _ _ _ (fits_active t.cfg _)
  · rw [hr f hf, hc]; exact h f

/-- So does the result of an ALU or multiplier word. -/
theorem regsFit_putResult {c : Sys2Proof.Config} (w : AluWrite c) (s : State) (hc : s.cfg = c) (h : RegsFit s) :
    RegsFit (putResult w s) := by
  subst hc
  intro f
  by_cases hf : f ∈ AluWrite.cells w
  · have : (putResult w s).cfg = s.cfg := by cases w <;> rfl
    rw [this]
    cases w with
    | none => cases hf
    | reg r v =>
      have h1 : ∀ q, fits s.cfg.n ((s.regs.write s.cfg r v).get q) := by
        intro q; rw [ARegs.get_write]; split
        · exact fits_setWidth _ _
        · exact h (.areg q)
      have h2 : ∀ x, fits s.cfg.g ((s.regs.write s.cfg r v).guard x) := by
        intro q; rw [ARegs.guard_write]; split
        · exact fits_setWidth _ _
        · exact (fits_narrow _ 64 _ (by omega)).mp (h (.guard q))
      cases f with
      | areg q => exact h1 _
      | guard q => exact fits_widen _ _ _ (h2 _)
      | _ => exact h _
    | acc x v =>
      have h1 : ∀ q, fits s.cfg.n ((s.regs.writeAccum s.cfg x v).get q) := by
        intro q; rw [ARegs.get_writeAccum]; repeat' split
        · exact fits_trunc _ _
        · exact fits_trunc _ _
        · exact h (.areg q)
      have h2 : ∀ q, fits s.cfg.g ((s.regs.writeAccum s.cfg x v).guard q) := by
        intro q; rw [ARegs.guard_writeAccum]; split
        · exact fits_trunc _ _
        · exact (fits_narrow _ 64 _ (by omega)).mp (h (.guard q))
      cases f with
      | areg q => exact h1 _
      | guard q => exact fits_widen _ _ _ (h2 _)
      | _ => exact h _
  · rw [regValue_putResult w f s hf]
    have : (putResult w s).cfg = s.cfg := by cases w <;> rfl
    rw [this]; exact h f

/-- So does an index register's update by a value of da bits. -/
theorem regsFit_putIndex (x : Option (IReg × DAddr)) (s : State) (hx : ∀ r v, x = some (r, v) → fits s.cfg.da v)
    (h : RegsFit s) : RegsFit (putIndex x s) := by
  rcases x with _ | ⟨r, v⟩
  · exact h
  · intro f
    cases f with
    | ireg q =>
      show fits s.cfg.da (((s.idx.put r v).get q).setWidth 64)
      rw [IRegs.get_put]; split
      · exact fits_widen _ _ _ (hx r v rfl)
      · exact h (.ireg q)
    | _ => exact h _

/-- The value post-modification writes has da bits. -/
theorem postOut_fits (s : State) (ix : IReg) (p : Post) (q : PostOut) (h : postOf s ix p = .ok q) :
    ∀ v, q.index = some v → fits s.cfg.da v := by
  cases p with
  | step k =>
    simp only [postOf, postModify, Except.ok.injEq] at h
    subst h
    intro v hv
    split at hv
    · cases hv
    · rw [← Option.some.inj hv]; exact fits_setWidth _ _
  | byPair =>
    simp only [postOf, postModify] at h
    unfold pairPost moduloPost at h
    repeat' split at h
    all_goals simp only [require_ok, Except.ok.injEq, reduceCtorEq] at h
    all_goals first
      | (subst h; intro v hv; rw [← Option.some.inj hv]; exact fits_setWidth _ _)
      | (obtain ⟨_, h⟩ := h; subst h; intro v hv; rw [← Option.some.inj hv]; exact fits_setWidth _ _)
      | (obtain ⟨_, _, h⟩ := h; repeat' split at h
         all_goals (subst h; intro v hv; rw [← Option.some.inj hv]; exact fits_setWidth _ _))

/-- The index value of a bus's move has da bits. -/
theorem move_index_fits (bus : Space) (b : BusMove) (s : State) (f : MoveFx) (h : moveFx bus b s = .ok f) :
    ∀ r v, f.index = some (r, v) → fits s.cfg.da v := by
  intro r v hv
  have po : ∀ (m : FullMove) p st ld, postOf s m.ix m.post = .ok p → f = MoveFx.ofPost m.ix p st ld →
      fits s.cfg.da v := by
    intro m p st ld hp e
    subst e
    simp only [MoveFx.ofPost, Option.map_eq_some_iff] at hv
    obtain ⟨w, hw, he⟩ := hv
    cases he
    exact postOut_fits _ _ _ _ hp _ hw
  unfold moveFx at h
  split at h
  · rw [← Except.ok.inj h] at hv; cases hv
  · split at h
    · rename_i m _ _
      unfold loadFx at h
      split at h
      · rw [andThen_ok] at h; obtain ⟨_, _, h⟩ := h; rw [← Except.ok.inj h] at hv; cases hv
      · rw [andThen_ok] at h; obtain ⟨p, hp, h⟩ := h
        split at h
        · rw [andThen_ok] at h; obtain ⟨_, _, h⟩ := h; exact po m p _ _ hp (Except.ok.inj h).symm
        · rw [andThen_ok] at h; obtain ⟨_, _, h⟩ := h; rw [andThen_ok] at h; obtain ⟨_, _, h⟩ := h
          exact po m p _ _ hp (Except.ok.inj h).symm
    · rename_i m _ _
      unfold storeFx at h
      rw [andThen_ok] at h; obtain ⟨_, _, h⟩ := h; rw [andThen_ok] at h; obtain ⟨p, hp, h⟩ := h
      rw [andThen_ok] at h; obtain ⟨_, _, h⟩ := h
      exact po m p _ _ hp (Except.ok.inj h).symm
  · unfold regMoveFx at h
    rw [andThen_ok] at h; obtain ⟨_, _, h⟩ := h; rw [andThen_ok] at h; obtain ⟨_, _, h⟩ := h
    rw [← Except.ok.inj h] at hv; cases hv

/-- A word's effects keep every register within its width. -/
theorem regsFit_applyWord {c : Sys2Proof.Config} (a : AluFx c) (x y : MoveFx) (s : State)
    (hc : s.cfg = c) (h : RegsFit s) (hx : ∀ r v, x.index = some (r, v) → fits s.cfg.da v)
    (hy : ∀ r v, y.index = some (r, v) → fits s.cfg.da v) :
    RegsFit (applyWord a x y s) := by
  have pl : ∀ l u, RegsFit u → RegsFit (putLoad l u) := by
    intro l u hu
    rcases l with _ | ⟨r, v⟩
    · exact hu
    · exact regsFit_writeReg r v u hu
  have pm : ∀ bus (m : MoveFx) u, u.cfg = s.cfg →
      (∀ r v, m.index = some (r, v) → fits s.cfg.da v) → RegsFit u → RegsFit (putMove bus m u) := by
    intro bus m u hu hm hr
    have h1 := regsFit_putIndex m.index u (by rw [hu]; exact hm) hr
    have h2 : RegsFit (putIndexFlag bus m.flag (putIndex m.index u)) :=
      regsFit_congr _ _ (by simp) h1 (fun f hf => regValue_putIndexFlag bus _ f _ hf)
    refine regsFit_congr (putIndexFlag bus m.flag (putIndex m.index u)) _ (by simp [putMove]) h2 (fun f hf => ?_)
    exact regValue_putStore bus _ f _
  have pa : RegsFit (putAlu a s) := by
    have h1 := regsFit_putResult a.result s hc h
    have h2 : RegsFit (putFlags a.flags (putResult a.result s)) :=
      regsFit_congr _ _ (by simp) h1 (fun f hf => regValue_putFlags _ f _ hf)
    exact regsFit_congr _ _ (by simp [putAlu]) h2 (fun f hf => regValue_putProduct _ f _)
  exact pl _ _ (pl _ _ (pm _ _ _ (by simp) hy (pm _ _ _ (by simp) hx pa)))

/-- A word's effects keep P within 2n bits. -/
theorem fits_p_applyWord {c : Sys2Proof.Config} (a : AluFx c) (x y : MoveFx) (s : State) (h : fits c.productWidth s.p) :
    fits c.productWidth (applyWord a x y s).p := by
  rw [p_applyWord]
  cases a.product with
  | none => exact h
  | some q => exact fits_setWidth _ _

/-- exec keeps every register, P, the fetch address and DE within their widths. -/
theorem exec_fits (i : Instr) (s u : State) (he : exec i s = .next u) (h : RegsFit s) (hp : fits s.cfg.productWidth s.p)
    (hpc : fits s.cfg.pa s.pc) (hs : ∀ d, s.de = some d → slotFits s.cfg d) :
    RegsFit u ∧ fits s.cfg.productWidth u.p ∧ fits s.cfg.pa u.pc ∧ (∀ d, u.de = some d → slotFits s.cfg d) := by
  have nar : ∀ v : PAddr, fits s.cfg.pa (v.setWidth 64 : Word) → fits s.cfg.pa v :=
    fun v => (fits_narrow _ 64 v (by omega)).mp
  have a0 : ∀ {w} (a : BitVec w), fits s.cfg.pa (addressOf s.cfg a) := fun a => fits_trunc _ _
  have pg : ∀ ix, fits s.cfg.pa (pageOf s ix) := fun ix => fits_trunc _ _
  have C2 : ∀ u : State, u.cfg = s.cfg → u.regs = s.regs → u.idx = s.idx → u.lr1 = s.lr1 → u.mr1 = s.mr1 →
      u.ipr1 = s.ipr1 → fits s.cfg.pa u.lr0 → fits s.cfg.pa u.ipr0 → fits s.cfg.pa u.ls →
      fits s.cfg.pa u.le → fits s.cfg.pa u.lc → RegsFit u := by
    intro u e0 e1 e2 e3 e4 e5 h1 h2 h3 h4 h5 f
    rw [e0]
    cases f with
    | areg r => have := h (.areg r); simpa [State.regValue, e1] using this
    | guard r => have := h (.guard r); simpa [State.regValue, e1] using this
    | ireg r => have := h (.ireg r); simpa [State.regValue, e2] using this
    | lr1 => have := h .lr1; simpa [State.regValue, e3] using this
    | mr0 => rw [← e0]; exact fits_widen _ _ _ (fits_active u.cfg _)
    | mr1 => rw [← e0]; exact fits_widen _ _ _ (fits_active u.cfg _)
    | ipr1 => have := h .ipr1; simpa [State.regValue, e5] using this
    | null => exact fits_zero _ _
    | nop => exact fits_zero _ _
    | lr0 => exact fits_widen _ _ _ h1
    | ipr0 => exact fits_widen _ _ _ h2
    | ls => exact fits_widen _ _ _ h3
    | le => exact fits_widen _ _ _ h4
    | lc => exact fits_widen _ _ _ h5
  have l0 := nar _ (h .lr0); have l1 := nar _ (h .lr1)
  have p0 := nar _ (h .ipr0); have q1 := nar _ (h .ls); have q2 := nar _ (h .le); have q3 := nar _ (h .lc)
  have jt : ∀ cnd (t : PAddr), fits s.cfg.pa t → fits s.cfg.pa (if Cond.holds cnd s then t else s.pc) := by
    intro cnd t ht; split
    · exact ht
    · exact hpc
  rcases exec_kinds i s u he with
    ⟨a, x, y, ha, hx, hy, _, _, hw, hc, rfl⟩ | ⟨imm, reg, rfl⟩ | hc | ⟨a, st, r, rfl⟩ | rfl
  · refine ⟨regsFit_applyWord a x y s rfl h (move_index_fits _ _ _ _ hx) (move_index_fits _ _ _ _ hy),
      fits_p_applyWord a x y s hp, ?_, ?_⟩
    · simpa using hpc
    · simpa using hs
  · obtain ⟨_, _, rfl⟩ := (exec_ldc _ _ _ _).mp he
    refine ⟨regsFit_writeReg _ _ _ h, ?_, ?_, ?_⟩
    · cases reg <;> exact hp
    · cases reg <;> exact hpc
    · cases reg <;> exact hs
  · cases i
    all_goals first
      | exact absurd hc Bool.false_ne_true
      | (obtain ⟨_, rfl⟩ := (exec_jcc _ _ _ _).mp he
         exact ⟨C2 _ rfl rfl rfl rfl rfl rfl l0 p0 q1 q2 q3, hp, jt _ _ (a0 _), hs⟩)
      | (obtain ⟨_, rfl⟩ := (exec_callcc _ _ _ _).mp he
         exact ⟨C2 _ rfl rfl rfl rfl rfl rfl hpc p0 q1 q2 q3, hp, jt _ _ (a0 _), hs⟩)
      | (obtain ⟨_, rfl⟩ := (exec_jrcc _ _ _).mp he
         exact ⟨C2 _ rfl rfl rfl rfl rfl rfl l0 p0 q1 q2 q3, hp, jt _ _ l0, hs⟩)
      | (obtain ⟨_, rfl⟩ := (exec_jrccPage _ _ _ _).mp he
         refine ⟨C2 _ rfl rfl rfl rfl rfl rfl l0 ?_ q1 q2 q3, hp, jt _ _ l0, hs⟩
         simp only [withPage]; split
         · exact pg _
         · exact p0)
      | (obtain ⟨_, rfl⟩ := (exec_reti _ _).mp he; exact ⟨C2 _ rfl rfl rfl rfl rfl rfl l0 p0 q1 q2 q3, hp, l1, hs⟩)
      | (obtain ⟨_, rfl⟩ := (exec_retiPage _ _ _).mp he
         refine ⟨C2 _ rfl rfl rfl rfl rfl rfl l0 ?_ q1 q2 q3, hp, l1, hs⟩
         simp only [withPage]; split
         · exact pg _
         · exact p0)
      | (obtain ⟨_, n, _, rfl⟩ := (exec_loop _ _ _ _).mp he
         exact ⟨C2 _ rfl rfl rfl rfl rfl rfl l0 p0 hpc (a0 _) (fits_trunc _ _), hp, hpc, hs⟩)
  · obtain ⟨_, rfl⟩ := (exec_jmpi _ _ _ _ _).mp he
    refine ⟨?_, hp, a0 _, ?_⟩
    · intro f
      cases f with
      | ireg q =>
        show fits s.cfg.da (((s.idx.put r _).get q).setWidth 64)
        rw [IRegs.get_put]; split
        · rename_i e
          cases st with
          | none => exact h (.ireg r)
          | inc => exact fits_widen _ _ _ (fits_trunc _ _)
          | dec => exact fits_widen _ _ _ (fits_trunc _ _)
        · exact h (.ireg q)
      | ipr0 =>
        refine fits_widen _ _ _ ?_
        show fits s.cfg.pa (if s.cfg.hasIpr = true then 0 else s.ipr0)
        split
        · exact fits_zero _ _
        · exact p0
      | _ => exact h _
    · intro d hd
      simp only [State.cancelDe, Option.map_eq_some_iff] at hd
      obtain ⟨e, he, rfl⟩ := hd
      exact hs e he
  · have e := (exec_halt _ _).mp he
    subst e
    split <;> exact ⟨h, hp, hpc, hs⟩

end Sys2Proof.Machine
end

