-- ==== Sys2Proof/Laws/PerInstr.lean ====
section
/-! SUPPORT. The family RoundTrip: for each instruction, the word the encoder writes is read back by the decoder as the
instruction's canonical form (30_encoding.md R102 to R139). Class X has no word, so nothing to read back. -/

set_option Elab.async false

namespace Sys2Proof

/-- What the decoder does with an encoded instruction. -/
def Laws.RoundTrip.Statement (i : Instr) : Prop :=
  ∀ (c : Config) (w : IWord), c.encRecon = true → i.wellFormed c = true → encode i = some w →
    decode c w = .ok i.canonical

/-! ### One lemma per format -/

theorem decode_alu2 (c : Config) (w : IWord) (o : BitVec 4) (mk : AOp → AOp → AReg → PMove → Instr) (op1 op2 : AOp)
    (res : AReg) (pm : PMove) (hm : decodeFields w = decodeAlu2 mk w) (hw : encodeAlu2 o op1 op2 res pm = some w)
    (hp : pm.wellFormed c = true) : decodeFields w = .ok (mk op1 op2 res pm) := by
  simp only [encodeAlu2, Option.map_eq_some_iff] at hw
  obtain ⟨p, hc, hw⟩ := hw
  obtain ⟨_, _, _, e3, e4, e5, e6⟩ := fields_alu w _ _ _ _ _ hw.symm
  rw [hm, decodeAlu2, e3, e4, e5, e6, PMove.ofCode_code c pm p hc hp]
  simp

theorem alu2_select (o : BitVec 4) (op1 op2 : AOp) (res : AReg) (pm : PMove) (w : IWord)
    (hw : encodeAlu2 o op1 op2 res pm = some w) :
    w.extractLsb' 29 3 = o.extractLsb' 1 3 ∧ w.extractLsb' 28 4 = o := by
  simp only [encodeAlu2, Option.map_eq_some_iff] at hw
  obtain ⟨p, _, hw⟩ := hw
  obtain ⟨e0, e1, _⟩ := fields_alu w _ _ _ _ _ hw.symm
  exact ⟨e0, e1⟩

theorem decode_alu1 (c : Config) (w : IWord) (o : BitVec 4) (mk : AOp → AReg → PMove → Instr) (op : AOp)
    (res : AReg) (pm : PMove) (hm : decodeFields w = decodeAlu1 mk w) (hw : encodeAlu1 o op res pm = some w)
    (hp : pm.wellFormed c = true) : decodeFields w = .ok (mk op res pm) := by
  simp only [encodeAlu1, Option.map_eq_some_iff] at hw
  obtain ⟨p, hc, hw⟩ := hw
  obtain ⟨_, _, _, _, e4, e5, e6⟩ := fields_alu w _ _ _ _ _ hw.symm
  rw [hm, decodeAlu1, e4, e5, e6, PMove.ofCode_code c pm p hc hp]
  simp

theorem alu1_select (o : BitVec 4) (op : AOp) (res : AReg) (pm : PMove) (w : IWord)
    (hw : encodeAlu1 o op res pm = some w) :
    w.extractLsb' 29 3 = 7 ∧ w.extractLsb' 28 4 = 15 ∧ w.extractLsb' 25 3 = o.extractLsb' 1 3 ∧
      w.extractLsb' 24 4 = o := by
  simp only [encodeAlu1, Option.map_eq_some_iff] at hw
  obtain ⟨p, _, hw⟩ := hw
  obtain ⟨e0, e1, e2, e3, _⟩ := fields_alu w _ _ _ _ _ hw.symm
  exact ⟨e0, e1, e2, e3⟩

theorem decode_mac (c : Config) (w : IWord) (o : BitVec 4) (mk : AReg → AReg → MulMode → Acc → PMove → Instr)
    (op1 op2 : AReg) (mm : MulMode) (acc : Acc) (pm : PMove) (ho : o = 5 ∧ mk = .mac ∨ o = 7 ∧ mk = .msu)
    (hw : encodeMac o op1 op2 mm acc pm = some w) (hp : pm.wellFormed c = true) :
    decodeFields w = .ok (mk op1 op2 mm acc pm) := by
  simp only [encodeMac, Option.map_eq_some_iff] at hw
  obtain ⟨p, hc, hw⟩ := hw
  obtain ⟨e0, e1, e2, e3, e4, e5, e6⟩ := fields_mac w _ _ _ _ _ _ hw.symm
  rcases ho with ⟨rfl, rfl⟩ | ⟨rfl, rfl⟩ <;>
    simp [decodeFields, decodeMac, e0, e1, e2, e3, e4, e5, e6, PMove.ofCode_code c pm p hc hp]

theorem decode_mul (c : Config) (w : IWord) (mm : MulMode) (op1 op2 : AReg) (pm : PMove)
    (hw : encodeMul mm op1 op2 pm = some w) (hp : pm.wellFormed c = true) :
    decodeFields w = .ok (mm.instr op1 op2 pm) := by
  simp only [encodeMul, Option.map_eq_some_iff] at hw
  obtain ⟨p, hc, hw⟩ := hw
  obtain ⟨e0, e1, e2, e3, e4, e5, e6⟩ := fields_mul w _ _ _ _ _ hw.symm
  simp [decodeFields, decodeSingle, decodeMul, e0, e1, e2, e3, e4, e5, e6, PMove.ofCode_code c pm p hc hp]

theorem decode_nopAlu (c : Config) (w : IWord) (pm : PMove)
    (hw : (pm.code.map fun p => 0xF4#8 ++ 0#7 ++ p) = some w) (hp : pm.wellFormed c = true) :
    decodeFields w = .ok (.nopAlu pm) := by
  simp only [Option.map_eq_some_iff] at hw
  obtain ⟨p, hc, hw⟩ := hw
  obtain ⟨e0, e1, e2, e3, e4⟩ := fields_nop w _ _ _ hw.symm
  simp [decodeFields, decodeSingle, decodeAluNop, e0, e1, e2, e3, e4, PMove.ofCode_code c pm p hc hp]

theorem decode_double (w : IWord) (x y : FullMove) (hw : encodeDouble x y = w) (hx : x.post.wellFormed = true)
    (hy : y.post.wellFormed = true) : decodeFields w = .ok (doubleMove x y) := by
  obtain ⟨e0, e1, e2, e3⟩ := fields_double w _ _ _ hw.symm
  simp [decodeFields, decodeDouble, e0, e1, e2, e3, FullMove.ofCode_code _ hx, FullMove.ofCode_code _ hy]

theorem decode_jcc (w : IWord) (c : Cond) (addr : BitVec 18) (hw : encodeJump 0x28 c addr = w) :
    decodeFields w = .ok (.jcc c addr) := by
  obtain ⟨e0, e1, e2, e3, e4, e5⟩ := fields_jump w _ _ _ hw.symm
  simp [decodeFields, decodeControl, decodeJump, e0, e1, e2, e3, e4, e5]

theorem decode_callcc (w : IWord) (c : Cond) (addr : BitVec 18) (hw : encodeJump 0x29 c addr = w) :
    decodeFields w = .ok (.callcc c addr) := by
  obtain ⟨e0, e1, e2, e3, e4, e5⟩ := fields_jump w _ _ _ hw.symm
  simp [decodeFields, decodeControl, decodeJump, e0, e1, e2, e3, e4, e5]

theorem decode_jrcc (w : IWord) (c : Cond) (hw : 0x20#8 ++ 0#18 ++ c.code = w) :
    decodeFields w = .ok (.jrcc c) := by
  obtain ⟨e0, e1, e2, e3, e4, e5⟩ := fields_jump w _ _ _ hw.symm
  simp [decodeFields, decodeControl, decodeJr, e0, e1, e2, e3, e4, e5]

theorem decode_ldc (w : IWord) (imm : BitVec 23) (reg : FReg) (hw : 0#3 ++ imm ++ reg.code = w) :
    decodeFields w = .ok (ldcOrNop imm reg) := by
  obtain ⟨e0, e1, e2⟩ := fields_ldc w _ _ _ hw.symm
  simp [decodeFields, decodeLdc, e0, e1, e2]

/-! ### The canonical form exists where the instruction does -/

theorem doubleMove_wellFormed (c : Config) (x y : FullMove) (hx : x.wellFormed c .x = true)
    (hy : y.wellFormed c .y = true) : (doubleMove x y).wellFormed c = true := by
  obtain ⟨xd, xi, xp, xr⟩ := x
  obtain ⟨yd, yi, yp, yr⟩ := y
  unfold doubleMove
  split
  · cases yd <;> simpa [Instr.wellFormed] using hy
  · cases xd <;> simp [Instr.wellFormed, hx, hy]

theorem nop_wellFormed (c : Config) (bus : Space) : FullMove.nop.wellFormed c bus = true := by
  simp [FullMove.nop, FullMove.wellFormed, Post.wellFormed, FReg.legalTarget, FReg.available, FReg.isPage]

theorem nopPar_wellFormed (c : Config) : PMove.nop.wellFormed c = true := nop_wellFormed c .x

theorem canonical_not (op : AOp) (res : AReg) (pm : PMove) :
    (Instr.not op res pm).canonical = if op = .p then .xor .ones .p res pm else .xor op .ones res pm := rfl

theorem not_wellFormed (c : Config) (op : AOp) (res : AReg) (pm : PMove)
    (h : wellFormedAlu2 c .ones op res pm = true) :
    (if op = .p then Instr.xor .ones .p res pm else Instr.xor op .ones res pm).wellFormed c = true := by
  simp only [wellFormedAlu2, Bool.and_eq_true] at h
  obtain ⟨⟨⟨_, h2⟩, h3⟩, h4⟩ := h
  by_cases e : op = .p
  · subst e
    rw [if_pos rfl]
    simp only [Instr.wellFormed, wellFormedAlu2, Bool.and_eq_true]
    exact ⟨⟨⟨rfl, rfl⟩, h3⟩, h4⟩
  · rw [if_neg e]
    simp only [Instr.wellFormed, wellFormedAlu2, Bool.and_eq_true]
    rw [Bool.or_comm] at h3
    exact ⟨⟨⟨by simp [AOp.legalOp1, e, h2], rfl⟩, h3⟩, h4⟩

theorem ldcOrNop_wellFormed (c : Config) (imm : BitVec 23) (reg : FReg) (h : reg.legalTarget c = true) :
    (ldcOrNop imm reg).wellFormed c = true := by
  unfold ldcOrNop
  split
  · rfl
  · exact h

/-- The canonical form of an instruction exists where the instruction does. -/
theorem canonical_wellFormed (c : Config) (i : Instr) (h : i.wellFormed c = true) :
    i.canonical.wellFormed c = true := by
  cases i with
  | not op res pm => rw [canonical_not]; exact not_wellFormed c op res pm h
  | ldc imm reg => exact ldcOrNop_wellFormed c imm reg h
  | ldxDbl ix post dst other =>
    simp only [Instr.wellFormed, Bool.and_eq_true] at h
    exact doubleMove_wellFormed c _ _ h.1 h.2
  | ldyShort ix mod dst other =>
    simp only [Instr.wellFormed, Bool.and_eq_true] at h
    exact Bool.and_eq_true _ _ |>.mpr ⟨h.2, h.1⟩
  | styShort ix mod src other =>
    simp only [Instr.wellFormed, Bool.and_eq_true] at h
    exact Bool.and_eq_true _ _ |>.mpr ⟨h.2, h.1⟩
  | nopPar => exact nopPar_wellFormed c
  | _ => exact h

/-! ### One lemma per instruction -/

theorem Laws.RoundTrip.add (op1 op2 : AOp) (res : AReg) (pm : PMove) :
    Laws.RoundTrip.Statement (.add op1 op2 res pm) := by
  intro c w he h hw
  refine decode_of_fields c w _ ?_ he (canonical_wellFormed c _ h)
  simp only [Instr.wellFormed, wellFormedAlu2, Bool.and_eq_true] at h
  obtain ⟨e0, e1⟩ := alu2_select _ _ _ _ _ _ hw
  exact decode_alu2 c w _ _ op1 op2 res pm (by simp [decodeFields, e0, e1]) hw h.2

theorem Laws.RoundTrip.addc (op1 op2 : AOp) (res : AReg) (pm : PMove) :
    Laws.RoundTrip.Statement (.addc op1 op2 res pm) := by
  intro c w he h hw
  refine decode_of_fields c w _ ?_ he (canonical_wellFormed c _ h)
  simp only [Instr.wellFormed, wellFormedAlu2, Bool.and_eq_true] at h
  obtain ⟨e0, e1⟩ := alu2_select _ _ _ _ _ _ hw
  exact decode_alu2 c w _ _ op1 op2 res pm (by simp [decodeFields, e0, e1]) hw h.2

theorem Laws.RoundTrip.sub (op1 op2 : AOp) (res : AReg) (pm : PMove) :
    Laws.RoundTrip.Statement (.sub op1 op2 res pm) := by
  intro c w he h hw
  refine decode_of_fields c w _ ?_ he (canonical_wellFormed c _ h)
  simp only [Instr.wellFormed, wellFormedAlu2, Bool.and_eq_true] at h
  obtain ⟨e0, e1⟩ := alu2_select _ _ _ _ _ _ hw
  exact decode_alu2 c w _ _ op1 op2 res pm (by simp [decodeFields, e0, e1]) hw h.2

theorem Laws.RoundTrip.subc (op1 op2 : AOp) (res : AReg) (pm : PMove) :
    Laws.RoundTrip.Statement (.subc op1 op2 res pm) := by
  intro c w he h hw
  refine decode_of_fields c w _ ?_ he (canonical_wellFormed c _ h)
  simp only [Instr.wellFormed, wellFormedAlu2, Bool.and_eq_true] at h
  obtain ⟨e0, e1⟩ := alu2_select _ _ _ _ _ _ hw
  exact decode_alu2 c w _ _ op1 op2 res pm (by simp [decodeFields, e0, e1]) hw h.2

theorem Laws.RoundTrip.and (op1 op2 : AOp) (res : AReg) (pm : PMove) :
    Laws.RoundTrip.Statement (.and op1 op2 res pm) := by
  intro c w he h hw
  refine decode_of_fields c w _ ?_ he (canonical_wellFormed c _ h)
  simp only [Instr.wellFormed, wellFormedAlu2, Bool.and_eq_true] at h
  obtain ⟨e0, e1⟩ := alu2_select _ _ _ _ _ _ hw
  exact decode_alu2 c w _ _ op1 op2 res pm (by simp [decodeFields, e0, e1]) hw h.2

theorem Laws.RoundTrip.or (op1 op2 : AOp) (res : AReg) (pm : PMove) :
    Laws.RoundTrip.Statement (.or op1 op2 res pm) := by
  intro c w he h hw
  refine decode_of_fields c w _ ?_ he (canonical_wellFormed c _ h)
  simp only [Instr.wellFormed, wellFormedAlu2, Bool.and_eq_true] at h
  obtain ⟨e0, e1⟩ := alu2_select _ _ _ _ _ _ hw
  exact decode_alu2 c w _ _ op1 op2 res pm (by simp [decodeFields, e0, e1]) hw h.2

theorem Laws.RoundTrip.xor (op1 op2 : AOp) (res : AReg) (pm : PMove) :
    Laws.RoundTrip.Statement (.xor op1 op2 res pm) := by
  intro c w he h hw
  refine decode_of_fields c w _ ?_ he (canonical_wellFormed c _ h)
  simp only [Instr.wellFormed, wellFormedAlu2, Bool.and_eq_true] at h
  obtain ⟨e0, e1⟩ := alu2_select _ _ _ _ _ _ hw
  exact decode_alu2 c w _ _ op1 op2 res pm (by simp [decodeFields, e0, e1]) hw h.2

theorem Laws.RoundTrip.lsl (op : AOp) (res : AReg) (pm : PMove) : Laws.RoundTrip.Statement (.lsl op res pm) := by
  intro c w he h hw
  refine decode_of_fields c w _ ?_ he (canonical_wellFormed c _ h)
  simp only [Instr.wellFormed, wellFormedAlu2, Bool.and_eq_true] at h
  obtain ⟨e0, e1⟩ := alu2_select _ _ _ _ _ _ hw
  exact decode_alu2 c w _ _ op op res pm (by simp [decodeFields, e0, e1]) hw h.2

theorem Laws.RoundTrip.lslc (op : AOp) (res : AReg) (pm : PMove) : Laws.RoundTrip.Statement (.lslc op res pm) := by
  intro c w he h hw
  refine decode_of_fields c w _ ?_ he (canonical_wellFormed c _ h)
  simp only [Instr.wellFormed, wellFormedAlu2, Bool.and_eq_true] at h
  obtain ⟨e0, e1⟩ := alu2_select _ _ _ _ _ _ hw
  exact decode_alu2 c w _ _ op op res pm (by simp [decodeFields, e0, e1]) hw h.2

theorem Laws.RoundTrip.not (op : AOp) (res : AReg) (pm : PMove) : Laws.RoundTrip.Statement (.not op res pm) := by
  intro c w he h hw
  refine decode_of_fields c w _ ?_ he (canonical_wellFormed c _ h)
  simp only [Instr.wellFormed, wellFormedAlu2, Bool.and_eq_true] at h
  simp only [encode, encodeNot] at hw
  rw [canonical_not]
  split at hw
  · obtain ⟨e0, e1⟩ := alu2_select _ _ _ _ _ _ hw
    rename_i e
    rw [if_pos e]
    exact decode_alu2 c w _ _ _ _ res pm (by simp [decodeFields, e0, e1]) hw h.2
  · obtain ⟨e0, e1⟩ := alu2_select _ _ _ _ _ _ hw
    rename_i e
    rw [if_neg e]
    exact decode_alu2 c w _ _ _ _ res pm (by simp [decodeFields, e0, e1]) hw h.2

theorem Laws.RoundTrip.abs (op : AOp) (res : AReg) (pm : PMove) : Laws.RoundTrip.Statement (.abs op res pm) := by
  intro c w he h hw
  refine decode_of_fields c w _ ?_ he (canonical_wellFormed c _ h)
  simp only [Instr.wellFormed, wellFormedAlu1, Bool.and_eq_true] at h
  obtain ⟨e0, e1, e2, e3⟩ := alu1_select _ _ _ _ _ hw
  exact decode_alu1 c w _ _ op res pm (by simp [decodeFields, decodeSingle, e0, e1, e2, e3]) hw h.2

theorem Laws.RoundTrip.asr (op : AOp) (res : AReg) (pm : PMove) : Laws.RoundTrip.Statement (.asr op res pm) := by
  intro c w he h hw
  refine decode_of_fields c w _ ?_ he (canonical_wellFormed c _ h)
  simp only [Instr.wellFormed, wellFormedAlu1, Bool.and_eq_true] at h
  obtain ⟨e0, e1, e2, e3⟩ := alu1_select _ _ _ _ _ hw
  exact decode_alu1 c w _ _ op res pm (by simp [decodeFields, decodeSingle, e0, e1, e2, e3]) hw h.2

theorem Laws.RoundTrip.lsr (op : AOp) (res : AReg) (pm : PMove) : Laws.RoundTrip.Statement (.lsr op res pm) := by
  intro c w he h hw
  refine decode_of_fields c w _ ?_ he (canonical_wellFormed c _ h)
  simp only [Instr.wellFormed, wellFormedAlu1, Bool.and_eq_true] at h
  obtain ⟨e0, e1, e2, e3⟩ := alu1_select _ _ _ _ _ hw
  exact decode_alu1 c w _ _ op res pm (by simp [decodeFields, decodeSingle, e0, e1, e2, e3]) hw h.2

theorem Laws.RoundTrip.lsrc (op : AOp) (res : AReg) (pm : PMove) : Laws.RoundTrip.Statement (.lsrc op res pm) := by
  intro c w he h hw
  refine decode_of_fields c w _ ?_ he (canonical_wellFormed c _ h)
  simp only [Instr.wellFormed, wellFormedAlu1, Bool.and_eq_true] at h
  obtain ⟨e0, e1, e2, e3⟩ := alu1_select _ _ _ _ _ hw
  exact decode_alu1 c w _ _ op res pm (by simp [decodeFields, decodeSingle, e0, e1, e2, e3]) hw h.2

theorem Laws.RoundTrip.nopAlu (pm : PMove) : Laws.RoundTrip.Statement (.nopAlu pm) := by
  intro c w he h hw
  refine decode_of_fields c w _ ?_ he (canonical_wellFormed c _ h)
  exact decode_nopAlu c w pm hw h

theorem Laws.RoundTrip.mac (op1 op2 : AReg) (mm : MulMode) (acc : Acc) (pm : PMove) :
    Laws.RoundTrip.Statement (.mac op1 op2 mm acc pm) := by
  intro c w he h hw
  refine decode_of_fields c w _ ?_ he (canonical_wellFormed c _ h)
  simp only [Instr.wellFormed, wellFormedMul, Bool.and_eq_true] at h
  exact decode_mac c w _ _ op1 op2 mm acc pm (by simp) hw h.1.2

theorem Laws.RoundTrip.msu (op1 op2 : AReg) (mm : MulMode) (acc : Acc) (pm : PMove) :
    Laws.RoundTrip.Statement (.msu op1 op2 mm acc pm) := by
  intro c w he h hw
  refine decode_of_fields c w _ ?_ he (canonical_wellFormed c _ h)
  simp only [Instr.wellFormed, wellFormedMul, Bool.and_eq_true] at h
  exact decode_mac c w _ _ op1 op2 mm acc pm (by simp) hw h.1.2

theorem Laws.RoundTrip.mulss (op1 op2 : AReg) (pm : PMove) : Laws.RoundTrip.Statement (.mulss op1 op2 pm) := by
  intro c w he h hw
  refine decode_of_fields c w _ ?_ he (canonical_wellFormed c _ h)
  simp only [Instr.wellFormed, wellFormedMul, Bool.and_eq_true] at h
  exact decode_mul c w .ss op1 op2 pm hw h.2

theorem Laws.RoundTrip.mulsu (op1 op2 : AReg) (pm : PMove) : Laws.RoundTrip.Statement (.mulsu op1 op2 pm) := by
  intro c w he h hw
  refine decode_of_fields c w _ ?_ he (canonical_wellFormed c _ h)
  simp only [Instr.wellFormed, wellFormedMul, Bool.and_eq_true] at h
  exact decode_mul c w .su op1 op2 pm hw h.2

theorem Laws.RoundTrip.mulus (op1 op2 : AReg) (pm : PMove) : Laws.RoundTrip.Statement (.mulus op1 op2 pm) := by
  intro c w he h hw
  refine decode_of_fields c w _ ?_ he (canonical_wellFormed c _ h)
  simp only [Instr.wellFormed, wellFormedMul, Bool.and_eq_true] at h
  exact decode_mul c w .us op1 op2 pm hw h.2

theorem Laws.RoundTrip.muluu (op1 op2 : AReg) (pm : PMove) : Laws.RoundTrip.Statement (.muluu op1 op2 pm) := by
  intro c w he h hw
  refine decode_of_fields c w _ ?_ he (canonical_wellFormed c _ h)
  simp only [Instr.wellFormed, wellFormedMul, Bool.and_eq_true] at h
  exact decode_mul c w .uu op1 op2 pm hw h.2

theorem Laws.RoundTrip.resp (op1 op2 : AReg) : Laws.RoundTrip.Statement (.resp op1 op2) := by
  intro c w he h hw
  refine decode_of_fields c w _ ?_ he (canonical_wellFormed c _ h)
  simp only [encode, Option.some.injEq] at hw
  obtain ⟨e0, e1, e2, e3, e4, e5⟩ := fields_resp w _ _ _ _ _ hw.symm
  have e : decodeFields w = .ok (.resp op1 op2) := by
    simp [decodeFields, decodeControl, decodeResp, e0, e1, e2, e3, e4, e5]
  exact e

theorem Laws.RoundTrip.ldc (imm : BitVec 23) (reg : FReg) : Laws.RoundTrip.Statement (.ldc imm reg) := by
  intro c w he h hw
  refine decode_of_fields c w _ ?_ he (canonical_wellFormed c _ h)
  simp only [encode, Option.some.injEq] at hw
  exact decode_ldc w imm reg hw

theorem Laws.RoundTrip.nop (imm : BitVec 23) : Laws.RoundTrip.Statement (.nop imm) := by
  intro c w he h hw
  refine decode_of_fields c w _ ?_ he (canonical_wellFormed c _ h)
  simp only [encode, Option.some.injEq] at hw
  exact decode_ldc w imm .nop hw

theorem Laws.RoundTrip.ldxPar (ix : IReg) (post : Post) (r : FReg) : Laws.RoundTrip.Statement (.ldxPar ix post r) := by
  intro c w he h hw
  refine decode_of_fields c w _ ?_ he (canonical_wellFormed c _ h)
  exact decode_nopAlu c w _ hw h

theorem Laws.RoundTrip.ldyPar (ix : IReg) (post : Post) (r : FReg) : Laws.RoundTrip.Statement (.ldyPar ix post r) := by
  intro c w he h hw
  refine decode_of_fields c w _ ?_ he (canonical_wellFormed c _ h)
  exact decode_nopAlu c w _ hw h

theorem Laws.RoundTrip.stxPar (ix : IReg) (post : Post) (r : FReg) : Laws.RoundTrip.Statement (.stxPar ix post r) := by
  intro c w he h hw
  refine decode_of_fields c w _ ?_ he (canonical_wellFormed c _ h)
  exact decode_nopAlu c w _ hw h

theorem Laws.RoundTrip.styPar (ix : IReg) (post : Post) (r : FReg) : Laws.RoundTrip.Statement (.styPar ix post r) := by
  intro c w he h hw
  refine decode_of_fields c w _ ?_ he (canonical_wellFormed c _ h)
  exact decode_nopAlu c w _ hw h

theorem Laws.RoundTrip.ldxShort (ix : IReg) (mod : Bool) (r : AReg) (other : ShortMove) :
    Laws.RoundTrip.Statement (.ldxShort ix mod r other) := by
  intro c w he h hw
  refine decode_of_fields c w _ ?_ he (canonical_wellFormed c _ h)
  simp only [Instr.wellFormed, Bool.and_eq_true] at h
  exact decode_nopAlu c w _ hw (by rw [PMove.wellFormed, h.2]; simpa [ShortMove.wellFormed] using h.1)

theorem Laws.RoundTrip.ldyShort (ix : IReg) (mod : Bool) (r : AReg) (other : ShortMove) :
    Laws.RoundTrip.Statement (.ldyShort ix mod r other) := by
  intro c w he h hw
  refine decode_of_fields c w _ ?_ he (canonical_wellFormed c _ h)
  simp only [Instr.wellFormed, Bool.and_eq_true] at h
  exact decode_nopAlu c w _ hw (by rw [PMove.wellFormed, h.2]; simpa [ShortMove.wellFormed] using h.1)

theorem Laws.RoundTrip.stxShort (ix : IReg) (mod : Bool) (r : AReg) (other : ShortMove) :
    Laws.RoundTrip.Statement (.stxShort ix mod r other) := by
  intro c w he h hw
  refine decode_of_fields c w _ ?_ he (canonical_wellFormed c _ h)
  simp only [Instr.wellFormed, Bool.and_eq_true] at h
  exact decode_nopAlu c w _ hw (by rw [PMove.wellFormed, h.2]; simpa [ShortMove.wellFormed] using h.1)

theorem Laws.RoundTrip.styShort (ix : IReg) (mod : Bool) (r : AReg) (other : ShortMove) :
    Laws.RoundTrip.Statement (.styShort ix mod r other) := by
  intro c w he h hw
  refine decode_of_fields c w _ ?_ he (canonical_wellFormed c _ h)
  simp only [Instr.wellFormed, Bool.and_eq_true] at h
  exact decode_nopAlu c w _ hw (by rw [PMove.wellFormed, h.2]; simpa [ShortMove.wellFormed] using h.1)

theorem Laws.RoundTrip.ldxDbl (ix : IReg) (post : Post) (r : FReg) (other : FullMove) :
    Laws.RoundTrip.Statement (.ldxDbl ix post r other) := by
  intro c w he h hw
  refine decode_of_fields c w _ ?_ he (canonical_wellFormed c _ h)
  simp only [Instr.wellFormed, Bool.and_eq_true] at h
  simp only [encode, Option.some.injEq] at hw
  exact decode_double w _ _ hw (FullMove.post_wellFormed c .x _ h.1) (FullMove.post_wellFormed c .y _ h.2)

theorem Laws.RoundTrip.stxDbl (ix : IReg) (post : Post) (r : FReg) (other : FullMove) :
    Laws.RoundTrip.Statement (.stxDbl ix post r other) := by
  intro c w he h hw
  refine decode_of_fields c w _ ?_ he (canonical_wellFormed c _ h)
  simp only [Instr.wellFormed, Bool.and_eq_true] at h
  simp only [encode, Option.some.injEq] at hw
  exact decode_double w _ _ hw (FullMove.post_wellFormed c .x _ h.1) (FullMove.post_wellFormed c .y _ h.2)

theorem Laws.RoundTrip.ldyDbl (ix : IReg) (post : Post) (r : FReg) :
    Laws.RoundTrip.Statement (.ldyDbl ix post r) := by
  intro c w he h hw
  refine decode_of_fields c w _ ?_ he (canonical_wellFormed c _ h)
  simp only [encode, Option.some.injEq] at hw
  exact decode_double w _ _ hw rfl (FullMove.post_wellFormed c .y _ h)

theorem Laws.RoundTrip.styDbl (ix : IReg) (post : Post) (r : FReg) :
    Laws.RoundTrip.Statement (.styDbl ix post r) := by
  intro c w he h hw
  refine decode_of_fields c w _ ?_ he (canonical_wellFormed c _ h)
  simp only [encode, Option.some.injEq] at hw
  exact decode_double w _ _ hw rfl (FullMove.post_wellFormed c .y _ h)

theorem Laws.RoundTrip.nopPar : Laws.RoundTrip.Statement .nopPar := by
  intro c w he h hw
  refine decode_of_fields c w _ ?_ he (canonical_wellFormed c _ h)
  exact decode_nopAlu c w _ hw (nopPar_wellFormed c)

theorem Laws.RoundTrip.mvxPar (src dst : FReg) : Laws.RoundTrip.Statement (.mvxPar src dst) := by
  intro c w he h hw
  refine decode_of_fields c w _ ?_ he (canonical_wellFormed c _ h)
  simp [encode] at hw

theorem Laws.RoundTrip.mvxDbl (xsrc xdst ysrc ydst : FReg) :
    Laws.RoundTrip.Statement (.mvxDbl xsrc xdst ysrc ydst) := by
  intro c w he h hw
  refine decode_of_fields c w _ ?_ he (canonical_wellFormed c _ h)
  simp [encode] at hw

theorem Laws.RoundTrip.mvyDbl (src dst : FReg) : Laws.RoundTrip.Statement (.mvyDbl src dst) := by
  intro c w he h hw
  refine decode_of_fields c w _ ?_ he (canonical_wellFormed c _ h)
  simp [encode] at hw

theorem Laws.RoundTrip.jcc (cond : Cond) (addr : BitVec 18) : Laws.RoundTrip.Statement (.jcc cond addr) := by
  intro c w he h hw
  refine decode_of_fields c w _ ?_ he (canonical_wellFormed c _ h)
  simp only [encode, Option.some.injEq] at hw
  exact decode_jcc w cond addr hw

theorem Laws.RoundTrip.j (addr : BitVec 18) : Laws.RoundTrip.Statement (.j addr) := by
  intro c w he h hw
  refine decode_of_fields c w _ ?_ he (canonical_wellFormed c _ h)
  simp only [encode, Option.some.injEq] at hw
  exact decode_jcc w .always addr hw

theorem Laws.RoundTrip.callcc (cond : Cond) (addr : BitVec 18) : Laws.RoundTrip.Statement (.callcc cond addr) := by
  intro c w he h hw
  refine decode_of_fields c w _ ?_ he (canonical_wellFormed c _ h)
  simp only [encode, Option.some.injEq] at hw
  exact decode_callcc w cond addr hw

theorem Laws.RoundTrip.jmpi (addr : BitVec 18) (st : JmpiStep) (ix : IReg) :
    Laws.RoundTrip.Statement (.jmpi addr st ix) := by
  intro c w he h hw
  refine decode_of_fields c w _ ?_ he (canonical_wellFormed c _ h)
  simp only [encode, Option.some.injEq] at hw
  obtain ⟨e0, e1, e2, e3, e4, e5, e6⟩ := fields_jmpi w _ _ _ _ _ hw.symm
  have e : decodeFields w = .ok (.jmpi addr st ix) := by
    simp [decodeFields, decodeControl, decodeJmpi, e0, e1, e2, e3, e4, e5, e6]
  exact e

theorem Laws.RoundTrip.jrcc (cond : Cond) : Laws.RoundTrip.Statement (.jrcc cond) := by
  intro c w he h hw
  refine decode_of_fields c w _ ?_ he (canonical_wellFormed c _ h)
  simp only [encode, Option.some.injEq] at hw
  exact decode_jrcc w cond hw

theorem Laws.RoundTrip.jr : Laws.RoundTrip.Statement (.jr) := by
  intro c w he h hw
  refine decode_of_fields c w _ ?_ he (canonical_wellFormed c _ h)
  simp only [encode, Option.some.injEq] at hw
  exact decode_jrcc w .always hw

theorem Laws.RoundTrip.jrccPage (cond : Cond) (ix : IReg) : Laws.RoundTrip.Statement (.jrccPage cond ix) := by
  intro c w he h hw
  refine decode_of_fields c w _ ?_ he (canonical_wellFormed c _ h)
  simp [encode] at hw

theorem Laws.RoundTrip.reti : Laws.RoundTrip.Statement (.reti) := by
  intro c w he h hw
  refine decode_of_fields c w _ ?_ he (canonical_wellFormed c _ h)
  simp only [encode, Option.some.injEq] at hw
  rw [← hw]; rfl

theorem Laws.RoundTrip.retiPage (ix : IReg) : Laws.RoundTrip.Statement (.retiPage ix) := by
  intro c w he h hw
  refine decode_of_fields c w _ ?_ he (canonical_wellFormed c _ h)
  simp [encode] at hw

theorem Laws.RoundTrip.loop (count : FReg) (addr : BitVec 20) : Laws.RoundTrip.Statement (.loop count addr) := by
  intro c w he h hw
  refine decode_of_fields c w _ ?_ he (canonical_wellFormed c _ h)
  simp only [encode, Option.some.injEq] at hw
  obtain ⟨e0, e1, e2, e3, e4⟩ := fields_loop w _ _ _ hw.symm
  have e : decodeFields w = .ok (.loop count addr) := by
    simp [decodeFields, decodeControl, decodeLoop, e0, e1, e2, e3, e4]
  exact e

theorem Laws.RoundTrip.halt : Laws.RoundTrip.Statement (.halt) := by
  intro c w he h hw
  refine decode_of_fields c w _ ?_ he (canonical_wellFormed c _ h)
  simp only [encode, Option.some.injEq] at hw
  rw [← hw]; rfl

end Sys2Proof
end

