-- ==== Sys2Proof/Tests/Slice0.lean ====
section
/-! SUPPORT. Tests: ill-formed terms the checks refuse, words written out from the encodings, one step of each
instruction with the results of 95_test_vectors.md (the vector is named), and for each statement with hypotheses a
concrete instance of them. -/

namespace Sys2Proof.Tests

open Sys2Proof Sys2Proof.Machine

-- Each test evaluates on its own, one after the other.
set_option Elab.async false

/-! ### Helpers -/

/-- Core and platform of 95_test_vectors.md, the interrupt controller idle. -/
def base : State := { State.reset with ic := .idle }

/-- Preset arithmetic registers. -/
def withRegs (l : List (AReg × Word)) (s : State) : State :=
  { s with regs := l.foldl (fun r p => r.put p.1 p.2) s.regs }

/-- Preset an accumulator. -/
def withAcc (x : Acc) (v : Nat) (s : State) : State :=
  { s with regs := s.regs.writeAccum s.cfg x (BitVec.ofNat _ v) }

/-- Preset index registers. -/
def withIdx (l : List (IReg × DAddr)) (s : State) : State :=
  { s with idx := l.foldl (fun r p => r.put p.1 p.2) s.idx }

/-- Preset MR0. -/
def withMr0 (v : PAddr) (s : State) : State := { s with mr0 := v }

/-- Preset words of X and Y. -/
def withData (l : List (Space × DAddr × Word)) (s : State) : State :=
  l.foldl (fun s p => s.putMem p.1 ((s.mem p.1).putWord p.2.1 p.2.2)) s

/-- The same state on a core with another configuration. -/
def withConfig (f : Config → Config) (s : State) : State := { s with cfg := f s.cfg }

/-- The step that runs a word answers a next state with the property. -/
def runs (s : State) (w : Nat) (p : State → Bool) : Bool :=
  match step (s.withFetchWord 32 w) with
  | .next t => p t
  | .refused _ => false

/-- The step that runs a word is refused by this name. -/
def refuses (s : State) (w : Nat) (r : Refusal) : Bool :=
  match step (s.withFetchWord 32 w) with
  | .next _ => false
  | .refused q => decide (q = r)

/-- An instruction without an encoding answers a next state with the property. -/
def does (s : State) (i : Instr) (p : State → Bool) : Bool :=
  match exec i s with
  | .next t => p t
  | .refused _ => false

/-- The flags Z N V E C. -/
def znvec (t : State) : List Bool := [t.flag .z, t.flag .n, t.flag .v, t.flag .e, t.flag .c]

theorem does_next {s : State} {i : Instr} {p : State → Bool} (h : does s i p = true) :
    ∃ t, exec i s = .next t ∧ p t = true := by
  unfold does at h
  split at h
  · rename_i t e; exact ⟨t, e, h⟩
  · cases h

/-- The step answers a next state with the property. -/
def steps (s : State) (p : State → Bool) : Bool :=
  match step s with
  | .next t => p t
  | .refused _ => false

theorem steps_next {s : State} {p : State → Bool} (h : steps s p = true) : ∃ t, step s = .next t ∧ p t = true := by
  unfold steps at h
  split at h
  · rename_i t e; exact ⟨t, e, h⟩
  · cases h

/-! ### Well-formedness: a term each check refuses -/

theorem test_ill_formed_four_registers :
    (Instr.resp .c0 .a0).wellFormed { Config.vhdl with na := .four } = false := by decide

theorem test_ill_formed_six_registers :
    (Instr.resp .a0 .d1).wellFormed { Config.vhdl with na := .six } = false := by decide

theorem test_ill_formed_p_as_op1 :
    (Instr.add .p (.reg .a0) .a1 PMove.nop).wellFormed Config.vhdl = false := by decide

theorem test_ill_formed_op2_missing :
    (Instr.add .null (.acc .d) .a1 PMove.nop).wellFormed { Config.vhdl with na := .six } = false := by decide

theorem test_ill_formed_wide_result_even :
    (Instr.add .null .p .a0 PMove.nop).wellFormed Config.vhdl = false := by decide

theorem test_ill_formed_wide_result_even_single :
    (Instr.abs (.acc .a) .b0 PMove.nop).wellFormed Config.vhdl = false := by decide

theorem test_ill_formed_operand_missing_single :
    (Instr.lsr (.reg .c0) .a1 PMove.nop).wellFormed { Config.vhdl with na := .four } = false := by decide

theorem test_ill_formed_macro_p :
    (Instr.lsl .p .a1 PMove.nop).wellFormed Config.vhdl = false := by decide

theorem test_ill_formed_accumulator_missing :
    (Instr.mac .a0 .a1 .ss .d PMove.nop).wellFormed { Config.vhdl with na := .six } = false := by decide

theorem test_ill_formed_factor_missing :
    (Instr.mulss .a0 .d0 PMove.nop).wellFormed { Config.vhdl with na := .six } = false := by decide

theorem test_ill_formed_step_minus_eight :
    (Instr.ldxPar .i0 (.step 8) (.areg .a0)).wellFormed Config.vhdl = false := by decide

theorem test_ill_formed_load_page_register :
    (Instr.ldc 0 .ipr0).wellFormed { Config.vhdl with hasIpr := true } = false := by decide

theorem test_ill_formed_page_register_missing :
    (Instr.stxPar .i0 (.step 0) .ipr0).wellFormed Config.vhdl = false := by decide

theorem test_ill_formed_page_register_on_y :
    (Instr.styPar .i0 (.step 0) .ipr1).wellFormed { Config.vhdl with hasIpr := true } = false := by decide

theorem test_ill_formed_short_move_register :
    (Instr.ldxShort .i0 false .a0 ⟨.load, .i1, false, .d0⟩).wellFormed { Config.vhdl with na := .four } = false := by
  decide

theorem test_ill_formed_double_move_half :
    (Instr.ldxDbl .i0 (.step 0) (.areg .a0) ⟨.load, .i1, .step 8, .areg .b0⟩).wellFormed Config.vhdl = false := by
  decide

theorem test_ill_formed_guard_width_zero :
    (Instr.ldc 0 (.guard .a)).wellFormed { Config.vhdl with g := 0, gRange := by decide } = false := by decide

theorem test_ill_formed_guard_missing :
    (Instr.ldc 0 (.guard .d)).wellFormed { Config.vhdl with na := .six } = false := by decide

theorem test_ill_formed_register_move_target :
    (Instr.mvxPar .lr0 .ipr0).wellFormed { Config.vhdl with hasIpr := true } = false := by decide

theorem test_ill_formed_register_move_y_source :
    (Instr.mvyDbl .ipr0 (.areg .a0)).wellFormed { Config.vhdl with hasIpr := true } = false := by decide

theorem test_ill_formed_double_register_move :
    (Instr.mvxDbl .lr0 (.areg .a0) .ipr0 (.ireg .i0)).wellFormed { Config.vhdl with hasIpr := true } = false := by
  decide

theorem test_ill_formed_jump_without_pages :
    (Instr.jrccPage .always .i0).wellFormed Config.vhdl = false := by decide

theorem test_ill_formed_reti_without_pages :
    (Instr.retiPage .i0).wellFormed Config.vhdl = false := by decide

theorem test_ill_formed_loop_hardware_missing :
    (Instr.loop .lr0 0).wellFormed { Config.vhdl with loopHw := 0 } = false := by decide

theorem test_ill_formed_loop_register_missing :
    (Instr.ldc 0 .le).wellFormed { Config.vhdl with loopHw := 0 } = false := by decide

theorem test_ill_formed_loop_count_null :
    (Instr.loop .null 0).wellFormed Config.vhdl = false := by decide

theorem test_ill_formed_loop_count_page :
    (Instr.loop .ipr0 0).wellFormed { Config.vhdl with hasIpr := true } = false := by decide

/-! ### Decoding: the words are written out from the encodings of 30_encoding.md -/

/-- 0100 RRRR rrrr AAA. -/
theorem test_decode_add : decode Config.vhdl 0x40280024 =
    .ok (.add (.reg .a0) (.reg .b0) .c0 PMove.nop) := by decide +kernel

/-- 1000. -/
theorem test_decode_addc : decode Config.vhdl 0x80280024 =
    .ok (.addc (.reg .a0) (.reg .b0) .c0 PMove.nop) := by decide +kernel

/-- 0110. -/
theorem test_decode_sub : decode Config.vhdl 0x60900024 =
    .ok (.sub (.reg .a0) .ones .a0 PMove.nop) := by decide +kernel

/-- 1001. -/
theorem test_decode_subc : decode Config.vhdl 0x9C820024 =
    .ok (.subc (.acc .a) .null .a1 PMove.nop) := by decide +kernel

/-- 1011. -/
theorem test_decode_and : decode Config.vhdl 0xBCD20024 =
    .ok (.and (.acc .a) (.acc .b) .a1 PMove.nop) := by decide +kernel

/-- 1100. -/
theorem test_decode_or : decode Config.vhdl 0xC08A0024 =
    .ok (.or (.reg .a0) .null .c1 PMove.nop) := by decide +kernel

/-- 1101. -/
theorem test_decode_xor : decode Config.vhdl 0xDCDA0024 =
    .ok (.xor (.acc .a) (.acc .b) .c1 PMove.nop) := by decide +kernel

/-- LSL a0,a0 is ADD a0,a0,a0. -/
theorem test_decode_lsl : decode Config.vhdl 0x40000024 =
    .ok (.add (.reg .a0) (.reg .a0) .a0 PMove.nop) := by decide +kernel

/-- LSLC a0,a0 is ADDC a0,a0,a0. -/
theorem test_decode_lslc : decode Config.vhdl 0x80000024 =
    .ok (.addc (.reg .a0) (.reg .a0) .a0 PMove.nop) := by decide +kernel

/-- NOT a0,a1 is XOR a0,ones,a1. -/
theorem test_decode_not : decode Config.vhdl 0xD0920024 =
    .ok (.xor (.reg .a0) .ones .a1 PMove.nop) := by decide +kernel

/-- 1111 0000. -/
theorem test_decode_abs : decode Config.vhdl 0xF0020024 =
    .ok (.abs (.reg .a0) .a1 PMove.nop) := by decide +kernel

/-- 1111 0001. -/
theorem test_decode_asr : decode Config.vhdl 0xF1B20024 =
    .ok (.asr .p .a1 PMove.nop) := by decide +kernel

/-- 1111 0010. -/
theorem test_decode_lsr : decode Config.vhdl 0xF2C20024 =
    .ok (.lsr (.acc .a) .a1 PMove.nop) := by decide +kernel

/-- 1111 0011. -/
theorem test_decode_lsrc : decode Config.vhdl 0xF3000024 =
    .ok (.lsrc (.reg .a0) .a0 PMove.nop) := by decide +kernel

/-- 1111 0100, short LDX and STY. -/
theorem test_decode_nopAlu : decode Config.vhdl 0xF40101AA =
    .ok (.nopAlu (.short ⟨.load, .i0, false, .a1⟩ ⟨.store, .i2, true, .b0⟩)) := by decide +kernel

/-- 0101. -/
theorem test_decode_mac : decode Config.vhdl 0x56230B2A =
    .ok (.mac .b1 .b0 .ss .a (.short ⟨.load, .i0, true, .b1⟩ ⟨.load, .i2, true, .b0⟩)) := by decide +kernel

/-- 0111. -/
theorem test_decode_msu : decode Config.vhdl 0x76230B2A =
    .ok (.msu .b1 .b0 .ss .a (.short ⟨.load, .i0, true, .b1⟩ ⟨.load, .i2, true, .b0⟩)) := by decide +kernel

/-- 1111 111 00. -/
theorem test_decode_mulss : decode Config.vhdl 0xFE300024 =
    .ok (.mulss .a0 .b1 PMove.nop) := by decide +kernel

/-- 1111 111 01. -/
theorem test_decode_mulsu : decode Config.vhdl 0xFEB00024 =
    .ok (.mulsu .a0 .b1 PMove.nop) := by decide +kernel

/-- 1111 111 10. -/
theorem test_decode_mulus : decode Config.vhdl 0xFF300024 =
    .ok (.mulus .a0 .b1 PMove.nop) := by decide +kernel

/-- 1111 111 11. -/
theorem test_decode_muluu : decode Config.vhdl 0xFFB00024 =
    .ok (.muluu .a0 .b1 PMove.nop) := by decide +kernel

/-- 0010 0010 d RRR rrr. -/
theorem test_decode_resp : decode Config.vhdl 0x22100000 =
    .ok (.resp .a0 .a1) := by decide +kernel

/-- 000 i RRRRRR. -/
theorem test_decode_ldc : decode Config.vhdl 0x1FFFFF41 =
    .ok (.ldc 0x7FFFFD (.areg .a1)) := by decide +kernel

/-- LDC to register 100100. -/
theorem test_decode_nop : decode Config.vhdl 0x00000024 =
    .ok (.nop 0) := by decide +kernel

/-- 00 0 0 001 0001 000001. -/
theorem test_decode_ldxPar : decode Config.vhdl 0xF4000441 =
    .ok (.nopAlu (.full .x ⟨.load, .i1, .step 1, .areg .a1⟩)) := by decide +kernel

/-- 00 1 0 001 0001 000001. -/
theorem test_decode_ldyPar : decode Config.vhdl 0xF4004441 =
    .ok (.nopAlu (.full .y ⟨.load, .i1, .step 1, .areg .a1⟩)) := by decide +kernel

/-- 00 0 1 001 0001 000001. -/
theorem test_decode_stxPar : decode Config.vhdl 0xF4002441 =
    .ok (.nopAlu (.full .x ⟨.store, .i1, .step 1, .areg .a1⟩)) := by decide +kernel

/-- 00 1 1 001 0001 000001. -/
theorem test_decode_styPar : decode Config.vhdl 0xF4006441 =
    .ok (.nopAlu (.full .y ⟨.store, .i1, .step 1, .areg .a1⟩)) := by decide +kernel

/-- 1 0 000 0 001. -/
theorem test_decode_ldxShort : decode Config.vhdl 0xF4010100 =
    .ok (.nopAlu (.short ⟨.load, .i0, false, .a1⟩ ⟨.load, .i0, false, .a0⟩)) := by decide +kernel

/-- y half 0 001 0 101. -/
theorem test_decode_ldyShort : decode Config.vhdl 0xF401BC15 =
    .ok (.nopAlu (.short ⟨.store, .i3, true, .c0⟩ ⟨.load, .i1, false, .c1⟩)) := by decide +kernel

/-- 1 1 011 1 100. -/
theorem test_decode_stxShort : decode Config.vhdl 0xF401BCFF =
    .ok (.nopAlu (.short ⟨.store, .i3, true, .c0⟩ ⟨.store, .i7, true, .d1⟩)) := by decide +kernel

/-- y half 1 000 0 000. -/
theorem test_decode_styShort : decode Config.vhdl 0xF4010080 =
    .ok (.nopAlu (.short ⟨.load, .i0, false, .a0⟩ ⟨.store, .i0, false, .a0⟩)) := by decide +kernel

/-- 0011 0 000 0001 000001, move NOP. -/
theorem test_decode_ldxDbl : decode Config.vhdl 0x30104024 =
    .ok (.ldxDbl .i0 (.step 1) (.areg .a1) FullMove.nop) := by decide +kernel

/-- 0011, move NOP, 0 001 0001 000010. -/
theorem test_decode_ldyDbl : decode Config.vhdl 0x30090442 =
    .ok (.ldyDbl .i1 (.step 1) (.areg .b0)) := by decide +kernel

/-- 0011 1 100 0000 000001. -/
theorem test_decode_stxDbl : decode Config.vhdl 0x3C007040 =
    .ok (.stxDbl .i4 (.step 0) (.areg .a1) ⟨.store, .i4, .step 1, .areg .a0⟩) := by decide +kernel

/-- 0011, move NOP, 1 001 0001 000010. -/
theorem test_decode_styDbl : decode Config.vhdl 0x30092442 =
    .ok (.styDbl .i1 (.step 1) (.areg .b0)) := by decide +kernel

/-- 00 0 0 000 0000 100100. -/
theorem test_decode_nopPar : decode Config.vhdl 0xF4000024 =
    .ok (.nopAlu PMove.nop) := by decide +kernel

/-- 0010 1000, condition 000101. -/
theorem test_decode_jcc : decode Config.vhdl 0x28004405 =
    .ok (.jcc .zs 0x110) := by decide +kernel

/-- J is Jcc with condition 000000. -/
theorem test_decode_j : decode Config.vhdl 0x28004400 =
    .ok (.jcc .always 0x110) := by decide +kernel

/-- 0010 1001, condition 010101. -/
theorem test_decode_callcc : decode Config.vhdl 0x29004415 =
    .ok (.callcc .zc 0x110) := by decide +kernel

/-- 0010 1010, mm 11, rrr 110. -/
theorem test_decode_jmpi : decode Config.vhdl 0x2A00441E =
    .ok (.jmpi 0x110 .dec .i6) := by decide +kernel

/-- 0010 0000, condition 000101. -/
theorem test_decode_jrcc : decode Config.vhdl 0x20000005 =
    .ok (.jrcc .zs) := by decide +kernel

/-- JR is JRcc with condition 000000. -/
theorem test_decode_jr : decode Config.vhdl 0x20000000 =
    .ok (.jrcc .always) := by decide +kernel

/-- 0010 0001. -/
theorem test_decode_reti : decode Config.vhdl 0x21000000 =
    .ok (.reti) := by decide +kernel

/-- 0010 01, register 000100. -/
theorem test_decode_loop : decode Config.vhdl 0x240040C4 =
    .ok (.loop (.areg .c0) 0x103) := by decide +kernel

/-- 0010 1101. -/
theorem test_decode_halt : decode Config.vhdl 0x2D000000 =
    .ok (.halt) := by decide +kernel

/-- A double move whose X half is a move NOP with other fields keeps them (log 21). -/
theorem test_decode_double_other_nop : decode Config.vhdl 0x31090442 =
    .ok (.ldxDbl .i1 (.step 0) .nop ⟨.load, .i1, .step 1, .areg .b0⟩) := by decide +kernel

/-- The class X instructions have no word. -/
theorem test_no_word :
    encode (.mvxPar .lr0 .lr1) = none ∧ encode (.mvxDbl .lr0 (.areg .a0) (.areg .b0) (.ireg .i0)) = none ∧
      encode (.mvyDbl .lr0 (.areg .a0)) = none ∧ encode (.jrccPage .always .i0) = none ∧
      encode (.retiPage .i0) = none := by decide

/-- A word of class R is none where ENC_RECON is false (R101); the move NOP stays one (log 19). -/
theorem test_decode_not_confirmed :
    decode { Config.vhdl with encRecon := false } 0x3C007040 = .error .notConfirmed ∧
      decode { Config.vhdl with encRecon := false } 0x40280024 =
        .ok (.add (.reg .a0) (.reg .b0) .c0 PMove.nop) := by decide +kernel

/-! ### One step of each instruction -/

/-- Vector A2. -/
theorem test_add_saturates :
    runs (withMr0 0x0400 (withRegs [(.a0, 0x7FFF), (.b0, 0x0001)] base)) 0x40280024
      (fun t => t.regs.get .c0 == 0x7FFF && znvec t == [false, false, true, false, false]) = true := by decide +kernel

/-- Vector W1. -/
theorem test_add_wide_extension :
    runs (withMr0 0x0000 (withAcc .a 0x007FFFFFFF (withAcc .b 1 base))) 0x4CD20024
      (fun t => t.regs.accum t.cfg .a == 0x0080000000 && znvec t == [false, false, false, true, false]) = true := by
  decide +kernel

/-- Vector A8. -/
theorem test_addc_carry :
    runs (withMr0 0x0001 (withRegs [(.a0, 0xFFFF), (.b0, 0x0000)] base)) 0x80280024
      (fun t => t.regs.get .c0 == 0x0000 && znvec t == [true, false, false, false, true]) = true := by decide +kernel

/-- Vector W10. -/
theorem test_addc_wide :
    runs (withMr0 0x0001 (withAcc .a 0xFFFFFFFFFF base)) 0x8CD20024
      (fun t => t.regs.accum t.cfg .a == 0x0000000000 && znvec t == [true, false, false, false, true]) = true := by
  decide +kernel

/-- Vector A11. -/
theorem test_sub_borrow :
    runs (withMr0 0x0000 (withRegs [(.a0, 0x0000), (.b0, 0x0001)] base)) 0x60280024
      (fun t => t.regs.get .c0 == 0xFFFF && znvec t == [false, true, false, false, true]) = true := by decide +kernel

/-- Vector W9. -/
theorem test_sub_wide :
    runs (withMr0 0x0000 (withAcc .a 0x00FFFFFFFF base)) 0x6C920024
      (fun t => t.regs.accum t.cfg .a == 0x0100000000 && znvec t == [false, false, false, true, true]) = true := by
  decide +kernel

/-- Vector A21. -/
theorem test_subc_borrow :
    runs (withMr0 0x0001 (withRegs [(.a0, 0x0000), (.b0, 0xFFFF)] base)) 0x90280024
      (fun t => t.regs.get .c0 == 0x0000 && znvec t == [true, false, false, false, true]) = true := by decide +kernel

/-- Vector W11. -/
theorem test_subc_wide :
    runs (withMr0 0x0001 (base)) 0x9C820024
      (fun t => t.regs.accum t.cfg .a == 0xFFFFFFFFFF && znvec t == [false, true, false, false, true]) = true := by
  decide +kernel

/-- Vector L1. -/
theorem test_and :
    runs (withMr0 0x0000 (withRegs [(.a0, 0xF0F0), (.b0, 0x0FF0)] base)) 0xB0280024
      (fun t => t.regs.get .c0 == 0x00F0 && znvec t == [false, false, false, false, false]) = true := by decide +kernel

/-- Vector L9. -/
theorem test_and_wide :
    runs (withMr0 0x0000 (withRegs [(.b1, 0x8000)] (withAcc .a 0xFF12345678 base))) 0xBC320024
      (fun t => t.regs.accum t.cfg .a == 0xFF00000000 && znvec t == [false, true, false, true, false]) = true := by
  decide +kernel

/-- Vector L4. -/
theorem test_or_guard :
    runs (withMr0 0x0000 (withRegs [(.a0, 0x8000)] base)) 0xC08A0024
      (fun t => t.regs.get .c1 == 0x8000 && t.regs.guard .c == 0xFF &&
        znvec t == [false, true, false, false, false]) = true := by
  decide +kernel

/-- Vector L5. -/
theorem test_xor :
    runs (withMr0 0x0000 (withRegs [(.a0, 0xAAAA), (.b0, 0xAAAA)] base)) 0xD0280024
      (fun t => t.regs.get .c0 == 0x0000 && znvec t == [true, false, false, false, false]) = true := by decide +kernel

/-- Vector L11. -/
theorem test_xor_wide :
    runs (withMr0 0x0000 (withAcc .a 0x00FFFF0000 (withAcc .b 0x000F0F0000 base))) 0xDCDA0024
      (fun t => t.regs.accum t.cfg .c == 0x00F0F00000 && znvec t == [false, false, false, true, false]) = true := by
  decide +kernel

/-- Vector A25. -/
theorem test_lsl_saturates :
    runs (withMr0 0x0400 (withRegs [(.a0, 0x4000)] base)) 0x40000024
      (fun t => t.regs.get .a0 == 0x7FFF && znvec t == [false, false, true, false, false]) = true := by decide +kernel

/-- Vector A29. -/
theorem test_lslc_carry :
    runs (withMr0 0x0001 (withRegs [(.a0, 0x8001)] base)) 0x80000024
      (fun t => t.regs.get .a0 == 0x0003 && znvec t == [false, false, true, false, true]) = true := by decide +kernel

/-- Vector L6. -/
theorem test_not_guard :
    runs (withMr0 0x0000 (withRegs [(.a0, 0x00FF)] base)) 0xD0920024
      (fun t => t.regs.get .a1 == 0xFF00 && t.regs.guard .a == 0xFF &&
        znvec t == [false, true, false, false, false]) = true := by
  decide +kernel

/-- Vector B3. -/
theorem test_abs_saturates :
    runs (withMr0 0x0400 (withRegs [(.a0, 0x8000)] base)) 0xF0020024
      (fun t => t.regs.get .a1 == 0x7FFF && t.regs.guard .a == 0) = true := by decide +kernel

/-- Vector B7. -/
theorem test_abs_wide :
    runs (withAcc .b 0xFF80000000 base) 0xF0D60024
      (fun t => t.regs.accum t.cfg .b == 0x0080000000) = true := by decide +kernel

/-- Vectors W13, W14 and W16: ROUNDMODE 1 and 2. -/
theorem test_rounding :
    runs (withConfig (fun c => { c with roundMode := .round }) (withMr0 0x0100 (withAcc .a 0x0012348000 base)))
        0x4C820024 (fun t => t.regs.accum t.cfg .a == 0x0012350000) = true ∧
      runs (withConfig (fun c => { c with roundMode := .convergent0 }) (withMr0 0x0100 (withAcc .a 0x0012348000 base)))
        0x4C820024 (fun t => t.regs.accum t.cfg .a == 0x0012340000) = true ∧
      runs (withConfig (fun c => { c with roundMode := .convergent0 }) (withMr0 0x0100 (withAcc .a 0x0012358000 base)))
        0x4C820024 (fun t => t.regs.accum t.cfg .a == 0x0012360000) = true := by decide +kernel

/-- Vector H1. -/
theorem test_asr_guard :
    runs (withMr0 0x0000 (withRegs [(.a1, 0x8001)] base)) 0xF1120024
      (fun t => t.regs.get .a1 == 0xC000 && t.regs.guard .a == 0xFF &&
        znvec t == [false, true, false, false, true]) = true := by
  decide +kernel

/-- Vector H15: P as an operand. -/
theorem test_asr_product :
    runs { base with p := 0x80000001 } 0xF1B20024
      (fun t => t.regs.accum t.cfg .a == 0xFFC0000000 && znvec t == [false, true, false, false, true]) = true := by
  decide +kernel

/-- Vector H5. -/
theorem test_lsr :
    runs (withMr0 0x0000 (withRegs [(.a0, 0x8001)] base)) 0xF2000024
      (fun t => t.regs.get .a0 == 0x4000 && znvec t == [false, false, false, false, true]) = true := by decide +kernel

/-- Vector H7. -/
theorem test_lsrc_carry :
    runs (withMr0 0x0001 (withRegs [(.a0, 0x0002)] base)) 0xF3000024
      (fun t => t.regs.get .a0 == 0x8001 && znvec t == [false, true, false, false, false]) = true := by decide +kernel

/-- The ALU NOP beside short moves: the load and the store, by the old index registers; no ALU flag. -/
theorem test_nopAlu_moves :
    runs (withMr0 0x001F (withRegs [(.b0, 0x1234)] (withIdx [(.i2, 0x0040), (.i3, 0x0002)]
        (withData [(.x, 0, 0x5678)] base)))) 0xF40101AA
      (fun t => t.regs.a1 == 0x5678 && t.ymem.word 0x0040 == 0x1234 && t.idx.i2 == 0x0042 &&
        t.mr0 == 0x001F) = true := by
  decide +kernel

/-- The start of vector V20. -/
def macStart : State :=
  { withIdx [(.i0, 0x0203), (.i1, 0xA003), (.i2, 0x0300), (.i3, 0x0001)]
      (withData [(.x, 0x0203, 0x1111), (.y, 0x0300, 0x2222)]
        (withRegs [(.b1, 0x4000), (.b0, 0x2000)] (withAcc .a 0x0000010000 base))) with p := 0x00020000 }

/-- Vector V20: the old P is added, the product is of the old registers, the loads come after. -/
theorem test_mac_with_moves :
    runs macStart 0x56230B2A
      (fun t => t.regs.accum t.cfg .a == 0x0000030000 && t.p == 0x10000000 && t.regs.b1 == 0x1111 &&
        t.regs.b0 == 0x2222 &&
        t.idx.i0 == 0x0202 && t.idx.i2 == 0x0301 && t.mr0 == 0) = true := by decide +kernel

/-- The MSU of V20's last line. -/
theorem test_msu_with_moves :
    runs macStart 0x76230B2A
      (fun t => t.regs.accum t.cfg .a == 0xFFFFFF0000 && t.p == 0x10000000 && t.mr0 == 0x0009) = true := by
  decide +kernel

/-- Vector M3. -/
theorem test_mulss_saturates :
    runs (withMr0 0x0400 (withRegs [(.a0, 0x8000), (.b1, 0x8000)] base)) 0xFE300024
      (fun t => t.p == 0x7FFFFFFF && t.mr0 == 0x0400) = true := by decide +kernel

/-- Vector M6. -/
theorem test_mulss_fraction :
    runs (withMr0 0x0000 (withRegs [(.a0, 0x7FFF), (.b1, 0x7FFF)] base)) 0xFE300024
      (fun t => t.p == 0x7FFE0002 && t.mr0 == 0x0000) = true := by decide +kernel

/-- Vector M18. -/
theorem test_mulsu_integer :
    runs (withMr0 0x0200 (withRegs [(.a0, 0x0002), (.b1, 0xFFFF)] base)) 0xFEB00024
      (fun t => t.p == 0x0001FFFE && t.mr0 == 0x0200) = true := by decide +kernel

/-- Vector M13. -/
theorem test_mulus_integer :
    runs (withMr0 0x0200 (withRegs [(.a0, 0xFFFF), (.b1, 0x0002)] base)) 0xFF300024
      (fun t => t.p == 0x0001FFFE && t.mr0 == 0x0200) = true := by decide +kernel

/-- Vector M11. -/
theorem test_muluu_fraction :
    runs (withMr0 0x0000 (withRegs [(.a0, 0xFFFF), (.b1, 0xFFFF)] base)) 0xFFB00024
      (fun t => t.p == 0xFFFC0002 && t.mr0 == 0x0000) = true := by decide +kernel

/-- R206: P1 takes Op2, P0 takes Op1. -/
theorem test_resp :
    runs (withRegs [(.a0, 0x1234), (.a1, 0x5678)] base) 0x22100000 (fun t => t.p == 0x56781234) = true := by
  decide +kernel

/-- Vectors V2 and V3: a guard register keeps the low bits, X1 writes its guard register. -/
theorem test_ldc :
    runs (withRegs [(.a1, 0x5555)] base) 0x00048D20 (fun t => t.regs.a2 == 0x34 && t.regs.a1 == 0x5555) = true ∧
      runs base 0x1FFFFF41 (fun t => t.regs.a1 == 0xFFFD && t.regs.a2 == 0xFF) = true := by decide +kernel

theorem test_nop : runs (withMr0 0x07FF base) 0x00000024 (fun t => t.mr0 == 0x07FF && t.regs == ARegs.zero) = true := by
  decide +kernel

/-- G3 on bus X; the loaded value and the index flag (R236). -/
theorem test_ldxPar :
    does (withData [(.x, 0, 0x8000)] base) (.ldxPar .i1 (.step 15) (.areg .a1))
      (fun t => t.regs.a1 == 0x8000 && t.regs.a2 == 0xFF && t.idx.i1 == 0xFFFF && t.flag .x && !t.flag .y) = true := by
  decide +kernel

/-- G5 on bus Y. -/
theorem test_ldyPar :
    does (withIdx [(.i1, 0x8003)] (withData [(.y, 0x8003, 0x0007)] base)) (.ldyPar .i1 (.step 9) (.areg .d0))
      (fun t => t.regs.d0 == 0x0007 && t.idx.i1 == 0x7FFC && !t.flag .y) = true := by decide +kernel

/-- A store takes the index register's old value as its data too (V6). -/
theorem test_stxPar :
    does (withIdx [(.i7, 0x0400)] base) (.stxPar .i7 (.step 1) (.ireg .i7))
      (fun t => t.xmem.word 0x0400 == 0x0400 && t.idx.i7 == 0x0401 && t.ymem == []) = true := by decide +kernel

theorem test_styPar :
    does (withRegs [(.b0, 0x00FE)] base) (.styPar .i3 .byPair (.areg .b0))
      (fun t => t.ymem.word 0 == 0x00FE && t.xmem == []) = true := by decide +kernel

/-- V13 with the Y half named: each step is the other's old value. -/
theorem test_ldxShort :
    does (withIdx [(.i0, 0x0010), (.i1, 0x0003)] (withData [(.x, 0x0010, 0xAAAA), (.y, 0x0003, 0xBBBB)] base))
      (.ldxShort .i0 true .a0 ⟨.load, .i1, true, .b0⟩)
      (fun t => t.regs.a0 == 0xAAAA && t.regs.b0 == 0xBBBB && t.idx.i0 == 0x0013 && t.idx.i1 == 0x0013) = true := by
  decide +kernel

theorem test_ldyShort :
    does (withIdx [(.i1, 0x0003)] (withData [(.y, 0x0003, 0xBBBB)] base))
      (.ldyShort .i1 false .b0 ⟨.store, .i4, false, .a0⟩)
      (fun t => t.regs.b0 == 0xBBBB && t.idx.i1 == 0x0003) = true := by decide +kernel

theorem test_stxShort :
    does (withRegs [(.c0, 0xCAFE)] base) (.stxShort .i0 false .c0 ⟨.load, .i1, false, .c0⟩)
      (fun t => t.xmem.word 0 == 0xCAFE && t.regs.c0 == 0) = true := by decide +kernel

theorem test_styShort :
    does (withRegs [(.c1, 0xCAFE)] base) (.styShort .i0 false .c1 ⟨.store, .i1, false, .a0⟩)
      (fun t => t.ymem.word 0 == 0xCAFE && t.xmem == []) = true := by decide +kernel

/-- Vector V1. -/
theorem test_ldxDbl :
    runs (withIdx [(.i0, 0x1000)] (withData [(.x, 0x1000, 0x8000)] base)) 0x30104024
      (fun t => t.regs.a1 == 0x8000 && t.regs.a2 == 0xFF && t.idx.i0 == 0x1001 && t.mr0 == 0) = true := by
  decide +kernel

/-- Vector V5: both halves use the unmodified index register. -/
theorem test_stxDbl :
    runs (withIdx [(.i4, 0x7FFF)] (withRegs [(.a1, 0x1111), (.a0, 0x2222)] base)) 0x3C007040
      (fun t => t.xmem.word 0x7FFF == 0x1111 && t.ymem.word 0x7FFF == 0x2222 && t.idx.i4 == 0x8000 &&
        t.mr0 == 0x0020) = true := by decide +kernel

theorem test_ldyDbl :
    runs (withIdx [(.i1, 0xFFFF)] (withData [(.y, 0xFFFF, 0x0101)] base)) 0x30090442
      (fun t => t.regs.b0 == 0x0101 && t.idx.i1 == 0 && t.mr0 == 0) = true := by decide +kernel

theorem test_styDbl :
    runs (withRegs [(.b0, 0x0202)] base) 0x30092442
      (fun t => t.ymem.word 0 == 0x0202 && t.idx.i1 == 1 && t.xmem == []) = true := by decide +kernel

theorem test_nopPar :
    runs (withMr0 0x007F base) 0xF4000024 (fun t => t.mr0 == 0x007F && t.idx == IRegs.zero) = true := by
  decide +kernel

theorem test_mvxPar :
    does { base with lr0 := 0x9876 } (.mvxPar .lr0 (.areg .a1))
      (fun t => t.regs.a1 == 0x9876 && t.regs.a2 == 0xFF) = true := by
  decide +kernel

theorem test_mvxDbl :
    does (withRegs [(.a0, 0x0042)] { base with lr0 := 0x0107 }) (.mvxDbl .lr0 (.areg .a0) (.areg .a0) (.ireg .i5))
      (fun t => t.regs.a0 == 0x0107 && t.idx.i5 == 0x0042) = true := by decide +kernel

theorem test_mvyDbl :
    does (withIdx [(.i2, 0x0ABC)] base) (.mvyDbl (.ireg .i2) .lr1) (fun t => t.lr1 == 0x0ABC) = true := by
  decide +kernel

/-- The fetch of the cycle goes to the target and PC to the next address (R283; K1). -/
theorem test_j :
    runs { base with pc := 0x0102 } 0x28004400
      (fun t => t.pc == 0x0111 && (t.de.map (·.addr)) == some 0x0110) = true := by
  decide +kernel

/-- Taken, and not taken with L cleared (K2). -/
theorem test_jcc :
    runs (withMr0 0x0010 { base with pc := 0x0102 }) 0x28004405 (fun t => t.pc == 0x0111) = true ∧
      runs (withMr0 0x0080 { base with pc := 0x0104 }) 0x28004401 (fun t => t.pc == 0x0105 && t.mr0 == 0) = true := by
  decide +kernel

/-- K3 and K4: LR0 whether or not the call is taken. -/
theorem test_callcc :
    runs (withMr0 0x0010 { base with pc := 0x0104 }) 0x29004405 (fun t => t.pc == 0x0111 && t.lr0 == 0x0104) = true ∧
      runs (withMr0 0x0010 { base with pc := 0x0104 }) 0x29004415
        (fun t => t.pc == 0x0105 && t.lr0 == 0x0104) = true := by
  decide +kernel

/-- K13: the word behind is cancelled and no flag changes. -/
theorem test_jmpi :
    runs (withMr0 0x0080 (withIdx [(.i6, 0x0800)]
        { base with pc := 0x0103, de := some ⟨0, 0x0102, 0x60900024, false⟩ }))
      0x2A00441E
      (fun t => t.pc == 0x0111 && t.idx.i6 == 0x07FF && t.mr0 == 0x0080 &&
        (t.ex.map (·.cancelled)) == some true) = true := by
  decide +kernel

theorem test_jrcc :
    runs (withMr0 0x0010 { base with lr0 := 0x0040 }) 0x20000005 (fun t => t.pc == 0x0041) = true ∧
      runs { base with pc := 0x0200, lr0 := 0x0040 } 0x20000005 (fun t => t.pc == 0x0201) = true := by decide +kernel

theorem test_jr : runs { base with lr0 := 0x0040 } 0x20000000 (fun t => t.pc == 0x0041) = true := by decide +kernel

/-- On a core with page registers. -/
def paged : State := { base with cfg := { Config.vhdl with hasIpr := true } }

theorem test_jrccPage :
    does (withIdx [(.i0, 0x0003)] { paged with lr0 := 0x0040 }) (.jrccPage .zc .i0)
      (fun t => t.pc == 0x0040 && t.ipr0 == 0x0003) = true ∧
      does (withMr0 0x0010 (withIdx [(.i0, 0x0003)] { paged with lr0 := 0x0040, pc := 0x0200 })) (.jrccPage .zc .i0)
        (fun t => t.pc == 0x0200 && t.ipr0 == 0) = true := by decide +kernel

theorem test_reti :
    runs (withMr0 0x07FF { base with lr1 := 0x0055 }) 0x21000000
      (fun t => t.pc == 0x0056 && t.mr0 == 0x077F) = true := by
  decide +kernel

theorem test_retiPage :
    does (withIdx [(.i0, 0x0003)] { paged with lr1 := 0x0040 }) (.retiPage .i0)
      (fun t => t.pc == 0x0040 && t.ipr0 == 0x0003) = true := by decide +kernel

/-- K5: LE and LS are the loop's, and the fetch of this cycle already counts as its first end. -/
theorem test_loop :
    runs (withRegs [(.c0, 0x0002)] { base with pc := 0x0103 }) 0x240040C4
      (fun t => t.le == 0x0103 && t.ls == 0x0103 && t.lc == 1 && t.pc == 0x0103) = true ∧
      runs { base with pc := 0x0103 } 0x240040C4 (fun t => t.lc == 0 && t.pc == 0x0104) = true := by decide +kernel

/-- HALT outside an interrupt, and in interrupt cycle 3 (R299). -/
theorem test_halt :
    runs base 0x2D000000 (fun t => t.halted) = true ∧ runs State.reset 0x2D000000 (fun t => !t.halted) = true := by
  decide +kernel

/-! ### Where a word stops -/

/-- V7, V14, V15, V19: double writes. -/
theorem test_double_write :
    refuses base 0x30140024 .doubleWrite = true ∧ refuses base 0x30100042 .doubleWrite = true ∧
      refuses base 0x30000400 .doubleWrite = true ∧ refuses base 0x30004420 .doubleWrite = true := by decide +kernel

/-- V12, G27, G28, V21, K16. -/
theorem test_refused_words :
    refuses base 0x38030024 .nullStore = true ∧ refuses (withIdx [(.i1, 0x8000)] base) 0x30800024 .modM1 = true ∧
      refuses (withIdx [(.i1, 0x2001)] base) 0x30800024 .reservedMode = true ∧
      refuses base 0x30094024 (.reserved .reservedRegister) = true ∧
      refuses base 0xA0000024 (.reserved .reservedOperation) = true := by decide +kernel

/-- K8 and K9: a change of flow in a delay slot, a condition on a flag just written. -/
theorem test_flow_refused :
    refuses { base with de := some ⟨0, 0x0101, 0x28004800, false⟩ } 0x28004400 .cofDelay = true ∧
      refuses { base with prevFlags := 0x001F } 0x28004415 .condHazard = true := by decide +kernel

/-- V16: the load of MR0 wins over the flags of the same word. -/
theorem test_load_mr0_wins :
    runs (withRegs [(.a0, 0xFFFF)] (withIdx [(.i6, 0x8000)] (withData [(.x, 0x8000, 0x0400)] base))) 0x6090180A
      (fun t => t.regs.a0 == 0 && t.mr0 == 0x0400) = true := by decide +kernel
/-! ### Instances of the statements' hypotheses

One theorem for each statement that has hypotheses, with an instance for each of its clauses. -/

theorem witness_DecodeEncodeCanonical :
    Config.vhdl.encRecon = true ∧
      (Instr.add (.reg .d1) .p .d1 (.full .y ⟨.store, .i7, .step 9, .le⟩)).wellFormed Config.vhdl = true ∧
      encode (.add (.reg .d1) .p .d1 (.full .y ⟨.store, .i7, .step 9, .le⟩)) = some 0x47BE7E4F := by decide +kernel

theorem witness_DecodedWordsReencode :
    decode Config.vhdl 0xFFFE5FCF = .ok (.muluu .d1 .d1 (.full .y ⟨.load, .i7, .step 15, .le⟩)) ∧
      decode { Config.vhdl with encRecon := false } 0x40280024 =
        .ok (.add (.reg .a0) (.reg .b0) .c0 PMove.nop) := by decide +kernel

theorem witness_ReservedCodesRefused :
    (0xA0000000 : IWord).extractLsb' 28 4 = 0b1010 ∧ (0xEFFFFFFF : IWord).extractLsb' 28 4 = 0b1110 ∧
      (0x2FFFFFFF : IWord).extractLsb' 24 4 = 0b1111 ∧ (0x2B000000 : IWord).extractLsb' 24 8 = 0b00101011 ∧
      (0x2A000010 : IWord).extractLsb' 3 2 = 0b10 ∧ ((0xF5000000 : IWord).extractLsb' 24 4).toNat = 5 ∧
      ((0xFD000000 : IWord).extractLsb' 24 4).toNat = 13 ∧ (0x4A000000 : IWord).extractLsb' 24 4 = 0b1010 ∧
      (0x4B000000 : IWord).extractLsb' 24 4 = 0b1011 ∧ (0x40008000 : IWord).extractLsb' 15 2 = 0b01 ∧
      (0x51000024 : IWord).extractLsb' 17 1 = 0 ∧ ((0x40B00024 : IWord).extractLsb' 20 4).toNat = 11 ∧
      ((0x40F00024 : IWord).extractLsb' 20 4).toNat = 15 ∧ (0x40B00024 : IWord).extractLsb' 17 1 = 0 ∧
      (0x4CD00024 : IWord).extractLsb' 17 1 = 0 ∧
      [(10 : Nat), 16, 26, 63].all (fun k => decide (((0x28000000 : IWord) + BitVec.ofNat 32 k).extractLsb' 0 6 =
        BitVec.ofNat 6 k)) = true ∧
      [(0b100101 : BitVec 6), 0b111101, 0b011000, 0b011111].all (fun q =>
        decide (0b100101 ≤ q.toNat ∧ q.toNat ≤ 0b111101 ∨ q.extractLsb' 3 3 = 0b011)) = true ∧
      (0x24000025 : IWord).extractLsb' 26 6 = 0b001001 ∧ (0x24000025 : IWord).extractLsb' 0 6 = 0b100101 ∧
      (0x300F4024 : IWord).extractLsb' 14 6 = 0b111101 ∧ (0x4028001F : IWord).extractLsb' 15 2 = 0b00 := by
  decide +kernel

/-- A cycle in which the environment resets the core. -/
def underReset : State := { base with inputs := [⟨true, true, 31⟩], halted := true }

theorem witness_ResetInputResets : underReset.cfg.supported = true ∧ underReset.input.reset = true := by decide

/-- Reset vectors at both ends of what the statement takes, with inputs that request. -/
theorem witness_ResetSequence :
    Config.vhdl.supported = true ∧ (∀ p ∈ [(⟨false, true, 31⟩ : Input)], p.reset = false) ∧
      [(0 : PAddr), 0x0100, 0xFFFD].all (fun v => decide (v.toNat + 1 < 2 ^ Config.vhdl.pa - 1 ∧
        Region.cellAt Config.allStorage v.toNat = .storage ∧
        Region.cellAt Config.allStorage (v.toNat + 1) = .storage)) = true := by
  refine ⟨by decide, by simp, by decide +kernel⟩

/-- A state with the invariant, from which a step goes on. -/
theorem witness_StepKeepsInvariant : base.Inv ∧ ∃ t, step base = .next t := by
  refine ⟨?_, ?_⟩
  · constructor <;> first
      | decide
      | (intro f; cases f <;> first
          | (unfold fits; decide)
          | (rename_i r; cases r <;> (unfold fits; decide)))
      | (unfold fits; decide)
      | (intro d h; simp [base, State.reset, State.resetOf] at h)
  · obtain ⟨t, h, _⟩ := steps_next (s := base) (p := fun _ => true) (by decide +kernel)
    exact ⟨t, h⟩

/-- A word in EX. -/
def inEx (w : IWord) (s : State) : State := { s with ex := some ⟨0, 0x00FE, w, false⟩ }

theorem witness_StepRunsDecoded :
    (inEx 0x40280024 base).cfg.supported = true ∧ (inEx 0x40280024 base).input.reset = false ∧
      (inEx 0x40280024 base).halted = false ∧
      decode Config.vhdl 0x40280024 = .ok (.add (.reg .a0) (.reg .b0) .c0 PMove.nop) ∧
      (∃ t, exec (.add (.reg .a0) (.reg .b0) .c0 PMove.nop) (inEx 0x40280024 base) = .next t) ∧
      exec (.ldxDbl .i0 (.step 0) (.areg .a0) FullMove.nop) (withConfig (fun c => { c with xmap := [] }) base) =
        .refused .memAbsent ∧
      exec (.stxDbl .i0 (.step 0) .null FullMove.nop) base = .refused .nullStore := by
  refine ⟨by decide, by decide, by decide, by decide +kernel, ?_, rfl, rfl⟩
  obtain ⟨t, h, _⟩ := does_next (s := inEx 0x40280024 base) (i := .add (.reg .a0) (.reg .b0) .c0 PMove.nop)
    (p := fun _ => true) (by decide +kernel)
  exact ⟨t, h⟩

theorem witness_EmptyAndReservedSlots :
    base.cfg.supported = true ∧ base.input.reset = false ∧ base.halted = false ∧ base.ex = none ∧
      (⟨0, 0, 0xA0000024, true⟩ : Slot).cancelled = true ∧
      decode Config.vhdl 0xA0000024 = .error .reservedOperation := by decide +kernel

/-- The state X leaves in a cycle with an instruction in EX that runs. -/
theorem ran_exec (s : State) (i : Instr) (p : State → Bool) (hc : s.cfg.supported = true)
    (h0 : s.input.reset = false) (h1 : s.halted = false)
    (h2 : slotContent s.cfg s.ex = .run i) (h3 : does s i p = true) :
    ∃ t, ran s (XTraits.of s i) t ∧ p t = true := by
  obtain ⟨t, ht, hp⟩ := does_next h3
  exact ⟨t, ⟨hc, h0, h1, .inr ⟨i, h2, ht, rfl⟩⟩, hp⟩

/-- The state X leaves in a cycle with an empty slot. -/
theorem ran_idle (s : State) (hc : s.cfg.supported = true) (h0 : s.input.reset = false) (h1 : s.halted = false)
    (h2 : s.ex = none) : ran s XTraits.idle s := ⟨hc, h0, h1, .inl ⟨by rw [h2]; rfl, rfl, rfl⟩⟩

/-- An ADD in EX. -/
def adding : State := inEx 0x40280024 base

/-- Whether a cycle fetches from storage: fetchReady as a Boolean. -/
def fetches (s t : State) : Bool :=
  decide (Region.cellAt s.cfg.imap (programAddress s.cfg (fetchPage s t) (fetchAddress s t)) = .storage)

theorem witness_LinearCycle :
    ∃ t, ran adding (XTraits.of adding (.add (.reg .a0) (.reg .b0) .c0 PMove.nop)) t ∧
      (decide (adding.ic = .idle) && !adding.requested && fetches adding t &&
        !loopEnd adding (XTraits.of adding (.add (.reg .a0) (.reg .b0) .c0 PMove.nop)) t) = true :=
  ran_exec adding _ (fun t => decide (adding.ic = .idle) && !adding.requested && fetches adding t &&
    !loopEnd adding (XTraits.of adding (.add (.reg .a0) (.reg .b0) .c0 PMove.nop)) t)
    (by decide) (by decide) (by decide) (by decide +kernel) (by decide +kernel)

/-- A cycle whose fetch finds the given cell. -/
def fetching (cell : CellKind) (s : State) : State :=
  withConfig (fun c => { c with imap := [⟨0, 0xFFFF, cell⟩] }) s

/-- Nothing or a device at the fetch address: right after reset, and in interrupt cycle 2 with a vector that is not LE,
with L set, and without loop hardware. -/
theorem witness_LinearCycle_absent :
    [CellKind.absent, .device true, .device false].all (fun cell =>
      decide (Region.cellAt (fetching cell State.reset).cfg.imap (programAddress (fetching cell State.reset).cfg
        (fetchPage (fetching cell State.reset) (fetching cell State.reset))
        (fetchAddress (fetching cell State.reset) (fetching cell State.reset))) = cell)) = true ∧
      ran (fetching .absent State.reset) XTraits.idle (fetching .absent State.reset) ∧
      ran (fetching (.device true) State.reset) XTraits.idle (fetching (.device true) State.reset) ∧
      State.reset.ic ≠ .c2 ∧
      loopEnd (fetching .absent State.reset) XTraits.idle (fetching .absent State.reset) = false ∧
      [base, { base with le := 0x20, mr0 := 0x0080 }, withConfig (fun c => { c with loopHw := 0 }) base].all (fun b =>
        decide (((fetching .absent b).cfg.hasLoops = true → (fetching .absent b).flag .l = false →
            (fetching .absent b).vector ≠ (fetching .absent b).le) ∧
          slotIsFlow (fetching .absent b).cfg (fetching .absent b).de = false)) = true ∧
      ran (fetching .absent { base with ic := .c2 }) XTraits.idle (fetching .absent { base with ic := .c2 }) := by
  refine ⟨by decide +kernel, ran_idle _ rfl rfl rfl rfl, ran_idle _ rfl rfl rfl rfl, by decide, by decide +kernel,
    by decide +kernel, ran_idle _ rfl rfl rfl rfl⟩

/-- The fetch is from LE, with the count given and a word at LE. -/
def atLe (lc : PAddr) (w : IWord) : State :=
  { base with pc := 0x0040, le := 0x0040, ls := 0x0030, lc := lc, imem := Memory.putIword [] 0x40 w }

/-- The three cases at a loop end: a change of flow there, a last round, a new round (LC at both ends). -/
theorem witness_LoopEndCycle :
    ran (atLe 1 0x21000000) XTraits.idle (atLe 1 0x21000000) ∧ flowNear (atLe 1 0x21000000) (atLe 1 0x21000000) = true ∧
      [(0 : PAddr), 1, 0xFFFF].all (fun lc =>
        loopEnd (atLe lc 0x24) XTraits.idle (atLe lc 0x24) && !flowNear (atLe lc 0x24) (atLe lc 0x24) &&
          fetches (atLe lc 0x24) (atLe lc 0x24) && !(atLe lc 0x24).requested) = true ∧
      ran (atLe 0 0x24) XTraits.idle (atLe 0 0x24) ∧ ran (atLe 1 0x24) XTraits.idle (atLe 1 0x24) := by
  refine ⟨ran_idle _ rfl rfl rfl rfl, by decide +kernel, by decide +kernel, ran_idle _ rfl rfl rfl rfl,
    ran_idle _ rfl rfl rfl rfl⟩

/-- A table of three sources, the second of them disabled: the vectors 0x20, 0x25 and 0x3F. -/
def table : List Source := [⟨0, true⟩, ⟨5, false⟩, ⟨31, true⟩]

/-- A core with an arbiter whose EN is set, and a request by one of its two enabled sources. -/
def asking (ic : IntCycle) (source : Nat) : State :=
  { base with
    ic := ic, en := true, inputs := [⟨false, true, source⟩],
    cfg := { Config.vhdl with arbiter := some ⟨.x, 0xC000, false, table, false⟩ } }

theorem witness_RequestReceived :
    ran (asking .idle 0) XTraits.idle (asking .idle 0) ∧ (asking .idle 0).requested = true ∧
      fetches (asking .idle 0) (asking .idle 0) = true ∧
      loopEnd (asking .idle 0) XTraits.idle (asking .idle 0) = false ∧ XTraits.idle.enables = false := by
  refine ⟨ran_idle _ rfl rfl rfl rfl, by decide +kernel, by decide +kernel, by decide +kernel, rfl⟩

/-- Fetches from LE, from elsewhere, and on a core without loop hardware. -/
theorem witness_InterruptCycle1 :
    ran (asking .c1 0) XTraits.idle (asking .c1 0) ∧ (asking .c1 0).pc ≠ (asking .c1 0).le ∧
      fetches (asking .c1 0) (asking .c1 0) = true ∧
      (ran { atLe 0 0x24 with ic := .c1 } XTraits.idle { atLe 0 0x24 with ic := .c1 } ∧
        (atLe 0 0x24).cfg.hasLoops = true ∧ (atLe 0 0x24).pc = (atLe 0 0x24).le) ∧
      ran (withConfig (fun c => { c with loopHw := 0 }) (asking .c1 0)) XTraits.idle
        (withConfig (fun c => { c with loopHw := 0 }) (asking .c1 0)) := by
  refine ⟨ran_idle _ rfl rfl rfl rfl, by decide, by decide +kernel, ⟨ran_idle _ rfl rfl rfl rfl, by decide, by decide⟩,
    ran_idle _ rfl rfl rfl rfl⟩

/-- A RETI fetched in interrupt cycle 1. -/
def retiBehind : Option Slot := some ⟨0, 0x40, 0x21000000, false⟩

/-- Vectors at both ends; the third instruction cancelled, kept by LEHIT, kept but a change of flow, and a vector that
is LE. -/
theorem witness_InterruptCycle2 :
    [((0 : Nat), (0x20 : PAddr)), (1, 0x3F)].all (fun v => fetches (asking .c2 v.1) (asking .c2 v.1) &&
        !(asking .c2 v.1).lehit && !(asking .c2 v.1).woke && decide ((asking .c2 v.1).vector = v.2) &&
        decide ((asking .c2 v.1).vector ≠ (asking .c2 v.1).le)) = true ∧
      ran (asking .c2 1) XTraits.idle (asking .c2 1) ∧
      (ran { asking .c2 0 with lehit := true } XTraits.idle { asking .c2 0 with lehit := true } ∧
        slotIsFlow Config.vhdl { asking .c2 0 with lehit := true }.de = false) ∧
      (ran { asking .c2 0 with lehit := true, de := retiBehind } XTraits.idle
          { asking .c2 0 with lehit := true, de := retiBehind } ∧ slotIsFlow Config.vhdl retiBehind = true) ∧
      (ran { asking .c2 0 with le := 0x0020 } XTraits.idle { asking .c2 0 with le := 0x0020 } ∧
        ({ asking .c2 0 with le := 0x0020 } : State).vector = 0x0020) := by
  refine ⟨by decide +kernel, ran_idle _ rfl rfl rfl rfl, ⟨ran_idle _ rfl rfl rfl rfl, by decide⟩,
    ⟨ran_idle _ rfl rfl rfl rfl, by decide +kernel⟩, ran_idle _ rfl rfl rfl rfl, by decide +kernel⟩

/-- A core that executes the third instruction after a HALT, in interrupt cycle 2 of a halt's end. -/
def woken (de : Option Slot) : State :=
  withConfig (fun c => { c with haltThird := .executed }) { asking .c2 0 with woke := true, de := de }

/-- The third instruction kept by HALT_THIRD, and one that changes the flow. -/
theorem witness_InterruptCycle2_woken :
    [none, retiBehind].all (fun d => fetches (woken d) (woken d) && (woken d).woke &&
        decide ((woken d).cfg.haltThird = .executed) && decide ((woken d).vector ≠ (woken d).le)) = true ∧
      (ran (woken none) XTraits.idle (woken none) ∧ slotIsFlow (woken none).cfg (woken none).de = false) ∧
      (ran (woken retiBehind) XTraits.idle (woken retiBehind) ∧
        slotIsFlow (woken retiBehind).cfg (woken retiBehind).de = true) := by
  refine ⟨by decide +kernel, ⟨ran_idle _ rfl rfl rfl rfl, by decide⟩, ran_idle _ rfl rfl rfl rfl, by decide +kernel⟩

/-- J in EX in interrupt cycle 2. -/
def jumping : State := inEx 0x28004400 (asking .c2 0)

/-- X is a change of flow: the instruction behind it is kept. -/
theorem witness_InterruptCycle2_flow :
    ∃ t, ran jumping (XTraits.of jumping (.jcc .always 0x110)) t ∧
      (fetches jumping t && (XTraits.of jumping (.jcc .always 0x110)).flow && !slotIsFlow jumping.cfg t.de &&
        decide (jumping.ic = .c2 ∧ jumping.vector ≠ jumping.le)) = true :=
  ran_exec jumping _ (fun t => fetches jumping t && (XTraits.of jumping (.jcc .always 0x110)).flow &&
      !slotIsFlow jumping.cfg t.de && decide (jumping.ic = .c2 ∧ jumping.vector ≠ jumping.le))
    (by decide) (by decide) (by decide) (by decide +kernel) (by decide +kernel)

theorem witness_InterruptCycles345 :
    (ran (asking .c3 0) XTraits.idle (asking .c3 0) ∧ fetches (asking .c3 0) (asking .c3 0) = true ∧
        loopEnd (asking .c3 0) XTraits.idle (asking .c3 0) = false) ∧
      ran (asking .c4 0) XTraits.idle (asking .c4 0) ∧ ran (asking .c5 0) XTraits.idle (asking .c5 0) := by
  refine ⟨⟨ran_idle _ rfl rfl rfl rfl, by decide +kernel, by decide +kernel⟩, ran_idle _ rfl rfl rfl rfl,
    ran_idle _ rfl rfl rfl rfl⟩

theorem witness_HaltedCycle :
    base.cfg.supported = true ∧ (asking .idle 5).cfg.supported = true ∧
      ({ base with halted := true } : State).input.reset = false ∧
        ({ base with halted := true } : State).requested = false ∧
      ({ asking .idle 5 with halted := true } : State).input.reset = false ∧
      ({ asking .idle 5 with halted := true } : State).requested = true := by decide +kernel

/-- Interrupt cycle 2 with pages, and a JMPI that leaves page 5. -/
theorem witness_PageRegistersWritten :
    steps { paged with ic := .c2, ipr0 := 5 } (fun t => t.ipr1 == 5) = true ∧
      steps (inEx 0x2A00441E { paged with ipr0 := 5 }) (fun t => t.ipr0 == 0) = true := by decide +kernel

/-- LDC 0x400 to MR0 sets S. -/
theorem witness_ModeBitsWritten : steps (inEx 0x0001000A base) (fun t => t.flag .s && !base.flag .s) = true := by
  decide +kernel

/-- STX A1 to the highest X address changes the two bytes of its word that n = 16 fills. -/
theorem witness_MemoryWritten :
    steps (inEx 0x38004024 (withIdx [(.i0, 0xFFFF)] (withRegs [(.a1, 0x1234)] base)))
      (fun t => t.xmem.read 524280 == 0x34 && t.xmem.read 524281 == 0x12) = true := by decide +kernel

/-- STX to INT_GLOB_EN. -/
theorem witness_EnableSet :
    steps (inEx 0x38004024 (withIdx [(.i0, 0xC000)] { asking .idle 0 with en := false, inputs := [] }))
      (fun t => t.en) = true := by
  decide +kernel

theorem witness_FlagsWrittenOnly :
    does (withMr0 0x07FF base) (.add .null .null .a0 PMove.nop) (fun t => t.mr0 == 0x07F0) = true := by decide +kernel

/-- One of each disjunct. -/
theorem witness_WordFrames :
    does base (.styPar .i0 (.step 1) (.areg .a0)) (fun _ => true) = true ∧
      does base (.ldc 0 .le) (fun _ => true) = true ∧
      does base (.mvxDbl .lr0 (.areg .a0) (.areg .a1) .lr0) (fun _ => true) = true ∧
      does base (.mvyDbl .lr0 (.areg .a0)) (fun _ => true) = true := by decide +kernel

/-- Loads, stores, register moves, the discarded load and the move NOP. -/
theorem witness_WordMoves :
    wordReady (.add (.reg .a0) (.reg .b0) .c0 (.full .x ⟨.load, .i0, .step 9, .areg .a1⟩)) base = true ∧
      wordReady (.mac .a0 .b0 .uu .d (.short ⟨.load, .i0, true, .a0⟩ ⟨.store, .i2, true, .b0⟩)) base = true ∧
      wordReady (.nopAlu (.full .y ⟨.store, .i7, .step 7, .guard .d⟩)) base = true ∧
      wordReady (.mvxPar .lr0 .mr0) base = true ∧ wordReady (.ldxPar .i0 (.step 1) .null) base = true ∧
      wordReady (.ldyDbl .i0 .byPair .nop) base = true := by decide +kernel

theorem witness_LdcLoads :
    FReg.legalTarget Config.vhdl (.guard .d) = true ∧ targetReady base (.guard .d) = true ∧
      FReg.legalTarget Config.vhdl .null = true ∧ targetReady base .null = true ∧
      FReg.legalTarget Config.vhdl .mr1 = true ∧ targetReady base .mr1 = true := by decide +kernel

theorem witness_DoubleRegisterMoves :
    unitsDiffer .lr0 (.areg .a0) = true ∧ unitsDiffer (.areg .a0) (.ireg .i5) = true ∧
      wordReady (.mvxDbl .lr0 (.areg .a0) (.areg .a0) (.ireg .i5)) base = true ∧
      wordReady (.mvyDbl (.areg .a0) (.ireg .i5)) base = true ∧
      (wordReady (.mvxDbl .lr0 .lr1 (.areg .a0) (.ireg .i5)) base = true ∧ unitsDiffer .lr0 .lr1 = false) ∧
      (wordReady (.mvxDbl .lr0 (.areg .a0) (.areg .a0) (.guard .d)) base = true ∧
        unitsDiffer (.areg .a0) (.guard .d) = false) ∧
      (wordReady (.mvyDbl (.ireg .i0) (.ireg .i7)) base = true ∧ unitsDiffer (.ireg .i0) (.ireg .i7) = false) := by
  decide +kernel

/-- A page register that the core lacks is named before the units (log 6). -/
theorem test_double_units :
    exec (.mvxDbl .lr0 .ipr0 (.areg .a0) (.ireg .i5)) base = .refused (.reserved .notAvailable) ∧
      exec (.mvxDbl .lr0 .lr1 (.areg .a0) (.ireg .i5)) base = .refused .mvUnit := ⟨rfl, rfl⟩

/-- A core whose X and Y address 0 is a device with side effects. -/
def onDevice : State :=
  withConfig (fun c => { c with xmap := [⟨0, 0, .device true⟩], ymap := [⟨0, 0, .device true⟩] }) base

theorem witness_NopsDoNothing :
    Post.wellFormed .byPair = true ∧ Post.wellFormed (.step 9) = true ∧
      Config.cell base.cfg .x (base.idx.get .i0) ≠ .device true ∧
      Config.cell onDevice.cfg .x (onDevice.idx.get .i0) = .device true ∧
      Config.cell onDevice.cfg .y (onDevice.idx.get .i7) = .device true := by decide

/-- A store and the load after it, on both buses. -/
theorem witness_StoreThenLoad :
    base.xmem.wf = true ∧ base.ymem.wf = true ∧ Config.cell Config.vhdl .x 0xFFFF = .storage ∧
      Config.cell Config.vhdl .y 0 = .storage ∧
      does (withIdx [(.i0, 0xFFFF)] base) (.stxPar .i0 (.step 0) (.areg .b1))
        (fun t => does t (.ldxPar .i0 (.step 0) (.areg .a0)) fun _ => true) = true ∧
      does base (.styPar .i0 (.step 0) (.areg .b1))
        (fun t => does t (.ldyPar .i0 (.step 0) (.areg .a0)) fun _ => true) = true := by decide +kernel

theorem witness_NarrowSums :
    SumForm (.addc (.reg .a0) .ones .d1 PMove.nop) (.reg .a0) .ones .d1 true ∧
      wordReady (.addc (.reg .a0) .ones .d1 PMove.nop) base = true ∧
      SumForm (.lsl (.reg .a0) .a0 PMove.nop) (.reg .a0) (.reg .a0) .a0 false ∧
      wordReady (.lsl (.reg .a0) .a0 PMove.nop) base = true :=
  ⟨.addc _ _ _ _, by decide +kernel, .lsl _ _ _, by decide +kernel⟩

theorem witness_WideSums :
    SumForm (.add (.reg .a0) .p .d1 PMove.nop) (.reg .a0) .p .d1 false ∧ AOp.isWide .p = true ∧
      wordReady (.add (.reg .a0) .p .d1 PMove.nop) base = true ∧
      SumForm (.lslc (.acc .d) .a1 PMove.nop) (.acc .d) (.acc .d) .a1 true ∧
      wordReady (.lslc (.acc .d) .a1 PMove.nop) base = true :=
  ⟨.add _ _ _ _, rfl, by decide +kernel, .lslc _ _ _, by decide +kernel⟩

theorem witness_NarrowDifferences :
    DiffForm (.subc .null (.reg .d1) .a0 PMove.nop) .null (.reg .d1) .a0 true ∧
      wordReady (.subc .null (.reg .d1) .a0 PMove.nop) base = true := ⟨.subc _ _ _ _, by decide +kernel⟩

theorem witness_WideDifferences :
    DiffForm (.sub (.acc .a) .p .a1 PMove.nop) (.acc .a) .p .a1 false ∧
      wordReady (.sub (.acc .a) .p .a1 PMove.nop) base = true := ⟨.sub _ _ _ _, by decide +kernel⟩

/-- Both widths, at the most negative value. -/
theorem witness_AbsoluteValue :
    wordReady (.abs (.reg .a0) .a1 PMove.nop) (withRegs [(.a0, 0x8000)] base) = true ∧
      wordReady (.abs (.acc .b) .b1 PMove.nop) (withAcc .b 0x8000000000 base) = true := by decide +kernel

/-- A tie at n = 16, and R set and clear. -/
theorem witness_RoundingToNearest :
    RoundMode.convergent1 ≠ .truncate ∧ (-32768 : Int) % 2 ^ 16 = 2 ^ (16 - 1) ∧ base.flag .r = false ∧
      (withMr0 0x0100 base).flag .r = true := by decide

/-- With a carry between the words. -/
theorem witness_TwoWordAddition :
    base.flag .s = false ∧ Config.hasBit Config.vhdl .c = true ∧
      does (withRegs [(.a0, 0xFFFF), (.b0, 0x0001), (.a1, 0x7FFF)] base) (.add (.reg .a0) (.reg .b0) .a0 PMove.nop)
        (fun t => t.flag .c &&
          does t (.addc (.reg .a1) (.reg .b1) .a1 PMove.nop) fun u => u.regs.a1 == 0x8000) = true := by
  decide +kernel

/-- A difference that overflows. -/
theorem witness_ComparisonAfterSub :
    Instr.loads .mr0 (.sub (.reg .a0) (.reg .b0) .c0 PMove.nop) = false ∧
      (∀ b ∈ [MrBit.n, .v, .z, .c], Config.hasBit Config.vhdl b = true) ∧
      does (withRegs [(.a0, 0x8000), (.b0, 0x7FFF)] base) (.sub (.reg .a0) (.reg .b0) .c0 PMove.nop)
        (fun t => t.flag .v && Cond.holds .lt t) = true := by decide +kernel

theorem witness_LogicResults :
    LogicForm (.not (.acc .a) .a1 PMove.nop) (.acc .a) .ones .a1 (fun a _ => !a) ∧
      wordReady (.not (.acc .a) .a1 PMove.nop) base = true ∧
      LogicForm (.and (.reg .a0) .null .a0 PMove.nop) (.reg .a0) .null .a0 (fun a b => a && b) ∧
      wordReady (.and (.reg .a0) .null .a0 PMove.nop) base = true :=
  ⟨.not _ _ _, by decide +kernel, .and _ _ _ _, by decide +kernel⟩

theorem witness_ShiftResults :
    ShiftForm (.asr .p .a1 PMove.nop) .p .a1 (fun _ sign => sign) ∧ wordReady (.asr .p .a1 PMove.nop) base = true ∧
      ShiftForm (.lsrc (.reg .a0) .a0 PMove.nop) (.reg .a0) .a0 (fun c _ => c) ∧
      wordReady (.lsrc (.reg .a0) .a0 PMove.nop) base = true :=
  ⟨.asr _ _ _, by decide +kernel, .lsrc _ _ _, by decide +kernel⟩

theorem witness_Products :
    wordReady (.mulss .a0 .d1 PMove.nop) base = true ∧ wordReady (.mulsu .a0 .d1 PMove.nop) base = true ∧
      wordReady (.mulus .a0 .d1 PMove.nop) base = true ∧ wordReady (.muluu .a0 .d1 PMove.nop) base = true := by
  decide +kernel

theorem witness_MultiplyAccumulate :
    wordReady (.mac .a0 .d1 .us .d PMove.nop) base = true ∧ wordReady (.msu .a0 .d1 .us .d PMove.nop) base = true := by
  decide +kernel

theorem witness_RespRestoresP :
    (Instr.resp .a0 .d1).wellFormed Config.vhdl = true ∧ (0x22FFFFFF : IWord).extractLsb' 24 8 = 0b00100010 ∧
      base.flag .r = false ∧
      does { withMr0 0x0400 base with p := 0x80000001 } (.add .null .p .a1 PMove.nop)
        (fun t => t.regs.a1 == 0x8000 && t.regs.a0 == 1) = true := by decide +kernel

theorem witness_Jumps :
    flowReady (.jcc .gt 0x3FFFF) .gt base = true ∧
      flowReady (.j 0) .always { base with prevFlags := 0x07FF } = true := by
  decide +kernel

theorem witness_Calls : flowReady (.callcc .xs 0x3FFFF) .xs { base with prevFlags := 0x003F } = true := by
  decide +kernel

theorem witness_RegisterJumps :
    flowReady (.jrcc .zs) .zs base = true ∧ flowReady .jr .always base = true ∧
      flowReady (.jrccPage .zs .i7) .zs paged = true := by decide +kernel

theorem witness_InterruptReturns :
    flowReady .reti .always base = true ∧ flowReady (.retiPage .i0) .always paged = true := by decide +kernel

theorem witness_VectorTableJump : base.ic ≠ .c2 ∧ State.reset.ic ≠ .c2 := by decide

/-- A count from a guard register and from another. -/
theorem witness_LoopStarts :
    flowReady (.loop (.guard .a) 0xFFFFF) .always base = true ∧ sourceReady base (.guard .a) = true ∧
      flowReady (.loop .mr1 0) .always base = true ∧ sourceReady base .mr1 = true := by decide +kernel

/-- Unlisted condition codes at both ends of both runs. -/
theorem witness_ConditionTable :
    [(0b001010 : BitVec 6), 0b010000, 0b011010, 0b111111].all (fun k =>
      decide (0b001010 ≤ k.toNat ∧ k.toNat ≤ 0b010000 ∨ 0b011010 ≤ k.toNat)) = true := by decide

theorem witness_PostModifyImmediate :
    [(1 : BitVec 4), 7, 9, 15].all (fun k => decide (k ≠ 0b0000 ∧ k ≠ 0b1000)) = true := by decide

/-- Both modes at both ends of their range, and the step of no modification. -/
theorem witness_PostModifyByPair :
    [(0x0000 : DAddr), 0x1FFF, 0xE000, 0xFFFF].all (fun ib =>
      decide (((withIdx [(.i1, ib)] base).index .i1).extractLsb' (base.cfg.da - 3) 3 = 0b000 ∨
        ((withIdx [(.i1, ib)] base).index .i1).extractLsb' (base.cfg.da - 3) 3 = 0b111)) = true := by decide

/-- A buffer pointer and its pair register. -/
def buffer (i ib : DAddr) : State := withIdx [(.i0, i), (.i1, ib)] base

/-- The four modes with lengths 1 (refused), 2, 13 and 8192; a pointer at the last word of a buffer, one at the first
word of the last buffer, and one above its buffer. -/
theorem witness_ModuloStaysInBuffer :
    Config.vhdl.amm.getLsbD 0 = true ∧
      [((0x4000 : DAddr), (0b010 : BitVec 3)), (0x6000, 0b011), (0x8000, 0b100), (0xA000, 0b101)].all (fun q =>
        [(0x0000 : DAddr), 0x0001, 0x000C, 0x1FFF].all (fun m =>
          decide (((buffer 0 (q.1 ||| m)).index IReg.i0.pair).extractLsb' (base.cfg.da - 3) 3 = q.2 ∧
            (((buffer 0 (q.1 ||| m)).index IReg.i0.pair).extractLsb' 0 (base.cfg.da - 3)).toNat = m.toNat))) = true ∧
      (2 ^ 0 ≤ 1 ∧ 1 < 2 ^ (0 + 1) ∧ 2 ^ 3 ≤ 12 ∧ 12 < 2 ^ (3 + 1) ∧ 2 ^ 12 ≤ 0x1FFF ∧ 0x1FFF < 2 ^ (12 + 1)) ∧
      (0x002C - 0x002C % 2 ^ (3 + 1) = 0x0020 ∧ 0x002C ≤ 0x0020 + 12) ∧
      (0xE000 - 0xE000 % 2 ^ (12 + 1) = 0xE000) ∧ (0x002E - 0x002E % 2 ^ (3 + 1) = 0x0020 ∧ 0x0020 + 12 < 0x002E) := by
  decide +kernel

/-- UM's example (R234): a buffer of 13 words at 0x20, step +2 from its last word, at da = 16. -/
theorem test_modulo_example :
    runs (buffer 0x002C 0x400C) 0x30800024 (fun t => t.idx.i0 == 0x0021 && t.mr0 == 0x0040) = true := by decide +kernel

theorem witness_PostModifyReversed :
    Config.vhdl.amm.getLsbD 1 = true ∧
      ((buffer 0 0xC008).index IReg.i0.pair).extractLsb' (base.cfg.da - 3) 3 = 0b110 ∧
      ((buffer 0 0xDFFF).index IReg.i0.pair).extractLsb' (base.cfg.da - 3) 3 = 0b110 := by decide

/-- An accumulator's high half and its guard register. -/
theorem witness_DoubleWriteRefused :
    Instr.isWord (.ldxDbl .i0 (.step 0) (.areg .a1) ⟨.load, .i1, .step 0, .guard .a⟩) = true ∧
      (Instr.ldxDbl .i0 (.step 0) (.areg .a1) ⟨.load, .i1, .step 0, .guard .a⟩).wellFormed Config.vhdl = true ∧
      busReady .x (.mem ⟨.load, .i0, .step 0, .areg .a1⟩) base = true ∧
      busReady .y (.mem ⟨.load, .i1, .step 0, .guard .a⟩) base = true ∧
      ¬ (Instr.targets (.ldxDbl .i0 (.step 0) (.areg .a1) ⟨.load, .i1, .step 0, .guard .a⟩)).Nodup := by decide +kernel

/-- Double register moves to one register twice, and to A1 with A2. -/
theorem witness_DoubleWriteRefused_moves :
    (Instr.mvxDbl .lr0 (.areg .a0) (.ireg .i0) (.areg .a0)).wellFormed Config.vhdl = true ∧
      (Instr.mvxDbl .lr0 (.areg .a1) (.ireg .i0) (.guard .a)).wellFormed Config.vhdl = true ∧
      unitsDiffer .lr0 (.areg .a0) = true ∧ unitsDiffer .lr0 (.areg .a1) = true ∧
      unitsDiffer (.ireg .i0) (.areg .a0) = true ∧ unitsDiffer (.ireg .i0) (.guard .a) = true ∧
      sourceReady base .lr0 = true ∧ sourceReady base (.ireg .i0) = true ∧
      targetReady base (.areg .a0) = true ∧ targetReady base (.guard .a) = true ∧
      Acc.high .a = .a1 := by decide +kernel

/-- A hazard; a change of flow in the delay slot, with a condition that is ready; interrupt cycle 2. -/
theorem witness_FlowRefused :
    Cond.ready .zs { base with prevFlags := 0x0010 } = false ∧ paged.cfg.hasIpr = true ∧
      slotIsFlow Config.vhdl (some ⟨0, 0x0101, 0x28004800, false⟩) = true ∧ Cond.ready .zs base = true ∧
      (Instr.loop .lr0 0).wellFormed Config.vhdl = true ∧ sourceReady base .lr0 = true ∧
      ({ base with ic := .c2 } : State).ic = .c2 := by decide +kernel

/-- A core whose X and Y address 0 is the given cell. -/
def cellAt0 (cell : CellKind) : State :=
  withConfig (fun c => { c with xmap := [⟨0, 0, cell⟩], ymap := [⟨0, 0, cell⟩] }) base

/-- The mode the pair register of I0 names. -/
def pairMode (s : State) : BitVec 3 := (s.index IReg.i0.pair).extractLsb' (s.cfg.da - 3) 3

/-- For each clause a cell, on both buses, or a pair register: the reserved mode, the modulo modes at both ends and bit
reversal without AMM, a zero buffer length, interrupt cycle 4. -/
theorem witness_MovesStop :
    AReg.available Config.vhdl .d1 = true ∧ (9 : BitVec 4) ≠ 8 ∧
      [CellKind.absent, .shadow, .device true].all (fun cell =>
        decide (Config.cell (cellAt0 cell).cfg .x ((cellAt0 cell).idx.get .i0) = cell) &&
          decide (Config.cell (cellAt0 cell).cfg .y ((cellAt0 cell).idx.get .i0) = cell)) = true ∧
      CellKind.takes (Config.cell base.cfg .x (base.idx.get .i0)) = true ∧
      CellKind.takes (Config.cell base.cfg .y (base.idx.get .i0)) = true ∧
      pairMode (buffer 0 0x3FFF) = 0b001 ∧
      (pairMode (withConfig (fun c => { c with amm := 0 }) (buffer 0 0x4001)) = 0b010 ∧
        pairMode (withConfig (fun c => { c with amm := 0 }) (buffer 0 0xA001)) = 0b101 ∧
        pairMode (withConfig (fun c => { c with amm := 0 }) (buffer 0 0xC001)) = 0b110 ∧
        (0 : BitVec 3).getLsbD 0 = false ∧ (0 : BitVec 3).getLsbD 1 = false) ∧
      (pairMode (buffer 0 0x4000) = 0b010 ∧ pairMode (buffer 0 0xA000) = 0b101 ∧
        ((buffer 0 0xA000).index IReg.i0.pair).extractLsb' 0 (base.cfg.da - 3) = 0 ∧
        Config.vhdl.amm.getLsbD 0 = true) ∧
      (asking .c4 0).ic = .c4 := by decide +kernel

/-- A core whose multiplier is narrower than its words. -/
def narrowMultiplier : Config := { Config.vhdl with m := 8, mRange := by decide }

/-- A core with 19-bit program addresses. -/
def longAddresses : Config :=
  { Config.vhdl with
    n := 19, pa := 19, m := 19, nRange := by decide, daRange := by decide, paRange := by decide, mRange := by decide,
    gRange := by decide }

/-- One configuration that each reason refuses, and two that none does. -/
theorem witness_UnsupportedConfigRefused :
    [narrowMultiplier, longAddresses, { Config.vhdl with ni := .sixteen }, { Config.vhdl with modOnly := true },
      { Config.vhdl with loopHw := 2 }].all (fun c => !c.supported) = true ∧
      Config.vhdl.supported = true ∧ Config.fc.supported = true := by decide

theorem witness_VectorFromTable :
    (∃ b, (asking .idle 0).cfg.arbiter = some b ∧ ∃ x ∈ b.sources, x.enabled = true) ∧
      ((asking .idle 0).vector = 0x20 ∧ (asking .idle 1).vector = 0x3F ∧ (asking .idle 2).vector = 0x20) ∧
      (withConfig (fun c => { c with arbiter := some ⟨.x, 0xC000, true, [⟨3, false⟩], false⟩ })
        (asking .idle 0)).requested = false := by
  refine ⟨⟨_, rfl, ⟨0, true⟩, by decide, rfl⟩, by decide, by decide⟩

/-- Registers of both kinds: as wide as the bus, and narrower. -/
theorem witness_RegistersOnTheBus :
    sourceReady base (.ireg .i0) = true ∧ FReg.width base.cfg (.ireg .i0) = base.cfg.n ∧
      sourceReady base (.guard .a) = true ∧ FReg.width base.cfg (.guard .a) < base.cfg.n := by decide

/-! ### Other widths (R5, R6) -/

/-- A core with 11-bit words and program addresses, 8-bit data addresses and no guard bits. -/
def small : State :=
  { base with cfg := { Config.vhdl with
      n := 11, da := 8, pa := 11, m := 11, g := 0, nRange := by decide, daRange := by decide, paRange := by decide,
      mRange := by decide, gRange := by decide } }

/-- A core with 32-bit words, 20-bit data addresses and 16 guard bits. -/
def large : State :=
  { base with cfg := { Config.vhdl with
      n := 32, da := 20, pa := 18, m := 32, g := 16, nRange := by decide, daRange := by decide, paRange := by decide,
      mRange := by decide, gRange := by decide, xmap := [⟨0, 0xFFFFF, .storage⟩] } }

/-- R158, R6 at W = 22 and W = 80: a wide sum that overflows, there being no guard bits, and one that the guard bits
hold. -/
theorem test_widths_add :
    runs (withAcc .a 0x1FFFFF (withAcc .b 1 small)) 0x4CD20024
      (fun t => t.regs.accum t.cfg .a == 0x200000 && znvec t == [false, true, true, false, false]) = true ∧
      runs (withAcc .a 0x7FFFFFFFFFFFFFFF (withAcc .b 1 large)) 0x4CD20024
        (fun t => t.regs.accum t.cfg .a == 0x8000000000000000 &&
          znvec t == [false, false, false, true, false]) = true := by
  decide +kernel

/-- R161, R150 at n = 11: the sum wraps at 11 bits. -/
theorem test_widths_narrow :
    runs (withRegs [(.a0, 0x3FF), (.b0, 1)] small) 0x40280024
      (fun t => t.regs.c0 == 0x400 && znvec t == [false, true, true, false, false]) = true := by decide +kernel

/-- R201 at n = 32: the product has 64 bits. -/
theorem test_widths_product :
    runs (withMr0 0x0200 (withRegs [(.a0, 0xFFFFFFFF), (.b1, 0xFFFFFFFF)] large)) 0xFFB00024
      (fun t => t.p == 0xFFFFFFFE00000001) = true := by decide +kernel

/-- R231, R236 at da = 8 and da = 20: the index register wraps at da bits, and its top bit is the flag. -/
theorem test_widths_index :
    does (withIdx [(.i1, 0xFF)] small) (.ldxPar .i1 (.step 1) (.areg .a0))
        (fun t => t.idx.i1 == 0 && !t.flag .x) = true ∧
      does (withIdx [(.i1, 0x7FFFF)] large) (.ldxPar .i1 (.step 1) (.areg .a0))
        (fun t => t.idx.i1 == 0x80000 && t.flag .x) = true := by decide +kernel

end Sys2Proof.Tests
end

section
/-! The condition table (30_encoding.md R126, Table 6.1): the codes it lists read back by `Cond.ofCode_code`, the codes
it leaves out are reserved, and LT, LE and their negations rest on the one comparison `State.less`. -/

namespace Sys2Proof.Machine

/-- R126, R134: the two runs of codes that Table 6.1 leaves out. -/
theorem Cond.ofCode_reserved (k : BitVec 6)
    (hk : 0b001010 ≤ k.toNat ∧ k.toNat ≤ 0b010000 ∨ 0b011010 ≤ k.toNat) :
    Cond.ofCode k = .error .reservedCondition := by
  unfold Cond.ofCode
  -- One case for each listed code, which lies in neither run, and last the case of every other code.
  split
  case h_20 => rfl
  all_goals omega

theorem Cond.holds_lt (s : State) : Cond.holds .lt s = (s.flag .n ^^ (s.flag .v && !s.flag .s)) := rfl

theorem Cond.holds_le (s : State) : Cond.holds .le s = (Cond.holds .lt s || s.flag .z) := rfl

theorem Cond.holds_ge (s : State) : Cond.holds .ge s = !Cond.holds .lt s := rfl

theorem Cond.holds_gt (s : State) : Cond.holds .gt s = !Cond.holds .le s := rfl

/-- Settles O57: the listed codes are the codes of the conditions, a reserved code lies in one of the two runs, and
each condition on one flag is that flag or its complement by definition. -/
theorem conditionTable : Obligations.ConditionTable := by
  unfold Obligations.ConditionTable
  refine ⟨⟨?listed, Cond.ofCode_reserved⟩, fun s => ?truth⟩
  case listed =>
    exact ⟨Cond.ofCode_code .always, Cond.ofCode_code .cs, Cond.ofCode_code .es, Cond.ofCode_code .vs,
      Cond.ofCode_code .ns, Cond.ofCode_code .zs, Cond.ofCode_code .xs, Cond.ofCode_code .ys, Cond.ofCode_code .lt,
      Cond.ofCode_code .le, Cond.ofCode_code .cc, Cond.ofCode_code .ec, Cond.ofCode_code .vc, Cond.ofCode_code .nc,
      Cond.ofCode_code .zc, Cond.ofCode_code .xc, Cond.ofCode_code .yc, Cond.ofCode_code .ge, Cond.ofCode_code .gt⟩
  case truth =>
    exact ⟨rfl, ⟨rfl, rfl⟩, ⟨rfl, rfl⟩, ⟨rfl, rfl⟩, ⟨rfl, rfl⟩, ⟨rfl, rfl⟩, ⟨rfl, rfl⟩, ⟨rfl, rfl⟩,
      ⟨Cond.holds_lt s, Cond.holds_ge s⟩, Cond.holds_le s, Cond.holds_gt s⟩

end Sys2Proof.Machine
end

section
/-! Address generation (43_moves.md R231 to R236): what each post-modification answers. The facts about sums, mode bits
and buffers hold for an address ALU of any width `aw`; a state's has da bits. -/

namespace Sys2Proof.Machine

/-! ### Modification by an immediate (R231) -/

theorem Post.ofCode_byPair (k : BitVec 4) : Post.ofCode k = .byPair ↔ k = 0b1000 := by
  by_cases h : k = 8 <;> simp [Post.ofCode, h]

/-- Adding a sign-extended word is adding its signed value modulo 2^aw. -/
theorem add_signExtend_eq_ofInt {aw w : Nat} (i : BitVec aw) (k : BitVec w) :
    i + k.signExtend aw = BitVec.ofInt aw (i.toNat + k.toInt) := by
  rw [BitVec.ofInt_add, BitVec.ofInt_natCast, BitVec.ofNat_toNat, BitVec.setWidth_eq]
  rfl

theorem postOf_step (s : State) (ix : IReg) (k : BitVec 4) (hk : k ≠ 0) :
    postOf s ix (.step k) = .ok (plainPost (s.index ix + k.signExtend s.cfg.da)) :=
  congrArg Except.ok (if_neg hk)

/-- Settles O50: adding the sign-extended code is adding its signed value modulo 2^da. -/
theorem postModifyImmediate : Obligations.PostModifyImmediate := by
  unfold Obligations.PostModifyImmediate
  exact ⟨fun s ix k h0 _ => ⟨_, add_signExtend_eq_ofInt (s.index ix) k, postOf_step s ix k h0⟩, fun _ _ => rfl,
    Post.ofCode_byPair⟩

/-! ### Linear modification by the pair register (R233) -/

theorem postOf_byPair (s : State) (ix : IReg) :
    postOf s ix .byPair = pairPost s.cfg (s.index ix) (s.index ix.pair) := rfl

/-- R232: modes 000 and 111 add the pair register. -/
theorem pairPost_linear (c : Sys2Proof.Config) {aw : Nat} (i ib : BitVec aw)
    (h : ib.extractLsb' (aw - 3) 3 = 0b000 ∨ ib.extractLsb' (aw - 3) 3 = 0b111) :
    pairPost c i ib = .ok (plainPost (i + ib)) := by
  rcases h with h | h <;> simp [pairPost, h]

/-- In modes 000 and 111 the three mode bits are copies of the lowest of them. -/
theorem mode_bits_agree {aw : Nat} (ib : BitVec aw)
    (h : ib.extractLsb' (aw - 3) 3 = 0b000 ∨ ib.extractLsb' (aw - 3) 3 = 0b111) (j : Nat) (hj : j < 3) :
    ib.getLsbD (aw - 3 + j) = ib.getLsbD (aw - 3) := by
  have hbit (b : Nat) (hb : b < 3) : ib.getLsbD (aw - 3 + b) = (ib.extractLsb' (aw - 3) 3).getLsbD b := by simp [hb]
  calc ib.getLsbD (aw - 3 + j) = (ib.extractLsb' (aw - 3) 3).getLsbD j := hbit j hj
    _ = (ib.extractLsb' (aw - 3) 3).getLsbD 0 := by rcases h with h | h <;> rw [h] <;> interval_cases j <;> rfl
    _ = ib.getLsbD (aw - 3) := (hbit 0 (by decide)).symm

/-- In modes 000 and 111 the pair register is its own low aw - 2 bits, sign extended: bit aw - 3 is their sign. -/
theorem eq_signExtend_low_of_linear_mode {aw : Nat} (haw : 3 ≤ aw) (ib : BitVec aw)
    (h : ib.extractLsb' (aw - 3) 3 = 0b000 ∨ ib.extractLsb' (aw - 3) 3 = 0b111) :
    ib = (ib.extractLsb' 0 (aw - 2)).signExtend aw := by
  have hsign : (ib.extractLsb' 0 (aw - 2)).msb = ib.getLsbD (aw - 3) := by
    rw [BitVec.msb_eq_getLsbD_last, BitVec.getLsbD_extractLsb', Nat.zero_add, Nat.sub_sub, decide_eq_true (by omega),
      Bool.true_and]
  refine BitVec.eq_of_getLsbD_eq fun j hj => ?_
  rw [BitVec.getLsbD_signExtend, hsign, decide_eq_true hj, Bool.true_and]
  by_cases hlow : j < aw - 2
  · simp [hlow]
  · rw [if_neg hlow, ← mode_bits_agree ib h (j - (aw - 3)) (by omega), Nat.add_sub_cancel' (by omega)]

/-- Settles O51: the sum is taken modulo 2^da, where the signed and the unsigned reading of the pair register agree. -/
theorem postModifyByPair : Obligations.PostModifyByPair := by
  unfold Obligations.PostModifyByPair
  rintro s ix i ib rfl rfl hmode
  have hda : 3 ≤ s.cfg.da := le_trans (by decide) s.cfg.daRange.1
  refine ⟨eq_signExtend_low_of_linear_mode hda _ hmode, s.index ix + s.index ix.pair, ?unsigned, ?signed, ?answer⟩
  case unsigned => simp [BitVec.ofNat_add]
  case signed => simp [BitVec.ofInt_add]
  case answer => rw [postOf_byPair, pairPost_linear _ _ _ hmode]; rfl

/-! ### Modulo modification (R234) -/

/-- The correction of R234 in a buffer of mm1 + 1 words from `lower`: the corrected address, and whether it was
corrected. -/
def moduloWrap (lower mm1 : Nat) (lin : Int) : Int × Bool :=
  if lin < lower then (lin + (mm1 + 1), true)
  else if lower + mm1 < lin then (lin - (mm1 + 1), true)
  else (lin, false)

theorem moduloWrap_below {lower mm1 : Nat} {lin : Int} (h : lin < lower) :
    moduloWrap lower mm1 lin = (lin + (mm1 + 1), true) := if_pos h

theorem moduloWrap_above {lower mm1 : Nat} {lin : Int} (h : lower + mm1 < lin) :
    moduloWrap lower mm1 lin = (lin - (mm1 + 1), true) := by
  rw [moduloWrap, if_neg (by omega), if_pos h]

theorem moduloWrap_inside {lower mm1 : Nat} {lin : Int} (hl : lower ≤ lin) (hu : lin ≤ lower + mm1) :
    moduloWrap lower mm1 lin = (lin, false) := by
  rw [moduloWrap, if_neg (by omega), if_neg (by omega)]

theorem moduloWrap_flag (lower mm1 : Nat) (lin : Int) :
    (moduloWrap lower mm1 lin).2 = true ↔ (moduloWrap lower mm1 lin).1 ≠ lin := by
  unfold moduloWrap
  split_ifs
  · simp only [true_iff]; omega
  · simp only [true_iff]; omega
  · simp

/-- The correction is a multiple of the buffer's length. -/
theorem moduloWrap_emod (lower mm1 : Nat) (lin : Int) :
    ((moduloWrap lower mm1 lin).1 - lower) % (mm1 + 1) = (lin - lower) % (mm1 + 1) := by
  unfold moduloWrap
  split_ifs
  · rw [add_sub_right_comm, Int.add_emod_right]
  · rw [sub_right_comm, Int.sub_emod_right]
  · rfl

/-- An address that leaves the buffer by at most its length is corrected into it. -/
theorem moduloWrap_in_buffer {lower mm1 : Nat} {lin : Int} (hl : lower - (mm1 + 1 : Int) ≤ lin)
    (hu : lin ≤ lower + mm1 + (mm1 + 1 : Int)) :
    lower ≤ (moduloWrap lower mm1 lin).1 ∧ (moduloWrap lower mm1 lin).1 ≤ lower + mm1 := by
  unfold moduloWrap
  split_ifs <;> constructor <;> dsimp only <;> omega

/-- R232: each modulo mode is its step. -/
theorem pairPost_modulo (c : Sys2Proof.Config) {aw : Nat} (i ib : BitVec aw) (step : Int)
    (hamm : c.amm.getLsbD 0 = true)
    (h : (ib.extractLsb' (aw - 3) 3 = 0b010 ∧ step = 2) ∨ (ib.extractLsb' (aw - 3) 3 = 0b011 ∧ step = -2) ∨
      (ib.extractLsb' (aw - 3) 3 = 0b100 ∧ step = 1) ∨ (ib.extractLsb' (aw - 3) 3 = 0b101 ∧ step = -1)) :
    pairPost c i ib = moduloPost i ib step := by
  rcases h with ⟨h, rfl⟩ | ⟨h, rfl⟩ | ⟨h, rfl⟩ | ⟨h, rfl⟩ <;> simp only [pairPost, h, hamm] <;> rfl

/-- U-MOD-M1. -/
theorem moduloPost_zero {aw : Nat} (i ib : BitVec aw) (step : Int) (h : (ib.extractLsb' 0 (aw - 3)).toNat = 0) :
    moduloPost i ib step = .error .modM1 := by
  simp [moduloPost, require_error, h]

/-- R234 with k the position of the uppermost 1 bit of the length field: the linear address is corrected in the buffer
that starts at the register with bits k to 0 cleared. -/
theorem moduloPost_eq_wrap {aw : Nat} (i ib : BitVec aw) (step : Int) (k mm1 : Nat)
    (hm : mm1 = (ib.extractLsb' 0 (aw - 3)).toNat) (hk : 2 ^ k ≤ mm1) (hk' : mm1 < 2 ^ (k + 1)) :
    let out := moduloWrap (i.toNat - i.toNat % 2 ^ (k + 1)) mm1 (i.toNat + step)
    moduloPost i ib step = .ok ⟨some ((BitVec.ofInt aw out.1).setWidth 23), out.2⟩ := by
  have hpos : mm1 ≠ 0 := by have := Nat.two_pow_pos k; omega
  have hlog : Nat.log2 mm1 = k := (Nat.log2_eq_iff hpos).mpr ⟨hk, hk'⟩
  have hlower : i.toNat / 2 ^ (k + 1) * 2 ^ (k + 1) = i.toNat - i.toNat % 2 ^ (k + 1) := by
    rw [Nat.div_mul_self_eq_mod_sub_self]
  simp only [moduloPost, ← hm, hlog, hlower, moduloWrap, require_ok, decide_eq_true_eq]
  refine ⟨hpos, ?_⟩
  split_ifs <;> rfl

/-- A buffer of at most 2^n words that starts at a multiple of 2^n ends within the address space. -/
theorem aligned_add_two_pow_le {n aw : Nat} (hn : n ≤ aw) (i : BitVec aw) :
    i.toNat - i.toNat % 2 ^ n + 2 ^ n ≤ 2 ^ aw := by
  obtain ⟨d, hd⟩ : 2 ^ n ∣ 2 ^ aw := pow_dvd_pow 2 hn
  have hq : i.toNat / 2 ^ n < d := Nat.div_lt_of_lt_mul (hd ▸ i.isLt)
  calc i.toNat - i.toNat % 2 ^ n + 2 ^ n = 2 ^ n * (i.toNat / 2 ^ n + 1) := by
        rw [Nat.mul_succ, ← Nat.mul_div_self_eq_mod_sub_self]
    _ ≤ 2 ^ aw := hd ▸ Nat.mul_le_mul_left _ hq

/-- R234: the buffer ends within the address space, for the length field leaves out the three mode bits. -/
theorem modulo_buffer_end_lt {aw : Nat} (i ib : BitVec aw) {k mm1 : Nat}
    (hm : mm1 = (ib.extractLsb' 0 (aw - 3)).toNat) (hk : 2 ^ k ≤ mm1) (hk' : mm1 < 2 ^ (k + 1)) :
    i.toNat - i.toNat % 2 ^ (k + 1) + mm1 < 2 ^ aw := by
  have hpow : 2 ^ k < 2 ^ (aw - 3) := hk.trans_lt (hm ▸ BitVec.isLt _)
  have hkaw : k < aw - 3 := (Nat.pow_lt_pow_iff_right (by decide)).mp hpow
  exact (Nat.add_lt_add_left hk' _).trans_le (aligned_add_two_pow_le (by omega) i)

theorem toNat_ofInt_of_lt {aw : Nat} {z : Int} (h0 : 0 ≤ z) (h : z < 2 ^ aw) :
    ((BitVec.ofInt aw z).toNat : Int) = z := by
  rw [BitVec.toNat_ofInt, Int.toNat_of_nonneg (Int.emod_nonneg _ (by positivity)),
    Int.emod_eq_of_lt h0 (by exact_mod_cast h)]

/-- Settles O52: by the cases of `moduloWrap`; a step of at most 2 leaves a buffer of two words or more by at most its
length, so the one correction leads back into it. -/
theorem moduloStaysInBuffer : Obligations.ModuloStaysInBuffer := by
  unfold Obligations.ModuloStaysInBuffer
  rintro s ix i ib mm1 step hamm rfl rfl hm hmode
  have hpost := (postOf_byPair s ix).trans (pairPost_modulo _ (s.index ix) _ step hamm hmode)
  have hstep : -2 ≤ step ∧ step ≤ 2 := by
    rcases hmode with ⟨_, rfl⟩ | ⟨_, rfl⟩ | ⟨_, rfl⟩ | ⟨_, rfl⟩ <;> decide
  refine ⟨fun h0 => hpost.trans (moduloPost_zero _ _ _ (hm ▸ h0)), fun k lower hk hk' hlower => ?_⟩
  have hout := moduloPost_eq_wrap (s.index ix) _ step k mm1 hm hk hk'
  rw [← hlower] at hout
  refine ⟨_, _, _, rfl, hpost.trans hout, fun h => ?below, fun h => ?above, fun hl hu => ?inside, fun hin => ?buffer⟩
  case below => simp [moduloWrap_below h]
  case above => simp [moduloWrap_above h]
  case inside => simp [moduloWrap_inside hl hu]
  case buffer =>
    have hpos : 1 ≤ mm1 := Nat.one_le_two_pow.trans hk
    have hle : lower ≤ (s.index ix).toNat := hlower ▸ Nat.sub_le _ _
    have hend : (lower + mm1 : Int) < 2 ^ s.cfg.da := by
      exact_mod_cast hlower ▸ modulo_buffer_end_lt (s.index ix) _ hm hk hk'
    obtain ⟨hl, hu⟩ :=
      moduloWrap_in_buffer (lower := lower) (mm1 := mm1) (lin := (s.index ix).toNat + step) (by omega) (by omega)
    have hv := toNat_ofInt_of_lt ((Int.natCast_nonneg lower).trans hl) (hu.trans_lt hend)
    have hoffset := moduloWrap_emod lower mm1 ((s.index ix).toNat + step)
    rw [Int.emod_eq_of_lt (by omega) (by omega)] at hoffset
    refine ⟨by omega, by omega, ?_, ?_⟩
    · rw [hv, hoffset, add_sub_right_comm]
    · rw [hv]; exact moduloWrap_flag _ _ _

end Sys2Proof.Machine
end

section
/-! The encoding (30_encoding.md R100 to R139): the round trip of the encoder and the decoder, and the words that are no
instruction. What the decoder answers is described once, format by format, in `decodeFields_isDecoded`. -/

namespace Sys2Proof

/-! ### The round trip (R102 to R139) -/

/-- The laws of the single instructions, put together. -/
theorem roundTrip (i : Instr) : Laws.RoundTrip.Statement i := by
  cases i with
  | add => exact Laws.RoundTrip.add _ _ _ _
  | addc => exact Laws.RoundTrip.addc _ _ _ _
  | sub => exact Laws.RoundTrip.sub _ _ _ _
  | subc => exact Laws.RoundTrip.subc _ _ _ _
  | and => exact Laws.RoundTrip.and _ _ _ _
  | or => exact Laws.RoundTrip.or _ _ _ _
  | xor => exact Laws.RoundTrip.xor _ _ _ _
  | lsl => exact Laws.RoundTrip.lsl _ _ _
  | lslc => exact Laws.RoundTrip.lslc _ _ _
  | not => exact Laws.RoundTrip.not _ _ _
  | abs => exact Laws.RoundTrip.abs _ _ _
  | asr => exact Laws.RoundTrip.asr _ _ _
  | lsr => exact Laws.RoundTrip.lsr _ _ _
  | lsrc => exact Laws.RoundTrip.lsrc _ _ _
  | nopAlu => exact Laws.RoundTrip.nopAlu _
  | mac => exact Laws.RoundTrip.mac _ _ _ _ _
  | msu => exact Laws.RoundTrip.msu _ _ _ _ _
  | mulss => exact Laws.RoundTrip.mulss _ _ _
  | mulsu => exact Laws.RoundTrip.mulsu _ _ _
  | mulus => exact Laws.RoundTrip.mulus _ _ _
  | muluu => exact Laws.RoundTrip.muluu _ _ _
  | resp => exact Laws.RoundTrip.resp _ _
  | ldc => exact Laws.RoundTrip.ldc _ _
  | nop => exact Laws.RoundTrip.nop _
  | ldxPar => exact Laws.RoundTrip.ldxPar _ _ _
  | ldyPar => exact Laws.RoundTrip.ldyPar _ _ _
  | stxPar => exact Laws.RoundTrip.stxPar _ _ _
  | styPar => exact Laws.RoundTrip.styPar _ _ _
  | ldxShort => exact Laws.RoundTrip.ldxShort _ _ _ _
  | ldyShort => exact Laws.RoundTrip.ldyShort _ _ _ _
  | stxShort => exact Laws.RoundTrip.stxShort _ _ _ _
  | styShort => exact Laws.RoundTrip.styShort _ _ _ _
  | ldxDbl => exact Laws.RoundTrip.ldxDbl _ _ _ _
  | stxDbl => exact Laws.RoundTrip.stxDbl _ _ _ _
  | ldyDbl => exact Laws.RoundTrip.ldyDbl _ _ _
  | styDbl => exact Laws.RoundTrip.styDbl _ _ _
  | nopPar => exact Laws.RoundTrip.nopPar
  | mvxPar => exact Laws.RoundTrip.mvxPar _ _
  | mvxDbl => exact Laws.RoundTrip.mvxDbl _ _ _ _
  | mvyDbl => exact Laws.RoundTrip.mvyDbl _ _
  | jcc => exact Laws.RoundTrip.jcc _ _
  | j => exact Laws.RoundTrip.j _
  | callcc => exact Laws.RoundTrip.callcc _ _
  | jmpi => exact Laws.RoundTrip.jmpi _ _ _
  | jrcc => exact Laws.RoundTrip.jrcc _
  | jr => exact Laws.RoundTrip.jr
  | jrccPage => exact Laws.RoundTrip.jrccPage _ _
  | reti => exact Laws.RoundTrip.reti
  | retiPage => exact Laws.RoundTrip.retiPage _
  | loop => exact Laws.RoundTrip.loop _ _
  | halt => exact Laws.RoundTrip.halt

/-- Settles O1, by the round trip of each instruction. -/
theorem decodeEncodeCanonical : Obligations.DecodeEncodeCanonical := by
  unfold Obligations.DecodeEncodeCanonical
  exact fun c i w he hw hi => roundTrip i c w he hw hi

/-! ### What the decoder answers -/

/-- An instruction as the decoder names it: in canonical form, and of a form that has a word. -/
def Instr.IsDecoded (i : Instr) : Prop := i.canonical = i ∧ (encode i).isSome = true

theorem PMove.code_isSome_of_ofCode {f : BitVec 17} {pm : PMove} (h : PMove.ofCode f = .ok pm) :
    pm.code.isSome = true := by
  unfold PMove.ofCode at h
  split at h
  · split at h
    · cases h
    · cases h; rfl
  · cases h
  · cases h; rfl

theorem decodeAlu2_ok {mk : AOp → AOp → AReg → PMove → Instr} {w : IWord} {i : Instr} (h : decodeAlu2 mk w = .ok i) :
    ∃ op1 op2 pm, AOp.ofCode (w.extractLsb' 24 4) = .ok op1 ∧ AOp.ofCode (w.extractLsb' 20 4) = .ok op2 ∧
      PMove.ofCode (w.extractLsb' 0 17) = .ok pm ∧ i = mk op1 op2 (AReg.ofCode (w.extractLsb' 17 3)) pm := by
  unfold decodeAlu2 at h
  split at h
  next op1 op2 pm h1 h2 hp => exact ⟨op1, op2, pm, h1, h2, hp, (Except.ok.inj h).symm⟩
  all_goals cases h

theorem decodeAlu1_ok {mk : AOp → AReg → PMove → Instr} {w : IWord} {i : Instr} (h : decodeAlu1 mk w = .ok i) :
    ∃ op res pm, PMove.ofCode (w.extractLsb' 0 17) = .ok pm ∧ i = mk op res pm := by
  unfold decodeAlu1 at h
  split at h
  next op pm _ hp => exact ⟨op, _, pm, hp, (Except.ok.inj h).symm⟩
  all_goals cases h

theorem decodeMac_ok {mk : AReg → AReg → MulMode → Acc → PMove → Instr} {w : IWord} {i : Instr}
    (h : decodeMac mk w = .ok i) :
    ∃ op1 op2 mm acc pm, PMove.ofCode (w.extractLsb' 0 17) = .ok pm ∧ i = mk op1 op2 mm acc pm := by
  unfold decodeMac at h
  split at h
  next acc pm _ hp => exact ⟨_, _, _, acc, pm, hp, (Except.ok.inj h).symm⟩
  all_goals cases h

theorem decodeMul_ok {w : IWord} {i : Instr} (h : decodeMul w = .ok i) :
    ∃ (mm : MulMode) (op1 op2 : AReg) (pm : PMove), PMove.ofCode (w.extractLsb' 0 17) = .ok pm ∧
      i = mm.instr op1 op2 pm := by
  unfold decodeMul at h
  split at h
  · cases h
  next pm hp => exact ⟨_, _, _, pm, hp, (Except.ok.inj h).symm⟩

theorem decodeAluNop_ok {w : IWord} {i : Instr} (h : decodeAluNop w = .ok i) :
    ∃ pm, PMove.ofCode (w.extractLsb' 0 17) = .ok pm ∧ i = .nopAlu pm := by
  unfold decodeAluNop at h
  split at h
  · cases h
  next pm hp => exact ⟨pm, hp, (Except.ok.inj h).symm⟩

/-- Everything operation code 1111 can answer (R111, R117). -/
theorem decodeSingle_ok {w : IWord} {i : Instr} (h : decodeSingle w = .ok i) :
    ∃ pm, PMove.ofCode (w.extractLsb' 0 17) = .ok pm ∧
      ((∃ op res, i = .abs op res pm ∨ i = .asr op res pm ∨ i = .lsr op res pm ∨ i = .lsrc op res pm) ∨
        i = .nopAlu pm ∨ ∃ (mm : MulMode) (op1 op2 : AReg), i = mm.instr op1 op2 pm) := by
  unfold decodeSingle at h
  split at h
  · obtain ⟨mm, op1, op2, pm, hp, rfl⟩ := decodeMul_ok h
    exact ⟨pm, hp, .inr (.inr ⟨mm, op1, op2, rfl⟩)⟩
  · split at h
    · obtain ⟨op, res, pm, hp, rfl⟩ := decodeAlu1_ok h; exact ⟨pm, hp, .inl ⟨op, res, .inl rfl⟩⟩
    · obtain ⟨op, res, pm, hp, rfl⟩ := decodeAlu1_ok h; exact ⟨pm, hp, .inl ⟨op, res, .inr (.inl rfl)⟩⟩
    · obtain ⟨op, res, pm, hp, rfl⟩ := decodeAlu1_ok h; exact ⟨pm, hp, .inl ⟨op, res, .inr (.inr (.inl rfl))⟩⟩
    · obtain ⟨op, res, pm, hp, rfl⟩ := decodeAlu1_ok h; exact ⟨pm, hp, .inl ⟨op, res, .inr (.inr (.inr rfl))⟩⟩
    · obtain ⟨pm, hp, rfl⟩ := decodeAluNop_ok h; exact ⟨pm, hp, .inr (.inl rfl)⟩
    · cases h

theorem decodeDouble_ok {w : IWord} {i : Instr} (h : decodeDouble w = .ok i) :
    ∃ x y, FullMove.ofCode (w.extractLsb' 14 14) = .ok x ∧ FullMove.ofCode (w.extractLsb' 0 14) = .ok y ∧
      i = doubleMove x y := by
  unfold decodeDouble at h
  split at h
  next x y hx hy => exact ⟨x, y, hx, hy, (Except.ok.inj h).symm⟩
  all_goals cases h

/-- Everything operation code 0010 can answer (R104). -/
theorem decodeControl_ok {w : IWord} {i : Instr} (h : decodeControl w = .ok i) :
    (∃ count addr, i = .loop count addr) ∨ (∃ c, i = .jrcc c) ∨ i = .reti ∨ (∃ op1 op2, i = .resp op1 op2) ∨
      (∃ c addr, i = .jcc c addr ∨ i = .callcc c addr) ∨ (∃ addr st ix, i = .jmpi addr st ix) ∨ i = .halt := by
  unfold decodeControl at h
  split at h
  · unfold decodeLoop at h; split at h <;> cases h; exact .inl ⟨_, _, rfl⟩
  · split at h
    · unfold decodeJr at h
      split at h
      · split at h <;> cases h; exact .inr (.inl ⟨_, rfl⟩)
      · cases h
    · unfold decodeReti at h; split at h <;> cases h; exact .inr (.inr (.inl rfl))
    · cases h; exact .inr (.inr (.inr (.inl ⟨_, _, rfl⟩)))
    · unfold decodeJump at h; split at h <;> cases h; exact .inr (.inr (.inr (.inr (.inl ⟨_, _, .inl rfl⟩))))
    · unfold decodeJump at h; split at h <;> cases h; exact .inr (.inr (.inr (.inr (.inl ⟨_, _, .inr rfl⟩))))
    · unfold decodeJmpi at h; split at h <;> cases h; exact .inr (.inr (.inr (.inr (.inr (.inl ⟨_, _, _, rfl⟩)))))
    · cases h
    · cases h; exact .inr (.inr (.inr (.inr (.inr (.inr rfl)))))
    · cases h

theorem mulMode_isDecoded (mm : MulMode) (op1 op2 : AReg) (pm : PMove) (hp : pm.code.isSome = true) :
    (mm.instr op1 op2 pm).IsDecoded := by
  cases mm <;> exact ⟨rfl, by simp [MulMode.instr, encode, encodeMul, hp]⟩

theorem ldcOrNop_isDecoded (imm : BitVec 23) (reg : FReg) : (ldcOrNop imm reg).IsDecoded := by
  unfold ldcOrNop
  split
  · exact ⟨rfl, rfl⟩
  next h => exact ⟨if_neg h, rfl⟩

theorem doubleMove_isDecoded (x y : FullMove) : (doubleMove x y).IsDecoded := by
  obtain ⟨xd, ix, post, reg⟩ := x
  unfold doubleMove
  split
  · split <;> exact ⟨rfl, rfl⟩
  next hx =>
    cases xd
    · exact ⟨if_neg hx, rfl⟩
    · exact ⟨rfl, rfl⟩

/-- What the decoder reads is in canonical form and has a word (R139, log 21). -/
theorem decodeFields_isDecoded {w : IWord} {i : Instr} (h : decodeFields w = .ok i) : i.IsDecoded := by
  have alu2 {mk : AOp → AOp → AReg → PMove → Instr} (h : decodeAlu2 mk w = .ok i)
      (hmk : ∀ op1 op2 res pm, (mk op1 op2 res pm).canonical = mk op1 op2 res pm)
      (henc : ∀ op1 op2 res pm, ∃ opc, encode (mk op1 op2 res pm) = encodeAlu2 opc op1 op2 res pm) : i.IsDecoded := by
    obtain ⟨op1, op2, pm, _, _, hp, rfl⟩ := decodeAlu2_ok h
    obtain ⟨opc, he⟩ := henc op1 op2 (AReg.ofCode (w.extractLsb' 17 3)) pm
    exact ⟨hmk .., by simp [he, encodeAlu2, PMove.code_isSome_of_ofCode hp]⟩
  unfold decodeFields at h
  split at h
  case isTrue =>
    unfold decodeLdc at h
    split at h <;> cases h
    exact ldcOrNop_isDecoded _ _
  case isFalse =>
    split at h
    · rcases decodeControl_ok h with
        ⟨_, _, rfl⟩ | ⟨_, rfl⟩ | rfl | ⟨_, _, rfl⟩ | ⟨_, _, rfl | rfl⟩ | ⟨_, _, _, rfl⟩ | rfl <;> exact ⟨rfl, rfl⟩
    · obtain ⟨x, y, _, _, rfl⟩ := decodeDouble_ok h
      exact doubleMove_isDecoded x y
    · exact alu2 h (fun _ _ _ _ => rfl) (fun _ _ _ _ => ⟨_, rfl⟩)
    · obtain ⟨op1, op2, mm, acc, pm, hp, rfl⟩ := decodeMac_ok h
      exact ⟨rfl, by simp [encode, encodeMac, PMove.code_isSome_of_ofCode hp]⟩
    · exact alu2 h (fun _ _ _ _ => rfl) (fun _ _ _ _ => ⟨_, rfl⟩)
    · obtain ⟨op1, op2, mm, acc, pm, hp, rfl⟩ := decodeMac_ok h
      exact ⟨rfl, by simp [encode, encodeMac, PMove.code_isSome_of_ofCode hp]⟩
    · exact alu2 h (fun _ _ _ _ => rfl) (fun _ _ _ _ => ⟨_, rfl⟩)
    · exact alu2 h (fun _ _ _ _ => rfl) (fun _ _ _ _ => ⟨_, rfl⟩)
    · exact alu2 h (fun _ _ _ _ => rfl) (fun _ _ _ _ => ⟨_, rfl⟩)
    · exact alu2 h (fun _ _ _ _ => rfl) (fun _ _ _ _ => ⟨_, rfl⟩)
    · exact alu2 h (fun _ _ _ _ => rfl) (fun _ _ _ _ => ⟨_, rfl⟩)
    · obtain ⟨pm, hp, ⟨op, res, rfl | rfl | rfl | rfl⟩ | rfl | ⟨mm, op1, op2, rfl⟩⟩ := decodeSingle_ok h
      case h_12.inr.inr => exact mulMode_isDecoded mm op1 op2 pm (PMove.code_isSome_of_ofCode hp)
      all_goals exact ⟨rfl, by simp [encode, encodeAlu1, PMove.code_isSome_of_ofCode hp]⟩
    · cases h

/-- Whether an instruction exists does not depend on ENC_RECON (R134). -/
theorem wellFormed_encRecon (c : Config) (b : Bool) (i : Instr) :
    i.wellFormed { c with encRecon := b } = i.wellFormed c := by
  cases i <;> rfl

/-- Settles O2: the instruction's own word decodes under ENC_RECON by the round trip; whether the class R formats are
accepted is asked of the instruction, not of the word, so it decodes as the first word did. -/
theorem decodedWordsReencode : Obligations.DecodedWordsReencode := by
  unfold Obligations.DecodedWordsReencode
  intro c w i h
  obtain ⟨hd, hc, hw⟩ := (decode_ok _ _ _).mp h
  obtain ⟨hcan, henc⟩ := decodeFields_isDecoded hd
  obtain ⟨v, hv⟩ := Option.isSome_iff_exists.mp henc
  have hv' := roundTrip i { c with encRecon := true } v rfl ((wellFormed_encRecon c true i).trans hw) hv
  rw [hcan] at hv'
  exact ⟨hw, hcan, v, hv, (decode_ok _ _ _).mpr ⟨((decode_ok _ _ _).mp hv').1, hc, hw⟩⟩

end Sys2Proof
end

section
/-! The words that are no instruction (30_encoding.md R101 to R134), and the words written out from the examples of the
spec. A refusal is read off the field that names it; the fields of the statements are parts of one another. -/

namespace Sys2Proof

/-- A field of a field is a field. -/
theorem extractLsb'_extractLsb'_of_add_le {n : Nat} (w : BitVec n) (i k j l : Nat) (h : j + l ≤ k) :
    (w.extractLsb' i k).extractLsb' j l = w.extractLsb' (i + j) l := by
  refine BitVec.eq_of_getLsbD_eq fun b hb => ?_
  have hk : j + b < k := by omega
  simp only [BitVec.getLsbD_extractLsb', hb, hk, decide_true, Bool.true_and, Nat.add_assoc]

/-- What a field says of the field inside it. -/
theorem extractLsb'_of_eq {n : Nat} {w : BitVec n} {i k : Nat} {v : BitVec k} (h : w.extractLsb' i k = v) (j l : Nat)
    (hj : j + l ≤ k) : w.extractLsb' (i + j) l = v.extractLsb' j l := by
  rw [← extractLsb'_extractLsb'_of_add_le w i k j l hj, h]

/-! ### Reserved field codes -/

theorem AOp.ofCode_reserved {c : BitVec 4} (h : c = 0b1010) : AOp.ofCode c = .error .reservedOperand := by
  subst h; rfl

theorem Acc.ofCode_even {c : BitVec 3} (h : c.extractLsb' 0 1 = 0) : Acc.ofCode c = .error .reservedResult := by
  have h2 : c.toNat % 2 = 0 := by simpa using congrArg BitVec.toNat h
  unfold Acc.ofCode
  split
  case h_5 => rfl
  all_goals omega

/-- R113: the even codes are the low halves. -/
theorem AReg.ofCode_even {c : BitVec 3} (h : c.extractLsb' 0 1 = 0) : (AReg.ofCode c).isHigh = false := by
  have h2 : c.toNat % 2 = 0 := by simpa using congrArg BitVec.toNat h
  have hcode : c.toNat = 0 ∨ c.toNat = 2 ∨ c.toNat = 4 ∨ c.toNat = 6 := by have := c.isLt; omega
  rcases hcode with h | h | h | h <;> simp only [AReg.ofCode, h] <;> rfl

/-- R120, R134: the codes of Table 7.9 without a register. -/
theorem FReg.ofCode_reserved {c : BitVec 6}
    (h : 0b100101 ≤ c.toNat ∧ c.toNat ≤ 0b111101 ∨ c.extractLsb' 3 3 = 0b011) :
    FReg.ofCode c = .error .reservedRegister := by
  have hlt := c.isLt
  have hlow : (c.extractLsb' 0 3).toNat = c.toNat % 8 := by simp
  have hhigh : (c.extractLsb' 3 3).toNat = c.toNat / 8 := by
    simp only [BitVec.extractLsb'_toNat, Nat.shiftRight_eq_div_pow]; omega
  have h' : 0b100101 ≤ c.toNat ∧ c.toNat ≤ 0b111101 ∨ c.toNat / 8 = 3 :=
    h.imp id fun e => by rw [← hhigh, e]; rfl
  unfold FReg.ofCode
  split
  case h_4 => unfold FReg.ofGuardCode; split <;> first | rfl | omega
  case h_5 => unfold FReg.ofPageCode; split <;> first | rfl | omega
  case h_6 => rfl
  all_goals omega

theorem FullMove.ofCode_reserved {f : BitVec 14} {e : DecodeError} (h : FReg.ofCode (f.extractLsb' 0 6) = .error e) :
    FullMove.ofCode f = .error e := by
  simp [FullMove.ofCode, h]

/-- R118, R131: the selector of the lost register move. -/
theorem PMove.ofCode_lost {f : BitVec 17} (h : f.extractLsb' 15 2 = 0b01) : PMove.ofCode f = .error .lostEncoding := by
  simp [PMove.ofCode, h]

theorem PMove.ofCode_reserved {f : BitVec 17} {e : DecodeError} (hs : f.extractLsb' 15 2 = 0b00)
    (h : FReg.ofCode (f.extractLsb' 0 6) = .error e) : PMove.ofCode f = .error e := by
  have hm : FullMove.ofCode (f.extractLsb' 0 14) = .error e :=
    FullMove.ofCode_reserved (by rw [extractLsb'_extractLsb'_of_add_le _ _ _ _ _ (by decide)]; exact h)
  simp [PMove.ofCode, hs, hm]

/-! ### From the fields to the decoder -/

/-- A word whose fields are refused is refused on every core. -/
theorem decode_of_error {w : IWord} {e : DecodeError} (h : decodeFields w = .error e) (c : Config) :
    decode c w = .error e := by
  simp [decode, h]

theorem decodeFields_of_decode {c : Config} {w : IWord} {i : Instr} (h : decode c w = .ok i) :
    decodeFields w = .ok i := ((decode_ok _ _ _).mp h).1

/-- R102: a word with another operation code than 0000 and 0001 is no LDC. -/
theorem ldcBits_ne_zero {w : IWord} {op : BitVec 4} (h : w.extractLsb' 28 4 = op) (hop : op.extractLsb' 1 3 ≠ 0) :
    w.extractLsb' 29 3 ≠ 0 := extractLsb'_of_eq h 1 3 (by decide) ▸ hop

/-- R110: the words of a two-operand ALU operation of the table's first rows. -/
theorem decodeFields_add {w : IWord} (h : w.extractLsb' 28 4 = 0b0100) : decodeFields w = decodeAlu2 .add w := by
  rw [decodeFields, if_neg (ldcBits_ne_zero h (by decide)), h]; rfl

theorem decodeFields_single {w : IWord} (h : w.extractLsb' 28 4 = 0b1111) : decodeFields w = decodeSingle w := by
  rw [decodeFields, if_neg (ldcBits_ne_zero h (by decide)), h]; rfl

theorem decodeFields_double {w : IWord} (h : w.extractLsb' 28 4 = 0b0011) : decodeFields w = decodeDouble w := by
  rw [decodeFields, if_neg (ldcBits_ne_zero h (by decide)), h]; rfl

theorem decodeFields_control {w : IWord} (h : w.extractLsb' 28 4 = 0b0010) : decodeFields w = decodeControl w := by
  rw [decodeFields, if_neg (ldcBits_ne_zero h (by decide)), h]; rfl

theorem decodeFields_mac {w : IWord} (h : w.extractLsb' 28 4 = 0b0101) : decodeFields w = decodeMac .mac w := by
  rw [decodeFields, if_neg (ldcBits_ne_zero h (by decide)), h]; rfl

theorem decodeFields_msu {w : IWord} (h : w.extractLsb' 28 4 = 0b0111) : decodeFields w = decodeMac .msu w := by
  rw [decodeFields, if_neg (ldcBits_ne_zero h (by decide)), h]; rfl

theorem decodeFields_ldc {w : IWord} (h : w.extractLsb' 29 3 = 0b000) : decodeFields w = decodeLdc w := by
  simp [decodeFields, h]

theorem decodeFields_loop {w : IWord} (h : w.extractLsb' 26 6 = 0b001001) : decodeFields w = decodeLoop w := by
  have hop : w.extractLsb' 28 4 = 0b0010 := extractLsb'_of_eq h 2 4 (by decide)
  have hk : w.extractLsb' 26 2 = 1 := extractLsb'_of_eq h 0 2 (by decide)
  simp [decodeFields_control hop, decodeControl, hk]

/-- R104: a control word whose control code does not begin with 01 is no LOOP. -/
theorem loopBits_ne_one {w : IWord} {code : BitVec 4} (h : w.extractLsb' 24 4 = code) (hl : code.extractLsb' 2 2 ≠ 1) :
    w.extractLsb' 26 2 ≠ 1 := extractLsb'_of_eq h 2 2 (by decide) ▸ hl

/-! ### The reserved words -/

theorem decodeFields_reservedOperation {w : IWord} (h : w.extractLsb' 28 4 = 0b1010 ∨ w.extractLsb' 28 4 = 0b1110) :
    decodeFields w = .error .reservedOperation := by
  rcases h with h | h <;> rw [decodeFields, if_neg (ldcBits_ne_zero h (by decide)), h] <;> rfl

theorem decodeFields_reservedControl {w : IWord} (h : w.extractLsb' 28 4 = 0b0010)
    (hc : w.extractLsb' 24 4 = 0b0011 ∨ w.extractLsb' 24 4 = 0b1100 ∨ w.extractLsb' 24 4 = 0b1110 ∨
      w.extractLsb' 24 4 = 0b1111) : decodeFields w = .error .reservedControl := by
  rcases hc with hc | hc | hc | hc <;>
    rw [decodeFields_control h, decodeControl, if_neg (loopBits_ne_one hc (by decide)), hc] <;> rfl

theorem decodeFields_lostControl {w : IWord} (h : w.extractLsb' 24 8 = 0b00101011) :
    decodeFields w = .error .lostEncoding := by
  have hcode : w.extractLsb' 24 4 = 0b1011 := extractLsb'_of_eq h 0 4 (by decide)
  rw [decodeFields_control (extractLsb'_of_eq h 4 4 (by decide)), decodeControl,
    if_neg (loopBits_ne_one hcode (by decide)), hcode]
  rfl

theorem decodeFields_reservedStep {w : IWord} (h : w.extractLsb' 24 8 = 0b00101010) (hs : w.extractLsb' 3 2 = 0b10) :
    decodeFields w = .error .reservedStep := by
  have hcode : w.extractLsb' 24 4 = 0b1010 := extractLsb'_of_eq h 0 4 (by decide)
  have hd : decodeFields w = decodeJmpi w := by
    rw [decodeFields_control (extractLsb'_of_eq h 4 4 (by decide)), decodeControl,
      if_neg (loopBits_ne_one hcode (by decide)), hcode]
    rfl
  rw [hd, decodeJmpi, hs]
  rfl

theorem decodeFields_jcc {w : IWord} (h : w.extractLsb' 24 8 = 0b00101000) : decodeFields w = decodeJump .jcc w := by
  have hcode : w.extractLsb' 24 4 = 0b1000 := extractLsb'_of_eq h 0 4 (by decide)
  rw [decodeFields_control (extractLsb'_of_eq h 4 4 (by decide)), decodeControl,
    if_neg (loopBits_ne_one hcode (by decide)), hcode]
  rfl

theorem decodeFields_callcc {w : IWord} (h : w.extractLsb' 24 8 = 0b00101001) :
    decodeFields w = decodeJump .callcc w := by
  have hcode : w.extractLsb' 24 4 = 0b1001 := extractLsb'_of_eq h 0 4 (by decide)
  rw [decodeFields_control (extractLsb'_of_eq h 4 4 (by decide)), decodeControl,
    if_neg (loopBits_ne_one hcode (by decide)), hcode]
  rfl

theorem decodeFields_reservedCondition {w : IWord}
    (h : w.extractLsb' 24 8 = 0b00101000 ∨ w.extractLsb' 24 8 = 0b00101001)
    (hc : 10 ≤ (w.extractLsb' 0 6).toNat ∧ (w.extractLsb' 0 6).toNat ≤ 16 ∨ 26 ≤ (w.extractLsb' 0 6).toNat) :
    decodeFields w = .error .reservedCondition := by
  rcases h with h | h
  · rw [decodeFields_jcc h, decodeJump, Machine.Cond.ofCode_reserved _ hc]
  · rw [decodeFields_callcc h, decodeJump, Machine.Cond.ofCode_reserved _ hc]

theorem decodeFields_reservedSingle {w : IWord} (h : w.extractLsb' 28 4 = 0b1111) (h5 : 5 ≤ (w.extractLsb' 24 4).toNat)
    (h13 : (w.extractLsb' 24 4).toNat ≤ 13) : decodeFields w = .error .reservedSingle := by
  have hmul : w.extractLsb' 25 3 ≠ 7 := fun e => by
    have h7 : (w.extractLsb' 24 4).toNat / 2 % 8 = 7 := by
      rw [← extractLsb'_extractLsb'_of_add_le w 24 4 1 3 (by decide)] at e
      simpa [Nat.shiftRight_eq_div_pow] using congrArg BitVec.toNat e
    omega
  rw [decodeFields_single h, decodeSingle, if_neg hmul]
  split
  case h_6 => rfl
  all_goals omega

theorem decodeFields_reservedOperand {w : IWord} (h : w.extractLsb' 28 4 = 0b0100) (ho : w.extractLsb' 24 4 = 0b1010) :
    decodeFields w = .error .reservedOperand := by
  rw [decodeFields_add h, decodeAlu2, AOp.ofCode_reserved ho]

theorem decodeFields_reservedResult {w : IWord} (h : w.extractLsb' 28 4 = 0b0101 ∨ w.extractLsb' 28 4 = 0b0111)
    (hr : w.extractLsb' 17 1 = 0) : decodeFields w = .error .reservedResult := by
  have hacc : Acc.ofCode (w.extractLsb' 17 3) = .error .reservedResult :=
    Acc.ofCode_even ((extractLsb'_extractLsb'_of_add_le w 17 3 0 1 (by decide)).trans hr)
  rcases h with h | h
  · rw [decodeFields_mac h, decodeMac, hacc]
  · rw [decodeFields_msu h, decodeMac, hacc]

theorem decodeFields_reservedRegister {w : IWord} (h : w.extractLsb' 29 3 = 0b000 ∨ w.extractLsb' 26 6 = 0b001001)
    (hr : FReg.ofCode (w.extractLsb' 0 6) = .error .reservedRegister) :
    decodeFields w = .error .reservedRegister := by
  rcases h with h | h
  · rw [decodeFields_ldc h, decodeLdc, hr]
  · rw [decodeFields_loop h, decodeLoop, hr]

/-! ### Words that never decode, by whatever name -/

/-- R118: an ALU or MAC word needs its parallel field. -/
theorem parallel_ofCode_ok {w : IWord} {i : Instr}
    (h : w.extractLsb' 28 4 = 0b0100 ∨ w.extractLsb' 28 4 = 0b0101 ∨ w.extractLsb' 28 4 = 0b1111)
    (hd : decodeFields w = .ok i) : ∃ pm, PMove.ofCode (w.extractLsb' 0 17) = .ok pm := by
  rcases h with h | h | h
  · obtain ⟨_, _, pm, _, _, hp, _⟩ := decodeAlu2_ok (decodeFields_add h ▸ hd); exact ⟨pm, hp⟩
  · obtain ⟨_, _, _, _, pm, hp, _⟩ := decodeMac_ok (decodeFields_mac h ▸ hd); exact ⟨pm, hp⟩
  · obtain ⟨pm, hp, _⟩ := decodeSingle_ok (decodeFields_single h ▸ hd); exact ⟨pm, hp⟩

/-- What R134 asks of an ADD that decodes: P is no first operand, and a wide result has an odd code. -/
theorem add_decoded {c : Config} {w : IWord} {i : Instr} (h : w.extractLsb' 28 4 = 0b0100) (hd : decode c w = .ok i) :
    ∃ op1 op2, AOp.ofCode (w.extractLsb' 24 4) = .ok op1 ∧ AOp.ofCode (w.extractLsb' 20 4) = .ok op2 ∧ op1 ≠ .p ∧
      ((op1.isWide || op2.isWide) = true → (AReg.ofCode (w.extractLsb' 17 3)).isHigh = true) := by
  obtain ⟨hf, _, hw⟩ := (decode_ok _ _ _).mp hd
  obtain ⟨op1, op2, pm, h1, h2, _, rfl⟩ := decodeAlu2_ok (decodeFields_add h ▸ hf)
  simp only [Instr.wellFormed, wellFormedAlu2, Bool.and_eq_true, AOp.legalOp1, AReg.legalResult,
    decide_eq_true_eq, Bool.or_eq_true, Bool.not_eq_true'] at hw
  obtain ⟨⟨⟨hop1, _⟩, _, hres⟩, _⟩ := hw
  exact ⟨op1, op2, h1, h2, hop1.1, fun hwide => hres.resolve_left (by simp [hwide])⟩

/-- R112: the codes from 1011 on are the wide operands. -/
theorem AOp.isWide_of_ofCode {c : BitVec 4} {o : AOp} (h : AOp.ofCode c = .ok o) (hc : 11 ≤ c.toNat) :
    o.isWide = true := by
  have hcode : c.toNat = 11 ∨ c.toNat = 12 ∨ c.toNat = 13 ∨ c.toNat = 14 ∨ c.toNat = 15 := by
    have := c.isLt; omega
  rcases hcode with h' | h' | h' | h' | h' <;> simp only [AOp.ofCode, h'] at h <;> cases h <;> rfl

theorem decode_ne_ok_of_lostSelector {c : Config} {w : IWord} {i : Instr}
    (h : w.extractLsb' 28 4 = 0b0100 ∨ w.extractLsb' 28 4 = 0b0101 ∨ w.extractLsb' 28 4 = 0b1111)
    (hs : w.extractLsb' 15 2 = 0b01) : decode c w ≠ .ok i := fun hd => by
  obtain ⟨pm, hp⟩ := parallel_ofCode_ok h (decodeFields_of_decode hd)
  rw [PMove.ofCode_lost (by rw [extractLsb'_extractLsb'_of_add_le _ _ _ _ _ (by decide)]; exact hs)] at hp
  cases hp

theorem decode_ne_ok_of_add_p {c : Config} {w : IWord} {i : Instr} (h : w.extractLsb' 28 4 = 0b0100)
    (ho : w.extractLsb' 24 4 = 0b1011) : decode c w ≠ .ok i := fun hd => by
  obtain ⟨op1, _, h1, _, hp, _⟩ := add_decoded h hd
  rw [ho] at h1
  exact hp (Except.ok.inj h1).symm

theorem decode_ne_ok_of_add_wide_to_low {c : Config} {w : IWord} {i : Instr} (h : w.extractLsb' 28 4 = 0b0100)
    (hwide : 12 ≤ (w.extractLsb' 24 4).toNat ∨ 11 ≤ (w.extractLsb' 20 4).toNat) (hr : w.extractLsb' 17 1 = 0) :
    decode c w ≠ .ok i := fun hd => by
  obtain ⟨op1, op2, h1, h2, _, hres⟩ := add_decoded h hd
  have hlow : (AReg.ofCode (w.extractLsb' 17 3)).isHigh = false :=
    AReg.ofCode_even ((extractLsb'_extractLsb'_of_add_le w 17 3 0 1 (by decide)).trans hr)
  have hw : (op1.isWide || op2.isWide) = true := by
    rcases hwide with hw | hw
    · rw [AOp.isWide_of_ofCode h1 (by omega), Bool.true_or]
    · rw [AOp.isWide_of_ofCode h2 hw, Bool.or_true]
  exact absurd (hlow.symm.trans (hres hw)) (by decide)

theorem decode_ne_ok_of_double_reservedRegister {c : Config} {w : IWord} {i : Instr} {e : DecodeError}
    (h : w.extractLsb' 28 4 = 0b0011)
    (hr : FReg.ofCode (w.extractLsb' 0 6) = .error e ∨ FReg.ofCode (w.extractLsb' 14 6) = .error e) :
    decode c w ≠ .ok i := fun hd => by
  obtain ⟨x, y, hx, hy, _⟩ := decodeDouble_ok (decodeFields_double h ▸ decodeFields_of_decode hd)
  rcases hr with hr | hr
  · rw [FullMove.ofCode_reserved (by rw [extractLsb'_extractLsb'_of_add_le _ _ _ _ _ (by decide)]; exact hr)] at hy
    cases hy
  · rw [FullMove.ofCode_reserved (by rw [extractLsb'_extractLsb'_of_add_le _ _ _ _ _ (by decide)]; exact hr)] at hx
    cases hx

theorem decode_ne_ok_of_add_reservedRegister {c : Config} {w : IWord} {i : Instr} {e : DecodeError}
    (h : w.extractLsb' 28 4 = 0b0100) (hs : w.extractLsb' 15 2 = 0b00)
    (hr : FReg.ofCode (w.extractLsb' 0 6) = .error e) : decode c w ≠ .ok i := fun hd => by
  obtain ⟨pm, hp⟩ := parallel_ofCode_ok (.inl h) (decodeFields_of_decode hd)
  rw [PMove.ofCode_reserved (e := e) (by rw [extractLsb'_extractLsb'_of_add_le _ _ _ _ _ (by decide)]; exact hs)
    (by rw [extractLsb'_extractLsb'_of_add_le _ _ _ _ _ (by decide)]; exact hr)] at hp
  cases hp

/-- Settles O3: each clause by the lemma of the field that is reserved. -/
theorem reservedCodesRefused : Obligations.ReservedCodesRefused := by
  unfold Obligations.ReservedCodesRefused
  refine fun c w => ⟨fun h => decode_of_error (decodeFields_reservedOperation h) c,
    fun h hc => decode_of_error (decodeFields_reservedControl h hc) c,
    fun h => decode_of_error (decodeFields_lostControl h) c,
    fun h hs => decode_of_error (decodeFields_reservedStep h hs) c,
    fun h h5 h13 => decode_of_error (decodeFields_reservedSingle h h5 h13) c,
    fun h ho => decode_of_error (decodeFields_reservedOperand h ho) c, fun h ho _ => decode_ne_ok_of_add_p h ho,
    fun h hs _ => decode_ne_ok_of_lostSelector h hs, fun h hr => decode_of_error (decodeFields_reservedResult h hr) c,
    fun h hw hr _ => decode_ne_ok_of_add_wide_to_low h hw hr,
    fun h hc => decode_of_error (decodeFields_reservedCondition h hc) c,
    fun r hr => ?registers⟩
  case registers =>
    have hcode := FReg.ofCode_reserved hr
    exact ⟨fun h e => decode_of_error (decodeFields_reservedRegister h (e ▸ hcode)) c,
      fun h e _ => decode_ne_ok_of_double_reservedRegister h (e.imp (fun e => e ▸ hcode) fun e => e ▸ hcode),
      fun h hs e _ => decode_ne_ok_of_add_reservedRegister h hs (e ▸ hcode)⟩

/-- Settles O4: each word is evaluated. -/
theorem sampleWordsDecode : Obligations.SampleWordsDecode := by
  unfold Obligations.SampleWordsDecode
  exact ⟨rfl, rfl, rfl, rfl, rfl, rfl, rfl, rfl⟩

end Sys2Proof
end

section
/-! What an instruction and a step leave alone (R33, R34, R36, R37, R222, R333). Every instruction that answers a next
state either has the frame of a word or is a control instruction, which writes little (`exec_frame`); the statements
about steps follow from this and from the frame of the rest of the cycle. -/

namespace Sys2Proof.Machine

/-! ### Control instructions -/

/-- What every control instruction leaves alone: the arithmetic registers, P, MR1, data memory and EN; of MR0 it clears
L at most, and it halts an idle core only. -/
structure FlowFrame (s t : State) : Prop where
  regs : t.regs = s.regs
  p : t.p = s.p
  mr1 : t.mr1 = s.mr1
  mr0 : t.mr0 = s.mr0 ∨ t.mr0 = s.clearLoopFlag.mr0
  xmem : t.xmem = s.xmem
  ymem : t.ymem = s.ymem
  en : t.en = s.en
  halted : t.halted = true → s.halted = true ∨ s.ic = .idle

theorem flowFrame_of_clearsLoopFlag {i : Instr} {s t : State} (hc : Instr.clearsLoopFlag i = true)
    (h : exec i s = .next t) : FlowFrame s t ∧ t.mr0 = s.clearLoopFlag.mr0 := by
  have frame (u : State) (h0 : u.regs = s.regs) (h1 : u.p = s.p) (h2 : u.mr1 = s.mr1)
      (h3 : u.mr0 = s.clearLoopFlag.mr0) (h4 : u.xmem = s.xmem) (h5 : u.ymem = s.ymem) (h6 : u.en = s.en)
      (h7 : u.halted = s.halted) : FlowFrame s u ∧ u.mr0 = s.clearLoopFlag.mr0 :=
    ⟨⟨h0, h1, h2, .inr h3, h4, h5, h6, fun hu => .inl (h7 ▸ hu)⟩, h3⟩
  cases i with
  | jcc cond addr => obtain ⟨_, rfl⟩ := (exec_jcc _ _ _ _).mp h; exact frame _ rfl rfl rfl rfl rfl rfl rfl rfl
  | j addr => obtain ⟨_, rfl⟩ := (exec_j _ _ _).mp h; exact frame _ rfl rfl rfl rfl rfl rfl rfl rfl
  | callcc cond addr => obtain ⟨_, rfl⟩ := (exec_callcc _ _ _ _).mp h; exact frame _ rfl rfl rfl rfl rfl rfl rfl rfl
  | jrcc cond => obtain ⟨_, rfl⟩ := (exec_jrcc _ _ _).mp h; exact frame _ rfl rfl rfl rfl rfl rfl rfl rfl
  | jr => obtain ⟨_, rfl⟩ := (exec_jr _ _).mp h; exact frame _ rfl rfl rfl rfl rfl rfl rfl rfl
  | jrccPage cond ix => obtain ⟨_, rfl⟩ := (exec_jrccPage _ _ _ _).mp h; exact frame _ rfl rfl rfl rfl rfl rfl rfl rfl
  | reti => obtain ⟨_, rfl⟩ := (exec_reti _ _).mp h; exact frame _ rfl rfl rfl rfl rfl rfl rfl rfl
  | retiPage ix => obtain ⟨_, rfl⟩ := (exec_retiPage _ _ _).mp h; exact frame _ rfl rfl rfl rfl rfl rfl rfl rfl
  | loop count addr => obtain ⟨_, _, _, rfl⟩ := (exec_loop _ _ _ _).mp h; exact frame _ rfl rfl rfl rfl rfl rfl rfl rfl
  | _ => exact absurd hc Bool.false_ne_true

theorem flowFrame_jmpi {a : BitVec 18} {st : JmpiStep} {r : IReg} {s t : State} (h : exec (.jmpi a st r) s = .next t) :
    FlowFrame s t := by
  obtain ⟨_, rfl⟩ := (exec_jmpi _ _ _ _ _).mp h
  exact ⟨rfl, rfl, rfl, .inl rfl, rfl, rfl, rfl, .inl⟩

theorem flowFrame_halt {s t : State} (h : exec .halt s = .next t) : FlowFrame s t := by
  rw [exec_halt] at h
  subst h
  split
  next hic => exact ⟨rfl, rfl, rfl, .inl rfl, rfl, rfl, rfl, fun _ => .inr hic⟩
  next => exact ⟨rfl, rfl, rfl, .inl rfl, rfl, rfl, rfl, .inl⟩

/-! ### Words and LDC (R222, R223) -/

theorem ldc_moves (imm : BitVec 23) (reg : FReg) : Instr.moves (.ldc imm reg) = Moves.idle := rfl

theorem ldc_loads (imm : BitVec 23) (reg f : FReg) : Instr.loads f (.ldc imm reg) = decide (reg = f) := by
  simp [Instr.loads, Moves.loads, ldc_moves, Moves.idle, BusMove.loads, Instr.isLdcTo]

theorem ldc_targets (imm : BitVec 23) (reg : FReg) : Instr.targets (.ldc imm reg) = FReg.cells reg := by
  simp [Instr.targets, Instr.aluCells, ldc_moves, Moves.idle, BusMove.cells]

/-- The frame of LDC (R240). -/
theorem wordFrame_ldc {imm : BitVec 23} {reg : FReg} {s t : State} (h : exec (.ldc imm reg) s = .next t) :
    WordFrame (.ldc imm reg) s t := by
  obtain ⟨_, _, rfl⟩ := (exec_ldc _ _ _ _).mp h
  refine ⟨fun f _ hf => regValue_writeReg_ne _ _ _ _ (ldc_targets imm reg ▸ hf), fun _ => writeReg_p _ _ _, ?status,
    fun sp k _ => ?memory, ?enable, ?rest⟩
  case status =>
    by_cases hr : reg = .mr0
    · have hall : Instr.flagsWritten (.ldc imm reg) = allBits := if_pos (by rw [ldc_loads, decide_eq_true hr])
      rw [hall, mr0Value_and_allBits, mr0Value_and_allBits]
    · rw [mr0Value_writeReg_ne _ _ _ hr]
  case memory => rw [mem_congr s _ sp (writeReg_xmem _ _ _) (writeReg_ymem _ _ _)]
  case enable => rw [writeReg_en]; exact (Bool.or_false _).symm
  case rest => cases reg <;> rfl

/-- Every instruction has the frame of a word, or is a control instruction and has the frame of those. -/
theorem exec_frame {i : Instr} {s t : State} (h : exec i s = .next t) :
    WordFrame i s t ∨
      FlowFrame s t ∧ ((Instr.clearsLoopFlag i = true ∧ t.mr0 = s.clearLoopFlag.mr0) ∨
        ((Instr.isJmpi i = true ∨ i = .halt) ∧ t.mr0 = s.mr0)) := by
  rcases exec_kinds i s t h with
    ⟨a, x, y, ha, hx, hy, _, _, hldc, hflow, rfl⟩ | ⟨imm, reg, rfl⟩ | hc | ⟨a, st, r, rfl⟩ | rfl
  · exact .inl (frame_applyWord i a s x y ha hx hy hldc hflow)
  · exact .inl (wordFrame_ldc h)
  · obtain ⟨hf, hm⟩ := flowFrame_of_clearsLoopFlag hc h; exact .inr ⟨hf, .inl ⟨hc, hm⟩⟩
  · obtain ⟨_, rfl⟩ := (exec_jmpi _ _ _ _ _).mp h; exact .inr ⟨flowFrame_jmpi h, .inr ⟨.inl rfl, rfl⟩⟩
  · refine .inr ⟨flowFrame_halt h, .inr ⟨.inr rfl, ?_⟩⟩
    rw [exec_halt] at h
    subst h
    split <;> rfl

theorem isWord_not_control {i : Instr} (h : Instr.isWord i = true) :
    Instr.clearsLoopFlag i = false ∧ Instr.isJmpi i = false ∧ i ≠ .halt := by
  cases i with
  | jcc | j | callcc | jmpi | jrcc | jr | jrccPage | reti | retiPage | loop | halt => exact absurd h Bool.false_ne_true
  | _ => exact ⟨rfl, rfl, Instr.noConfusion⟩

/-- Settles O24: an instruction that is no control instruction has the frame of a word. -/
theorem wordFrames : Obligations.WordFrames := by
  unfold Obligations.WordFrames
  intro i s t hi h
  have hno : Instr.clearsLoopFlag i = false ∧ Instr.isJmpi i = false ∧ i ≠ .halt := by
    rcases hi with hi | ⟨_, _, rfl⟩ | ⟨_, _, _, _, rfl⟩ | ⟨_, _, rfl⟩
    case inl => exact isWord_not_control hi
    all_goals exact ⟨rfl, rfl, Instr.noConfusion⟩
  obtain ⟨hflow, hjmpi, hhalt⟩ := hno
  rcases exec_frame h with hw | ⟨_, ⟨hc, _⟩ | ⟨hc | hc, _⟩⟩
  · exact hw
  · exact absurd (hflow.symm.trans hc) (by decide)
  · exact absurd (hjmpi.symm.trans hc) (by decide)
  · exact absurd hc hhalt

/-! ### Bits of MR0 (R33, R34, R393) -/

/-- An instruction that clears L is listed to write it. -/
theorem loopMask_flagsWritten {i : Instr} (hc : Instr.clearsLoopFlag i = true) :
    MrBit.l.mask &&& ~~~Instr.flagsWritten i = 0 := by
  rw [Instr.flagsWritten, if_pos hc, Moves.indexBits]
  split_ifs <;> decide

/-- Settles O23: by the frame of the instruction. -/
theorem flagsWrittenOnly : Obligations.FlagsWrittenOnly := by
  unfold Obligations.FlagsWrittenOnly
  intro i s t h
  have hcfg := (sameOuter_exec i s t h).cfg
  rcases exec_frame h with hw | ⟨_, ⟨hc, hm⟩ | ⟨_, hm⟩⟩
  · exact hw.status
  · rw [mr0Value_congr s.clearLoopFlag _ hm hcfg]
    exact putBits_outside s _ _ _ (loopMask_flagsWritten hc)
  · rw [mr0Value_congr s _ hm hcfg]

end Sys2Proof.Machine
end

section
/-! What a step can change (R34, R36, R37, R72, R81, R84, R333): the frame of the instruction in EX, then the frame of
the rest of the cycle. -/

namespace Sys2Proof.Machine

/-- A step without a reset: a halted cycle, or a running one with the frame of its rest. -/
theorem step_without_reset {s u : State} (hr : s.input.reset = false) (h : step s = .next u) :
    u = (haltedCycle s).advance ∨
      ∃ x t v, ran s x t ∧ finishCycle x s t = .ok v ∧ CycleFrame s t v ∧ u = v.advance := by
  obtain ⟨_, ⟨hreset, _⟩ | ⟨_, _, rfl⟩ | ⟨x, t, v, hran, hv, rfl⟩⟩ := (step_next s u).mp h
  · rw [hr] at hreset; cases hreset
  · exact .inl rfl
  · exact .inr ⟨x, t, v, hran, hv, (finishCycle_frame x s t v (ran_same s t x hran).ic hv).1, rfl⟩

/-- What stood in EX: nothing that runs, or an instruction. -/
theorem ran_cases {s t : State} {x : XTraits} (h : ran s x t) :
    t = s ∨ ∃ i, slotContent s.cfg s.ex = .run i ∧ exec i s = .next t := by
  obtain ⟨_, _, _, ⟨_, _, rfl⟩ | ⟨i, hi, he, _⟩⟩ := h
  · exact .inl rfl
  · exact .inr ⟨i, hi, he⟩

/-- An instruction in EX was decoded. -/
theorem decode_of_slotContent {c : Sys2Proof.Config} {o : Option Slot} {i : Instr} (h : slotContent c o = .run i) :
    ∃ w, decode c w = .ok i := by
  unfold slotContent at h
  split at h
  · cases h
  next d =>
    split at h
    · cases h
    · split at h
      next j hj => cases h; exact ⟨d.word, hj⟩
      · cases h

/-- The forms of class X do not reach a step (log 20). -/
theorem encode_isSome_of_slotContent {c : Sys2Proof.Config} {o : Option Slot} {i : Instr}
    (h : slotContent c o = .run i) : (encode i).isSome = true := by
  obtain ⟨w, hw⟩ := decode_of_slotContent h
  exact (decodeFields_isDecoded (decodeFields_of_decode hw)).2

theorem haltedCycle_eq (s : State) :
    haltedCycle s =
      if s.requested = true then { s with halted := false, ic := .c1, woke := true, en := false } else s := rfl

/-! ### The page registers (R36, R37) -/

theorem ipr0_exec {i : Instr} {s t : State} (h : exec i s = .next t) (henc : (encode i).isSome = true) :
    t.ipr0 = s.ipr0 ∨ (t.ipr0 = 0 ∧ s.cfg.hasIpr = true ∧ ∃ a st r, i = .jmpi a st r) := by
  rcases exec_kinds i s t h with ⟨a, x, y, _, _, _, _, _, _, _, rfl⟩ | ⟨imm, reg, rfl⟩ | hc | ⟨a, st, r, rfl⟩ | rfl
  · exact .inl (by simp)
  · obtain ⟨_, _, rfl⟩ := (exec_ldc _ _ _ _).mp h; exact .inl (writeReg_ipr0 _ _ _)
  · cases i with
    | jcc cond addr => obtain ⟨_, rfl⟩ := (exec_jcc _ _ _ _).mp h; exact .inl rfl
    | j addr => obtain ⟨_, rfl⟩ := (exec_j _ _ _).mp h; exact .inl rfl
    | callcc cond addr => obtain ⟨_, rfl⟩ := (exec_callcc _ _ _ _).mp h; exact .inl rfl
    | jrcc cond => obtain ⟨_, rfl⟩ := (exec_jrcc _ _ _).mp h; exact .inl rfl
    | jr => obtain ⟨_, rfl⟩ := (exec_jr _ _).mp h; exact .inl rfl
    | reti => obtain ⟨_, rfl⟩ := (exec_reti _ _).mp h; exact .inl rfl
    | loop count addr => obtain ⟨_, _, _, rfl⟩ := (exec_loop _ _ _ _).mp h; exact .inl rfl
    | jrccPage | retiPage => exact absurd henc Bool.false_ne_true
    | _ => exact absurd hc Bool.false_ne_true
  · obtain ⟨_, rfl⟩ := (exec_jmpi _ _ _ _ _).mp h
    by_cases hp : s.cfg.hasIpr = true
    · exact .inr ⟨if_pos hp, hp, a, st, r, rfl⟩
    · exact .inl (if_neg hp)
  · rw [exec_halt] at h
    subst h
    left; split <;> rfl

/-- Settles O19: exec leaves IPR1 alone, and of the instructions with a word only JMPI writes IPR0. -/
theorem pageRegistersWritten : Obligations.PageRegistersWritten := by
  unfold Obligations.PageRegistersWritten
  intro s u hr h
  rcases step_without_reset hr h with rfl | ⟨x, t, v, hran, _, hv, rfl⟩
  · rw [haltedCycle_eq]
    split <;> exact ⟨.inl rfl, .inl rfl⟩
  · refine ⟨?ipr1, ?ipr0⟩
    case ipr1 =>
      rw [advance_ipr1]
      exact hv.ipr1.imp (fun e => e.trans (ran_same s t x hran).ipr1) id
    case ipr0 =>
      rw [advance_ipr0, hv.ipr0]
      rcases ran_cases hran with rfl | ⟨i, hi, he⟩
      · exact .inl rfl
      · rcases ipr0_exec he (encode_isSome_of_slotContent hi) with h0 | ⟨h0, _, a, st, r, rfl⟩
        · exact .inl h0
        · exact .inr ⟨h0, a, st, r, hi⟩

/-! ### The mode bits (R34) -/

/-- A flag is unchanged when it lies outside the bits written. -/
theorem flag_of_status {s t : State} {m : PAddr} (h : t.mr0Value &&& ~~~m = s.mr0Value &&& ~~~m) (b : MrBit)
    (hb : m.getLsbD b.pos = false) : t.flag b = s.flag b := by
  have hbit := congrArg (fun v : PAddr => v.getLsbD b.pos) h
  simpa only [State.flag, BitVec.getLsbD_and, BitVec.getLsbD_not, hb, b.pos_lt, decide_true, Bool.not_false,
    Bool.and_true] using hbit

/-- R393: the bits S, I and R are written by a load of MR0 only. -/
theorem flagsWritten_mode {i : Instr} {b : MrBit} (hb : b = .s ∨ b = .i ∨ b = .r) (hl : Instr.loads .mr0 i = false) :
    (Instr.flagsWritten i).getLsbD b.pos = false := by
  rw [Instr.flagsWritten, hl, if_neg Bool.false_ne_true, Moves.indexBits]
  rcases hb with rfl | rfl | rfl <;> split_ifs <;> decide

/-- The rest of a cycle writes L only (R338). -/
theorem CycleFrame.flag {s t v : State} (h : CycleFrame s t v) {b : MrBit} (hb : b ≠ .l) : v.flag b = t.flag b := by
  rcases h.mr0 with hm | hm
  · exact flag_congr t v b hm h.cfg
  · rw [flag_congr (t.putFlag .l true) v b hm h.cfg, flag_putFlag, if_neg hb]

/-- Settles O20: outside a load of MR0 the mode bits are none that an instruction writes. -/
theorem modeBitsWritten : Obligations.ModeBitsWritten := by
  unfold Obligations.ModeBitsWritten
  intro s u hr h b hb hne
  rcases step_without_reset hr h with rfl | ⟨x, t, v, hran, _, hv, rfl⟩
  · exact absurd (flag_congr s _ b (by rw [haltedCycle_eq]; split <;> rfl) (by rw [haltedCycle_eq]; split <;> rfl)) hne
  · have hl : b ≠ .l := by rcases hb with rfl | rfl | rfl <;> decide
    have hvt : v.advance.flag b = t.flag b := hv.flag hl
    rcases ran_cases hran with rfl | ⟨i, hi, he⟩
    · exact absurd hvt hne
    · refine ⟨i, hi, Bool.not_eq_false _ ▸ fun hload => hne ?_⟩
      rw [hvt, flag_of_status (flagsWrittenOnly i s t he) b (flagsWritten_mode hb hload)]

/-! ### Memory and EN (R72, R81, R84, R333) -/

theorem read_exec {i : Instr} {s t : State} (h : exec i s = .next t) (sp : Space) (k : Nat)
    (hk : (t.mem sp).read k ≠ (s.mem sp).read k) : ∃ a, Instr.storesAt i s sp = some a ∧ k / dataBytes = a.toNat := by
  rcases exec_frame h with hw | ⟨hf, _⟩
  · by_contra hno
    exact hk (hw.memory sp k fun a ha hka => hno ⟨a, ha, hka⟩)
  · exact absurd (by rw [mem_congr s t sp hf.xmem hf.ymem]) hk

/-- Settles O21: data memory by the frame of the instruction, instruction memory and the configuration because neither
an instruction nor the rest of a cycle writes them. -/
theorem memoryWritten : Obligations.MemoryWritten := by
  unfold Obligations.MemoryWritten
  intro s u h
  have same (u : State) (hi : u.imem = s.imem) (hc : u.cfg = s.cfg) (hx : u.xmem = s.xmem) (hy : u.ymem = s.ymem) :
      u.imem = s.imem ∧ u.cfg = s.cfg ∧ ∀ (sp : Space) (k : Nat), (u.mem sp).read k ≠ (s.mem sp).read k →
        ∃ i a, slotContent s.cfg s.ex = .run i ∧ Instr.storesAt i s sp = some a ∧ k / dataBytes = a.toNat :=
    ⟨hi, hc, fun sp k hk => absurd (by rw [mem_congr s u sp hx hy]) hk⟩
  by_cases hr : s.input.reset = true
  · obtain ⟨_, ⟨_, rfl⟩ | ⟨hno, _⟩ | ⟨x, t, v, hran, _⟩⟩ := (step_next s u).mp h
    · exact same _ rfl rfl rfl rfl
    · exact absurd (hno.symm.trans hr) (by decide)
    · exact absurd (hran.2.1.symm.trans hr) (by decide)
  · rcases step_without_reset (Bool.eq_false_iff.mpr hr) h with rfl | ⟨x, t, v, hran, _, hv, rfl⟩
    · rw [haltedCycle_eq]
      split <;> exact same _ rfl rfl rfl rfl
    · have ht := ran_same s t x hran
      rcases ran_cases hran with rfl | ⟨i, hi, he⟩
      · exact same _ hv.imem hv.cfg hv.xmem hv.ymem
      · refine ⟨hv.imem.trans ht.imem, hv.cfg.trans ht.cfg, fun sp k hk => ?_⟩
        rw [mem_congr t v.advance sp hv.xmem hv.ymem] at hk
        obtain ⟨a, ha, hka⟩ := read_exec he sp k hk
        exact ⟨i, a, hi, ha, hka⟩

theorem en_exec {i : Instr} {s t : State} (h : exec i s = .next t) (ht : t.en = true) :
    s.en = true ∨ Instr.enables s i = true := by
  rcases exec_frame h with hw | ⟨hf, _⟩
  · rw [hw.enable, Bool.or_eq_true] at ht; exact ht
  · exact .inl (hf.en ▸ ht)

/-- Settles O22: with EN clear no request is received, so the rest of the cycle leaves EN as the instruction left it. -/
theorem enableSet : Obligations.EnableSet := by
  unfold Obligations.EnableSet
  intro s u hr h hs hu
  have hreq : s.requested = false := by simp [State.requested, hs]
  rcases step_without_reset hr h with rfl | ⟨x, t, v, hran, _, hv, rfl⟩
  · rw [haltedCycle_eq, hreq, if_neg Bool.false_ne_true, advance_en, hs] at hu
    cases hu
  · have hte : t.en = true := by
      rcases hv.en with he | ⟨_, hreq'⟩
      · rw [← he]; exact hu
      · exact absurd (hreq.symm.trans hreq') (by decide)
    rcases ran_cases hran with rfl | ⟨i, hi, he⟩
    · exact absurd (hs.symm.trans hte) (by decide)
    · exact ⟨i, hi, (en_exec he hte).resolve_left (by rw [hs]; decide)⟩

end Sys2Proof.Machine
end

section
/-! The invariant of the machine (10_state.md, State.Inv): it holds at reset, an instruction keeps what of it is left
between X and the fetch (`State.AfterX`), and the rest of the cycle brings back the whole. -/

namespace Sys2Proof.Machine

/-! ### Widths -/

/-- A value fits w bits when it is below 2^w. -/
theorem fits_iff_toNat_lt (w : Nat) {l : Nat} (v : BitVec l) : fits w v ↔ v.toNat < 2 ^ w := by
  have htrunc : (trunc w v : BitVec l).toNat = v.toNat % 2 ^ w := by
    rw [trunc, BitVec.toNat_setWidth, BitVec.toNat_setWidth,
      Nat.mod_eq_of_lt ((Nat.mod_le _ _).trans_lt v.isLt)]
  constructor
  · intro h
    rw [← (show trunc w v = v from h), htrunc]
    exact Nat.mod_lt _ (Nat.two_pow_pos w)
  · exact fun h => BitVec.eq_of_toNat_eq (htrunc.trans (Nat.mod_eq_of_lt h))

theorem fits_sub_one {w l : Nat} {v : BitVec l} (h : fits w v) (h0 : v ≠ 0) : fits w (v - 1) := by
  rw [fits_iff_toNat_lt] at *
  have hpos : v.toNat ≠ 0 := fun e => h0 (BitVec.eq_of_toNat_eq e)
  have hle : 1 ≤ v.toNat := Nat.one_le_iff_ne_zero.mpr hpos
  have hone : (1 : BitVec l).toNat ≤ 1 := by simpa using Nat.mod_le 1 (2 ^ l)
  have hsub : (v - 1).toNat ≤ v.toNat := by
    rw [BitVec.toNat_sub_of_le (by rw [BitVec.le_def]; omega)]
    exact Nat.sub_le _ _
  omega

theorem nextAddress_fits (c : Sys2Proof.Config) (fa : PAddr) : fits c.pa (nextAddress c fa) := fits_trunc _ _

/-- R331: the vector is an address in 0x20 to 0x3F. -/
theorem vector_toNat (s : State) :
    s.vector.toNat = 0x20 + ((Config.vectors s.cfg).getD (s.input.source % (Config.vectors s.cfg).length) 0).toNat := by
  rw [State.vector]
  generalize (Config.vectors s.cfg).getD _ 0 = off
  have := off.isLt
  simp only [BitVec.toNat_add, BitVec.truncate_eq_setWidth, BitVec.toNat_setWidth, BitVec.reduceToNat]
  omega

theorem vector_fits (s : State) : fits s.cfg.pa s.vector := by
  rw [fits_iff_toNat_lt, vector_toNat]
  generalize (Config.vectors s.cfg).getD _ 0 = off
  have hoff := off.isLt
  have hpa : 2 ^ 11 ≤ 2 ^ s.cfg.pa := Nat.pow_le_pow_right (by decide) s.cfg.paRange.1
  omega

/-! ### Reset -/

theorem resetOf_regValue {c : Sys2Proof.Config} {x y i : Memory} {inputs : List Input} {tick : Nat} (f : FReg)
    (hf : f ≠ .le) : (State.resetOf c x y i inputs tick).regValue f = 0 := by
  cases f with
  | areg r => cases r <;> rfl
  | guard x => cases x <;> rfl
  | ireg r => cases r <;> rfl
  | le => exact absurd rfl hf
  | mr0 | mr1 => simp [State.regValue, State.mr0Value, State.mr1Value, State.resetOf]
  | _ => rfl

theorem resetOf_inv (c : Sys2Proof.Config) (x y i : Memory) (inputs : List Input) (tick : Nat) (hx : x.wf = true)
    (hy : y.wf = true) (hi : i.wf = true) : (State.resetOf c x y i inputs tick).Inv where
  widths f := by
    by_cases hf : f = .le
    · subst hf
      have hle : (BitVec.ofNat 20 (2 ^ c.pa - 1)).toNat ≤ 2 ^ c.pa - 1 := by
        rw [BitVec.toNat_ofNat]; exact Nat.mod_le _ _
      have hlt : (BitVec.ofNat 20 (2 ^ c.pa - 1)).toNat < 2 ^ c.pa :=
        hle.trans_lt (Nat.sub_one_lt (Nat.two_pow_pos _).ne')
      exact fits_widen _ _ _ ((fits_iff_toNat_lt _ _).mpr hlt)
    · rw [resetOf_regValue f hf]; exact fits_zero _ _
  product := fits_zero _ _
  pc := fits_trunc _ _
  slots d hd := by rcases hd with hd | hd <;> cases hd
  xmem := hx
  ymem := hy
  imem := hi
  mr0 := BitVec.zero_and
  mr1 := BitVec.zero_and
  halted h := by cases h
  woke h := by cases h
  pages _ := ⟨rfl, rfl⟩
  arbiter h := by show Config.enReset c = false; rw [Config.enReset, show c.arbiter = none from h]
  fetched d hd := by cases hd
  prevFlags := BitVec.zero_and

/-- Settles O8: nothing is listed in the memories. -/
theorem resetHasInvariant : Obligations.ResetHasInvariant := resetOf_inv _ _ _ _ _ _ rfl rfl rfl

/-- What holds of a state that is not under reset depends on neither the inputs nor the counter (log 8, log 9). -/
theorem inv_advance {s : State} (h : s.Inv) : s.advance.Inv := by
  obtain ⟨h1, h2, h3, h4, h5, h6, h7, h8, h9, h10, h11, h12, h13, h14, h15⟩ := h
  exact ⟨h1, h2, h3, h4, h5, h6, h7, h8, h9, h10, h11, h12, h13, h14, h15⟩

theorem inv_haltedCycle {s : State} (h : s.Inv) : (haltedCycle s).Inv := by
  rw [haltedCycle_eq]
  split
  · obtain ⟨h1, h2, h3, h4, h5, h6, h7, h8, h9, h10, h11, h12, h13, h14, h15⟩ := h
    exact ⟨h1, h2, h3, h4, h5, h6, h7, h8, h9, fun hh => absurd hh Bool.false_ne_true, fun _ => .inl rfl, h12,
      fun _ => rfl, h14, h15⟩
  · exact h

/-! ### What an instruction keeps -/

/-- MR0 and MR1 hold active bits only (R32). -/
def MrMasked (s : State) : Prop := s.mr0 &&& ~~~s.cfg.activeBits = 0 ∧ s.mr1 &&& ~~~s.cfg.activeBits = 0

theorem and_not_self_of_masked (v m : PAddr) : (v &&& m) &&& ~~~m = 0 := by
  rw [BitVec.and_assoc, BitVec.and_not_self]; exact BitVec.and_zero

theorem mrMasked_congr {s t : State} (h0 : t.mr0 = s.mr0) (h1 : t.mr1 = s.mr1) (hc : t.cfg = s.cfg)
    (h : MrMasked s) : MrMasked t := by
  rwa [MrMasked, h0, h1, hc]

/-- A masked write leaves MR0 within its active bits, whatever it held. -/
theorem putBits_masked (s : State) (m v : PAddr) : (s.putBits m v).mr0 &&& ~~~s.cfg.activeBits = 0 := by
  simp only [State.putBits, State.mr0Value]
  ext i hi
  simp only [BitVec.getElem_and, BitVec.getElem_or, BitVec.getElem_not]
  cases s.cfg.activeBits[i] <;> simp

theorem mrMasked_putBits {s : State} (m v : PAddr) (h : MrMasked s) : MrMasked (s.putBits m v) :=
  ⟨putBits_masked s m v, h.2⟩

theorem mrMasked_writeReg {s : State} (f : FReg) (v : Word) (h : MrMasked s) : MrMasked (writeReg f v s) := by
  cases f with
  | mr0 => exact ⟨and_not_self_of_masked _ _, h.2⟩
  | mr1 => exact ⟨h.1, and_not_self_of_masked _ _⟩
  | _ => exact h

theorem mrMasked_putLoad {s : State} (x : Option (FReg × Word)) (h : MrMasked s) : MrMasked (putLoad x s) := by
  rcases x with _ | ⟨r, v⟩
  · exact h
  · exact mrMasked_writeReg r v h

theorem mrMasked_putMove {s : State} (bus : Space) (m : MoveFx) (h : MrMasked s) : MrMasked (putMove bus m s) := by
  have hi : MrMasked (putIndex m.index s) := mrMasked_congr (by simp) (by simp) (by simp) h
  have hf : MrMasked (putIndexFlag bus m.flag (putIndex m.index s)) := by
    cases m.flag
    · exact hi
    · exact mrMasked_putBits _ _ hi
  exact mrMasked_congr (by simp [putMove]) (by simp [putMove]) (by simp [putMove]) hf

theorem mrMasked_putAlu {c : Sys2Proof.Config} {s : State} (a : AluFx c) (h : MrMasked s) : MrMasked (putAlu a s) := by
  have hr : MrMasked (putResult a.result s) := mrMasked_congr (by simp) (by simp) (by simp) h
  have hf : MrMasked (putFlags a.flags (putResult a.result s)) := by
    cases a.flags
    · exact hr
    · exact mrMasked_putBits _ _ hr
  exact mrMasked_congr (by simp [putAlu]) (by simp [putAlu]) (by simp [putAlu]) hf

theorem mrMasked_applyWord {c : Sys2Proof.Config} {s : State} (a : AluFx c) (x y : MoveFx) (h : MrMasked s) :
    MrMasked (applyWord a x y s) :=
  mrMasked_putLoad _ (mrMasked_putLoad _ (mrMasked_putMove _ _ (mrMasked_putMove _ _ (mrMasked_putAlu _ h))))

/-- The data memories are in canonical form (log 4). -/
def DataWf (s : State) : Prop := s.xmem.wf = true ∧ s.ymem.wf = true

theorem dataWf_congr {s t : State} (hx : t.xmem = s.xmem) (hy : t.ymem = s.ymem) (h : DataWf s) : DataWf t := by
  rwa [DataWf, hx, hy]

theorem dataWf_putMove {s : State} (bus : Space) (m : MoveFx) (h : DataWf s) : DataWf (putMove bus m s) := by
  have hf : DataWf (putIndexFlag bus m.flag (putIndex m.index s)) := dataWf_congr (by simp) (by simp) h
  rw [putMove]
  rcases m.store with _ | ⟨a, v⟩
  · exact hf
  · exact wf_storeData bus a v _ hf.1 hf.2

theorem dataWf_applyWord {c : Sys2Proof.Config} {s : State} (a : AluFx c) (x y : MoveFx) (h : DataWf s) :
    DataWf (applyWord a x y s) := by
  have ha : DataWf (putAlu a s) := dataWf_congr (by simp) (by simp) h
  exact dataWf_congr (by simp [applyWord]) (by simp [applyWord]) (dataWf_putMove .y y (dataWf_putMove .x x ha))

theorem mrMasked_clearLoopFlag {s : State} (h : MrMasked s) : MrMasked s.clearLoopFlag := mrMasked_putBits _ _ h

theorem exec_masked_wf {i : Instr} {s t : State} (h : exec i s = .next t) (hm : MrMasked s) (hw : DataWf s) :
    MrMasked t ∧ DataWf t := by
  have flow (hf : FlowFrame s t) : MrMasked t ∧ DataWf t := by
    have hc := (sameOuter_exec i s t h).cfg
    refine ⟨?_, dataWf_congr hf.xmem hf.ymem hw⟩
    rcases hf.mr0 with h0 | h0
    · exact mrMasked_congr h0 hf.mr1 hc hm
    · exact mrMasked_congr (s := s.clearLoopFlag) h0 hf.mr1 hc (mrMasked_clearLoopFlag hm)
  rcases exec_kinds i s t h with ⟨a, x, y, _, _, _, _, _, _, _, rfl⟩ | ⟨imm, reg, rfl⟩ | hc | ⟨a, st, r, rfl⟩ | rfl
  · exact ⟨mrMasked_applyWord a x y hm, dataWf_applyWord a x y hw⟩
  · obtain ⟨_, _, rfl⟩ := (exec_ldc _ _ _ _).mp h
    exact ⟨mrMasked_writeReg _ _ hm, dataWf_congr (by simp) (by simp) hw⟩
  · exact flow (flowFrame_of_clearsLoopFlag hc h).1
  · exact flow (flowFrame_jmpi h)
  · exact flow (flowFrame_halt h)

/-- Without an arbiter nothing enables (R333). -/
theorem enables_of_no_arbiter {s : State} (h : s.cfg.arbiter = none) (i : Instr) : Instr.enables s i = false := by
  have hbus (bus : Space) (b : BusMove) : BusMove.enables bus s b = false := by
    rw [enables_eq]
    split
    · rw [Config.isEnable, h]
    · rfl
  rw [Instr.enables, hbus, hbus]; rfl

theorem halted_exec {i : Instr} {s t : State} (h : exec i s = .next t) (ht : t.halted = true) :
    s.halted = true ∨ s.ic = .idle := by
  rcases exec_frame h with hw | ⟨hf, _⟩
  · exact .inl ((congrArg State.halted hw.rest).symm.trans ht)
  · exact hf.halted ht

/-- What of the invariant holds between X and the fetch: all but what the cycle has yet to do to DE, WOKE and
PREVFLAGS. -/
structure State.AfterX (t : State) : Prop where
  widths : RegsFit t
  product : fits t.cfg.productWidth t.p
  pc : fits t.cfg.pa t.pc
  de : ∀ d, t.de = some d → slotFits t.cfg d
  masked : MrMasked t
  data : DataWf t
  imem : t.imem.wf = true
  halted : t.halted = true → t.ic = .idle
  pages : t.cfg.hasIpr = false → t.ipr0 = 0 ∧ t.ipr1 = 0
  arbiter : t.cfg.arbiter = none → t.en = false

theorem State.Inv.afterX {s : State} (h : s.Inv) : s.AfterX where
  widths := h.widths
  product := h.product
  pc := h.pc
  de d hd := h.slots d (.inl hd)
  masked := ⟨h.mr0, h.mr1⟩
  data := ⟨h.xmem, h.ymem⟩
  imem := h.imem
  halted := h.halted
  pages := h.pages
  arbiter := h.arbiter

/-- An instruction that reaches a step keeps it. -/
theorem exec_afterX {i : Instr} {s t : State} (h : exec i s = .next t) (henc : (encode i).isSome = true)
    (hs : s.AfterX) : t.AfterX := by
  have same := sameOuter_exec i s t h
  obtain ⟨hregs, hp, hpc, hde⟩ := exec_fits i s t h hs.widths hs.product hs.pc hs.de
  obtain ⟨hm, hw⟩ := exec_masked_wf h hs.masked hs.data
  refine ⟨hregs, same.cfg ▸ hp, same.cfg ▸ hpc, same.cfg ▸ hde, hm, hw, same.imem ▸ hs.imem, fun ht => ?halted,
    fun hi => ?pages, fun ha => ?arbiter⟩
  case halted => rw [same.ic]; exact (halted_exec h ht).elim hs.halted id
  case pages =>
    rw [same.cfg] at hi
    rw [same.ipr1]
    refine ⟨?_, (hs.pages hi).2⟩
    rcases ipr0_exec h henc with h0 | ⟨h0, _⟩
    · exact h0.trans (hs.pages hi).1
    · exact h0
  case arbiter =>
    rw [same.cfg] at ha
    refine Bool.eq_false_iff.mpr fun ht => ?_
    rcases en_exec h ht with he | he
    · exact absurd ((hs.arbiter ha).symm.trans he) (by decide)
    · exact absurd ((enables_of_no_arbiter ha i).symm.trans he) (by decide)

/-! ### What the rest of a cycle brings back -/

/-- The fields the interrupt controller takes from the cycle it sees. -/
theorem interruptEntry_outer {view : CycleView} {s t v : State} (h : interruptEntry view s t = .ok v) :
    v.pc = t.pc ∧ v.lc = t.lc ∧ v.de = t.de ∧
      (v.ex = t.ex ∨ v.ex = t.ex.map fun d => { d with cancelled := true }) ∧
      (v.lr1 = t.lr1 ∨ v.lr1 = view.fa ∨ v.lr1 = view.nfa) := by
  cases hc : s.ic <;> simp only [interruptEntry, hc] at h
  case idle =>
    have e := Except.ok.inj h
    split at e <;> subst e <;> exact ⟨rfl, rfl, rfl, .inl rfl, .inl rfl⟩
  case c1 =>
    rw [← Except.ok.inj h]
    refine ⟨rfl, rfl, rfl, .inl rfl, ?_⟩
    rcases hl : view.loadsLr1 with _ | _
    · exact .inr (.inl (by simp [entryCycle1, hl]))
    · exact .inl (by simp [entryCycle1, hl])
  case c2 =>
    unfold entryCycle2 at h
    by_cases hk : keepsThird view s = true
    · simp only [hk, if_true, require_ok] at h
      rw [← Except.ok.inj h.2]
      refine ⟨rfl, rfl, rfl, .inl rfl, ?_⟩
      rcases hl : view.loadsLr1 with _ | _
      · exact .inr (.inr (by simp))
      · exact .inl (by simp)
    · simp only [hk] at h
      rw [← Except.ok.inj h]
      exact ⟨rfl, rfl, rfl, .inr rfl, .inl rfl⟩
  all_goals
    rw [← Except.ok.inj h]
    exact ⟨rfl, rfl, rfl, .inl rfl, .inl rfl⟩

theorem loopCheck_fits {b l f : Bool} {fa : PAddr} {t u : State} (h : loopCheck b l f fa t = .ok u)
    (hls : fits t.cfg.pa t.ls) (hlc : fits t.cfg.pa t.lc) : fits t.cfg.pa u.pc ∧ fits t.cfg.pa u.lc := by
  unfold loopCheck at h
  split at h
  · rw [← Except.ok.inj h]; exact ⟨nextAddress_fits _ _, hlc⟩
  · rw [require_ok] at h
    rw [← Except.ok.inj h.2]
    split
    next => exact ⟨nextAddress_fits _ _, hlc⟩
    next h0 => exact ⟨hls, fits_sub_one hlc h0⟩

/-- A register of pa bits that a move can name, in its own type. -/
theorem fits_of_regValue {t : State} {v : PAddr} (h : fits t.cfg.pa (v.setWidth 64 : Word)) : fits t.cfg.pa v :=
  (fits_narrow _ 64 v (by omega)).mp h

/-- The addresses a cycle writes have pa bits. -/
theorem finishCycle_addresses {x : XTraits} {s t v : State} (h : finishCycle x s t = .ok v) (ht : t.AfterX)
    (hc : t.cfg = s.cfg) :
    fits t.cfg.pa v.pc ∧ fits t.cfg.pa v.lc ∧ fits t.cfg.pa v.lr1 ∧
      ∀ d, v.de = some d ∨ v.ex = some d → slotFits t.cfg d := by
  obtain ⟨w, u, r, _, hu, hr, rfl⟩ := (finishCycle_ok _ _ _ _).mp h
  have hls := fits_of_regValue (ht.widths .ls)
  have hlc := fits_of_regValue (ht.widths .lc)
  have hlr1 := fits_of_regValue (ht.widths .lr1)
  have hfa : fits t.cfg.pa (fetchAddress s t) := by
    rw [fetchAddress]; split
    · rw [hc]; exact vector_fits s
    · exact ht.pc
  have hpage : fits t.cfg.pa (fetchPage s t) := by
    rw [fetchPage]; split
    · exact fits_zero _ _
    · exact fits_of_regValue (ht.widths .ipr0)
  have hpc : fits t.cfg.pa u.pc ∧ fits t.cfg.pa u.lc := by
    split at hu
    · rw [vectorCheck_ok _ _ _ _ hu]; exact ⟨nextAddress_fits _ _, hlc⟩
    · exact loopCheck_fits hu hls hlc
  have hu' := checked_ok _ _ _ _ _ hu
  obtain ⟨rpc, rlc, rde, rex, rlr1⟩ := interruptEntry_outer hr
  refine ⟨rpc ▸ hpc.1, rlc ▸ hpc.2, ?lr1, fun d hd => ?slots⟩
  case lr1 =>
    rcases rlr1 with e | e | e
    · have hul : u.lr1 = t.lr1 := by rw [hu']
      exact (e.trans hul) ▸ hlr1
    · exact e ▸ hfa
    · exact e ▸ ht.pc
  case slots =>
    rcases hd with hd | hd
    · cases (rde.symm.trans hd : some (⟨fetchPage s t, fetchAddress s t, w, false⟩ : Slot) = some d)
      exact ⟨hpage, hfa⟩
    · have hex : (shiftSlots (fetchPage s t) (fetchAddress s t) w u).ex = t.de := by rw [hu']; rfl
      rcases rex with e | e
      · exact ht.de d (hex.symm.trans (e.symm.trans hd))
      · rw [hex] at e
        obtain ⟨d', hd', rfl⟩ := Option.map_eq_some_iff.mp (e.symm.trans hd)
        exact ht.de d' hd'

/-- R393: the flags an instruction writes are bits of MR0. -/
theorem flagsWritten_allBits (i : Instr) : Instr.flagsWritten i &&& ~~~allBits = 0 := by
  rw [Instr.flagsWritten, Moves.indexBits]
  split_ifs <;> decide

theorem ran_flags {s t : State} {x : XTraits} (h : ran s x t) : x.flags &&& ~~~allBits = 0 := by
  obtain ⟨_, _, _, ⟨_, rfl, _⟩ | ⟨i, _, _, rfl⟩⟩ := h
  · exact BitVec.zero_and
  · exact flagsWritten_allBits i

theorem requested_of_no_arbiter {s : State} (h : s.cfg.arbiter = none) : s.requested = false := by
  simp [State.requested, Config.vectors, h]

/-- The rest of a cycle brings the invariant back. -/
theorem finishCycle_inv {x : XTraits} {s t v : State} (hs : s.Inv) (hran : ran s x t) (ht : t.AfterX)
    (h : finishCycle x s t = .ok v) : v.Inv := by
  have same := ran_same s t x hran
  obtain ⟨hv, hflags, page, addr, w, hde⟩ := finishCycle_frame x s t v same.ic h
  obtain ⟨hpc, hlc, hlr1, hslots⟩ := finishCycle_addresses h ht same.cfg
  have hmasked : MrMasked v := by
    refine ⟨?_, ?_⟩ <;> rw [hv.cfg]
    · rcases hv.mr0 with e | e
      · exact e ▸ ht.masked.1
      · rw [e]; exact putBits_masked t _ _
    · rcases hv.mr1 with e | e
      · exact e ▸ ht.masked.2
      · rw [e, same.cfg]; exact and_not_self_of_masked _ _
  refine
    { widths := fun f => ?widths
      product := by rw [hv.cfg, hv.p]; exact ht.product
      pc := hv.cfg ▸ hpc
      slots := hv.cfg ▸ hslots
      xmem := hv.xmem ▸ ht.data.1
      ymem := hv.ymem ▸ ht.data.2
      imem := hv.imem ▸ ht.imem
      mr0 := hmasked.1
      mr1 := hmasked.2
      halted := fun hh => ?halted
      woke := fun hw => ?woke
      pages := fun hi => ?pages
      arbiter := fun ha => ?arbiter
      fetched := fun d hd => by cases hde.symm.trans hd; rfl
      prevFlags := hflags ▸ ran_flags hran }
  case widths =>
    rw [hv.cfg]
    have hold (g : FReg) (hg : v.regValue g = t.regValue g) : fits (FReg.width t.cfg g) (v.regValue g) :=
      hg ▸ ht.widths g
    cases f with
    | areg r => exact hold _ (by simp only [State.regValue, hv.regs])
    | guard x => exact hold _ (by simp only [State.regValue, hv.regs])
    | ireg r => exact hold _ (by simp only [State.regValue, hv.idx])
    | lr0 => exact hold _ (by simp only [State.regValue, hv.lr0])
    | ls => exact hold _ (by simp only [State.regValue, hv.ls])
    | le => exact hold _ (by simp only [State.regValue, hv.le])
    | ipr0 => exact hold _ (by simp only [State.regValue, hv.ipr0])
    | lr1 => exact fits_widen _ _ _ hlr1
    | lc => exact fits_widen _ _ _ hlc
    | mr0 | mr1 => exact hv.cfg ▸ fits_widen _ _ _ (fits_active v.cfg _)
    | null | nop => exact fits_zero _ _
    | ipr1 =>
      refine fits_widen _ _ _ ?_
      rcases hv.ipr1 with e | ⟨_, _, e⟩
      · exact e ▸ fits_of_regValue (ht.widths .ipr1)
      · rw [e, same.cfg]; exact fits_of_regValue (hs.widths .ipr0)
  case halted =>
    obtain ⟨hth, hidle⟩ := hv.halted hh
    exact hidle (same.ic ▸ ht.halted hth)
  case woke =>
    rcases hv.woke hw with h1 | h2 | ⟨htw, h1, h2⟩
    · exact .inl h1
    · exact .inr h2
    · exact absurd (hs.woke (same.woke ▸ htw)) (by simp [h1, h2])
  case pages =>
    rw [hv.cfg] at hi
    refine ⟨hv.ipr0 ▸ (ht.pages hi).1, ?_⟩
    rcases hv.ipr1 with e | ⟨_, hp, _⟩
    · exact e ▸ (ht.pages hi).2
    · exact absurd (hi.symm.trans ((congrArg Config.hasIpr same.cfg).trans hp)) (by decide)
  case arbiter =>
    rw [hv.cfg] at ha
    rcases hv.en with e | ⟨_, hreq⟩
    · exact e ▸ ht.arbiter ha
    · exact absurd ((requested_of_no_arbiter (same.cfg ▸ ha)).symm.trans hreq) (by decide)

/-- Settles O9: reset and a halted cycle by themselves, a running cycle by the instruction and the rest. -/
theorem stepKeepsInvariant : Obligations.StepKeepsInvariant := by
  unfold Obligations.StepKeepsInvariant
  intro s u hs h
  obtain ⟨_, ⟨_, rfl⟩ | ⟨_, _, rfl⟩ | ⟨x, t, v, hran, hv, rfl⟩⟩ := (step_next s u).mp h
  · exact inv_advance (resetOf_inv _ _ _ _ _ _ hs.xmem hs.ymem hs.imem)
  · exact inv_advance (inv_haltedCycle hs)
  · have ht : t.AfterX := by
      rcases ran_cases hran with rfl | ⟨i, hi, he⟩
      · exact hs.afterX
      · exact exec_afterX he (encode_isSome_of_slotContent hi) hs.afterX
    exact inv_advance (finishCycle_inv hs hran ht hv)

end Sys2Proof.Machine
end

section
/-! Arithmetic (O30 to O34): each sum and each difference is the shared operation of R158, written by the word of its
instruction at the width of its operands. -/

namespace Sys2Proof.Machine

/-! ### The width of an operation -/

theorem alu2Fx_narrow (s : State) (op1 op2 : AOp) (res : AReg) (n : BitVec s.cfg.n → BitVec s.cfg.n → AluOut s.cfg.n)
    (w : BitVec s.cfg.accWidth → BitVec s.cfg.accWidth → AluOut s.cfg.accWidth) (h1 : op1.isWide = false)
    (h2 : op2.isWide = false) :
    alu2Fx s op1 op2 res n w = narrowFx res (n (narrowOperand s op1) (narrowOperand s op2)) := by
  simp [alu2Fx, h1, h2]

theorem alu2Fx_wide (s : State) (op1 op2 : AOp) (res : AReg) (n : BitVec s.cfg.n → BitVec s.cfg.n → AluOut s.cfg.n)
    (w : BitVec s.cfg.accWidth → BitVec s.cfg.accWidth → AluOut s.cfg.accWidth)
    (h : op1.isWide = true ∨ op2.isWide = true) :
    alu2Fx s op1 op2 res n w = wideFx res.acc (w (wideOperand s op1) (wideOperand s op2)) := by
  rw [alu2Fx, if_pos (by simpa using h)]

theorem alu1Fx_narrow (s : State) (op : AOp) (res : AReg) (n : BitVec s.cfg.n → AluOut s.cfg.n)
    (w : BitVec s.cfg.accWidth → AluOut s.cfg.accWidth) (h : op.isWide = false) :
    alu1Fx s op res n w = narrowFx res (n (narrowOperand s op)) := by
  simp [alu1Fx, h]

theorem alu1Fx_wide (s : State) (op : AOp) (res : AReg) (n : BitVec s.cfg.n → AluOut s.cfg.n)
    (w : BitVec s.cfg.accWidth → AluOut s.cfg.accWidth) (h : op.isWide = true) :
    alu1Fx s op res n w = wideFx res.acc (w (wideOperand s op)) := by
  simp [alu1Fx, h]

theorem resultCells_narrow (op1 op2 : AOp) (res : AReg) (h1 : op1.isWide = false) (h2 : op2.isWide = false) :
    resultCells (op1.isWide || op2.isWide) res = resultCells false res := by
  rw [h1, h2]; rfl

theorem resultCells_wide (op1 op2 : AOp) (res : AReg) (h : op1.isWide = true ∨ op2.isWide = true) :
    resultCells (op1.isWide || op2.isWide) res = [.areg res.acc.low, .areg res.acc.high, .guard res.acc] := by
  rw [show (op1.isWide || op2.isWide) = true by simpa using h]; rfl

/-! ### Exact results through R158 -/

/-- What the end of the arithmetic pipeline answers for the exact value z with the adder's carry (R158). -/
structure Pipelined {w : Nat} (ext : BitVec w → Bool) (sat : Bool) (z : Int) (carry : Prop) (o : AluOut w) : Prop where
  value : o.value = clamp w sat z
  v : o.flags.v = true ↔ outOfRange w z
  c : o.flags.c = true ↔ carry
  zne : ZneOf ext o

theorem pipelined_arithOut {w : Nat} (ext : BitVec w → Bool) (sat : Bool) (z : Int) (carry : Prop) [Decidable carry] :
    Pipelined ext sat z carry (arithOut w ext sat z (decide carry)) :=
  ⟨arithOut_value _ _ _ _ _, arithOut_v _ _ _ _ _, decide_eq_true_iff, zneOf_arithOut _ _ _ _ _⟩

/-- The carry the adder is given, as a bit. -/
theorem carryIn_eq (use : Bool) (s : State) : carryIn use s = (use && s.flag .c).toNat := by
  cases use <;> cases h : s.flag .c <;> simp [carryIn, h]

theorem pipelined_narrowSum (s : State) (use : Bool) (a b : BitVec s.cfg.n) :
    Pipelined narrowExt (s.flag .s) (a.toInt + b.toInt + carryIn use s)
      (2 ^ s.cfg.n ≤ a.toNat + b.toNat + carryIn use s) (narrowSum s (use && s.flag .c) a b) := by
  rw [carryIn_eq]; exact pipelined_arithOut _ _ _ _

theorem pipelined_wideSum (s : State) (use : Bool) (a b : BitVec s.cfg.accWidth) :
    Pipelined (wideExt s.cfg) (s.flag .s) (wideRound s (a.toInt + b.toInt + carryIn use s))
      (2 ^ s.cfg.accWidth ≤ a.toNat + b.toNat + carryIn use s) (wideSum s (use && s.flag .c) a b) := by
  rw [carryIn_eq]; exact pipelined_arithOut _ _ _ _

theorem pipelined_narrowDiff (s : State) (use : Bool) (a b : BitVec s.cfg.n) :
    Pipelined narrowExt (s.flag .s) (a.toInt - b.toInt - carryIn use s)
      (a.toNat < b.toNat + carryIn use s) (narrowDiff s (use && s.flag .c) a b) := by
  rw [carryIn_eq]; exact pipelined_arithOut _ _ _ _

theorem pipelined_wideDiff (s : State) (use : Bool) (a b : BitVec s.cfg.accWidth) :
    Pipelined (wideExt s.cfg) (s.flag .s) (wideRound s (a.toInt - b.toInt - carryIn use s))
      (a.toNat < b.toNat + carryIn use s) (wideDiff s (use && s.flag .c) a b) := by
  rw [carryIn_eq]; exact pipelined_arithOut _ _ _ _

/-- A ready word with a narrow result of R158: value, guard register and flags. -/
theorem narrow_pipelined (i : Instr) (s : State) (res : AReg) (o : AluOut s.cfg.n) (z : Int) (carry : Prop)
    (hr : wordReady i s = true) (hc : Instr.aluCells i = resultCells false res)
    (ho : Pipelined narrowExt (s.flag .s) z carry o) :
    ∃ t, outcome (runWord i s (narrowFx res o)) = .next t ∧ narrowWritten s.cfg t res (clamp s.cfg.n (s.flag .s) z) ∧
      narrowZne i t (clamp s.cfg.n (s.flag .s) z) ∧ flagIs i t .v (outOfRange s.cfg.n z) ∧ flagIs i t .c carry := by
  obtain ⟨t, ht, hres, hzne, hv, hcarry⟩ := narrow_word i s res o hr hc ho.zne
  rw [ho.value] at hres hzne
  exact ⟨t, ht, hres, hzne, flagIs_congr _ _ _ _ _ ho.v hv, flagIs_congr _ _ _ _ _ ho.c hcarry⟩

/-- A ready word with a wide result of R158, and with the product it may write beside it. -/
theorem wide_pipelined (i : Instr) (s : State) (x : Acc) (o : AluOut s.cfg.accWidth)
    (p : Option (BitVec s.cfg.productWidth)) (z : Int) (carry : Prop) (hr : wordReady i s = true)
    (hc : Instr.aluCells i = [.areg x.low, .areg x.high, .guard x])
    (ho : Pipelined (wideExt s.cfg) (s.flag .s) z carry o) :
    ∃ t, outcome (runWord i s { wideFx x o with product := p }) = .next t ∧
      t.regs.accum s.cfg x = clamp s.cfg.accWidth (s.flag .s) z ∧
      wideZne s.cfg i t (clamp s.cfg.accWidth (s.flag .s) z) ∧ flagIs i t .v (outOfRange s.cfg.accWidth z) ∧
      flagIs i t .c carry ∧ t.p = (p.map (BitVec.setWidth 128)).getD s.p := by
  obtain ⟨t, ht, hres, hzne, hv, hcarry, hp⟩ := wide_word i s x o p hr hc ho.zne
  rw [ho.value] at hres hzne
  exact ⟨t, ht, hres, hzne, flagIs_congr _ _ _ _ _ ho.v hv, flagIs_congr _ _ _ _ _ ho.c hcarry, hp⟩

/-! ### Sums and differences -/

/-- The four sums are one word: the shared sum with C added where the form says so (R161, R162, R165, R166). -/
theorem exec_sum (i : Instr) (op1 op2 : AOp) (res : AReg) (carry : Bool) (s : State) (h : SumForm i op1 op2 res carry) :
    exec i s = outcome (runWord i s (alu2Fx s op1 op2 res (narrowSum s (carry && s.flag .c))
      (wideSum s (carry && s.flag .c)))) := by
  cases h <;> rfl

theorem aluCells_sum (i : Instr) (op1 op2 : AOp) (res : AReg) (carry : Bool) (h : SumForm i op1 op2 res carry) :
    Instr.aluCells i = resultCells (op1.isWide || op2.isWide) res := by
  cases h <;> simp [Instr.aluCells]

/-- The two differences are one word (R163, R164). -/
theorem exec_diff (i : Instr) (op1 op2 : AOp) (res : AReg) (carry : Bool) (s : State)
    (h : DiffForm i op1 op2 res carry) :
    exec i s = outcome (runWord i s (alu2Fx s op1 op2 res (narrowDiff s (carry && s.flag .c))
      (wideDiff s (carry && s.flag .c)))) := by
  cases h <;> rfl

theorem aluCells_diff (i : Instr) (op1 op2 : AOp) (res : AReg) (carry : Bool) (h : DiffForm i op1 op2 res carry) :
    Instr.aluCells i = resultCells (op1.isWide || op2.isWide) res := by
  cases h <;> rfl

/-- Settles O30: a narrow sum of R158 in the word of its instruction. -/
theorem narrowSums : Obligations.NarrowSums := by
  intro i op1 op2 res carry s hform h1 h2 hready
  obtain ⟨t, ht, hres, hzne, hv, hc⟩ := narrow_pipelined i s res _ _ _ hready
    ((aluCells_sum i op1 op2 res carry hform).trans (resultCells_narrow op1 op2 res h1 h2))
    (pipelined_narrowSum s carry (narrowOperand s op1) (narrowOperand s op2))
  refine ⟨t, ?_, _, _, _, _, rfl, rfl, rfl, rfl, hres, hzne, hv, hc⟩
  rw [exec_sum i op1 op2 res carry s hform, alu2Fx_narrow s op1 op2 res _ _ h1 h2, ht]

/-- Settles O31: a wide sum of R158 in the word of its instruction. -/
theorem wideSums : Obligations.WideSums := by
  intro i op1 op2 res carry s hform hw hready
  obtain ⟨t, ht, hres, hzne, hv, hc, -⟩ := wide_pipelined i s res.acc _ none _ _ hready
    ((aluCells_sum i op1 op2 res carry hform).trans (resultCells_wide op1 op2 res hw))
    (pipelined_wideSum s carry (wideOperand s op1) (wideOperand s op2))
  refine ⟨t, ?_, _, _, _, _, rfl, rfl, rfl, rfl, hres, hzne, hv, hc⟩
  rw [exec_sum i op1 op2 res carry s hform, alu2Fx_wide s op1 op2 res _ _ hw]
  exact ht

/-- Settles O32: a narrow difference of R158 in the word of its instruction. -/
theorem narrowDifferences : Obligations.NarrowDifferences := by
  intro i op1 op2 res carry s hform h1 h2 hready
  obtain ⟨t, ht, hres, hzne, hv, hc⟩ := narrow_pipelined i s res _ _ _ hready
    ((aluCells_diff i op1 op2 res carry hform).trans (resultCells_narrow op1 op2 res h1 h2))
    (pipelined_narrowDiff s carry (narrowOperand s op1) (narrowOperand s op2))
  refine ⟨t, ?_, _, _, _, _, rfl, rfl, rfl, rfl, hres, hzne, hv, hc⟩
  rw [exec_diff i op1 op2 res carry s hform, alu2Fx_narrow s op1 op2 res _ _ h1 h2, ht]

/-- Settles O33: a wide difference of R158 in the word of its instruction. -/
theorem wideDifferences : Obligations.WideDifferences := by
  intro i op1 op2 res carry s hform hw hready
  obtain ⟨t, ht, hres, hzne, hv, hc, -⟩ := wide_pipelined i s res.acc _ none _ _ hready
    ((aluCells_diff i op1 op2 res carry hform).trans (resultCells_wide op1 op2 res hw))
    (pipelined_wideDiff s carry (wideOperand s op1) (wideOperand s op2))
  refine ⟨t, ?_, _, _, _, _, rfl, rfl, rfl, rfl, hres, hzne, hv, hc⟩
  rw [exec_diff i op1 op2 res carry s hform, alu2Fx_wide s op1 op2 res _ _ hw]
  exact ht

/-- Value, Z, N, E and V do not depend on the carry, which ABS draws (log 9). -/
theorem Pipelined.withCarry {w : Nat} {ext : BitVec w → Bool} {sat : Bool} {z : Int} {carry : Prop} {o : AluOut w}
    (h : Pipelined ext sat z carry o) (c : Bool) : Pipelined ext sat z (c = true) (o.withCarry c) :=
  ⟨h.value, h.v, Iff.rfl, zneOf_withCarry ext o c h.zne⟩

/-- 0 + b for a b that is not negative is |b|, 0 - b for a negative one (R160). -/
theorem abs_toInt {w : Nat} (b : BitVec w) :
    |b.toInt| = if b.msb then 0 - b.toInt else 0 + b.toInt := by
  rw [BitVec.msb_eq_toInt]
  by_cases h : b.toInt < 0
  · simp [h, abs_of_neg h]
  · simp [h, abs_of_nonneg (not_lt.mp h)]

theorem pipelined_narrowAbs (s : State) (b : BitVec s.cfg.n) :
    Pipelined narrowExt (s.flag .s) |b.toInt| (Config.absCarry s.tick = true) (narrowAbs s b) := by
  have sum := pipelined_narrowSum s false 0 b
  have diff := pipelined_narrowDiff s false 0 b
  rw [abs_toInt, narrowAbs]
  cases b.msb
  · exact Pipelined.withCarry (by simpa [carryIn] using sum) _
  · exact Pipelined.withCarry (by simpa [carryIn] using diff) _

theorem pipelined_wideAbs (s : State) (b : BitVec s.cfg.accWidth) :
    Pipelined (wideExt s.cfg) (s.flag .s) (wideRound s |b.toInt|) (Config.absCarry s.tick = true) (wideAbs s b) := by
  have sum := pipelined_wideSum s false 0 b
  have diff := pipelined_wideDiff s false 0 b
  rw [abs_toInt, wideAbs]
  cases b.msb
  · exact Pipelined.withCarry (by simpa [carryIn] using sum) _
  · exact Pipelined.withCarry (by simpa [carryIn] using diff) _

/-- Settles O34: ABS is 0 + b or 0 - b through R158, whose exact value is |b|. -/
theorem absoluteValue : Obligations.AbsoluteValue := by
  intro op res pm s hready
  have he : exec (.abs op res pm) s = outcome (runWord (.abs op res pm) s
    (alu1Fx s op res (narrowAbs s) (wideAbs s))) := rfl
  have hcells : Instr.aluCells (.abs op res pm) = resultCells op.isWide res := rfl
  cases hw : op.isWide
  · obtain ⟨t, ht, hres, hzne, hv, -⟩ := narrow_pipelined (.abs op res pm) s res _ _ _ hready
      (by rw [hcells, hw]) (pipelined_narrowAbs s (narrowOperand s op))
    refine ⟨t, ?_, fun _ => ⟨_, _, rfl, rfl, hres, hzne, hv⟩, nofun⟩
    rw [he, alu1Fx_narrow s op res _ _ hw, ht]
  · obtain ⟨t, ht, hres, hzne, hv, -, -⟩ := wide_pipelined (.abs op res pm) s res.acc _ none _ _ hready
      (by rw [hcells, hw]; rfl) (pipelined_wideAbs s (wideOperand s op))
    refine ⟨t, ?_, nofun, fun _ => ⟨_, _, rfl, rfl, hres, hzne, hv⟩⟩
    rw [he, alu1Fx_wide s op res _ _ hw]
    exact ht

end Sys2Proof.Machine
end

section
/-! Rounding, multi-word addition and comparison (O35 to O37): consequences of the sums and differences of R158. -/

namespace Sys2Proof.Machine

/-! ### Rounding (R159) -/

/-- Rounding replaces the low n bits by the increment of the upper part. -/
theorem roundTo_sub (m : RoundMode) (n : Nat) (z : Int) :
    roundTo m n z - z = roundInc m n (z / 2 ^ n) (z % 2 ^ n) * 2 ^ n - z % 2 ^ n := by
  have hz := Int.emod_add_mul_ediv z (2 ^ n)
  rw [roundTo]
  linarith

/-- The upper part after rounding. -/
theorem roundTo_div (m : RoundMode) (n : Nat) (z : Int) :
    roundTo m n z / 2 ^ n = z / 2 ^ n + roundInc m n (z / 2 ^ n) (z % 2 ^ n) :=
  Int.mul_ediv_cancel _ (by positivity)

/-- The increment is at most one, and goes to the side of the half the lower part lies on; truncation adds none. -/
theorem roundInc_cases (m : RoundMode) (n : Nat) (hi lo : Int) (hm : m ≠ .truncate) :
    (roundInc m n hi lo = 0 ∧ lo ≤ 2 ^ (n - 1)) ∨ (roundInc m n hi lo = 1 ∧ 2 ^ (n - 1) ≤ lo) := by
  have hpar : hi % 2 = 0 ∨ hi % 2 = 1 := Int.emod_two_eq_zero_or_one hi
  cases m with
  | truncate => exact absurd rfl hm
  | round => simp only [roundInc]; split_ifs <;> omega
  | convergent0 => simp only [roundInc]; split_ifs <;> omega
  | convergent1 => simp only [roundInc]; split_ifs <;> omega

/-- Twice the half. -/
theorem two_pow_eq_two_mul_half {n : Nat} (hn : 0 < n) : (2 : Int) ^ n = 2 * 2 ^ (n - 1) := by
  rw [← pow_succ', Nat.sub_add_cancel hn]

theorem roundTo_nearest {m : RoundMode} {n : Nat} {z : Int} (hn : 0 < n) (hm : m ≠ .truncate) :
    |roundTo m n z - z| ≤ 2 ^ (n - 1) := by
  have hpow := two_pow_eq_two_mul_half hn
  have hlo : 0 ≤ z % 2 ^ n := Int.emod_nonneg z (by positivity)
  have hlt : z % 2 ^ n < 2 ^ n := Int.emod_lt_of_pos z (by positivity)
  rw [roundTo_sub, abs_le]
  rcases roundInc_cases m n (z / 2 ^ n) (z % 2 ^ n) hm with ⟨hinc, hle⟩ | ⟨hinc, hge⟩ <;> rw [hinc] <;> omega

/-- At a tie ROUND goes up, CONVERGENT0 to an even and CONVERGENT1 to an odd upper part. -/
theorem roundTo_tie {n : Nat} {z : Int} (hn : 0 < n) (htie : z % 2 ^ n = 2 ^ (n - 1)) :
    roundTo .round n z = z + 2 ^ (n - 1) ∧ roundTo .convergent0 n z / 2 ^ n % 2 = 0 ∧
      roundTo .convergent1 n z / 2 ^ n % 2 = 1 := by
  have hpow := two_pow_eq_two_mul_half hn
  have hround := roundTo_sub .round n z
  rw [roundTo_div, roundTo_div]
  simp only [roundInc, htie, le_refl, lt_irrefl, if_true, if_false] at hround ⊢
  omega

/-- Settles O35: the increment of the upper part, case by case. -/
theorem roundingToNearest : Obligations.RoundingToNearest := by
  refine ⟨fun n z hn => ⟨fun m => Int.mul_emod_left _ _, ?truncate, fun m hm => roundTo_nearest hn hm, roundTo_tie hn⟩,
    fun s z => ⟨fun hr => by rw [wideRound, if_pos hr], fun hr => by rw [wideRound, if_neg (by simp [hr])]⟩⟩
  case truncate =>
    have hsub : z - roundTo .truncate n z = z % 2 ^ n := by
      have h := roundTo_sub .truncate n z
      simp only [roundInc, zero_mul] at h
      omega
    rw [hsub]
    exact ⟨Int.emod_nonneg z (by positivity), Int.emod_lt_of_pos z (by positivity)⟩

/-! ### Words that ran were ready -/

/-- A word that answers a next state was ready: it exists, its moves are allowed, and no register is written twice. -/
theorem wordReady_of_next {i : Instr} {s t : State} (hi : Instr.isWord i = true) (h : exec i s = .next t) :
    wordReady i s = true := by
  obtain ⟨a, he, ha⟩ := exec_word i s hi
  rw [he, outcome_next, runWord_ok] at h
  obtain ⟨hwf, x, y, hx, hy, hn, -⟩ := h
  have hnodup := (noCollision_targets i a s x y hx hy ha.cells).mp hn
  simp only [wordReady, hwf, (moveFx_ready _ _ _).mpr ⟨x, hx⟩, (moveFx_ready _ _ _).mpr ⟨y, hy⟩,
    decide_eq_true hnodup, Bool.and_self]

theorem wordFrame_of_next {i : Instr} {s t : State} (hi : Instr.isWord i = true) (h : exec i s = .next t) :
    WordFrame i s t := wordFrames i s t (.inl hi) h

theorem WordFrame.cfg {i : Instr} {s t : State} (h : WordFrame i s t) : t.cfg = s.cfg := by rw [h.rest]

/-- A mode bit after a word that does not load MR0. -/
theorem WordFrame.mode {i : Instr} {s t : State} (h : WordFrame i s t) {b : MrBit} (hb : b = .s ∨ b = .i ∨ b = .r)
    (hl : Instr.loads .mr0 i = false) : t.flag b = s.flag b :=
  flag_of_status h.status b (flagsWritten_mode hb hl)

/-- An arithmetic register that a word does not write. -/
theorem WordFrame.word {i : Instr} {s t : State} (h : WordFrame i s t) (c : Sys2Proof.Config) {r : AReg}
    (hr : FReg.areg r ∉ Instr.targets i) : t.regs.word c r = s.regs.word c r := by
  have hget : t.regs.get r = s.regs.get r := by
    simpa only [State.regValue] using h.regs (.areg r) (by simp) hr
  rw [ARegs.word, hget, ARegs.word]

/-! ### Multi-word addition (R157, R162) -/

theorem clamp_wrapped (w : Nat) (z : Int) : clamp w false z = BitVec.ofInt w z := by simp [clamp]

/-- A narrow sum of two registers beside a move NOP, with S clear: the word and the carry of the sum, other registers
unchanged. -/
theorem sum_wrapped {i : Instr} {p q r : AReg} {carry : Bool} {s t : State} (c : Sys2Proof.Config) (hc : s.cfg = c)
    (hform : SumForm i (.reg p) (.reg q) r carry) (hmoves : Instr.moves i = PMove.moves PMove.nop)
    (hs : s.flag .s = false) (h : exec i s = .next t) :
    t.regs.word c r = s.regs.word c p + s.regs.word c q + BitVec.ofNat c.n (carryIn carry s) ∧
      (Config.hasBit c .c = true →
        (t.flag .c = true ↔ 2 ^ c.n ≤ (s.regs.word c p).toNat + (s.regs.word c q).toNat + carryIn carry s)) ∧
      WordFrame i s t ∧ Instr.targets i = FReg.cells (.areg r) ∧ t.flag .s = false := by
  subst hc
  have hword : Instr.isWord i = true := by cases hform <;> rfl
  have hload : Instr.loads .mr0 i = false := by
    rw [Instr.loads, hmoves]; cases hform <;> rfl
  have hcells : Instr.targets i = FReg.cells (.areg r) := by
    rw [Instr.targets, hmoves, aluCells_sum i _ _ r carry hform]
    exact (List.append_nil _).trans (List.append_nil _)
  have hframe := wordFrame_of_next hword h
  obtain ⟨t', ht', a, b, v, z, rfl, rfl, rfl, rfl, ⟨hres, -⟩, -, -, hcarry⟩ :=
    narrowSums i _ _ r carry s hform rfl rfl (wordReady_of_next hword h)
  obtain rfl : t' = t := by simpa using ht'.symm.trans h
  rw [hs, clamp_wrapped] at hres
  refine ⟨?_, fun hbit => ?_, hframe, hcells, by rw [hframe.mode (.inl rfl) hload, hs]⟩
  · rw [hres, BitVec.ofInt_add, BitVec.ofInt_add, BitVec.ofInt_toInt, BitVec.ofInt_toInt, BitVec.ofInt_natCast]
    rfl
  · rw [hcarry hload, hframe.cfg]
    simp only [hbit, true_and]
    rfl

theorem toNat_append_eq {m n : Nat} (a : BitVec m) (b : BitVec n) : (a ++ b).toNat = b.toNat + 2 ^ n * a.toNat := by
  rw [BitVec.toNat_append, ← Nat.shiftLeft_add_eq_or_of_lt b.isLt, Nat.shiftLeft_eq]
  ring

/-- The low words and the high words with the carry between them add up to the double words. -/
theorem append_add_append {n : Nat} (a b x y : BitVec n) (k : Nat)
    (hk : k = if 2 ^ n ≤ b.toNat + y.toNat then 1 else 0) :
    (a + x + BitVec.ofNat n k) ++ (b + y) = (a ++ b) + (x ++ y) := by
  have hpos : 0 < 2 ^ n := by positivity
  have hlow : b.toNat + y.toNat = (b + y).toNat + 2 ^ n * k := by
    have hb := b.isLt
    have hy := y.isLt
    rw [BitVec.toNat_add, hk]
    split
    · rw [Nat.mod_eq_sub_mod (by assumption), Nat.mod_eq_of_lt (by omega)]; omega
    · rw [Nat.mod_eq_of_lt (by omega)]; omega
  have hsum : (a ++ b).toNat + (x ++ y).toNat = (b + y).toNat + 2 ^ n * (a.toNat + x.toNat + k) := by
    rw [toNat_append_eq, toNat_append_eq]
    linear_combination hlow
  apply BitVec.eq_of_toNat_eq
  rw [BitVec.toNat_add, hsum, pow_add, Nat.mod_mul, Nat.add_mul_mod_self_left, Nat.mod_eq_of_lt (b + y).isLt,
    Nat.add_mul_div_left _ _ hpos, Nat.div_eq_of_lt (b + y).isLt, Nat.zero_add, toNat_append_eq,
    BitVec.toNat_add (a + x), BitVec.toNat_add a, BitVec.toNat_ofNat, Nat.add_mod_mod, Nat.mod_add_mod]

/-- Settles O36: the low words leave their carry in C, which the high words take. -/
theorem twoWordAddition : Obligations.TwoWordAddition := by
  intro s t u x y hs hbit hadd haddc
  obtain ⟨hlow, hcarry, hframe, hcells, hts⟩ := sum_wrapped s.cfg rfl (.add _ _ _ _) rfl hs hadd
  obtain ⟨hhigh, -, hframe', hcells', -⟩ := sum_wrapped s.cfg hframe.cfg (.addc _ _ _ _) rfl hts haddc
  have hk : carryIn true t = if 2 ^ s.cfg.n ≤ (s.regs.word s.cfg x.low).toNat + (s.regs.word s.cfg y.low).toNat
      then 1 else 0 := by
    have := hcarry hbit
    simp only [carryIn, Bool.true_and, this]
    rfl
  rw [hframe.word s.cfg (r := x.high) (by rw [hcells]; cases x <;> decide),
    hframe.word s.cfg (r := y.high) (by rw [hcells]; cases x <;> cases y <;> decide)] at hhigh
  rw [hframe'.word s.cfg (r := x.low) (by rw [hcells']; cases x <;> decide), hlow, hhigh]
  refine (congrArg _ (BitVec.add_zero _)).trans (append_add_append _ _ _ _ _ hk)

/-! ### Comparison (R126, R157, R167) -/

/-- The signed value of a clamped difference: saturated, or off by 2^n when it overflows. -/
theorem toInt_clamp {n : Nat} (sat : Bool) (z : Int) (hn : 0 < n) (hz : -(2 : Int) ^ n < z ∧ z < 2 ^ n) :
    (clamp n sat z).toInt =
      if (2 : Int) ^ (n - 1) ≤ z then (if sat then 2 ^ (n - 1) - 1 else z - 2 ^ n)
      else if z < -(2 : Int) ^ (n - 1) then (if sat then -2 ^ (n - 1) else z + 2 ^ n)
      else z := by
  have hpow := two_pow_eq_two_mul_half hn
  have hpos : (0 : Int) < 2 ^ (n - 1) := by positivity
  have hself : ∀ v : Int, -(2 : Int) ^ (n - 1) ≤ v → v < 2 ^ (n - 1) → (BitVec.ofInt n v).toInt = v :=
    fun v h1 h2 => BitVec.toInt_ofInt_eq_self hn h1 h2
  have hshift : ∀ v : Int, (BitVec.ofInt n v).toInt = (BitVec.ofInt n (v - 2 ^ n)).toInt := by
    intro v
    have := Int.sub_bmod_right v (2 ^ n)
    push_cast at this
    rw [BitVec.toInt_ofInt, BitVec.toInt_ofInt, this]
  by_cases h1 : (2 : Int) ^ (n - 1) ≤ z
  · cases sat
    · rw [clamp_wrapped, hshift, hself _ (by omega) (by omega)]; simp [h1]
    · rw [clamp, if_pos ⟨rfl, by omega⟩, hself _ (by omega) (by omega)]; simp [h1]
  · by_cases h2 : z < -(2 : Int) ^ (n - 1)
    · cases sat
      · have hup := hshift (z + 2 ^ n)
        rw [add_sub_cancel_right] at hup
        rw [clamp_wrapped, ← hup, hself _ (by omega) (by omega)]; simp [h1, h2]
      · rw [clamp, if_neg (by omega), if_pos ⟨rfl, h2⟩, hself _ (by omega) (by omega)]; simp [h1, h2]
    · rw [clamp, if_neg (by omega), if_neg (by omega), hself _ (by omega) (by omega)]; simp [h1, h2]

/-- The sign of a clamped difference, corrected by an overflow that was not saturated, is that of the difference. -/
theorem clamp_less {n : Nat} (sat : Bool) (z : Int) (hn : 0 < n) (hz : -(2 : Int) ^ n < z ∧ z < 2 ^ n) :
    ((clamp n sat z).toInt < 0 ↔ outOfRange n z ∧ sat = false) ↔ ¬z < 0 := by
  have hpow := two_pow_eq_two_mul_half hn
  have hpos : (0 : Int) < 2 ^ (n - 1) := by positivity
  rw [toInt_clamp sat z hn hz, outOfRange]
  cases sat <;> simp only [Bool.false_eq_true, Bool.true_eq_false, if_true, if_false, and_true, and_false] <;>
    split_ifs <;> grind

theorem clamp_eq_zero {n : Nat} (sat : Bool) (z : Int) (hn : 1 < n) (hz : -(2 : Int) ^ n < z ∧ z < 2 ^ n) :
    clamp n sat z = 0 ↔ z = 0 := by
  have hpow := two_pow_eq_two_mul_half (show 0 < n by omega)
  have hhalf := two_pow_eq_two_mul_half (show 0 < n - 1 by omega)
  have hpos : (0 : Int) < 2 ^ (n - 1 - 1) := by positivity
  rw [← BitVec.toInt_inj, toInt_clamp sat z (by omega) hz, show (0 : BitVec n).toInt = 0 by simp]
  cases sat <;> simp only [Bool.false_eq_true, if_true, if_false] <;> split_ifs <;> omega

/-- N corrected by V is the order of the operands when N is the sign of the clamped difference and V its overflow. -/
theorem less_iff {n : Nat} (s : State) (z : Int) (hn : 0 < n) (hz : -(2 : Int) ^ n < z ∧ z < 2 ^ n)
    (hneg : s.flag .n = true ↔ (clamp n (s.flag .s) z).toInt < 0) (hov : s.flag .v = true ↔ outOfRange n z) :
    s.less = true ↔ z < 0 := by
  have hless := clamp_less (s.flag .s) z hn hz
  rw [← hneg, ← hov] at hless
  rw [State.less]
  revert hless
  cases s.flag .n <;> cases s.flag .v <;> cases s.flag .s <;> simp

/-- Settles O37: N, V and Z of the difference of R158, and C as its borrow. -/
theorem comparisonAfterSub : Obligations.ComparisonAfterSub := by
  intro op1 op2 res pm s t h1 h2 hload hn hv hz hc h
  have hframe := wordFrame_of_next rfl h
  obtain ⟨t', ht', a, b, r, z, rfl, rfl, rfl, rfl, -, ⟨hzero, hneg, -⟩, hover, hborrow⟩ :=
    narrowDifferences _ op1 op2 res false s (.sub op1 op2 res pm) h1 h2 (wordReady_of_next rfl h)
  obtain rfl : t' = t := by simpa using ht'.symm.trans h
  have hbits := s.cfg.nRange.1
  have hflag : ∀ {bit : MrBit} {p : Prop}, flagIs (.sub op1 op2 res pm) t' bit p → Config.hasBit s.cfg bit = true →
      (t'.flag bit = true ↔ p) := fun hf hbit => by
    rw [hf hload, hframe.cfg]
    exact and_iff_right hbit
  have hsat : t'.flag .s = s.flag .s := hframe.mode (.inl rfl) hload
  generalize narrowOperand s op1 = a at *
  generalize narrowOperand s op2 = b at *
  have hrange : -(2 : Int) ^ s.cfg.n < a.toInt - b.toInt - carryIn false s ∧
      a.toInt - b.toInt - carryIn false s < 2 ^ s.cfg.n := by
    have ha := And.intro (BitVec.le_two_mul_toInt (x := a)) (BitVec.two_mul_toInt_lt (x := a))
    have hb := And.intro (BitVec.le_two_mul_toInt (x := b)) (BitVec.two_mul_toInt_lt (x := b))
    simp only [carryIn, Bool.false_and, Bool.false_eq_true, if_false]
    omega
  have hless : t'.less = true ↔ a.toInt < b.toInt := by
    rw [less_iff t' _ (by omega) hrange (by rw [hsat]; exact hflag hneg hn) (hflag hover hv)]
    simp [carryIn]
  have heq : t'.flag .z = true ↔ a = b := by
    rw [hflag hzero hz, clamp_eq_zero _ _ (by omega) hrange]
    simp [carryIn, sub_eq_zero, BitVec.toInt_inj]
  have hcs : t'.flag .c = true ↔ a.toNat < b.toNat := hflag hborrow hc
  refine ⟨a, b, rfl, rfl, hless, ?_, ?_, ?_, heq, hcs⟩
  · rw [Cond.holds, Bool.or_eq_true, hless, heq, ← BitVec.toInt_inj]; omega
  · rw [Cond.holds, Bool.not_eq_true', ← Bool.not_eq_true, hless]; omega
  · rw [Cond.holds, Bool.not_eq_true', ← Bool.not_eq_true, Bool.or_eq_true, hless, heq, ← BitVec.toInt_inj]; omega

end Sys2Proof.Machine
end

section
/-! Logic, shifts and the multiplier (O38 to O42): the bits of each result, written by the word of its instruction. -/

namespace Sys2Proof.Machine

/-! ### Logic (R180 to R184) -/

/-- The bitwise operation of a logic form at any width. -/
def bitwise (f : Bool → Bool → Bool) {w : Nat} (a b : BitVec w) : BitVec w :=
  BitVec.ofFnLE fun k : Fin w => f (a.getLsbD k) (b.getLsbD k)

theorem getLsbD_bitwise (f : Bool → Bool → Bool) {w : Nat} (a b : BitVec w) (k : Nat) (hk : k < w) :
    (bitwise f a b).getLsbD k = f (a.getLsbD k) (b.getLsbD k) := by
  simp [bitwise, hk]

theorem eq_bitwise {f : Bool → Bool → Bool} {w : Nat} {a b r : BitVec w}
    (h : ∀ k, k < w → r.getLsbD k = f (a.getLsbD k) (b.getLsbD k)) : r = bitwise f a b :=
  BitVec.eq_of_getLsbD_eq fun k hk => (h k hk).trans (getLsbD_bitwise f a b k hk).symm

theorem and_eq_bitwise {w : Nat} (a b : BitVec w) : a &&& b = bitwise (fun x y => x && y) a b :=
  eq_bitwise fun _ _ => BitVec.getLsbD_and

theorem or_eq_bitwise {w : Nat} (a b : BitVec w) : a ||| b = bitwise (fun x y => x || y) a b :=
  eq_bitwise fun _ _ => BitVec.getLsbD_or

theorem xor_eq_bitwise {w : Nat} (a b : BitVec w) : a ^^^ b = bitwise (fun x y => x ^^ y) a b :=
  eq_bitwise fun _ _ => BitVec.getLsbD_xor

theorem not_eq_bitwise {w : Nat} (a b : BitVec w) : ~~~a = bitwise (fun x _ => !x) a b :=
  eq_bitwise fun k hk => by simp [hk]

/-- The four logic instructions are one word: the bitwise operation at the width of the operands, with V and C 0. -/
theorem exec_logic (i : Instr) (op1 op2 : AOp) (res : AReg) (f : Bool → Bool → Bool) (s : State)
    (h : LogicForm i op1 op2 res f) :
    exec i s = outcome (runWord i s (alu2Fx s op1 op2 res (fun a b => bitsOut narrowExt (bitwise f a b) false)
      (fun a b => bitsOut (wideExt s.cfg) (bitwise f a b) false))) := by
  cases h with
  | and op1 op2 res pm => simp only [← and_eq_bitwise]; rfl
  | or op1 op2 res pm => simp only [← or_eq_bitwise]; rfl
  | xor op1 op2 res pm => simp only [← xor_eq_bitwise]; rfl
  | not _ _ pm =>
    have hone : ∀ n w, alu2Fx s op1 .ones res (fun a _ => n a) (fun a _ => w a) = alu1Fx s op1 res n w :=
      fun n w => by
      simp [alu2Fx, alu1Fx, show AOp.ones.isWide = false from rfl]
    simp only [← not_eq_bitwise, hone]
    rfl

theorem aluCells_logic (i : Instr) (op1 op2 : AOp) (res : AReg) (f : Bool → Bool → Bool)
    (h : LogicForm i op1 op2 res f) : Instr.aluCells i = resultCells (op1.isWide || op2.isWide) res := by
  cases h <;> simp [Instr.aluCells, show AOp.ones.isWide = false from rfl]

/-- Settles O38: the bitwise operation in the word of its instruction, narrow or wide. -/
theorem logicResults : Obligations.LogicResults := by
  intro i op1 op2 res f s hform hready
  have hcells := aluCells_logic i op1 op2 res f hform
  have hfalse : (false = true) ↔ False := by simp
  rw [exec_logic i op1 op2 res f s hform]
  by_cases hw : op1.isWide = true ∨ op2.isWide = true
  · obtain ⟨t, ht, hres, hzne, hv, hc, -⟩ := wide_word i s res.acc _ none hready
      (hcells.trans (resultCells_wide op1 op2 res hw)) (zneOf_bitsOut (wideExt s.cfg)
        (bitwise f (wideOperand s op1) (wideOperand s op2)) false)
    refine ⟨t, ?_, flagIs_congr _ _ _ _ _ hfalse hv, flagIs_congr _ _ _ _ _ hfalse hc, fun h1 h2 => ?_, fun _ =>
      ⟨_, getLsbD_bitwise f _ _, hres, hzne⟩⟩
    · rw [alu2Fx_wide s op1 op2 res _ _ hw]
      exact ht
    · simp [h1, h2] at hw
  · simp only [not_or, Bool.not_eq_true] at hw
    obtain ⟨h1, h2⟩ := hw
    obtain ⟨t, ht, hres, hzne, hv, hc⟩ := narrow_word i s res _ hready
      (hcells.trans (resultCells_narrow op1 op2 res h1 h2)) (zneOf_bitsOut narrowExt
        (bitwise f (narrowOperand s op1) (narrowOperand s op2)) false)
    refine ⟨t, ?_, flagIs_congr _ _ _ _ _ hfalse hv, flagIs_congr _ _ _ _ _ hfalse hc, fun _ _ =>
      ⟨_, getLsbD_bitwise f _ _, hres, hzne⟩, fun hw => ?_⟩
    · rw [alu2Fx_narrow s op1 op2 res _ _ h1 h2, ht]
    · simp [h1, h2] at hw

/-! ### Right shifts (R185 to R187) -/

/-- The three right shifts are one word: the shift with the bit of the form entering at the top. -/
theorem exec_shift (i : Instr) (op : AOp) (res : AReg) (top : Bool → Bool → Bool) (s : State)
    (h : ShiftForm i op res top) :
    exec i s = outcome (runWord i s (alu1Fx s op res
      (fun b => shiftOut s.cfg.n narrowExt (top (s.flag .c) b.msb) b)
      (fun b => shiftOut s.cfg.accWidth (wideExt s.cfg) (top (s.flag .c) b.msb) b))) := by
  cases h <;> rfl

theorem aluCells_shift (i : Instr) (op : AOp) (res : AReg) (top : Bool → Bool → Bool) (h : ShiftForm i op res top) :
    Instr.aluCells i = resultCells op.isWide res := by
  cases h <;> rfl

/-- The bits of a right shift by one. -/
theorem shiftOut_bits {w : Nat} (ext : BitVec w → Bool) (top : Bool) (b : BitVec w) (hw : 0 < w) :
    (∀ k, k + 1 < w → (shiftOut w ext top b).value.getLsbD k = b.getLsbD (k + 1)) ∧
      (shiftOut w ext top b).value.getLsbD (w - 1) = top := by
  have hbits : ∀ k, k < w →
      (shiftOut w ext top b).value.getLsbD k = (b.getLsbD (k + 1) || (top && decide (k = w - 1))) := by
    intro k hk
    cases top
    · simp [shiftOut, bitsOut, Nat.add_comm]
    · simp only [shiftOut, bitsOut, if_true, BitVec.getLsbD_or, BitVec.getLsbD_ushiftRight, BitVec.getLsbD_intMin,
        Nat.add_comm 1, Bool.true_and]
      grind
  refine ⟨fun k hk => ?_, ?_⟩
  · rw [hbits k (by omega), decide_eq_false (by omega), Bool.and_false, Bool.or_false]
  · rw [hbits _ (by omega), BitVec.getLsbD_of_ge b _ (by omega)]; simp

/-- Settles O39: the shift in the word of its instruction, narrow or wide. -/
theorem shiftResults : Obligations.ShiftResults := by
  intro i op res top s hform hready
  have hcells := aluCells_shift i op res top hform
  have hfalse : (false = true) ↔ False := by simp
  rw [exec_shift i op res top s hform]
  cases hw : op.isWide
  · have hpos : 0 < s.cfg.n := by have := s.cfg.nRange.1; omega
    obtain ⟨hlow, htop⟩ := shiftOut_bits narrowExt (top (s.flag .c) (narrowOperand s op).msb) (narrowOperand s op) hpos
    obtain ⟨t, ht, hres, hzne, hv, hc⟩ := narrow_word i s res
      (shiftOut s.cfg.n narrowExt (top (s.flag .c) (narrowOperand s op).msb) (narrowOperand s op)) hready
      (by rw [hcells, hw]) (zneOf_bitsOut _ _ _)
    replace htop := htop.trans (congrArg _ (BitVec.msb_eq_getLsbD_last _))
    refine ⟨t, ?_, flagIs_congr _ _ _ _ _ hfalse hv, fun _ => ⟨_, _, rfl, hlow, htop, hres, hzne, hc⟩, nofun⟩
    rw [alu1Fx_narrow s op res _ _ hw, ht]
  · have hpos : 0 < s.cfg.accWidth := by have := s.cfg.nRange.1; simp only [Config.accWidth]; omega
    obtain ⟨hlow, htop⟩ := shiftOut_bits (wideExt s.cfg) (top (s.flag .c) (wideOperand s op).msb) (wideOperand s op)
      hpos
    obtain ⟨t, ht, hres, hzne, hv, hc, -⟩ := wide_word i s res.acc
      (shiftOut s.cfg.accWidth (wideExt s.cfg) (top (s.flag .c) (wideOperand s op).msb) (wideOperand s op)) none hready
      (by rw [hcells, hw]; rfl) (zneOf_bitsOut _ _ _)
    replace htop := htop.trans (congrArg _ (BitVec.msb_eq_getLsbD_last _))
    refine ⟨t, ?_, flagIs_congr _ _ _ _ _ hfalse hv, nofun, fun _ => ⟨_, _, rfl, hlow, htop, hres, hzne, hc⟩⟩
    rw [alu1Fx_wide s op res _ _ hw]
    exact ht

/-! ### The multiplier (R201 to R205) -/

theorem isProduct_productOf (s : State) (mm : MulMode) (a b : BitVec s.cfg.n) :
    isProduct s mm a b (productOf s mm a b) := by
  have hfactors : factor (MulMode.unsigned1 mm) a * factor (MulMode.unsigned2 mm) b =
      (if mm = .us ∨ mm = .uu then (a.toNat : Int) else a.toInt) *
        (if mm = .su ∨ mm = .uu then (b.toNat : Int) else b.toInt) := by
    cases mm <;> rfl
  have hsat : (mm = .ss && decide (a = BitVec.intMin s.cfg.n) && decide (b = BitVec.intMin s.cfg.n) &&
      s.flag .s) = true ↔
      mm = .ss ∧ a = BitVec.intMin s.cfg.n ∧ b = BitVec.intMin s.cfg.n ∧ s.flag .s = true := by
    simp only [Bool.and_eq_true, decide_eq_true_eq, and_assoc]
  refine ⟨_, _, rfl, rfl, fun hi => ?_, fun hi => ?_⟩ <;> rw [← hfactors, productOf]
  · rw [if_pos hi]
  · simp only [hi, Bool.false_eq_true, if_false, hsat]
    split_ifs <;> rfl

/-- P holds a product whole (R25). -/
theorem setWidth_product (c : Sys2Proof.Config) (p : BitVec c.productWidth) :
    (p.setWidth 128).setWidth c.productWidth = p :=
  setWidth_setWidth_self 128 p (by have := c.nRange.2; simp only [Config.productWidth]; omega)

/-- A ready word whose only ALU or multiplier part is a product. -/
theorem product_word (i : Instr) (s : State) (p : BitVec s.cfg.productWidth) (hready : wordReady i s = true)
    (hcells : Instr.aluCells i = []) :
    ∃ t, outcome (runWord i s (productFx p)) = .next t ∧ t.p = p.setWidth 128 := by
  obtain ⟨x, y, -, -, -, ht⟩ := runWord_ready i s (productFx p) hready (by rw [hcells]; rfl)
  exact ⟨_, (outcome_next _ _).mpr ht, p_applyWord _ _ _ _⟩

theorem isProduct_word (i : Instr) (s : State) (mm : MulMode) (a b : BitVec s.cfg.n)
    (hexec : exec i s = outcome (runWord i s (productFx (productOf s mm a b)))) (hcells : Instr.aluCells i = [])
    (hready : wordReady i s = true) :
    ∃ t, exec i s = .next t ∧ isProduct s mm a b (t.p.setWidth s.cfg.productWidth) := by
  obtain ⟨t, ht, hp⟩ := product_word i s (productOf s mm a b) hready hcells
  refine ⟨t, hexec.trans ht, ?_⟩
  rw [hp, setWidth_product]
  exact isProduct_productOf s mm a b

/-- Settles O40: each multiplication writes the product of R201 and nothing else of the ALU. -/
theorem products : Obligations.Products := fun _ _ _ s =>
  ⟨isProduct_word _ s .ss _ _ rfl rfl, isProduct_word _ s .su _ _ rfl rfl, isProduct_word _ s .us _ _ rfl rfl,
    isProduct_word _ s .uu _ _ rfl rfl⟩

/-- Settles O41: the wide sum or difference with the old P, and the product beside it. -/
theorem multiplyAccumulate : Obligations.MultiplyAccumulate := by
  intro op1 op2 mm x pm s i sum hform hready
  have hproduct := isProduct_productOf s mm (s.regs.word s.cfg op1) (s.regs.word s.cfg op2)
  rw [← setWidth_product s.cfg (productOf s mm _ _)] at hproduct
  rcases hform with ⟨rfl, rfl⟩ | ⟨rfl, rfl⟩
  · obtain ⟨t, ht, hres, hzne, hv, hc, hp⟩ := wide_pipelined (.mac op1 op2 mm x pm) s x _
      (some (productOf s mm (s.regs.word s.cfg op1) (s.regs.word s.cfg op2))) _ _ hready rfl
      (pipelined_wideSum s false (wideOperand s (.acc x)) (wideOperand s .p))
    simp only [carryIn, Bool.false_and, Bool.false_eq_true, if_false, Nat.add_zero, Int.natCast_zero, Int.add_zero]
      at hres hzne hv hc
    exact ⟨t, ht, hp ▸ hproduct, _, _, _, _, rfl, rfl, rfl, rfl, hres, hzne, hv, hc⟩
  · obtain ⟨t, ht, hres, hzne, hv, hc, hp⟩ := wide_pipelined (.msu op1 op2 mm x pm) s x _
      (some (productOf s mm (s.regs.word s.cfg op1) (s.regs.word s.cfg op2))) _ _ hready rfl
      (pipelined_wideDiff s false (wideOperand s (.acc x)) (wideOperand s .p))
    simp only [carryIn, Bool.false_and, Bool.false_eq_true, if_false, Nat.add_zero, Int.natCast_zero, Int.sub_zero]
      at hres hzne hv hc
    exact ⟨t, ht, hp ▸ hproduct, _, _, _, _, rfl, rfl, rfl, rfl, hres, hzne, hv, hc⟩

/-! ### RESP (R129, R206) -/

/-- RESP writes P and nothing else. -/
theorem exec_resp (op1 op2 : AReg) (s : State) (c : Sys2Proof.Config) (hc : s.cfg = c)
    (hwf : (Instr.resp op1 op2).wellFormed c = true) :
    exec (.resp op1 op2) s = .next { s with p := (s.regs.word c op2 ++ s.regs.word c op1).setWidth 128 } := by
  subst hc
  have he : exec (.resp op1 op2) s = outcome (runWord (.resp op1 op2) s
    (productFx (s.regs.word s.cfg op2 ++ s.regs.word s.cfg op1))) := rfl
  rw [he, outcome_next, runWord_ok]
  exact ⟨hwf, MoveFx.none, MoveFx.none, rfl, rfl, rfl, rfl⟩

theorem decodeFields_resp {w : IWord} (h : w.extractLsb' 24 8 = 0b00100010) : decodeFields w = decodeResp w := by
  have hcode : w.extractLsb' 24 4 = 0b0010 := extractLsb'_of_eq h 0 4 (by decide)
  rw [decodeFields_control (extractLsb'_of_eq h 4 4 (by decide)), decodeControl,
    if_neg (loopBits_ne_one hcode (by decide)), hcode]
  rfl

/-- A value of w bits is neither saturated nor wrapped at w bits. -/
theorem clamp_toInt {w : Nat} (sat : Bool) (b : BitVec w) : clamp w sat b.toInt = b := by
  have hlow := BitVec.le_toInt b
  have hhigh := BitVec.toInt_lt (x := b)
  rw [clamp, if_neg (by omega), if_neg (by omega), BitVec.ofInt_toInt]

/-- The registers of an accumulator that holds a sign extended product hold the product. -/
theorem words_of_accum (c : Sys2Proof.Config) (r : ARegs) (x : Acc) (p : BitVec c.productWidth)
    (h : r.accum c x = p.signExtend c.accWidth) : r.word c x.high ++ r.word c x.low = p := by
  apply BitVec.eq_of_getLsbD_eq
  intro k hk
  have hbit := congrArg (fun v : BitVec c.accWidth => v.getLsbD k) h
  simp only [ARegs.accum, BitVec.getLsbD_append, BitVec.getLsbD_signExtend] at hbit ⊢
  simp only [Config.productWidth, Config.accWidth] at *
  grind

/-- Settles O42: RESP writes P alone; ADD NULL,P,An leaves the sign extended P in An, whose words are P again. -/
theorem respRestoresP : Obligations.RespRestoresP := by
  refine ⟨fun op1 op2 s hwf => exec_resp op1 op2 s s.cfg rfl hwf, fun w h => decodeFields_resp h, fun x s t hr h => ?_⟩
  have hframe := wordFrame_of_next rfl h
  have hready := wordReady_of_next rfl h
  obtain ⟨t', ht', a, b, r, z, rfl, rfl, rfl, rfl, hacc, -⟩ :=
    wideSums _ .null .p x.high false s (.add _ _ _ PMove.nop) (.inr rfl) hready
  obtain rfl : t' = t := by simpa using ht'.symm.trans h
  have hsum : (wideOperand s .null).toInt + (wideOperand s .p).toInt + carryIn false s =
      (s.product.signExtend s.cfg.accWidth).toInt := by
    simp [wideOperand, carryIn]
  rw [hsum, wideRound, if_neg (by simp [hr]), clamp_toInt, Acc.high_acc] at hacc
  have hwf : (Instr.resp x.low x.high).wellFormed s.cfg = true := by
    simp only [wordReady, Bool.and_eq_true, Instr.wellFormed, wellFormedAlu2, AReg.legalResult, AReg.available,
      Acc.high_acc] at hready
    simp [Instr.wellFormed, AReg.available, hready]
  exact ⟨_, exec_resp _ _ t' s.cfg hframe.cfg hwf, congrArg (BitVec.setWidth 128) (words_of_accum _ _ _ _ hacc)⟩

end Sys2Proof.Machine
end

section
/-! Control (O43 to O49, O55): each change of flow has one exact next state, and one order of its checks. -/

namespace Sys2Proof.Machine

/-! ### Next states -/

/-- Clearing L, whatever else changes beside MR0. -/
theorem clearsL_of_mr0 {s t : State} (hm : t.mr0 = s.clearLoopFlag.mr0) (hc : t.cfg = s.cfg) : clearsL s t := by
  intro b
  rw [flag_congr s.clearLoopFlag t b hm hc, flag_clearLoopFlag]
  by_cases hb : b = .l <;> simp [hb]

/-- The bits of a register on a bus (R225). -/
theorem getLsbD_onBus (s : State) (bus : Space) {w : Nat} (v : Word) (hw : w ≤ s.cfg.n) {k : Nat} (hk : k < w) :
    (onBus s bus w v).getLsbD k = v.getLsbD k := by
  have hn := s.cfg.nRange.2
  have hbit := congrArg (fun u : Word => u.getLsbD k) (trunc_onBus s bus w v 64 hw)
  simpa only [getLsbD_trunc, decide_eq_true hk, decide_eq_true (show k < 64 by omega), Bool.true_and] using hbit

/-- The low bits of the page an index register names are the register's (R225, R293). -/
theorem trunc_pageOf (s : State) (ix : IReg) :
    (trunc s.cfg.da (pageOf s ix) : PAddr) = trunc s.cfg.pa (s.index ix) := by
  apply BitVec.eq_of_getLsbD_eq
  intro k hk
  have hbus := getLsbD_onBus s .x (s.regValue (.ireg ix)) s.cfg.daRange.2.2 (k := k)
  simp only [getLsbD_trunc, pageOf, State.index, BitVec.getLsbD_setWidth]
  by_cases hda : k < s.cfg.da
  · rw [hbus hda]
    simp [State.regValue, hda, hk, show k < 64 by omega]
  · simp [hda]

/-- The low bits of a register that comes over bus X into pa bits (R225, R226). -/
theorem getLsbD_trunc_onBus (s : State) (f : FReg) (k : Nat) (hk : k < FReg.width s.cfg f) :
    (trunc s.cfg.pa (onBus s .x (FReg.width s.cfg f) (s.regValue f)) : PAddr).getLsbD k =
      (trunc s.cfg.pa (s.regValue f) : PAddr).getLsbD k := by
  rw [getLsbD_trunc, getLsbD_trunc, getLsbD_onBus s .x _ (FReg.width_le _ _) hk]

/-- Settles O43: J is Jcc with the condition always. -/
theorem jumps : Obligations.Jumps := fun addr s =>
  ⟨fun cond hready => ⟨_, (exec_jcc cond addr s _).mpr ⟨hready, rfl⟩, clearsL_of_mr0 rfl rfl, rfl⟩,
    fun hready => ⟨_, (exec_j addr s _).mpr ⟨hready, rfl⟩, clearsL_of_mr0 rfl rfl, rfl⟩⟩

/-- Settles O44: LR0 takes PC beside the jump, taken or not. -/
theorem calls : Obligations.Calls := fun cond addr s hready =>
  ⟨_, (exec_callcc cond addr s _).mpr ⟨hready, rfl⟩, clearsL_of_mr0 rfl rfl, rfl⟩

/-- Settles O45: the page of the (Op1) form is the one the index register brings on bus X. -/
theorem registerJumps : Obligations.RegisterJumps := fun s =>
  ⟨fun cond hready => ⟨_, (exec_jrcc cond s _).mpr ⟨hready, rfl⟩, clearsL_of_mr0 rfl rfl, rfl⟩,
    fun hready => ⟨_, (exec_jr s _).mpr ⟨hready, rfl⟩, clearsL_of_mr0 rfl rfl, rfl⟩,
    fun cond ix hready => ⟨_, pageOf s ix, (exec_jrccPage cond ix s _).mpr ⟨hready, rfl⟩, clearsL_of_mr0 rfl rfl,
      fits_trunc _ _, trunc_pageOf s ix, rfl⟩⟩

/-- Settles O46: RETI is a jump to LR1, with the page of the register form. -/
theorem interruptReturns : Obligations.InterruptReturns := fun s =>
  ⟨fun hready => ⟨_, (exec_reti s _).mpr ⟨hready, rfl⟩, clearsL_of_mr0 rfl rfl, rfl⟩,
    fun ix hready => ⟨_, (exec_retiPage ix s _).mpr ⟨hready, rfl⟩, clearsL_of_mr0 rfl rfl, fits_trunc _ _,
      trunc_pageOf s ix, rfl⟩⟩

/-- Settles O47: the index register named is put back stepped, every other as it was. -/
theorem vectorTableJump : Obligations.VectorTableJump := fun addr st ix s hic =>
  ⟨_, (exec_jmpi addr st ix s _).mpr ⟨hic, rfl⟩, fun r => (IRegs.get_put s.idx ix r _).trans (by cases st <;> rfl), rfl⟩

/-- Settles O48: the count comes over bus X, whose low bits are the register's. -/
theorem loopStarts : Obligations.LoopStarts := by
  intro count addr s hready hsource
  refine ⟨_, (exec_loop count addr s _).mpr ⟨hready, _, readReg_of_ready .x count s hsource, rfl⟩,
    clearsL_of_mr0 rfl rfl, rfl, fits_trunc _ _, ?_, fun hwide => ?_⟩
  · apply BitVec.eq_of_getLsbD_eq
    intro k hk
    rw [getLsbD_trunc]
    by_cases hw : k < FReg.width s.cfg count
    · rw [getLsbD_trunc_onBus s count k hw]
      simp [-BitVec.getLsbD_eq_getElem, hw, hk, show k < 64 by omega]
    · simp [hw]
  · apply BitVec.eq_of_getLsbD_eq
    intro k hk
    by_cases hpa : k < s.cfg.pa
    · exact getLsbD_trunc_onBus s count k (by omega)
    · simp [hpa]

/-- Settles O49: exec of HALT has one answer in every state. -/
theorem haltStops : Obligations.HaltStops := fun s => (exec_halt s _).mpr rfl

/-! ### Refusals -/

theorem changeFlow_condHazard (i : Instr) (c : Cond) (s t : State) (hwf : i.wellFormed s.cfg = true)
    (hc : Cond.ready c s = false) : changeFlow i c s t = .error .condHazard := by
  rw [changeFlow, hwf, hc]; rfl

theorem changeFlow_cofDelay (i : Instr) (c : Cond) (s t : State) (hwf : i.wellFormed s.cfg = true)
    (hc : Cond.ready c s = true) (hflow : slotIsFlow s.cfg s.de = true) :
    changeFlow i c s t = .error .cofDelay := by
  rw [changeFlow, hwf, hc, hflow]; rfl

theorem ready_always (s : State) : Cond.ready .always s = true :=
  decide_eq_true BitVec.zero_and

/-- Settles O55: every change of flow checks the condition's flags first and the delay slot then. -/
theorem flowRefused : Obligations.FlowRefused := by
  intro cond addr end_ count st ix s
  have always := ready_always s
  refine ⟨fun hc => ?hazard, fun hflow => ?delay, always, fun hic => ?jmpi⟩
  case hazard =>
    have refused := fun i t hwf => (outcome_refused _ _).mpr (changeFlow_condHazard i cond s t hwf hc)
    exact ⟨refused (.jcc cond addr) _ rfl, refused (.callcc cond addr) _ rfl, refused (.jrcc cond) _ rfl,
      refused (.jrccPage cond ix) _⟩
  case delay =>
    have refused := fun i c t hwf hc => (outcome_refused _ _).mpr (changeFlow_cofDelay i c s t hwf hc hflow)
    refine ⟨refused (.j addr) _ _ rfl always, refused .jr _ _ rfl always, refused .reti _ _ rfl always,
      fun hwf => refused (.retiPage ix) _ _ hwf always, fun hc => ⟨refused (.jcc cond addr) _ _ rfl hc,
      refused (.callcc cond addr) _ _ rfl hc, refused (.jrcc cond) _ _ rfl hc,
      fun hwf => refused (.jrccPage cond ix) _ _ hwf hc⟩, fun hwf hsource => ?_⟩
    have he : exec (.loop count end_) s = execLoop count end_ s := rfl
    rw [he, execLoop, hwf, readReg_of_ready .x count s hsource]
    exact refused (.loop count end_) _ _ hwf always
  case jmpi =>
    have he : exec (.jmpi addr st ix) s = execJmpi addr st ix s := rfl
    rw [he, execJmpi, outcome_refused, require_error]
    exact .inr ⟨rfl, (require_error _ _ _ _).mpr (.inl ⟨by simp [hic], rfl⟩)⟩

end Sys2Proof.Machine
end

section
/-! Moves and address generation (O25 to O29, O53, O54, O56, O60): what each bus does when its move is ready, and what
stops it. -/

namespace Sys2Proof.Machine

/-! ### Registers on a bus, LDC, address generation -/

/-- Settles O60: a register on a bus is its low bits, whatever is drawn above them. -/
theorem registersOnTheBus : Obligations.RegistersOnTheBus := fun bus f s hready =>
  ⟨_, readReg_of_ready bus f s hready, fits_onBus s bus _ _, trunc_onBus s bus _ _ 64 (FReg.width_le s.cfg f),
    fun hw => by rw [hw, onBus_full]⟩

/-- Settles O26: LDC is a register write; NULL and the NOP register take none. -/
theorem ldcLoads : Obligations.LdcLoads := fun imm reg s hlegal hready =>
  ⟨_, (exec_ldc imm reg s _).mpr ⟨hlegal, hready, rfl⟩, loaded_writeReg _ _ _, by rintro (rfl | rfl) <;> rfl⟩

/-- Settles O53: mode 110 is the addition of the reversals, reversed. -/
theorem postModifyReversed : Obligations.PostModifyReversed := by
  rintro s ix i ib hamm rfl rfl hmode
  refine ⟨_, ?_, BitVec.reverse_reverse_eq⟩
  rw [postOf_byPair]
  simp only [pairPost, hmode, hamm]
  rfl

/-! ### Words that are ready -/

/-- Settles O25: a ready word runs, and what it writes is told bus by bus. -/
theorem wordMoves : Obligations.WordMoves := by
  intro i s hword hready
  obtain ⟨a, x, y, -, hx, hy, hn, he⟩ := exec_word_ready i s hword hready
  exact ⟨_, he, busDone_x i a s x y hx hy hn, busDone_y i a s x y hx hy hn⟩

/-- A ready double register move whose halves are between different units: each half does its move. -/
theorem runWord_register_moves (i : Instr) (s : State) (hready : wordReady i s = true)
    (hcells : Instr.aluCells i = []) :
    ∃ t, runWord i s AluFx.none = .ok t ∧ busDone .x i (Instr.moves i).x s t ∧ busDone .y i (Instr.moves i).y s t := by
  obtain ⟨x, y, hx, hy, hn, ht⟩ := runWord_ready i s AluFx.none hready (by rw [hcells]; rfl)
  exact ⟨_, ht, busDone_x i _ s x y hx hy hn, busDone_y i _ s x y hx hy hn⟩

theorem wellFormed_of_wordReady {i : Instr} {s : State} (h : wordReady i s = true) : i.wellFormed s.cfg = true := by
  simp only [wordReady, Bool.and_eq_true] at h
  exact h.1.1.1

/-- Settles O27: each half by its bus; the units are checked after the form and before anything else. -/
theorem doubleRegisterMoves : Obligations.DoubleRegisterMoves := by
  intro xsrc xdst ysrc ydst s
  refine ⟨fun hready => ⟨fun hx hy => ?both, fun hunits => ?unit⟩, fun hready => ⟨fun hy => ?one, fun hy => ?unitY⟩⟩
  case both =>
    obtain ⟨t, ht, ⟨v, hv, hload⟩, w, hw, hload'⟩ := runWord_register_moves _ s hready rfl
    exact ⟨t, v, w, (exec_mvxDbl ..).mpr ⟨hx, hy, ht⟩, hv, hload, hw, hload'⟩
  case unit =>
    have he : exec (.mvxDbl xsrc xdst ysrc ydst) s = execMvxDbl xsrc xdst ysrc ydst s := rfl
    have hfalse : (unitsDiffer xsrc xdst && unitsDiffer ysrc ydst) = false := by
      rw [Bool.and_eq_false_iff]; exact hunits
    rw [he, execMvxDbl, hfalse, runBetweenUnits_unit _ s (wellFormed_of_wordReady hready)]
    rfl
  case one =>
    obtain ⟨t, ht, -, w, hw, hload⟩ := runWord_register_moves _ s hready rfl
    exact ⟨t, w, (exec_mvyDbl ..).mpr ⟨hy, ht⟩, hw, hload⟩
  case unitY =>
    have he : exec (.mvyDbl ysrc ydst) s = execMvyDbl ysrc ydst s := rfl
    rw [he, execMvyDbl, hy, runBetweenUnits_unit _ s (wellFormed_of_wordReady hready)]
    rfl

/-! ### NOPs (R77, R135, R188, R247) -/

/-- A word whose parts have no effect. -/
theorem outcome_runWord_none (i : Instr) (s : State) (hwf : i.wellFormed s.cfg = true)
    (hx : moveFx .x (Instr.moves i).x s = .ok MoveFx.none) (hy : moveFx .y (Instr.moves i).y s = .ok MoveFx.none) :
    outcome (runWord i s AluFx.none) = .next s :=
  (outcome_next _ _).mpr ((runWord_ok _ _ _ _).mpr ⟨hwf, _, _, hx, hy, rfl, rfl⟩)

theorem moveFx_nopAt (bus : Space) (ix : IReg) (post : Post) (s : State) :
    moveFx bus (.mem (FullMove.nopAt ix post)) s =
      andThen (nopAccess bus (s.idx.get ix) s) fun _ => .ok MoveFx.none := rfl

/-- What the one move of a word beside an idle bus stops with is what the word stops with. -/
theorem outcome_runWord_refused (i : Instr) (s : State) (a : AluFx s.cfg) (bus : Space) (b : BusMove) (e : Refusal)
    (hwf : i.wellFormed s.cfg = true) (hm : Instr.moves i = Moves.on bus b) (hb : moveFx bus b s = .error e) :
    outcome (runWord i s a) = .refused e := by
  rw [outcome_refused, runWord, hwf, hm]
  cases bus
  · simp only [require, runParts, Moves.on, hb]; rfl
  · simp only [require, runParts, Moves.on, hb]; rfl

/-- A word of one move, and that one a move NOP. -/
theorem outcome_runWord_nop (i : Instr) (s : State) (bus : Space) (ix : IReg) (post : Post)
    (hwf : i.wellFormed s.cfg = true) (hm : Instr.moves i = Moves.on bus (.mem (FullMove.nopAt ix post))) :
    (Config.cell s.cfg bus (s.idx.get ix) ≠ .device true → outcome (runWord i s AluFx.none) = .next s) ∧
      (Config.cell s.cfg bus (s.idx.get ix) = .device true →
        outcome (runWord i s AluFx.none) = .refused .nullRead) := by
  refine ⟨fun hcell => ?_, fun hcell => outcome_runWord_refused i s _ bus _ _ hwf hm ?_⟩
  · have hnop : moveFx bus (.mem (FullMove.nopAt ix post)) s = .ok MoveFx.none := by
      rw [moveFx_nopAt, (nopAccess_ready _ _ _).mp hcell]; rfl
    refine outcome_runWord_none i s hwf ?_ ?_ <;> rw [hm] <;> cases bus
    · exact hnop
    · rfl
    · rfl
    · exact hnop
  · rw [moveFx_nopAt, nopAccess, hcell]; rfl

/-- Settles O28: every NOP is a word without effect, unless its move NOP meets a device with a side effect. -/
theorem nopsDoNothing : Obligations.NopsDoNothing := by
  intro s
  obtain ⟨hpar, hparRefused⟩ := outcome_runWord_nop .nopPar s .x .i0 (.step 0) rfl rfl
  refine ⟨fun imm => outcome_runWord_none (.nop imm) s rfl rfl rfl, hpar, hparRefused, fun bus ix post hpost => ?_⟩
  refine outcome_runWord_nop (.nopAlu (.full bus (FullMove.nopAt ix post))) s bus ix post ?_ rfl
  simp [Instr.wellFormed, PMove.wellFormed, FullMove.wellFormed, FullMove.nopAt, hpost, FReg.legalTarget,
    FReg.available, FReg.isPage]

/-! ### A store and the load behind it (R71, R81) -/

theorem loneLoad_moves (bus : Space) (ix : IReg) (post : Post) (dst : FReg) :
    Instr.moves (loneLoad bus ix post dst) = Moves.on bus (.mem ⟨.load, ix, post, dst⟩) := by cases bus <;> rfl

theorem loneStore_moves (bus : Space) (ix : IReg) (post : Post) (src : FReg) :
    Instr.moves (loneStore bus ix post src) = Moves.on bus (.mem ⟨.store, ix, post, src⟩) := by cases bus <;> rfl

theorem loneLoad_isWord (bus : Space) (ix : IReg) (post : Post) (dst : FReg) :
    Instr.isWord (loneLoad bus ix post dst) = true := by cases bus <;> rfl

theorem loneStore_isWord (bus : Space) (ix : IReg) (post : Post) (src : FReg) :
    Instr.isWord (loneStore bus ix post src) = true := by cases bus <;> rfl

/-- A word of one move that has run has done its move. -/
theorem busDone_of_next {i : Instr} {s t : State} {bus : Space} {b : BusMove} (hword : Instr.isWord i = true)
    (hm : Instr.moves i = Moves.on bus b) (h : exec i s = .next t) : busDone bus i b s t := by
  obtain ⟨t', ht', hx, hy⟩ := wordMoves i s hword (wordReady_of_next hword h)
  obtain rfl : t' = t := by simpa using ht'.symm.trans h
  rw [hm] at hx hy
  cases bus
  · exact hx
  · exact hy

/-- A store without modification writes no register. -/
theorem loneStore_targets (bus : Space) (ix : IReg) (src : FReg) :
    Instr.targets (loneStore bus ix (.step 0) src) = [] := by cases bus <;> rfl

/-- What a store to a storage cell leaves there is what a load of that cell brings back, on either bus. -/
theorem store_then_load (bus : Space) (s t u : State) (ix : IReg) (r q : AReg) (hwf : (s.mem bus).wf = true)
    (hcell : Config.cell s.cfg bus (s.idx.get ix) = .storage)
    (hstore : exec (loneStore bus ix (.step 0) (.areg r)) s = .next t)
    (hload : exec (loneLoad bus ix (.step 0) (.areg q)) t = .next u) :
    u.regs.word s.cfg q = s.regs.word s.cfg r := by
  have hframe := wordFrame_of_next (loneStore_isWord _ _ _ _) hstore
  have hindex : t.idx.get ix = s.idx.get ix :=
    index_of_regValue s t ix (hframe.regs _ (by simp) (by rw [loneStore_targets]; exact List.not_mem_nil))
  obtain ⟨-, v, -, -, hv, hword⟩ := busDone_of_next (loneStore_isWord _ _ _ _) (loneStore_moves _ _ _ _) hstore
  have hmem := hword hcell hwf
  rcases busDone_of_next (loneLoad_isWord _ _ _ _) (loneLoad_moves _ _ _ _) hload with
    hnop | ⟨-, -, -, hnull | ⟨w, hw, hloaded⟩⟩
  · cases hnop
  · cases hnull
  · have hstored : w = trunc s.cfg.n ((t.mem bus).word (s.idx.get ix)) := by
      rw [hindex, loadData, hframe.cfg] at hw
      simpa only [hcell, Except.ok.injEq, eq_comm (b := w)] using hw
    have hsource : v = onBus s bus s.cfg.n (s.regValue (.areg r)) := ((readReg_ok bus (.areg r) s v).mp hv).2
    rw [hframe.cfg] at hloaded
    have hvalue : u.regs.get q = trunc s.cfg.n w := hloaded.1
    rw [ARegs.word, hvalue, hstored, hmem, hsource, onBus_full, trunc_of_fits _ _ (fits_trunc _ _),
      trunc_of_fits _ _ (fits_trunc _ _), setWidth_trunc _ _ _ s.cfg.nRange.2]
    rfl

/-- Settles O29: by either bus. -/
theorem storeThenLoad : Obligations.StoreThenLoad := fun s t u ix r q hx hy =>
  ⟨store_then_load .x s t u ix r q hx, store_then_load .y s t u ix r q hy⟩

/-! ### Double writes (R223, R245) -/

/-- A word whose parts are each allowed but write a register twice. -/
theorem runWord_doubleWrite (i : Instr) (s : State) (a : AluFx s.cfg) (ha : AluWrite.cells a.result = Instr.aluCells i)
    (hwf : i.wellFormed s.cfg = true) (hx : busReady .x (Instr.moves i).x s = true)
    (hy : busReady .y (Instr.moves i).y s = true) (htwice : ¬ (Instr.targets i).Nodup) :
    runWord i s a = .error .doubleWrite := by
  obtain ⟨x, hx⟩ := (moveFx_ready _ _ _).mp hx
  obtain ⟨y, hy⟩ := (moveFx_ready _ _ _).mp hy
  have hcollision : noCollision a x y = false := by
    rw [← Bool.not_eq_true, noCollision_targets i a s x y hx hy ha]; exact htwice
  rw [runWord, hwf, runParts, hx, hy]
  simp only [require, andThen, hcollision]
  rfl

/-- A legal target other than NULL and the NOP register is a register that is written. -/
theorem cells_ne_nil {c : Sys2Proof.Config} {f : FReg} (hlegal : f.legalTarget c = true) (hnull : f ≠ .null)
    (hnop : f ≠ .nop) : FReg.cells f ≠ [] := by
  cases f with
  | areg r => cases r <;> simp [FReg.cells, AReg.isHigh]
  | null => exact absurd rfl hnull
  | nop => exact absurd rfl hnop
  | ipr0 => simp [FReg.legalTarget, FReg.isPage] at hlegal
  | ipr1 => simp [FReg.legalTarget, FReg.isPage] at hlegal
  | _ => simp [FReg.cells]

/-- Settles O54: the collision check is about the registers the instruction names. -/
theorem doubleWriteRefused : Obligations.DoubleWriteRefused := by
  refine ⟨fun i s hword hwf hx hy htwice => ?word,
    fun xsrc xdst ysrc ydst s hwf hux huy hsx hsy htx hty hsame => ?double⟩
  case word =>
    obtain ⟨a, he, ha⟩ := exec_word i s hword
    rw [he, runWord_doubleWrite i s a ha.cells hwf hx hy htwice]
    rfl
  case double =>
    have he : exec (.mvxDbl xsrc xdst ysrc ydst) s = execMvxDbl xsrc xdst ysrc ydst s := rfl
    have hrun : runBetweenUnits true (.mvxDbl xsrc xdst ysrc ydst) s =
      runWord (.mvxDbl xsrc xdst ysrc ydst) s AluFx.none := rfl
    have hlegal : xdst.legalTarget s.cfg = true := by
      simp only [Instr.wellFormed, Bool.and_eq_true] at hwf
      exact hwf.1.1.2
    have htwice : ¬ (FReg.cells xdst ++ FReg.cells ydst).Nodup := by
      rcases hsame with ⟨rfl, hnull, hnop⟩ | ⟨x, ⟨rfl, rfl⟩ | ⟨rfl, rfl⟩⟩
      · obtain ⟨g, hg⟩ := List.exists_mem_of_ne_nil _ (cells_ne_nil hlegal hnull hnop)
        exact fun h => (List.nodup_append.mp h).2.2 g hg g hg rfl
      · simp [FReg.cells]
      · simp [FReg.cells]
    rw [he, execMvxDbl, hux, huy, Bool.and_self, hrun, runWord_doubleWrite _ s AluFx.none rfl hwf
      (by simp [Instr.moves, busReady, hsx, htx]) (by simp [Instr.moves, busReady, hsy, hty]) htwice]
    rfl

/-! ### Where a lone move stops (R71, R77, R84, R227, R232, R234, R342) -/

/-- What a lone load stops with. -/
theorem loneLoad_refused (bus : Space) (ix : IReg) (post : Post) (dst : FReg) (s : State) (e : Refusal)
    (hpost : post.wellFormed = true) (hlegal : dst.legalTarget s.cfg = true)
    (h : loadFx bus ⟨.load, ix, post, dst⟩ s = .error e) : exec (loneLoad bus ix post dst) s = .refused e := by
  have hwf : (loneLoad bus ix post dst).wellFormed s.cfg = true := by
    cases bus <;> simp [loneLoad, Instr.wellFormed, FullMove.wellFormed, hpost, hlegal]
  obtain ⟨a, he, -⟩ := exec_word _ s (loneLoad_isWord bus ix post dst)
  rw [he]
  exact outcome_runWord_refused _ s a bus _ e hwf (loneLoad_moves bus ix post dst) h

/-- What a lone store stops with. -/
theorem loneStore_refused (bus : Space) (ix : IReg) (post : Post) (src : FReg) (s : State) (e : Refusal)
    (hpost : post.wellFormed = true) (hlegal : src.legalSource s.cfg bus = true)
    (h : storeFx bus ⟨.store, ix, post, src⟩ s = .error e) : exec (loneStore bus ix post src) s = .refused e := by
  have hwf : (loneStore bus ix post src).wellFormed s.cfg = true := by
    cases bus <;> simp [loneStore, Instr.wellFormed, FullMove.wellFormed, hpost, hlegal]
  obtain ⟨a, he, -⟩ := exec_word _ s (loneStore_isWord bus ix post src)
  rw [he]
  exact outcome_runWord_refused _ s a bus _ e hwf (loneStore_moves bus ix post src) h

theorem readReg_areg (bus : Space) (r : AReg) (s : State) :
    readReg bus (.areg r) s = .ok (onBus s bus s.cfg.n (s.regValue (.areg r))) :=
  readReg_of_ready bus (.areg r) s (by simp [sourceReady])

/-- A post-modification without a meaning stops a load and a store of an arithmetic register (R232, R234). -/
theorem lone_post_refused (bus : Space) (ix : IReg) (post : Post) (r : AReg) (s : State) (e : Refusal)
    (hr : r.available s.cfg = true) (hpost : post.wellFormed = true) (h : postOf s ix post = .error e) :
    exec (loneLoad bus ix post (.areg r)) s = .refused e ∧ exec (loneStore bus ix post (.areg r)) s = .refused e := by
  constructor
  · refine loneLoad_refused bus ix post _ s e hpost (by simp [FReg.legalTarget, FReg.available, FReg.isPage, hr]) ?_
    simp [loadFx, h, andThen]
  · refine loneStore_refused bus ix post _ s e hpost
      (by simp [FReg.legalSource, FReg.available, FReg.isPage, hr]) ?_
    simp [storeFx, readReg_areg, h, andThen]

theorem pairPost_reserved (c : Sys2Proof.Config) {aw : Nat} (i ib : BitVec aw)
    (h : ib.extractLsb' (aw - 3) 3 = 0b001 ∨
      (2 ≤ (ib.extractLsb' (aw - 3) 3).toNat ∧ (ib.extractLsb' (aw - 3) 3).toNat ≤ 5 ∧ c.amm.getLsbD 0 = false) ∨
      (ib.extractLsb' (aw - 3) 3 = 0b110 ∧ c.amm.getLsbD 1 = false)) :
    pairPost c i ib = .error .reservedMode := by
  rcases h with h | ⟨h2, h5, hamm⟩ | ⟨h, hamm⟩
  · simp [pairPost, h]
  · rw [pairPost]
    generalize (ib.extractLsb' (aw - 3) 3).toNat = mode at h2 h5
    obtain rfl | rfl | rfl | rfl : mode = 2 ∨ mode = 3 ∨ mode = 4 ∨ mode = 5 := by omega
    all_goals simp only [hamm]; rfl
  · simp only [pairPost, h, hamm]; rfl

theorem pairPost_modM1 (c : Sys2Proof.Config) {aw : Nat} (i ib : BitVec aw)
    (h2 : 2 ≤ (ib.extractLsb' (aw - 3) 3).toNat) (h5 : (ib.extractLsb' (aw - 3) 3).toNat ≤ 5)
    (hamm : c.amm.getLsbD 0 = true) (hzero : ib.extractLsb' 0 (aw - 3) = 0) :
    pairPost c i ib = .error .modM1 := by
  have hlen : (ib.extractLsb' 0 (aw - 3)).toNat = 0 := by rw [hzero]; rfl
  rw [pairPost]
  generalize (ib.extractLsb' (aw - 3) 3).toNat = mode at h2 h5
  obtain rfl | rfl | rfl | rfl : mode = 2 ∨ mode = 3 ∨ mode = 4 ∨ mode = 5 := by omega
  all_goals simp only [require, hamm, if_true, moduloPost_zero i ib _ hlen]

/-- An immediate post-modification always has a meaning (R231). -/
theorem postOf_step_ok (s : State) (ix : IReg) (k : BitVec 4) : ∃ p, postOf s ix (.step k) = .ok p := ⟨_, rfl⟩

/-- Settles O56: each stop is the first thing its move asks that has no answer. -/
theorem movesStop : Obligations.MovesStop := by
  rintro bus ix r k s cell mode hr hk rfl rfl
  have hpost : (Post.step k).wellFormed = true := decide_eq_true hk
  obtain ⟨p, hp⟩ := postOf_step_ok s ix k
  have hload : FReg.legalTarget s.cfg (.areg r) = true := by simp [FReg.legalTarget, FReg.available, FReg.isPage, hr]
  have hstore : FReg.legalSource s.cfg bus (.areg r) = true := by
    simp [FReg.legalSource, FReg.available, FReg.isPage, hr]
  refine ⟨fun hcell => ⟨?absentLoad, ?absentNull, ?absentStore⟩, fun hcell => ?shadow, fun hcell => ⟨?null, ?nop⟩,
    fun _ => ⟨?nullStore, ?nopStore⟩, fun _ hmode => ?reserved, fun _ h2 h5 hamm hzero => ?modM1, fun hic => ?early⟩
  case absentLoad =>
    refine loneLoad_refused bus ix _ _ s _ hpost hload ?_
    simp [loadFx, hp, andThen, checkWrite, require, loadData, hcell]
  case absentNull =>
    refine loneLoad_refused bus ix _ _ s _ hpost rfl ?_
    simp [loadFx, hp, andThen, discardData, hcell]
  case absentStore =>
    refine loneStore_refused bus ix _ _ s _ hpost hstore ?_
    simp [storeFx, readReg_areg, hp, andThen, checkStore, hcell]
  case shadow =>
    refine loneStore_refused bus ix _ _ s _ hpost hstore ?_
    simp [storeFx, readReg_areg, hp, andThen, checkStore, hcell]
  case null =>
    refine loneLoad_refused bus ix _ _ s _ hpost rfl ?_
    simp [loadFx, hp, andThen, discardData, require, hcell]
  case nop => exact ((nopsDoNothing s).2.2.2 bus ix (.step k) hpost).2 hcell
  case nullStore =>
    refine loneStore_refused bus ix _ _ s _ hpost (by simp [FReg.legalSource, FReg.available, FReg.isPage]) ?_
    simp [storeFx, readReg, require, andThen]
  case nopStore =>
    refine loneStore_refused bus ix _ _ s _ hpost (by simp [FReg.legalSource, FReg.available, FReg.isPage]) ?_
    simp [storeFx, readReg, require, andThen]
  case reserved => exact lone_post_refused bus ix .byPair r s _ hr rfl (pairPost_reserved s.cfg _ _ hmode)
  case modM1 => exact lone_post_refused bus ix .byPair r s _ hr rfl (pairPost_modM1 s.cfg _ _ h2 h5 hamm hzero)
  case early =>
    have hread : ∀ b, readReg b .mr1 s = .error .mr1Early := fun b => by simp [readReg, require, hic]
    have hwrite : checkWrite .mr1 s = .error .doubleWrite := by simp [checkWrite, require, hic]
    refine ⟨fun _ => ⟨loneStore_refused bus ix _ _ s _ hpost ?_ ?_, loneLoad_refused bus ix _ _ s _ hpost rfl ?_⟩,
      fun imm => ?_, ?_, ?_⟩
    · simp [FReg.legalSource, FReg.available, FReg.isPage]
    · simp [storeFx, hread, andThen]
    · simp [loadFx, hp, hwrite, andThen]
    · have he : exec (.ldc imm .mr1) s = execLdc imm .mr1 s := rfl
      rw [he, execLdc, hwrite]
      rfl
    · exact outcome_runWord_refused (.mvxPar .mr1 (.areg r)) s AluFx.none .x _ _ hload
        (by rfl) (by simp [moveFx, regMoveFx, hread, andThen])
    · refine outcome_runWord_refused (.mvxPar (.areg r) .mr1) s AluFx.none .x _ _ ?_ (by rfl)
        (by simp [moveFx, regMoveFx, readReg_areg, hwrite, andThen])
      simp [Instr.wellFormed, FReg.legalSource, FReg.legalTarget, FReg.available, FReg.isPage, hr]

end Sys2Proof.Machine
end

section
/-! The cycle (O10 to O18): a cycle is the state in which the slots have moved on (`roundState`, or `linearState` in
interrupt cycle 2), on which the interrupt controller acts. -/

namespace Sys2Proof.Machine

/-! ### Running, idle and halted cycles -/

/-- The end of a cycle whose controller leaves `v`. -/
theorem advanced_andThen_ok (r : Except Refusal State) (v : State) (flags : PAddr) (h : r = .ok v) :
    outcome (advanced (andThen r fun v => .ok { v with prevFlags := flags })) =
      .next { v with prevFlags := flags, inputs := v.inputs.tail, tick := v.tick + 1 } := by
  rw [h]; rfl

/-- Settles O10: a running cycle is the rest of the cycle after exec; no kind of cycle faults. -/
theorem stepRunsDecoded : Obligations.StepRunsDecoded := by
  refine ⟨fun s d i hg hr hh hex hc hd => ?_, fun s f => ?_⟩
  · have hslot : slotContent s.cfg s.ex = .run i := by simp [slotContent, hex, hc, hd]
    refine ⟨fun t ht => step_ran s t _ ⟨hg, hr, hh, .inr ⟨i, hslot, ht, rfl⟩⟩, fun r hrefused => ?_⟩
    simp [step_supported s hg, cycle, hr, hh, runningCycle, hslot, hrefused, afterExec, advanced, outcome]
  · cases f

/-- Settles O11: an empty or cancelled slot has the content of a NOP. -/
theorem emptyAndReservedSlots : Obligations.EmptyAndReservedSlots := by
  refine fun s hg hr hh => ⟨fun hidle => step_ran s s _ ⟨hg, hr, hh, .inl ⟨?_, rfl, rfl⟩⟩, fun d e hex hc hd => ?_⟩
  · rcases hidle with hex | ⟨d, hex, hc⟩
    · rw [hex]; rfl
    · simp [slotContent, hex, hc]
  · have hslot : slotContent s.cfg s.ex = .bad e := by simp [slotContent, hex, hc, hd]
    simp [step_supported s hg, cycle, hr, hh, runningCycle, hslot, advanced, outcome]

theorem step_halted {s : State} (hg : s.cfg.supported = true) (hr : s.input.reset = false) (hh : s.halted = true) :
    step s = .next (haltedCycle s).advance := by
  simp [step_supported s hg, cycle, hr, hh, advanced, outcome]

/-! ### The state the controller acts on -/

/-- The state after the loop end check and the move of the slots, outside interrupt cycle 2 (R281, R284). -/
def roundState (s : State) (x : XTraits) (t : State) : State :=
  shiftSlots (fetchPage s t) (fetchAddress s t) (fetched s t)
    (if loopEnd s x t = true ∧ t.lc ≠ 0 then { t with pc := t.ls, lc := t.lc - 1 }
      else { t with pc := nextAddress s.cfg t.pc })

theorem roundState_unchanged (s : State) (x : XTraits) (t : State) :
    (roundState s x t).lr1 = t.lr1 ∧ (roundState s x t).woke = t.woke ∧ (roundState s x t).halted = t.halted := by
  unfold roundState
  split <;> exact ⟨rfl, rfl, rfl⟩

theorem fetchAddress_of_ne {s : State} (t : State) (hic : s.ic ≠ .c2) : fetchAddress s t = t.pc := if_neg hic

/-- A cycle without an interrupt cycle is that state with PREVFLAGS, input and counter moved on. -/
theorem roundNext_eq (s : State) (x : XTraits) (t : State) (hic : s.ic ≠ .c2) :
    roundNext s x t = { roundState s x t with
      prevFlags := x.flags, inputs := (roundState s x t).inputs.tail, tick := (roundState s x t).tick + 1 } := by
  rw [roundNext, roundState]
  split
  · rfl
  · rw [linearNext, fetchAddress_of_ne t hic]; rfl

/-- A cycle outside interrupt cycle 2 with a good fetch ends as the controller leaves the round's state. -/
theorem step_round {s t v : State} {x : XTraits} (hran : ran s x t) (hic : s.ic ≠ .c2) (hf : fetchReady s t)
    (hn : loopEnd s x t = true → flowNear s t = false)
    (hv : interruptEntry (cycleView x s t) s (roundState s x t) = .ok v) :
    step s = .next { v with prevFlags := x.flags, inputs := v.inputs.tail, tick := v.tick + 1 } := by
  obtain ⟨_, rfl, hfinish⟩ := finishCycle_round x s t hic (ran_same s t x hran).cfg hf hn
  rw [step_ran s t x hran, hfinish]
  exact advanced_andThen_ok _ v _ hv

/-- An idle controller without a request leaves it alone. -/
theorem step_quiet {s t : State} {x : XTraits} (hran : ran s x t) (hic : s.ic = .idle) (hreq : s.requested = false)
    (hf : fetchReady s t) (hn : loopEnd s x t = true → flowNear s t = false) :
    step s = .next (roundNext s x t) := by
  have hne : s.ic ≠ .c2 := by rw [hic]; decide
  rw [roundNext_eq s x t hne]
  refine step_round hran hne hf hn ?_
  simp [interruptEntry, hic, hreq]

theorem roundNext_of_not_loopEnd {s t : State} {x : XTraits} (h : loopEnd s x t = false) :
    roundNext s x t = linearNext s x t := by
  simp [roundNext, h]

/-- A fetch where there is no program memory. -/
theorem step_fetch_refused {s t : State} {x : XTraits} (hran : ran s x t)
    (h : fetch (fetchPage s t) (fetchAddress s t) t = .error .memAbsent) : step s = .refused .memAbsent := by
  rw [step_ran s t x hran, finishCycle, h]
  rfl

/-- Settles O12: the round without a loop end is linear; a fetch that fails ends the cycle before anything else. -/
theorem linearCycle : Obligations.LinearCycle := by
  rintro s t x cell hran rfl
  refine ⟨fun hic hreq hf hn => ?_, fun hcell => ?_⟩
  · rw [step_quiet hran hic hreq hf (by simp [hn]), roundNext_of_not_loopEnd hn]
  · have hrefused : step s = .refused .memAbsent := by
      refine step_fetch_refused hran ?_
      rw [fetch, (ran_same s t x hran).cfg]
      rcases hcell with h | ⟨_, h⟩ <;> rw [h]
    exact ⟨fun _ _ => hrefused, fun _ _ _ => hrefused⟩

/-- A loop end next to a change of flow. -/
theorem step_loopCof {s t : State} {x : XTraits} (hran : ran s x t) (hic : s.ic ≠ .c2) (hf : fetchReady s t)
    (hend : loopEnd s x t = true) (hnear : flowNear s t = true) : step s = .refused .loopCof := by
  have hcfg := (ran_same s t x hran).cfg
  have hfetch : fetch (fetchPage s t) (fetchAddress s t) t = .ok (fetched s t) :=
    (fetch_storage _ _ _ (by rw [hcfg]; exact hf)).trans (by rw [fetched, hcfg])
  simp only [loopEnd, Bool.and_eq_true, decide_eq_true_eq, Bool.not_eq_true', Bool.or_eq_true] at hend
  obtain ⟨⟨⟨hloops, hbus⟩, hpc⟩, hl⟩ := hend
  have hcheck : loopCheck x.busLoadsLoop (!x.flow && s.flag .l)
      (wordIsFlow s.cfg (fetched s t) || slotIsFlow s.cfg t.de) (fetchAddress s t) t = .error .loopCof := by
    have hflow : (!x.flow && s.flag .l) = false := by rcases hl with h | h <;> simp [h]
    rw [flowNear] at hnear
    rw [loopCheck, hcfg, hloops, hbus, fetchAddress_of_ne t hic, hpc, hnear, hflow]
    simp [require]
  rw [step_ran s t x hran, finishCycle, hfetch]
  simp only [andThen, if_neg hic, hcheck]
  rfl

/-- Settles O13: the three outcomes of the loop end check. -/
theorem loopEndCycle : Obligations.LoopEndCycle := by
  intro s t x hran hic hreq hf hend
  have hne : s.ic ≠ .c2 := by rw [hic]; decide
  refine ⟨step_loopCof hran hne hf hend, fun hnear => ⟨fun hlc => ?_, fun hlc => ?_⟩⟩ <;>
    rw [step_quiet hran hic hreq hf (fun _ => hnear), roundNext]
  · rw [if_pos ⟨hend, hlc⟩]
  · rw [if_neg (by simp [hlc])]

/-! ### Interrupt entry -/

/-- Settles O14: the idle controller acts on the round's state, whatever X did to EN. -/
theorem requestReceived : Obligations.RequestReceived := by
  intro s t x hran hic hreq hf hn
  have hne : s.ic ≠ .c2 := by rw [hic]; decide
  obtain ⟨-, hwoke, hhalted⟩ := roundState_unchanged s x t
  refine ⟨_, step_round hran hne hf hn (v := receiveRequest (cycleView x s t) s (roundState s x t)) ?_,
    fun hx => if_neg (by simp [cycleView, hx]), ?_⟩
  · simp [interruptEntry, hic, hreq]
  · rw [roundNext_eq s x t hne, ← hwoke, ← hhalted]; rfl

/-- Settles O15: cycle 1 acts on the round's state, with the LE that the comparison used. -/
theorem interruptCycle1 : Obligations.InterruptCycle1 := by
  intro s t x hran hic hf hn
  have hne : s.ic ≠ .c2 := by rw [hic]; decide
  obtain ⟨hlr1, -, -⟩ := roundState_unchanged s x t
  have hlehit : (entryCycle1 (cycleView x s t) (roundState s x t)).lehit = atLoopEnd x s t t.pc := by
    rw [← fetchAddress_of_ne t hne]; rfl
  refine ⟨_, step_round hran hne hf hn (v := entryCycle1 (cycleView x s t) (roundState s x t)) ?_, fun h => ?_,
    fun hloops hbus hpc => ?_, ?_⟩
  · simp [interruptEntry, hic]
  · refine hlehit.trans ?_
    rcases h with h | ⟨hbus, hpc⟩
    · simp [atLoopEnd, h]
    · simp [atLoopEnd, hbus, hpc]
  · exact hlehit.trans (by simp [atLoopEnd, hloops, hbus, hpc])
  · rw [roundNext_eq s x t hne, ← hlr1, ← fetchAddress_of_ne t hne]; rfl

/-- Settles O17: cycles 3 to 5 act on the round's state. -/
theorem interruptCycles345 : Obligations.InterruptCycles345 := by
  intro s t x hran hf hn
  have entered : ∀ v, s.ic ≠ .c2 → interruptEntry (cycleView x s t) s (roundState s x t) = .ok v → step s = .next
      { v with prevFlags := x.flags, inputs := v.inputs.tail, tick := v.tick + 1 } := fun v hne hv =>
    step_round hran hne hf hn hv
  refine ⟨fun hic => ?_, fun hic => ?_, fun hic => ?_⟩ <;>
    rw [roundNext_eq s x t (by rw [hic]; decide)] <;>
    exact entered _ (by rw [hic]; decide) (by simp only [interruptEntry, hic]; rfl)

/-! ### Interrupt cycle 2 -/

/-- The state of interrupt cycle 2 before the controller acts: the fetch of the vector has no loop end. -/
def linearState (s t : State) : State :=
  shiftSlots (fetchPage s t) (fetchAddress s t) (fetched s t) { t with pc := nextAddress t.cfg (fetchAddress s t) }

theorem linearNext_eq {s t : State} (x : XTraits) (hcfg : t.cfg = s.cfg) :
    linearNext s x t = { linearState s t with
      prevFlags := x.flags, inputs := (linearState s t).inputs.tail, tick := (linearState s t).tick + 1 } := by
  rw [linearNext, linearState, hcfg]; rfl

/-- The vector is LE in force (R338). -/
def vectorAtLe (s : State) : Prop := s.cfg.hasLoops = true ∧ s.flag .l = false ∧ s.vector = s.le

theorem finishCycle_vector {s t : State} {x : XTraits} (hran : ran s x t) (hic : s.ic = .c2) (hf : fetchReady s t) :
    (vectorAtLe s → finishCycle x s t = .error .vectorLe) ∧
      (¬ vectorAtLe s → finishCycle x s t = andThen (entryCycle2 (cycleView x s t) s (linearState s t))
        fun v => .ok { v with prevFlags := x.flags }) := by
  have hcfg := (ran_same s t x hran).cfg
  have hfetch : fetch (fetchPage s t) (fetchAddress s t) t = .ok (fetched s t) :=
    (fetch_storage _ _ _ (by rw [hcfg]; exact hf)).trans (by rw [fetched, hcfg])
  have hfa : fetchAddress s t = s.vector := if_pos hic
  have hbad : (s.cfg.hasLoops && !s.flag .l && decide (fetchAddress s t = s.le)) = true ↔ vectorAtLe s := by
    simp [vectorAtLe, hfa, and_assoc]
  rw [finishCycle, hfetch]
  simp only [andThen, if_pos hic, vectorCheck]
  refine ⟨fun h => ?_, fun h => ?_⟩
  · rw [hbad.mpr h]; rfl
  · rw [Bool.eq_false_iff.mpr (mt hbad.mp h)]
    simp only [require, Bool.not_false, if_true, interruptEntry, hic]
    rfl

/-- What interrupt cycle 2 leaves of the state before the controller acts: L set, IPR1 taken. -/
def vectored (s r : State) : State :=
  { r.putFlag .l true with ic := .c3, woke := false, ipr1 := if s.cfg.hasIpr then s.ipr0 else r.ipr1 }

theorem keepsThird_iff (x : XTraits) (s t : State) :
    keepsThird (cycleView x s t) s = true ↔
      x.flow = true ∨ s.lehit = true ∨ (s.woke = true ∧ s.cfg.haltThird = .executed) := by
  simp [keepsThird, cycleView, or_assoc]

/-- L is set over any other write, and no other flag changes (R338). -/
theorem flag_vectored {s t u : State} (hcfg : t.cfg = s.cfg) (hm : u.mr0 = (vectored s (linearState s t)).mr0)
    (hc : u.cfg = t.cfg) (b : MrBit) : u.flag b = if b = .l then Config.hasBit s.cfg .l else t.flag b := by
  rw [flag_congr (t.putFlag .l true) u b hm hc, flag_putFlag, hcfg, Bool.and_true]

/-- Settles O16: the vector check, then the kept or cancelled instruction of cycle 1. -/
theorem interruptCycle2 : Obligations.InterruptCycle2 := by
  intro s t x hran hic hf
  have hcfg := (ran_same s t x hran).cfg
  obtain ⟨hvector, hentry⟩ := finishCycle_vector hran hic hf
  have hstep := step_ran s t x hran
  refine ⟨fun h => by rw [hstep, hvector h]; rfl, fun h => ⟨fun hkeep => ⟨fun hflow => ?kept, fun hflow => ?refused⟩,
    fun hkeep => ?cancelled⟩⟩ <;> rw [hentry h] at hstep
  case kept =>
    have hcycle : entryCycle2 (cycleView x s t) s (linearState s t) =
        .ok { vectored s (linearState s t) with lr1 := if x.loadsLr1 then t.lr1 else t.pc } := by
      rw [entryCycle2, if_pos ((keepsThird_iff x s t).mpr hkeep)]
      simp only [cycleView, hflow]
      rfl
    refine ⟨_, hstep.trans (advanced_andThen_ok _ _ _ hcycle), flag_vectored hcfg rfl rfl, ?_⟩
    rw [linearNext_eq x hcfg]
    rfl
  case refused =>
    have hcycle : entryCycle2 (cycleView x s t) s (linearState s t) =
        .error (if x.flow = true ∨ s.lehit = true then .loopCof else .haltCof) := by
      rw [entryCycle2, if_pos ((keepsThird_iff x s t).mpr hkeep)]
      simp only [cycleView, hflow, require, Bool.not_true, Bool.false_eq_true, if_false, Bool.or_eq_true]
    rw [hstep, hcycle]
    rfl
  case cancelled =>
    have hcycle : entryCycle2 (cycleView x s t) s (linearState s t) = .ok (vectored s (linearState s t)).cancelEx := by
      rw [entryCycle2, if_neg (mt (keepsThird_iff x s t).mp hkeep)]
      rfl
    refine ⟨_, hstep.trans (advanced_andThen_ok _ _ _ hcycle), flag_vectored hcfg rfl rfl, ?_⟩
    rw [linearNext_eq x hcfg]
    rfl

end Sys2Proof.Machine

namespace Sys2Proof

/-- Settles O18: a halted cycle looks at the request alone. -/
theorem haltedCycle : Obligations.HaltedCycle := by
  intro s hg hr hh
  refine ⟨fun hreq => ?_, fun hreq => ?_⟩ <;> rw [Machine.step_halted hg hr hh, Machine.haltedCycle_eq]
  · rw [if_neg (by simp [hreq])]; rfl
  · rw [if_pos hreq]; rfl

end Sys2Proof
end

section
/-! Reset, configurations and vectors (O5 to O7, O58, O59). -/

namespace Sys2Proof.Machine

/-! ### Reset (R60, R380) -/

theorem ARegs.get_zero (r : AReg) : ARegs.zero.get r = 0 := by cases r <;> rfl

theorem ARegs.guard_zero (x : Acc) : ARegs.zero.guard x = 0 := by cases x <;> rfl

theorem IRegs.get_zero (r : IReg) : IRegs.zero.get r = 0 := by cases r <;> rfl

/-- Settles O5: each register by evaluation; nothing is listed in the memories. -/
theorem resetState : Obligations.ResetState :=
  ⟨ARegs.get_zero, ARegs.guard_zero, IRegs.get_zero, rfl, rfl, rfl, rfl, rfl, rfl, rfl, rfl, rfl, rfl, by decide, rfl,
    rfl, rfl, rfl, rfl, rfl, rfl, fun sp _ => by cases sp <;> rfl, fun _ => rfl⟩

/-- Settles O6: the reset input goes before everything else. -/
theorem resetInputResets : Obligations.ResetInputResets := by
  intro s hg hr
  have hstep : step s = .next (systemReset s).advance := by
    simp [step_supported s hg, cycle, hr, advanced, outcome]
  exact ⟨_, hstep, ARegs.get_zero, ARegs.guard_zero, IRegs.get_zero, rfl⟩

/-! ### The first cycles after reset (R43, R381) -/

/-- A machine that fetches on page 0 while no instruction executes: as reset leaves it until the first word is in EX. -/
structure Filling (c : Sys2Proof.Config) (s : State) : Prop where
  cfg : s.cfg = c
  inputs : ∀ p ∈ s.inputs, p.reset = false
  halted : s.halted = false
  ex : s.ex = none
  ipr0 : s.ipr0 = 0
  le : s.le = BitVec.ofNat 20 (2 ^ c.pa - 1)

theorem Filling.ran {c : Sys2Proof.Config} {s : State} (h : Filling c s) (hg : c.supported = true) :
    ran s XTraits.idle s := by
  refine ⟨h.cfg ▸ hg, ?_, h.halted, .inl ⟨by rw [h.ex]; rfl, rfl, rfl⟩⟩
  rw [State.input]
  cases hi : s.inputs with
  | nil => rfl
  | cons p rest => exact h.inputs p (by rw [hi]; exact List.mem_cons_self)

theorem programAddress_zero (c : Sys2Proof.Config) (addr : PAddr) : programAddress c 0 addr = addr.toNat := by
  simp [programAddress]

/-- An address below LE at reset has a next address, and is no loop end. -/
theorem nextAddress_below {c : Sys2Proof.Config} {a : PAddr} (h : a.toNat + 1 < 2 ^ c.pa) :
    (nextAddress c a).toNat = a.toNat + 1 ∧ nextAddress c a = a + 1 := by
  have hpa : 2 ^ c.pa ≤ 2 ^ 20 := Nat.pow_le_pow_right (by decide) c.paRange.2.1
  have hadd : (a + 1).toNat = a.toNat + 1 := by
    rw [BitVec.toNat_add, Nat.mod_eq_of_lt (by simp; omega)]; rfl
  have heq : nextAddress c a = a + 1 := (fits_iff_toNat_lt c.pa (a + 1)).mpr (by omega)
  exact ⟨by rw [heq, hadd], heq⟩

/-- The filling machine one cycle on: the word at PC is in DE. -/
def filled (s : State) (ic : IntCycle) (mr1 : PAddr) : State :=
  { s with
    pc := nextAddress s.cfg s.pc, ex := s.de, de := some ⟨0, s.pc, s.imem.iword s.pc.toNat, false⟩, prevFlags := 0,
    inputs := s.inputs.tail, tick := s.tick + 1, ic := ic, mr1 := mr1 }

/-- Interrupt cycles 3 and 4 of a filling machine. -/
theorem Filling.step {c : Sys2Proof.Config} {s : State} (h : Filling c s) (hg : c.supported = true) (hic : s.ic ≠ .c2)
    (hpc : s.pc.toNat < 2 ^ c.pa - 1) (hcell : Region.cellAt c.imap s.pc.toNat = .storage) :
    (s.ic = .c3 → step s = .next (filled s .c4 s.mr1)) ∧
      (s.ic = .c4 → step s = .next (filled s .c5 s.mr0Value)) := by
  have hpage : fetchPage s s = 0 := by rw [fetchPage, h.ipr0, ite_self]
  have haddr := fetchAddress_of_ne s hic
  have hprogram : programAddress s.cfg (fetchPage s s) (fetchAddress s s) = s.pc.toNat := by
    rw [hpage, haddr, programAddress_zero]
  have hpa : 2 ^ c.pa ≤ 2 ^ 20 := Nat.pow_le_pow_right (by decide) c.paRange.2.1
  have hle : s.pc ≠ s.le := fun e => by
    have := congrArg BitVec.toNat e
    rw [h.le, BitVec.toNat_ofNat, Nat.mod_eq_of_lt (by omega)] at this
    omega
  have hend : loopEnd s XTraits.idle s = false := by simp [loopEnd, hle]
  have hround : ∀ ic mr1, { roundNext s XTraits.idle s with ic := ic, mr1 := mr1 } = filled s ic mr1 := by
    intro ic mr1
    rw [roundNext_of_not_loopEnd hend, linearNext, fetched, hprogram, hpage, haddr]
    rfl
  have hmr1 : (roundNext s XTraits.idle s).mr1 = s.mr1 := by rw [roundNext_of_not_loopEnd hend]; rfl
  obtain ⟨h3, h4, -⟩ := interruptCycles345 s s XTraits.idle (h.ran hg)
    (by rw [fetchReady, hprogram, h.cfg]; exact hcell) (by simp [hend])
  refine ⟨fun hs => ?_, fun hs => ?_⟩
  · rw [h3 hs, ← hround, ← hmr1]
  · rw [h4 hs, ← hround]

/-- Settles O7: two filling cycles, of interrupt cycles 3 and 4. -/
theorem resetSequence : Obligations.ResetSequence := by
  intro c x y i inputs tick hg hinputs hlow hcell hcell'
  obtain ⟨hnext, hsucc⟩ := nextAddress_below (c := c) (a := c.resetVector) (by omega)
  obtain ⟨-, hsucc'⟩ := nextAddress_below (c := c) (a := nextAddress c c.resetVector) (by omega)
  generalize hs : State.resetOf c x y i inputs tick = s
  have hpc : s.pc = c.resetVector := by
    rw [← hs]; exact (fits_iff_toNat_lt c.pa c.resetVector).mpr (by omega)
  have hic : s.ic = .c3 := by rw [← hs]; rfl
  have hfill : Filling c s := by rw [← hs]; exact ⟨rfl, hinputs, rfl, rfl, rfl, rfl⟩
  have hfill' : Filling c (filled s .c4 s.mr1) :=
    ⟨hfill.cfg, fun p hp => hfill.inputs p (List.mem_of_mem_tail hp), hfill.halted, by rw [← hs]; rfl, hfill.ipr0,
      hfill.le⟩
  have hpc' : (filled s .c4 s.mr1).pc = nextAddress c c.resetVector := by
    rw [← hpc, ← hfill.cfg]; rfl
  have hstep := (hfill.step hg (by rw [hic]; decide) (by rw [hpc]; omega) (by rw [hpc]; exact hcell)).1 hic
  have hstep' := (hfill'.step hg (by show IntCycle.c4 ≠ .c2; decide) (by rw [hpc']; omega)
    (by rw [hpc', hnext]; exact hcell')).2 rfl
  refine ⟨_, _, hstep, hstep', hfill'.ex, ?_, rfl, hpc'.trans hsucc, rfl, ?_, rfl, ?_, ?_⟩
  · rw [← hpc, ← show s.imem = i by rw [← hs]; rfl]; rfl
  · rw [← hsucc, ← hnext, ← hpc', ← show s.imem = i by rw [← hs]; rfl]; rfl
  · show nextAddress (filled s .c4 s.mr1).cfg (filled s .c4 s.mr1).pc = _
    rw [hfill'.cfg, hpc', hsucc', hsucc, BitVec.add_assoc]; rfl
  · show s.mr0Value = 0
    rw [← hs]; exact BitVec.zero_and

/-! ### Configurations (R4, R125, R200) -/

/-- The computation is not refused for its configuration. -/
def NoBadConfig {α : Type} (r : Except Refusal α) : Prop := r ≠ .error .badConfig

theorem noBadConfig_ok {α : Type} (a : α) : NoBadConfig (.ok a) := nofun

theorem noBadConfig_error {α : Type} {e : Refusal} (h : e ≠ .badConfig) : NoBadConfig (.error e : Except Refusal α) :=
  fun heq => h (Except.error.inj heq)

theorem noBadConfig_require {α : Type} {b : Bool} {e : Refusal} {k : Except Refusal α} (he : e ≠ .badConfig)
    (hk : NoBadConfig k) : NoBadConfig (require b e k) := by
  cases b
  · exact noBadConfig_error he
  · exact hk

theorem noBadConfig_andThen {α β : Type} {r : Except Refusal α} {k : α → Except Refusal β} (hr : NoBadConfig r)
    (hk : ∀ a, NoBadConfig (k a)) : NoBadConfig (andThen r k) := by
  cases r with
  | ok a => exact hk a
  | error e => exact noBadConfig_error fun he => hr (he ▸ rfl)

theorem noBadConfig_readReg (bus : Space) (f : FReg) (s : State) : NoBadConfig (readReg bus f s) :=
  noBadConfig_require (by decide) (noBadConfig_require (by decide) (noBadConfig_ok _))

theorem noBadConfig_checkWrite (f : FReg) (s : State) : NoBadConfig (checkWrite f s) :=
  noBadConfig_require (by decide) (noBadConfig_ok _)

theorem noBadConfig_postOf (s : State) (ix : IReg) (p : Post) : NoBadConfig (postOf s ix p) := by
  have modulo : ∀ step, NoBadConfig (moduloPost (s.index ix) (s.index ix.pair) step) := fun step =>
    noBadConfig_require (by decide) (noBadConfig_ok _)
  cases p with
  | step k => exact noBadConfig_ok _
  | byPair =>
    rw [postOf_byPair, pairPost]
    split
    case h_1 | h_8 => exact noBadConfig_ok _
    case h_2 => exact noBadConfig_error (by decide)
    case h_7 => exact noBadConfig_require (by decide) (noBadConfig_ok _)
    all_goals exact noBadConfig_require (by decide) (modulo _)

theorem noBadConfig_cells (bus : Space) (a : DAddr) (s : State) :
    NoBadConfig (loadData bus a s) ∧ NoBadConfig (discardData bus a s) ∧ NoBadConfig (checkStore bus a s) ∧
      NoBadConfig (nopAccess bus a s) := by
  refine ⟨?_, ?_, ?_, noBadConfig_require (by decide) (noBadConfig_ok _)⟩
  · unfold loadData; split <;> simp [NoBadConfig]
  · unfold discardData; split <;> simp [NoBadConfig, require_error]
  · unfold checkStore; split <;> simp [NoBadConfig]

theorem noBadConfig_moveFx (bus : Space) (b : BusMove) (s : State) : NoBadConfig (moveFx bus b s) := by
  cases b with
  | idle => exact noBadConfig_ok _
  | reg src dst =>
    exact noBadConfig_andThen (noBadConfig_readReg _ _ _) fun _ =>
      noBadConfig_andThen (noBadConfig_checkWrite _ _) fun _ => noBadConfig_ok _
  | mem m =>
    obtain ⟨hload, hdiscard, hstore, hnop⟩ := noBadConfig_cells bus (s.idx.get m.ix) s
    rw [moveFx]
    cases m.dir with
    | load =>
      simp only [loadFx]
      split_ifs
      · exact noBadConfig_andThen hnop fun _ => noBadConfig_ok _
      · exact noBadConfig_andThen (noBadConfig_postOf _ _ _) fun p =>
          noBadConfig_andThen hdiscard fun _ => noBadConfig_ok _
      · exact noBadConfig_andThen (noBadConfig_postOf _ _ _) fun p =>
          noBadConfig_andThen (noBadConfig_checkWrite _ _) fun _ =>
            noBadConfig_andThen hload fun _ => noBadConfig_ok _
    | store =>
      exact noBadConfig_andThen (noBadConfig_readReg _ _ _) fun _ =>
        noBadConfig_andThen (noBadConfig_postOf _ _ _) fun _ => noBadConfig_andThen hstore fun _ => noBadConfig_ok _

theorem noBadConfig_runWord (i : Instr) (s : State) (a : AluFx s.cfg) : NoBadConfig (runWord i s a) :=
  noBadConfig_require (by decide) (noBadConfig_andThen (noBadConfig_moveFx _ _ _) fun _ =>
    noBadConfig_andThen (noBadConfig_moveFx _ _ _) fun _ => noBadConfig_require (by decide) (noBadConfig_ok _))

theorem noBadConfig_runBetweenUnits (units : Bool) (i : Instr) (s : State) :
    NoBadConfig (runBetweenUnits units i s) := by
  cases units
  · exact noBadConfig_require (by decide) (noBadConfig_error (by decide))
  · exact noBadConfig_runWord i s AluFx.none

theorem noBadConfig_changeFlow (i : Instr) (c : Cond) (s t : State) : NoBadConfig (changeFlow i c s t) :=
  noBadConfig_require (by decide) (noBadConfig_require (by decide) (noBadConfig_require (by decide) (noBadConfig_ok _)))

/-- No instruction is refused for the configuration. -/
theorem exec_ne_badConfig (i : Instr) (s : State) : exec i s ≠ .refused .badConfig := by
  have refused : ∀ r, exec i s = outcome r → NoBadConfig r → exec i s ≠ .refused .badConfig := fun r he hr h =>
    hr ((outcome_refused r _).mp (he ▸ h))
  by_cases hword : Instr.isWord i = true
  · obtain ⟨a, he, -⟩ := exec_word i s hword
    exact refused _ he (noBadConfig_runWord i s a)
  · cases i with
    | ldc imm reg =>
      exact refused _ rfl (noBadConfig_require (by decide)
        (noBadConfig_andThen (noBadConfig_checkWrite _ _) fun _ => noBadConfig_ok _))
    | mvxDbl _ _ _ _ | mvyDbl _ _ => exact refused _ rfl (noBadConfig_runBetweenUnits _ _ _)
    | jcc _ _ | j _ | callcc _ _ | jrcc _ | jr | jrccPage _ _ | reti | retiPage _ =>
      exact refused _ rfl (noBadConfig_changeFlow _ _ _ _)
    | jmpi _ _ _ =>
      exact refused _ rfl (noBadConfig_require (by decide) (noBadConfig_require (by decide) (noBadConfig_ok _)))
    | loop _ _ =>
      exact refused _ rfl (noBadConfig_require (by decide)
        (noBadConfig_andThen (noBadConfig_readReg _ _ _) fun _ => noBadConfig_changeFlow _ _ _ _))
    | halt => rw [haltStops s]; nofun
    | _ => exact absurd rfl hword

theorem noBadConfig_finishCycle (x : XTraits) (s t : State) : NoBadConfig (finishCycle x s t) := by
  refine noBadConfig_andThen ?fetch fun w => noBadConfig_andThen ?check fun u =>
    noBadConfig_andThen ?entry fun v => noBadConfig_ok _
  case fetch => unfold fetch; split <;> simp [NoBadConfig]
  case check =>
    split_ifs
    · exact noBadConfig_require (by decide) (noBadConfig_ok _)
    · rw [loopCheck]
      split_ifs <;> first | exact noBadConfig_ok _ | exact noBadConfig_require (by decide) (noBadConfig_ok _)
  case entry =>
    rw [interruptEntry]
    split
    case h_3 =>
      rw [entryCycle2]
      split_ifs <;> first | exact noBadConfig_ok _ | exact noBadConfig_require (by decide) (noBadConfig_ok _)
    all_goals exact noBadConfig_ok _

/-- No running cycle is refused for the configuration. -/
theorem noBadConfig_runningCycle (s : State) : NoBadConfig (runningCycle s) := by
  unfold runningCycle
  split
  next => exact noBadConfig_finishCycle _ _ _
  next i _ =>
    cases he : exec i s with
    | next t => exact noBadConfig_finishCycle _ _ _
    | fault f => cases f
    | refused r => exact noBadConfig_error fun hr => exec_ne_badConfig i s (he.trans (hr ▸ rfl))
  next => exact noBadConfig_error (by simp)

/-- Settles O58: step asks for the configuration first, and nothing behind it refuses for it. -/
theorem unsupportedConfigRefused : Obligations.UnsupportedConfigRefused := by
  intro s
  refine ⟨by simp [Config.supported, and_assoc], fun hg => by simp [step, hg, require, outcome], fun hg hstep => ?_⟩
  rw [step_supported s hg, outcome_refused, cycle] at hstep
  have hcycle : NoBadConfig (if s.input.reset then .ok (systemReset s)
     else if s.halted then .ok (haltedCycle s) else runningCycle s) := by
    split_ifs <;> first | exact noBadConfig_ok _ | exact noBadConfig_runningCycle s
  revert hstep hcycle
  generalize (if s.input.reset then _ else _ : Except Refusal State) = r
  intro hstep hcycle
  cases r with
  | ok t => cases hstep
  | error e => exact hcycle hstep

/-! ### Vectors (R331, R333) -/

/-- Settles O59: the vector is the table's entry that the input names, of as many as there are. -/
theorem vectorFromTable : Obligations.VectorFromTable := by
  intro s
  have hoff := ((Config.vectors s.cfg).getD (s.input.source % (Config.vectors s.cfg).length) 0).isLt
  refine ⟨by rw [vector_toNat]; omega, fun b hb hex => ?_, fun hnone => ?_⟩
  · have htable : Config.vectors s.cfg = (b.sources.filter fun x => x.enabled).map fun x => x.vector := by
      simp [Config.vectors, hb]
    have hmem : ∀ v, v ∈ Config.vectors s.cfg ↔ ∃ x ∈ b.sources, x.enabled = true ∧ x.vector = v := by
      intro v; simp [htable, and_assoc]
    obtain ⟨x₀, hx₀, he₀⟩ := hex
    have hpos : 0 < (Config.vectors s.cfg).length := List.length_pos_of_mem ((hmem _).mpr ⟨x₀, hx₀, he₀, rfl⟩)
    refine ⟨?_, fun x hx he => ?_⟩
    · have hin := List.getElem_mem (Nat.mod_lt s.input.source hpos)
      obtain ⟨x, hx, he, hv⟩ := (hmem _).mp hin
      exact ⟨x, hx, he, by rw [vector_toNat, List.getD_eq_getElem _ _ (Nat.mod_lt _ hpos), hv]⟩
    · obtain ⟨k, hk, hkx⟩ := List.getElem_of_mem ((hmem x.vector).mpr ⟨x, hx, he, rfl⟩)
      refine ⟨k, fun t hcfg hsource => ?_⟩
      rw [vector_toNat, hcfg, hsource, Nat.mod_eq_of_lt hk, List.getD_eq_getElem _ _ hk, hkx]
  · have hempty : Config.vectors s.cfg = [] := by
      rcases hnone with h | ⟨b, hb, hoff⟩
      · simp [Config.vectors, h]
      · simp only [Config.vectors, hb, List.map_eq_nil_iff, List.filter_eq_nil_iff]
        exact fun x hx => by simp [hoff x hx]
    simp [State.requested, hempty]

end Sys2Proof.Machine
end
